-- ==== Sys2Proof/Word.lean ====
section
/-! DEFINITION. The word types of the Zundapor ZP-1 (spec 00 R9: bit 0 is the least significant
bit, the device is little-endian) and their plainest arithmetic. -/

namespace Sys2Proof

/-- A byte. -/
abbrev Byte := BitVec 8

/-- A 32-bit register word. -/
abbrev Word := BitVec 32

/-- A 64-bit value: a register pair or an address. -/
abbrev DWord := BitVec 64

/-- One bit per lane of a warp, bit i = lane i (01 R33). -/
abbrev LaneMask := BitVec 32

/-- Field [hi:lo] of a bit vector as a number (00 R9). -/
def bits {n : Nat} (x : BitVec n) (hi lo : Nat) : Nat := (x.extractLsb' lo (hi + 1 - lo)).toNat

/-- The little-endian bytes of a number, lowest address first (00 R9). -/
def bytesLE : Nat → Nat → List Byte
  | 0, _ => []
  | k + 1, n => BitVec.ofNat 8 n :: bytesLE k (n / 256)

/-- The number held by little-endian bytes (00 R9). -/
def natLE : List Byte → Nat
  | [] => 0
  | b :: bs => b.toNat + 256 * natLE bs

/-- The lanes named by a mask, in ascending lane number (00 R15). -/
def lanesOf (m : LaneMask) : List Nat := (List.range 32).filter fun i => m.getLsbD i

/-- The mask of a list of lanes. -/
def maskOf (ls : List Nat) : LaneMask := ls.foldl (fun m i => m ||| (1#32 <<< i)) 0#32

/-- Number of set bits among the low `n` bits. -/
def popCount {w : Nat} (x : BitVec w) : Nat := ((List.range w).filter fun i => x.getLsbD i).length

/-- The low and high words of a 64-bit value (01 R40). -/
def loWord (x : DWord) : Word := x.extractLsb' 0 32
def hiWord (x : DWord) : Word := x.extractLsb' 32 32

/-- A pair of words as one 64-bit value, the lower-numbered register holding bits [31:0] (01 R40). -/
def pairOf (lo hi : Word) : DWord := hi ++ lo

end Sys2Proof
end

