-- ==== Sys2Proof/Syntax.lean ====
section
/-! DEFINITION. The syntax of the ZP-1: operands (01 R36, 12 R311), types (12 R312), and one
constructor of `Instr` per row of spec/opcode_table.json: 178 Nozin instructions and the 106 events
and management commands of the table ("each whole and indivisible", spec 95). An event's arguments
name the object it reaches and carry what comes from outside the device. -/

namespace Sys2Proof

/-! ## Operands -/

/-- The seven port names in operand-code order 96 to 102 (01 R36). -/
inductive Port | qn | qs | qe | qw | ql | qr | qd
  deriving DecidableEq, Repr

/-- The eight read-only specials of the operand field, codes 104 to 111 (01 R36, R42). -/
inductive Special | lane | warp | team | gang | core | die | grid | clk
  deriving DecidableEq, Repr

/-- An operand of kind O (01 R36): code 103 is no operand. -/
inductive Operand
  | v (r : Fin 64)
  | s (r : Fin 32)
  | port (p : Port)
  | spec (x : Special)
  | imm (k : Fin 16)
  deriving DecidableEq, Repr

/-- An operand of kind X (12 R311): an even vector register 2r or an even uniform register 2r. -/
inductive Pair
  | v (r : Fin 32)
  | s (r : Fin 16)
  deriving DecidableEq, Repr

/-- The guard (12 R307, R308): predicate and negate bit. -/
structure Guard where
  p : Fin 8
  neg : Bool
  deriving DecidableEq, Repr

/-- Guard and uniform bit of a class 0 instruction (12 R307, R309). -/
structure Hd where
  u : Bool
  g : Guard
  deriving DecidableEq, Repr

/-! ## Types and modifiers -/

/-- The element types of 12 R312, in code order (0x0E and 0x17 to 0x1F are reserved). -/
inductive Ty
  | i32 | n32 | i16 | n16 | i8 | n8 | i64 | n64
  | f32 | bf16 | f16 | e4m3 | e5m2 | e2m1 | mxi8
  | z8 | z4 | l16 | l8 | t2 | b1 | e8m0
  deriving DecidableEq, Repr

/-- Rounding modes, codes 0 to 3 (02 R59). -/
inductive RMode | rne | rtz | rdn | rup
  deriving DecidableEq, Repr

/-- Integer comparison conditions, FN 0 to 5 (13 R350). -/
inductive Cond | eq | ne | lt | le | gt | ge
  deriving DecidableEq, Repr

/-- Float comparison conditions, FN 0 to 7 (14 R371). -/
inductive FCond | eq | ne | lt | le | gt | ge | un | ord
  deriving DecidableEq, Repr

/-- The operations of `lred` and `lscan`, codes 0 to 5 (14 R385). -/
inductive RedOp | add | min | max | and | or | xor
  deriving DecidableEq, Repr

/-- Memory orders, codes 0 to 5 (12 R317). -/
inductive MOrd | plain | rlx | acq | rel | ar | sc
  deriving DecidableEq, Repr

/-- Scopes, codes 0 to 6 (11 R277). -/
inductive Scope | wp | tm | gg | cl | di | pk | sy
  deriving DecidableEq, Repr

/-! ## Operand bundles of the instruction formats (12 R315, R316) -/

structure Sh3 where (h : Hd) (d a b : Operand) deriving DecidableEq, Repr
structure Sh2 where (h : Hd) (d a : Operand) deriving DecidableEq, Repr
structure Gd where (g : Guard) deriving DecidableEq, Repr
structure RetF where (g : Guard) (a : Operand) deriving DecidableEq, Repr
structure MoviF where (h : Hd) (d : Operand) (imm : Word) deriving DecidableEq, Repr
structure BrF where (g : Guard) (disp : Word) deriving DecidableEq, Repr
structure CallF where (g : Guard) (d : Operand) (disp : Word) deriving DecidableEq, Repr
structure TrapF where (g : Guard) (imm : Word) deriving DecidableEq, Repr
structure ImmF where (h : Hd) (d a : Operand) (imm : Word) deriving DecidableEq, Repr
structure Bin where (h : Hd) (ty : Ty) (d a b : Operand) deriving DecidableEq, Repr
structure Un where (h : Hd) (ty : Ty) (d a : Operand) deriving DecidableEq, Repr
structure Tern where (h : Hd) (ty : Ty) (d a b c : Operand) deriving DecidableEq, Repr
structure AddcF where (h : Hd) (ty : Ty) (d a b : Operand) (co ci : Fin 8) deriving DecidableEq, Repr
structure BfxF where (h : Hd) (ty : Ty) (d a : Operand) (wid1 pos : Fin 64) deriving DecidableEq, Repr
structure BfiF where (h : Hd) (ty : Ty) (d a b : Operand) (wid1 pos : Fin 64) deriving DecidableEq, Repr
structure SelF where (h : Hd) (ty : Ty) (d a b : Operand) (neg : Bool) (p : Fin 8) deriving DecidableEq, Repr
structure LeaF where (h : Hd) (ty : Ty) (d : Operand) (x : Pair) (b : Operand) (sh : Fin 8) deriving DecidableEq, Repr
structure CmpF where (h : Hd) (cond : Cond) (ty : Ty) (pd : Fin 8) (a b : Operand) deriving DecidableEq, Repr
structure P3 where (h : Hd) (pd pa pb : Fin 8) deriving DecidableEq, Repr
structure P2 where (h : Hd) (pd pa : Fin 8) deriving DecidableEq, Repr
structure PToF where (h : Hd) (pd : Fin 8) (a : Operand) deriving DecidableEq, Repr
structure PFromF where (h : Hd) (d : Operand) (pa : Fin 8) deriving DecidableEq, Repr
structure VoteP where (g : Guard) (pd ps : Fin 8) deriving DecidableEq, Repr
structure VoteM where (g : Guard) (d : Operand) (ps : Fin 8) deriving DecidableEq, Repr
structure VoteS where (g : Guard) (pd : Fin 8) (a : Operand) deriving DecidableEq, Repr
structure GDst where (g : Guard) (d : Operand) deriving DecidableEq, Repr
structure FBin where (h : Hd) (ty : Ty) (rm : RMode) (d a b : Operand) deriving DecidableEq, Repr
structure FTern where (h : Hd) (ty : Ty) (rm : RMode) (d a b c : Operand) deriving DecidableEq, Repr
structure FUn where (h : Hd) (ty : Ty) (rm : RMode) (d a : Operand) deriving DecidableEq, Repr
structure FCmpF where (h : Hd) (cond : FCond) (ty : Ty) (pd : Fin 8) (a b : Operand) deriving DecidableEq, Repr
structure LBin where (h : Hd) (ty : Ty) (nan : Bool) (d a b : Operand) deriving DecidableEq, Repr
structure TdotF where (h : Hd) (d a b c : Operand) deriving DecidableEq, Repr
structure SmulF where (h : Hd) (n : Fin 32) (d a b : Operand) deriving DecidableEq, Repr
structure SgenF where (h : Hd) (n : Fin 32) (d a : Operand) deriving DecidableEq, Repr
/-- `cvt`: the zero-point operand b is present exactly when a Z type takes part (14 R379). -/
structure CvtF where (h : Hd) (dty sty : Ty) (el nan : Bool) (rm : RMode) (d a : Operand) (b : Option Operand)
  deriving DecidableEq, Repr
/-- `mxq`, `mxdq`, `zq`, `zdq`, `tpk`, `tunp` (14 R377). -/
structure ConvF where (h : Hd) (dty sty : Ty) (nan : Bool) (rm : RMode) (d a : Operand) deriving DecidableEq, Repr
structure ShflF where (g : Guard) (ty : Ty) (d a b : Operand) deriving DecidableEq, Repr
structure LredF where (g : Guard) (ty : Ty) (op : RedOp) (d a : Operand) deriving DecidableEq, Repr
structure LscanF where (g : Guard) (ty : Ty) (op : RedOp) (excl : Bool) (d a : Operand) deriving DecidableEq, Repr
structure LdF where (g : Guard) (ord : MOrd) (sc : Scope) (ty : Ty) (d : Operand) (x : Pair) (off : BitVec 12)
  deriving DecidableEq, Repr
structure StF where (g : Guard) (ord : MOrd) (sc : Scope) (ty : Ty) (x : Pair) (b : Operand) (off : BitVec 12)
  deriving DecidableEq, Repr
structure AtomF where (g : Guard) (ord : MOrd) (sc : Scope) (ty : Ty) (d : Operand) (x : Pair) (b : Operand) (off : BitVec 12)
  deriving DecidableEq, Repr
structure CasF where (g : Guard) (ord : MOrd) (sc : Scope) (ty : Ty) (d : Operand) (x : Pair) (b c : Operand) (off : BitVec 12)
  deriving DecidableEq, Repr
structure RstF where (g : Guard) (ord : MOrd) (sc : Scope) (ty : Ty) (o b t : Operand) deriving DecidableEq, Repr
structure RldF where (g : Guard) (ord : MOrd) (sc : Scope) (ty : Ty) (d o t : Operand) deriving DecidableEq, Repr
structure FenceF where (g : Guard) (ord : MOrd) (sc : Scope) deriving DecidableEq, Repr
structure MaintF where (g : Guard) (sc : Scope) (x : Pair) (n : Operand) deriving DecidableEq, Repr
structure SigF where (g : Guard) (ord : MOrd) (sc : Scope) (x : Pair) (v : Operand) (off : BitVec 12) deriving DecidableEq, Repr
structure PortDF where (g : Guard) (d : Operand) (q : Port) deriving DecidableEq, Repr
structure PortF where (g : Guard) (q : Port) deriving DecidableEq, Repr
structure MmaF where (g : Guard) (aty bty : Ty) (code : Fin 16) (acc : Fin 8) (ta tb : Fin 16) (sw : Operand)
  deriving DecidableEq, Repr
structure MmasF where (g : Guard) (aty bty : Ty) (code : Fin 16) (acc : Fin 8) (ta tb : Fin 16) deriving DecidableEq, Repr
structure MmspF where (g : Guard) (aty bty : Ty) (code : Fin 16) (sel : Fin 8) (acc : Fin 8) (ta tb : Fin 16) (m : Operand)
  deriving DecidableEq, Repr
/-- `mloop`, `mloop.s`: future s(24+f), parameter group at s(8*grp) (16 R416). -/
structure MloopF where (g : Guard) (aty bty : Ty) (code : Fin 16) (f : Fin 8) (grp : Fin 4) (acc : Fin 8)
  deriving DecidableEq, Repr
structure MloopSpF where (g : Guard) (aty bty : Ty) (code : Fin 16) (f : Fin 8) (grp : Fin 4) (acc : Fin 8) (mp : Pair)
  deriving DecidableEq, Repr
structure TldF where (g : Guard) (ty : Ty) (t : Fin 16) (x : Pair) (off : BitVec 12) deriving DecidableEq, Repr
structure TtrF where (g : Guard) (ty : Ty) (d a : Fin 16) deriving DecidableEq, Repr
structure AmovF where (g : Guard) (ty : Ty) (d a : Fin 8) deriving DecidableEq, Repr
structure AsetF where (g : Guard) (ty : Ty) (d : Fin 8) (v : Operand) deriving DecidableEq, Repr
structure AzeroF where (g : Guard) (ty : Ty) (d : Fin 8) deriving DecidableEq, Repr
structure ArdF where (g : Guard) (ty : Ty) (rm : RMode) (t : Fin 16) (a : Fin 8) deriving DecidableEq, Repr
structure ScbF where (g : Guard) (isB : Bool) (x : Pair) (v : Operand) deriving DecidableEq, Repr
structure EngF where (g : Guard) (f : Fin 8) (grp : Fin 4) (bar : Fin 64) (sc : Scope) deriving DecidableEq, Repr
structure FutF where (g : Guard) (f : Fin 8) deriving DecidableEq, Repr
structure FtestF where (g : Guard) (pd : Fin 8) (f : Fin 8) deriving DecidableEq, Repr
structure ArvF where (g : Guard) (d e : Operand) (bar : Fin 64) deriving DecidableEq, Repr
structure BwaitF where (g : Guard) (q : Operand) (bar : Fin 64) deriving DecidableEq, Repr
structure BsyncF where (g : Guard) (bar : Fin 64) deriving DecidableEq, Repr
structure LaunchF where (g : Guard) (f : Fin 8) (grp : Fin 4) (q : Operand) deriving DecidableEq, Repr
structure SvcF where (g : Guard) (d a : Operand) (n : BitVec 12) deriving DecidableEq, Repr
structure CsrrF where (g : Guard) (d : Operand) (n : BitVec 12) deriving DecidableEq, Repr
structure CsrwF where (g : Guard) (a : Operand) (n : BitVec 12) deriving DecidableEq, Repr
/-- A hint keeps the ignored bits of both words: I-word [25:0], XM [31:27] and [18:0] (12 R320). -/
structure HintF where (k : Fin 32) (iw : BitVec 26) (ty : BitVec 5) (lo : BitVec 19) deriving DecidableEq, Repr
structure WideF where (g : Guard) (d a b : Operand) deriving DecidableEq, Repr
/-- `mma.tf32` is removed: only its words exist, I-word [25:0], XM [31:27] and [18:0] (12 R324). -/
structure Tf32F where (iw : BitVec 26) (ty : BitVec 5) (lo : BitVec 19) deriving DecidableEq, Repr

/-! ## What events and commands carry -/

/-- Source address index and TAG of an Edwick frame (09 R236, R237). -/
structure Edw where (src : Nat) (tag : BitVec 16) deriving DecidableEq, Repr

/-- The links with states of their own (09 R216, R217): die link j of die d, pod port, stack
endpoint, host port. -/
inductive Link | die (d j : Nat) | pod (p : Nat) | endpoint (s : Nat) | host
  deriving DecidableEq, Repr

/-- The functions of a read-modify-write (15 R393). -/
inductive RmwFn | add | sub | min | max | and | or | xor | exch
  deriving DecidableEq, Repr

/-- A request that arrives through a pod port at a location: a load, a store, a read-modify-write, a compare and swap, or
a `sig` (09 R216, R230, R232). -/
inductive PodOp
  | load (size : Nat)
  | store (data : List Byte)
  | rmw (f : RmwFn) (t : Ty) (b : Nat)
  | cas (t : Ty) (b c : Nat)
  | sig (v : DWord)
  deriving DecidableEq, Repr

/-- The UDP header of a datagram: source and destination port, Length, checksum (04 R116, R117). -/
structure UdpHeader where (src dst len sum : Nat) deriving DecidableEq, Repr

/-- CMD and OPLEN of an Edwick frame (09 R236). -/
structure FrameCmd where (code : BitVec 8) (oplen : Nat) deriving DecidableEq, Repr

/-- What an uncorrectable error corrupts (18 R447, R448): the line at `addr`, a register or tile or accumulator element of
a warp, a line of a gang's stash window, or a journal entry. -/
inductive ErrItem
  | line
  | vreg (warp reg lane : Nat)
  | ureg (warp reg : Nat)
  | tile (warp tile word : Nat)
  | acc (warp acc entry : Nat)
  | scratch (gang line : Nat)
  | journal (jseq : Nat)
  deriving DecidableEq, Repr

/-- Access kinds of a walk (08 R200, R206 ACC). -/
inductive AccKind | load | store | atomic | fetch
  deriving DecidableEq, Repr

/-- What a collective peer's credit grant carries (17 R432). -/
structure Grant where (group rank seq opc count : Nat) (xd : DWord) (root : Nat)
  deriving DecidableEq, Repr

/-- The readings a ring revolution works from (10 R241, R258, R259): the measured package power in
milliwatts averaged over the previous 8 revolutions, and the highest temperature of each die in units of 0.125
degrees. -/
structure RevReading where (powerMw : Nat) (dieTemp : List Int)
  deriving DecidableEq, Repr

/-- One instruction, event or management command: one constructor per row of the opcode table. -/
inductive Instr
  -- short and XI forms (12 R315)
  | add (x : Sh3) | sub (x : Sh3) | and (x : Sh3) | or (x : Sh3) | xor (x : Sh3)
  | shl (x : Sh3) | shr (x : Sh3) | sra (x : Sh3)
  | mov (x : Sh2) | fadd (x : Sh3) | fmul (x : Sh3)
  | nop (x : Gd) | exit (x : Gd) | ret (x : RetF) | yield (x : Gd)
  | movi (x : MoviF) | br (x : BrF) | call (x : CallF) | trap (x : TrapF)
  | addImm (x : ImmF) | andImm (x : ImmF) | orImm (x : ImmF) | xorImm (x : ImmF)
  -- OP 0x18
  | addXm (x : Bin) | subXm (x : Bin) | mul (x : Bin) | mulh (x : Bin) | div (x : Bin) | rem (x : Bin)
  | min (x : Bin) | max (x : Bin) | andXm (x : Bin) | orXm (x : Bin) | xorXm (x : Bin) | andn (x : Bin)
  | shlXm (x : Bin) | shrXm (x : Bin) | sraXm (x : Bin) | rol (x : Bin)
  | addSat (x : Bin) | subSat (x : Bin) | mulSat (x : Bin) | divSat (x : Bin)
  -- OP 0x19
  | abs (x : Un) | neg (x : Un) | not (x : Un) | clz (x : Un) | ctz (x : Un) | popc (x : Un)
  | brev (x : Un) | movXm (x : Un) | absSat (x : Un) | negSat (x : Un)
  -- OP 0x1A
  | mad (x : Tern) | madSat (x : Tern) | addc (x : AddcF) | bfx (x : BfxF) | bfi (x : BfiF)
  | sel (x : SelF) | lea (x : LeaF)
  -- OP 0x1B, 0x1C
  | cmp (x : CmpF)
  | pand (x : P3) | por (x : P3) | pxor (x : P3) | pnot (x : P2)
  | pmovToPred (x : PToF) | pmovFromPred (x : PFromF) | pcnt (x : PFromF)
  -- OP 0x1D
  | brx (x : RetF) | voteOr (x : VoteP) | voteAnd (x : VoteP) | voteMask (x : VoteM) | voteSame (x : VoteS)
  | getpc (x : GDst)
  -- OP 0x1E, 0x1F, 0x20
  | faddXm (x : FBin) | fsub (x : FBin) | fmulXm (x : FBin) | ffma (x : FTern) | fdiv (x : FBin)
  | fmin (x : Bin) | fmax (x : Bin) | frnd (x : FUn)
  | frcp (x : FUn) | frsq (x : FUn) | fsqrt (x : FUn) | fex2 (x : FUn) | flg2 (x : FUn)
  | fsin (x : FUn) | fcos (x : FUn) | fcls (x : Un)
  | fcmp (x : FCmpF)
  -- OP 0x21, 0x22, 0x23, 0x24
  | lmul (x : LBin) | ldiv (x : LBin) | ladd (x : LBin) | lsub (x : LBin)
  | tdot (x : TdotF) | smul (x : SmulF) | sgen (x : SgenF)
  | cvt (x : CvtF) | mxq (x : ConvF) | mxdq (x : ConvF) | zq (x : ConvF) | zdq (x : ConvF)
  | tpk (x : ConvF) | tunp (x : ConvF)
  | shflSel (x : ShflF) | shflLo (x : ShflF) | shflHi (x : ShflF) | shflFlip (x : ShflF) | bcast (x : ShflF)
  | lred (x : LredF) | lscan (x : LscanF)
  -- OP 0x25 to 0x2E
  | ld (x : LdF) | ldPoll (x : LdF) | ldu (x : LdF) | st (x : StF) | stu (x : StF)
  | atomAdd (x : AtomF) | atomSub (x : AtomF) | atomMin (x : AtomF) | atomMax (x : AtomF)
  | atomAnd (x : AtomF) | atomOr (x : AtomF) | atomXor (x : AtomF) | atomExch (x : AtomF)
  | cas (x : CasF) | ldr (x : LdF) | stc (x : AtomF) | rst (x : RstF) | rld (x : RldF)
  | fence (x : FenceF) | sfl (x : MaintF) | sinv (x : MaintF) | spf (x : MaintF) | icinv (x : MaintF)
  | sig (x : SigF) | sigw (x : SigF) | qstat (x : PortDF) | qclose (x : PortF) | qpeek (x : PortDF)
  -- OP 0x2F to 0x33
  | mma (x : MmaF) | mmas (x : MmasF) | mmsp (x : MmspF)
  | mloop (x : MloopF) | mloopS (x : MloopF) | mloopSp (x : MloopSpF)
  | tld (x : TldF) | tst (x : TldF) | ttr (x : TtrF)
  | amov (x : AmovF) | aset (x : AsetF) | azero (x : AzeroF) | ard (x : ArdF) | scb (x : ScbF) | scinv (x : Gd)
  -- OP 0x34 to 0x38
  | copy (x : EngF) | gath (x : EngF) | scat (x : EngF) | coll (x : EngF) | cmpr (x : EngF)
  | fwait (x : FutF) | ftest (x : FtestF) | fcancel (x : FutF)
  | arv (x : ArvF) | bwait (x : BwaitF) | bsync (x : BsyncF)
  | launch (x : LaunchF) | svc (x : SvcF) | rte (x : Gd) | csrr (x : CsrrF) | csrw (x : CsrwF)
  | tokq (x : GDst) | hint (x : HintF)
  -- retired (12 R322 to R325)
  | voteCnt (x : VoteM) | ffmaUnf (x : FTern) | shflWide (x : WideF) | ldNc (x : LdF) | mmaTf32 (x : Tf32F)
  -- issue and warp events
  | clauseEntry
  | clauseConditionsMet (warp : Nat) (path : LaneMask)
  | fairnessTimerExpires (warp : Nat) | fairnessPathEnds (warp : Nat) | yieldEnds (warp : Nat)
  | reservationExpires (warp lane : Nat)
  -- memory events
  | memoryReturn (core slot gen idx : Nat) | storePerformed (warp idx : Nat)
  | outstandingAck (core : Nat) (grid : Word) | ontouchWriteback (gang line : Nat)
  | portDelivery (warp : Nat) (p : Port) (lane : Nat)
  | svcReply (warp : Nat) (path : LaneMask) (reply : List Word) | sigwRetest (warp : Nat) (path : LaneMask)
  | walkCompletes (die core ctx : Nat) (va : DWord) (acc : AccKind)
  | freplyRetry (die : Nat) (fnum : Word) | freplyHold (die : Nat) (fnum : Word) | fringHeadWrite (head : BitVec 13)
  -- tempo events
  | warpBecomesCritical (warp : Nat) | poolRefill (die cluster : Nat) | revolution (r : RevReading)
  | slewBoundary (die cluster : Nat) | matrixStepEnds (core : Nat) | mloopPly (core seqId : Nat)
  | droopAlarm (die cluster : Nat) | droopRationingEnds (die cluster : Nat)
  | quiescePoint (die cluster : Nat) | rampEnds (die cluster : Nat)
  -- barrier events
  | barrierArrival (bar : Nat) | releaseEnds (bar : Nat) | exitReachesBarrier (bar warp : Nat)
  -- engine events
  | engineOpStarts (op : Nat) | engineOpCompletes (op : Nat)
  | collCreditGrant (r : Grant) | collDataArrives (group rank seq : Nat) (data : List Byte)
  -- queue, placer, gang and grid events
  | ontiaDatagram (pseudo : List Nat) (h : UdpHeader) (payload : List Byte)
  | placerDecision | placerSweep | recordReserved (queue : Nat)
  | allotmentComplete (gang : Nat) | stageInCompletes (gang : Nat)
  | gangEvictionStart (gang : Nat) | gangEvictionComplete (gang : Nat)
  | restoreBegins (gang : Nat) | imageIsLoaded (gang : Nat) | retireWritebackComplete (gang : Nat)
  | gridCompletes (grid : Word) | gridKilledReport (grid : Word)
  | completionDelivery | journalCheckpoint | quiesceCompletes (ctx : Nat) | standbyTakeover
  -- errors and links
  | correctableError (chan : Nat) (addr : DWord) | uncorrectableError (chan : Nat) (addr : DWord) (item : ErrItem)
  | trainingSucceeds (l : Link) (width : Nat) | trainingFails (l : Link)
  | widthIsLost (l : Link) (width : Nat) | linkIsLost (l : Link)
  | podRequest (pa : Nat) (op : PodOp) | endpointRead (reqPkg stack off size : Nat)
  | rdmaWrite (qp pa : Nat) (data : List Byte) | rdmaRead (qp pa size : Nat)
  | edwickFrameDropped (src : Nat) (frame : BitVec 128) (bytes : Nat)
  | coldReset
  -- Edwick commands
  | createQueue (e : Edw) (num : Nat) (desc : BitVec 256) | enableQueue (e : Edw) (num : Nat)
  | disableQueue (e : Edw) (num : Nat) | freeQueue (e : Edw) (num : Nat)
  | enqueueRecord (e : Edw) (num : Nat) (rec : BitVec 1024) | queryQueue (e : Edw) (num : Nat)
  | setOntiaUdpPort (e : Edw) (port : BitVec 16)
  | createContext (e : Edw) (desc : BitVec 512) | activateContext (e : Edw) (num : Nat)
  | quiesceContext (e : Edw) (num : Nat) | resumeContext (e : Edw) (num : Nat) | destroyContext (e : Edw) (num : Nat)
  | setServiceClass (e : Edw) (num : Nat) (cls : BitVec 4) | setPhase (e : Edw) (num : Nat) (phase : BitVec 16)
  | queryContext (e : Edw) (num : Nat) | writeServiceClass (e : Edw) (cls : BitVec 4) (val : Word)
  | clearContextError (e : Edw) (num : Nat) (val : Word)
  | evictGang (e : Edw) (grid : Word) (gang : Nat)
  | invalidateTranslations (e : Edw) (ctx : Nat) (base len : DWord)
  | writeStackAct (e : Edw) (stack idx : Nat) (entry : DWord) | writeRouteEntry (e : Edw) (pkg : Nat) (entry : DWord)
  | resetLink (e : Edw) (l : Link) (hold : Bool) | queryLink (e : Edw) (l : Link)
  | queryPower (e : Edw) | setClusterClass (e : Edw) (die cluster : Nat) (cls : BitVec 2)
  | writeCollectiveGroup (e : Edw) (group ctx : Nat) (members : List Nat)
  | queryPins (e : Edw) | releasePinRetry (e : Edw) (pinid : DWord) | releasePinSkip (e : Edw) (pinid : DWord)
  | killGrid (e : Edw) (grid : Word) | readErrorLog (e : Edw) (clear : Bool) | queryErrorCounters (e : Edw)
  | writeSignalSet (e : Edw) (mode ctx : Nat) (va val : DWord) | writeSignalAdd (e : Edw) (ctx : Nat) (va val : DWord)
  | writeSpecial (e : Edw) (die core : Nat) (n : BitVec 12) (val : Word) | readSpecial (e : Edw) (die core : Nat) (n : BitVec 12)
  | setSavePool (e : Edw) (base len : DWord) | setFaultRing (e : Edw) (base : DWord)
  | attest (e : Edw) (nonce : List Byte) | queryBootStatus (e : Edw) | warmReset (e : Edw)
  | unknownCmd (e : Edw) (cmd : FrameCmd) | ecnMarkedPacket (qp : Nat)
  deriving DecidableEq, Repr

end Sys2Proof
end

