-- ==== Sys2Proof/Machine/Types.lean ====
section
/-! DEFINITION. Codes, widths and classes of types and operands (01 R36, R40; 12 R311, R312), and the
form checks of the instruction formats: which operands a row takes (12 R313, R318). -/

namespace Sys2Proof

def Ty.code : Ty → Nat
  | .i32 => 0x00 | .n32 => 0x01 | .i16 => 0x02 | .n16 => 0x03 | .i8 => 0x04 | .n8 => 0x05
  | .i64 => 0x06 | .n64 => 0x07 | .f32 => 0x08 | .bf16 => 0x09 | .f16 => 0x0A | .e4m3 => 0x0B
  | .e5m2 => 0x0C | .e2m1 => 0x0D | .mxi8 => 0x0F | .z8 => 0x10 | .z4 => 0x11 | .l16 => 0x12
  | .l8 => 0x13 | .t2 => 0x14 | .b1 => 0x15 | .e8m0 => 0x16

/-- 12 R312; 0x0E and 0x17 to 0x1F are reserved. -/
def Ty.ofCode : Nat → Option Ty
  | 0x00 => some .i32 | 0x01 => some .n32 | 0x02 => some .i16 | 0x03 => some .n16 | 0x04 => some .i8
  | 0x05 => some .n8 | 0x06 => some .i64 | 0x07 => some .n64 | 0x08 => some .f32 | 0x09 => some .bf16
  | 0x0A => some .f16 | 0x0B => some .e4m3 | 0x0C => some .e5m2 | 0x0D => some .e2m1 | 0x0F => some .mxi8
  | 0x10 => some .z8 | 0x11 => some .z4 | 0x12 => some .l16 | 0x13 => some .l8 | 0x14 => some .t2
  | 0x15 => some .b1 | 0x16 => some .e8m0 | _ => none

/-- Element width in bits. -/
def Ty.width : Ty → Nat
  | .i32 | .n32 | .f32 => 32
  | .i16 | .n16 | .bf16 | .f16 | .l16 => 16
  | .i8 | .n8 | .e4m3 | .e5m2 | .mxi8 | .z8 | .l8 | .e8m0 => 8
  | .i64 | .n64 => 64
  | .e2m1 | .z4 => 4
  | .t2 => 2
  | .b1 => 1

/-- The integer types, codes 0 to 7 (12 R313). -/
def Ty.isInt : Ty → Bool
  | .i32 | .n32 | .i16 | .n16 | .i8 | .n8 | .i64 | .n64 => true
  | _ => false

/-- Two's-complement types (02 R53). -/
def Ty.signed : Ty → Bool
  | .i32 | .i16 | .i8 | .i64 => true
  | _ => false

def Ty.isFloat : Ty → Bool
  | .f32 | .bf16 | .f16 => true
  | _ => false

def Ty.isZ : Ty → Bool
  | .z8 | .z4 => true
  | _ => false

/-- The MX element types (02 R61). -/
def Ty.isMx : Ty → Bool
  | .e4m3 | .e5m2 | .e2m1 | .mxi8 => true
  | _ => false

def Ty.isL : Ty → Bool
  | .l16 | .l8 => true
  | _ => false

/-- 64-bit types occupy register pairs (02 R53). -/
def Ty.wide (t : Ty) : Bool := t.width == 64

/-- The types of the `atom` family (12 R316). -/
def Ty.isAtom : Ty → Bool
  | .i32 | .n32 | .i64 | .n64 => true
  | _ => false

/-- The types of loads and stores (15 R386). -/
def Ty.isMem (t : Ty) : Bool := t.isInt || t.isFloat

/-- The types of the lane operations (14 R384). -/
def Ty.isLane : Ty → Bool
  | .i32 | .n32 | .f32 => true
  | _ => false

def Port.code : Port → Nat
  | .qn => 0 | .qs => 1 | .qe => 2 | .qw => 3 | .ql => 4 | .qr => 5 | .qd => 6

def Port.ofCode : Nat → Option Port
  | 0 => some .qn | 1 => some .qs | 2 => some .qe | 3 => some .qw | 4 => some .ql | 5 => some .qr
  | 6 => some .qd | _ => none

def Special.code : Special → Nat
  | .lane => 0 | .warp => 1 | .team => 2 | .gang => 3 | .core => 4 | .die => 5 | .grid => 6 | .clk => 7

def Special.ofCode : Nat → Option Special
  | 0 => some .lane | 1 => some .warp | 2 => some .team | 3 => some .gang | 4 => some .core
  | 5 => some .die | 6 => some .grid | 7 => some .clk | _ => none

/-- 01 R36. -/
def Operand.code : Operand → Nat
  | .v r => r.val
  | .s r => 64 + r.val
  | .port p => 96 + p.code
  | .spec x => 104 + x.code
  | .imm k => 112 + k.val

/-- 01 R36: 103 is reserved, every other value below 128 names an operand. -/
def Operand.ofCode (n : Nat) : Option Operand :=
  if h : n < 64 then some (.v ⟨n, h⟩)
  else if h : n - 64 < 32 then some (.s ⟨n - 64, h⟩)
  else if n < 103 then (Port.ofCode (n - 96)).map .port
  else if n < 104 then none
  else if n < 112 then (Special.ofCode (n - 104)).map .spec
  else if h : n - 112 < 16 then some (.imm ⟨n - 112, h⟩)
  else none

def Pair.code : Pair → Nat
  | .v r => 2 * r.val
  | .s r => 64 + 2 * r.val

/-- 12 R311 kind X: an even vector or uniform register. -/
def Pair.ofCode (n : Nat) : Option Pair :=
  if n % 2 = 1 then none
  else if h : n / 2 < 32 then some (.v ⟨n / 2, h⟩)
  else if h : n / 2 - 32 < 16 then some (.s ⟨n / 2 - 32, h⟩)
  else none

def RMode.code : RMode → Nat
  | .rne => 0 | .rtz => 1 | .rdn => 2 | .rup => 3

def RMode.ofCode : Nat → RMode
  | 0 => .rne | 1 => .rtz | 2 => .rdn | _ => .rup

def Cond.code : Cond → Nat
  | .eq => 0 | .ne => 1 | .lt => 2 | .le => 3 | .gt => 4 | .ge => 5

def Cond.ofCode : Nat → Option Cond
  | 0 => some .eq | 1 => some .ne | 2 => some .lt | 3 => some .le | 4 => some .gt | 5 => some .ge
  | _ => none

def FCond.code : FCond → Nat
  | .eq => 0 | .ne => 1 | .lt => 2 | .le => 3 | .gt => 4 | .ge => 5 | .un => 6 | .ord => 7

def FCond.ofCode : Nat → Option FCond
  | 0 => some .eq | 1 => some .ne | 2 => some .lt | 3 => some .le | 4 => some .gt | 5 => some .ge
  | 6 => some .un | 7 => some .ord | _ => none

def RedOp.code : RedOp → Nat
  | .add => 0 | .min => 1 | .max => 2 | .and => 3 | .or => 4 | .xor => 5

def RedOp.ofCode : Nat → Option RedOp
  | 0 => some .add | 1 => some .min | 2 => some .max | 3 => some .and | 4 => some .or | 5 => some .xor
  | _ => none

def MOrd.code : MOrd → Nat
  | .plain => 0 | .rlx => 1 | .acq => 2 | .rel => 3 | .ar => 4 | .sc => 5

def MOrd.ofCode : Nat → Option MOrd
  | 0 => some .plain | 1 => some .rlx | 2 => some .acq | 3 => some .rel | 4 => some .ar | 5 => some .sc
  | _ => none

def Scope.code : Scope → Nat
  | .wp => 0 | .tm => 1 | .gg => 2 | .cl => 3 | .di => 4 | .pk => 5 | .sy => 6

def Scope.ofCode : Nat → Option Scope
  | 0 => some .wp | 1 => some .tm | 2 => some .gg | 3 => some .cl | 4 => some .di | 5 => some .pk
  | 6 => some .sy | _ => none

/-! ## Operand forms -/

/-- Specials and constants are never written (01 R36). -/
def Operand.isDst : Operand → Bool
  | .spec _ | .imm _ => false
  | _ => true

def Operand.isPort : Operand → Bool
  | .port _ => true
  | _ => false

/-- A group of n registers named by its base: aligned to min(n, 8) (01 R40). A single register is
always aligned. Ports supply n entries. -/
def Operand.aligned (o : Operand) (n : Nat) : Bool :=
  match o with
  | .v r => r.val % Nat.min n 8 == 0
  | .s r => r.val % Nat.min n 8 == 0
  | _ => true

/-- A source read as n registers (01 R40): aligned; no special for a pair; constants only as one
register or as a 64-bit value. -/
def Operand.srcOk (o : Operand) (n : Nat) (wide : Bool) : Bool :=
  o.aligned n && match o with
  | .spec _ => n == 1
  | .imm _ => n == 1 || wide
  | _ => true

/-- A destination of n registers. -/
def Operand.dstOk (o : Operand) (n : Nat) : Bool := o.isDst && o.aligned n

/-- With U = 1 no operand names a port (01 R38). -/
def Hd.ok (h : Hd) (os : List Operand) : Bool := !h.u || !os.any Operand.isPort

/-- Registers one operand of the type takes. -/
def Ty.regs (t : Ty) : Nat := if t.wide then 2 else 1

/-- T2 and B1 constants above 1 are ILLEGAL (01 R43). -/
def Ty.constOk (t : Ty) : Operand → Bool
  | .imm k => !(t == .t2 || t == .b1) || k.val ≤ 1
  | _ => true

/-- A source of the type: alignment, specials, constants. -/
def Ty.srcOk (t : Ty) (o : Operand) : Bool := o.srcOk t.regs t.wide && t.constOk o

def Ty.dstOk (t : Ty) (o : Operand) : Bool := o.dstOk t.regs

/-- Orders each group of memory instructions takes (12 R317); order plain requires scope 0. -/
def MOrd.scopeOk (o : MOrd) (s : Scope) : Bool := o != .plain || s == .wp
def MOrd.loadOk : MOrd → Bool
  | .plain | .rlx | .acq | .sc => true
  | _ => false
def MOrd.storeOk : MOrd → Bool
  | .plain | .rlx | .rel | .sc => true
  | _ => false
def MOrd.rmwOk : MOrd → Bool
  | .plain => false
  | _ => true
def MOrd.fenceOk : MOrd → Bool
  | .acq | .rel | .ar | .sc => true
  | _ => false
def MOrd.sigOk : MOrd → Bool
  | .rel | .sc => true
  | _ => false
def MOrd.sigwOk : MOrd → Bool
  | .acq | .sc => true
  | _ => false

/-- Elements a `cvt` converts in each lane (14 R379). -/
def cvtCount (s d : Ty) : Nat := Nat.max 1 (Nat.max (32 / s.width) (32 / d.width))

/-- Registers of a conversion group of n elements (14 R379). -/
def cvtRegs (n : Nat) (t : Ty) : Nat := (n * t.width + 31) / 32

/-- The special numbers of 17 R444. -/
def specialListed (n : Nat) : Bool :=
  n ≤ 0x006 || (0x010 ≤ n && n ≤ 0x01D) || (0x020 ≤ n && n ≤ 0x022) || (0x040 ≤ n && n ≤ 0x044)
    || n == 0x048 || n == 0x049

end Sys2Proof
end

