-- ==== Sys2Proof/WellFormed.lean ====
section
/-! DEFINITION. Well-formed instructions: the terms that some word pair encodes, that is, the terms
that meet no ILLEGAL and no RESV row of 12 R318 by their fields alone. What depends on the machine's
state (allotment, contract, barrier count, clause class) is checked by the meanings. Events and
commands are always well formed: their arguments are judged by the meaning. -/

namespace Sys2Proof

def Sh3.wf (x : Sh3) : Bool := x.d.isDst && x.h.ok [x.d, x.a, x.b]
def Sh2.wf (x : Sh2) : Bool := x.d.isDst && x.h.ok [x.d, x.a]
def ImmF.wf (x : ImmF) : Bool := x.d.isDst && x.h.ok [x.d, x.a]
/-- Two typed sources, the type taken from `p`. -/
def Bin.wf (p : Ty → Bool) (x : Bin) : Bool :=
  p x.ty && x.ty.dstOk x.d && x.ty.srcOk x.a && x.ty.srcOk x.b && x.h.ok [x.d, x.a, x.b]
def Un.wf (p : Ty → Bool) (x : Un) : Bool :=
  p x.ty && x.ty.dstOk x.d && x.ty.srcOk x.a && x.h.ok [x.d, x.a]
def Tern.wf (x : Tern) : Bool :=
  x.ty.isInt && x.ty.dstOk x.d && x.ty.srcOk x.a && x.ty.srcOk x.b && x.ty.srcOk x.c
    && x.h.ok [x.d, x.a, x.b, x.c]
def AddcF.wf (x : AddcF) : Bool :=
  x.ty.isInt && x.ty.dstOk x.d && x.ty.srcOk x.a && x.ty.srcOk x.b && x.h.ok [x.d, x.a, x.b]
/-- A field that passes the element is ILLEGAL (13 R345). -/
def BfxF.wf (x : BfxF) : Bool :=
  x.ty.isInt && x.ty.dstOk x.d && x.ty.srcOk x.a && x.h.ok [x.d, x.a]
    && x.pos.val + x.wid1.val + 1 ≤ x.ty.width
def BfiF.wf (x : BfiF) : Bool :=
  x.ty.isInt && x.ty.dstOk x.d && x.ty.srcOk x.a && x.ty.srcOk x.b && x.h.ok [x.d, x.a, x.b]
    && x.pos.val + x.wid1.val + 1 ≤ x.ty.width
def SelF.wf (x : SelF) : Bool :=
  (x.ty.isInt || x.ty.isFloat) && x.ty.dstOk x.d && x.ty.srcOk x.a && x.ty.srcOk x.b
    && x.h.ok [x.d, x.a, x.b]
def LeaF.wf (x : LeaF) : Bool :=
  (x.ty == .i32 || x.ty == .n32) && x.d.dstOk 2 && x.h.ok [x.d, x.b]
def CmpF.wf (x : CmpF) : Bool :=
  x.ty.isInt && x.ty.srcOk x.a && x.ty.srcOk x.b && x.h.ok [x.a, x.b]
def PToF.wf (x : PToF) : Bool := x.h.ok [x.a]
def PFromF.wf (x : PFromF) : Bool := x.d.isDst && x.h.ok [x.d]
def FBin.wf (x : FBin) : Bool := x.ty.isFloat && x.d.isDst && x.h.ok [x.d, x.a, x.b]
def FTern.wf (x : FTern) : Bool := x.ty.isFloat && x.d.isDst && x.h.ok [x.d, x.a, x.b, x.c]
def FUn.wf (x : FUn) : Bool := x.ty.isFloat && x.d.isDst && x.h.ok [x.d, x.a]
def FCmpF.wf (x : FCmpF) : Bool := x.ty.isFloat && x.h.ok [x.a, x.b]
def LBin.wf (x : LBin) : Bool := x.ty.isL && x.d.isDst && x.h.ok [x.d, x.a, x.b]
/-- b of `tdot` is a group of four vector or uniform registers (14 R374). -/
def TdotF.wf (x : TdotF) : Bool :=
  x.d.isDst && Ty.t2.constOk x.a && x.h.ok [x.d, x.a, x.c]
    && match x.b with
      | .v r => r.val % 4 == 0
      | .s r => r.val % 4 == 0
      | _ => false
/-- Stream exponents run from 6 to 16 (14 R375). -/
def SmulF.wf (x : SmulF) : Bool := 6 ≤ x.n.val && x.n.val ≤ 16 && x.d.isDst && x.h.ok [x.d, x.a, x.b]
def SgenF.wf (x : SgenF) : Bool := 6 ≤ x.n.val && x.n.val ≤ 16 && x.d.isDst && x.h.ok [x.d, x.a]
/-- 14 R378, R379. -/
def CvtF.wf (x : CvtF) : Bool :=
  let n := cvtCount x.sty x.dty
  let rs := cvtRegs n x.sty
  let rd := cvtRegs n x.dty
  rs ≤ 16 && rd ≤ 16
    && !(x.dty == .b1 && 8 < x.sty.width) && !(x.sty == .b1 && 8 < x.sty.width)
    && x.a.srcOk rs (x.sty.wide && rs == 2) && x.sty.constOk x.a && x.d.dstOk rd
    && x.b.isSome == (x.sty.isZ || x.dty.isZ)
    && x.h.ok ([x.d, x.a] ++ x.b.toList)
    && (!x.el || (x.sty == .f32 && x.dty == .l16 && x.rm == .rne))
def ConvF.wf (cross : Bool) (p : Ty → Ty → Bool) (x : ConvF) : Bool :=
  p x.dty x.sty && x.sty.constOk x.a && x.d.isDst && x.h.ok [x.d, x.a] && !(cross && x.h.u)
def ShflF.wf (x : ShflF) : Bool := x.ty.isLane && x.d.isDst
def RedOp.tyOk (op : RedOp) (t : Ty) : Bool :=
  t.isLane && match op with
  | .and | .or | .xor => t != .f32
  | _ => true
def LredF.wf (x : LredF) : Bool := x.op.tyOk x.ty && x.d.isDst
def LscanF.wf (x : LscanF) : Bool := x.op.tyOk x.ty && x.d.isDst
/-- A register destination of a memory instruction: no port (15 R387). -/
def memDst (t : Ty) (d : Operand) : Bool := t.dstOk d && !d.isPort
def LdF.wf (p : Ty → Bool) (x : LdF) : Bool :=
  p x.ty && x.ord.loadOk && x.ord.scopeOk x.sc && memDst x.ty x.d
/-- `ld.nc` takes order and scope 0 (12 R322). -/
def LdF.wfNc (x : LdF) : Bool := x.ty.isMem && x.ord == .plain && x.sc == .wp && memDst x.ty x.d
def StF.wf (x : StF) : Bool := x.ty.isMem && x.ord.storeOk && x.ord.scopeOk x.sc && x.ty.srcOk x.b
def AtomF.wf (x : AtomF) : Bool :=
  x.ty.isAtom && x.ord.rmwOk && x.ord.scopeOk x.sc && memDst x.ty x.d && x.ty.srcOk x.b
def CasF.wf (x : CasF) : Bool :=
  x.ty.isAtom && x.ord.rmwOk && x.ord.scopeOk x.sc && memDst x.ty x.d && x.ty.srcOk x.b && x.ty.srcOk x.c
/-- d of `stc` is one register whatever the type (15 R395). -/
def AtomF.wfStc (x : AtomF) : Bool :=
  x.ty.isAtom && x.ord.storeOk && x.ord.scopeOk x.sc && x.d.isDst && !x.d.isPort && x.ty.srcOk x.b
def RstF.wf (x : RstF) : Bool := x.ty.isMem && x.ord.storeOk && x.ord.scopeOk x.sc && x.ty.srcOk x.b
def RldF.wf (x : RldF) : Bool := x.ty.isMem && x.ord.loadOk && x.ord.scopeOk x.sc && memDst x.ty x.d
def FenceF.wf (x : FenceF) : Bool := x.ord.fenceOk
def SigF.wf (ok : MOrd → Bool) (x : SigF) : Bool := ok x.ord && x.v.srcOk 2 true
def MmspF.wf (x : MmspF) : Bool := match x.m with | .v _ => true | _ => false
def TtrF.wf (x : TtrF) : Bool := x.ty != .b1
/-- 16 R422. -/
def ArdF.wf (x : ArdF) : Bool :=
  !(x.ty.isZ || x.ty == .e8m0 || x.ty == .b1 || x.ty.wide)
/-- Barrier indexes 33 to 62 of an engine operation are ILLEGAL (12 R316). -/
def EngF.wf (x : EngF) : Bool := x.bar.val ≤ 32 || x.bar.val == 63
def ArvF.wf (x : ArvF) : Bool := x.d.isDst
/-- d and a of `shfl.wide` are pairs (12 R325). -/
def WideF.wf (x : WideF) : Bool := x.d.dstOk 2 && x.a.srcOk 2 true

def mxqTys (d s : Ty) : Bool := s.isFloat && d.isMx
def mxdqTys (d s : Ty) : Bool := s.isMx && d.isFloat
def zqTys (d s : Ty) : Bool := (s == .f32 || s == .i32) && d.isZ
def zdqTys (d s : Ty) : Bool := s.isZ && (d == .f32 || d == .i32)
def tpkTys (d s : Ty) : Bool := (s == .f32 || s == .i32) && d == .t2
def tunpTys (d s : Ty) : Bool := s == .t2 && (d == .f32 || d == .i32)

/-- No ILLEGAL and no RESV row of 12 R318 by the fields alone. -/
def Instr.wf : Instr → Bool
  | .add x | .sub x | .and x | .or x | .xor x | .shl x | .shr x | .sra x | .fadd x | .fmul x => x.wf
  | .mov x => x.wf
  | .nop _ | .exit _ | .ret _ | .yield _ | .trap _ | .brx _ | .scinv _ | .rte _ => true
  | .br x => x.disp.toNat % 4 == 0
  | .movi x => x.d.isDst && x.h.ok [x.d]
  | .call x => x.d.isDst && x.disp.toNat % 4 == 0
  | .addImm x | .andImm x | .orImm x | .xorImm x => x.wf
  | .addXm x | .subXm x | .mul x | .mulh x | .div x | .rem x | .min x | .max x | .andXm x | .orXm x
  | .xorXm x | .andn x | .shlXm x | .shrXm x | .sraXm x | .rol x | .addSat x | .subSat x | .mulSat x
  | .divSat x => x.wf Ty.isInt
  | .abs x | .neg x | .not x | .clz x | .ctz x | .popc x | .brev x | .movXm x | .absSat x
  | .negSat x => x.wf Ty.isInt
  | .mad x | .madSat x => x.wf
  | .addc x => x.wf
  | .bfx x => x.wf
  | .bfi x => x.wf
  | .sel x => x.wf
  | .lea x => x.wf
  | .cmp x => x.wf
  | .pand _ | .por _ | .pxor _ | .pnot _ => true
  | .pmovToPred x => x.wf
  | .pmovFromPred x | .pcnt x => x.wf
  | .voteOr _ | .voteAnd _ | .voteSame _ => true
  | .voteMask x | .voteCnt x => x.d.isDst
  | .getpc x | .tokq x => x.d.isDst
  | .faddXm x | .fsub x | .fmulXm x | .fdiv x => x.wf
  | .ffma x | .ffmaUnf x => x.wf
  | .fmin x | .fmax x => x.wf Ty.isFloat
  | .frnd x | .frcp x | .frsq x | .fsqrt x | .fex2 x | .flg2 x | .fsin x | .fcos x => x.wf
  | .fcls x => x.wf Ty.isFloat
  | .fcmp x => x.wf
  | .lmul x | .ldiv x | .ladd x | .lsub x => x.wf
  | .tdot x => x.wf
  | .smul x => x.wf
  | .sgen x => x.wf
  | .cvt x => x.wf
  | .mxq x => x.wf true mxqTys
  | .mxdq x => x.wf false mxdqTys
  | .zq x => x.wf true zqTys
  | .zdq x => x.wf false zdqTys
  | .tpk x => x.wf true tpkTys
  | .tunp x => x.wf false tunpTys
  | .shflSel x | .shflLo x | .shflHi x | .shflFlip x | .bcast x => x.wf
  | .lred x => x.wf
  | .lscan x => x.wf
  | .ld x | .ldPoll x | .ldu x => x.wf Ty.isMem
  | .ldr x => x.wf Ty.isAtom
  | .ldNc x => x.wfNc
  | .st x | .stu x => x.wf
  | .atomAdd x | .atomSub x | .atomMin x | .atomMax x | .atomAnd x | .atomOr x | .atomXor x
  | .atomExch x => x.wf
  | .cas x => x.wf
  | .stc x => x.wfStc
  | .rst x => x.wf
  | .rld x => x.wf
  | .fence x => x.wf
  | .sfl _ | .sinv _ | .spf _ | .icinv _ => true
  | .sig x => x.wf MOrd.sigOk
  | .sigw x => x.wf MOrd.sigwOk
  | .qstat x | .qpeek x => x.d.isDst
  | .qclose _ => true
  | .mma _ | .mmas _ => true
  | .mmsp x => x.wf
  | .mloop _ | .mloopS _ | .mloopSp _ => true
  | .tld _ | .tst _ => true
  | .ttr x => x.wf
  | .amov _ | .aset _ | .azero _ | .scb _ => true
  | .ard x => x.wf
  | .copy x | .gath x | .scat x | .coll x | .cmpr x => x.wf
  | .fwait _ | .ftest _ | .fcancel _ => true
  | .arv x => x.wf
  | .bwait _ | .bsync _ | .launch _ => true
  | .svc x => x.d.isDst
  | .csrr x => x.d.isDst && specialListed x.n.toNat
  | .csrw x => specialListed x.n.toNat
  | .shflWide x => x.wf
  | .hint _ | .mmaTf32 _ => true
  | _ => true

end Sys2Proof
end

