-- ==== Sys2Proof/Decode.lean ====
section
/-! DEFINITION. Decoding and encoding of instruction words (12 R300 to R325). Decoding is total: a word
pair gives an instruction or the name of the cause that an execution of it raises. ILLEGAL is reported
before RESV (06 R176, 12 R319). The encoder writes the words of a well-formed instruction from the same
tables. -/

namespace Sys2Proof

/-- Why words are not an instruction: the cause they raise (12 R318), or too few bytes. -/
inductive DecodeError | illegal | resv | truncated
  deriving DecidableEq, Repr

/-- The fields of an I-word and an XM word as numbers (12 R307, R310). -/
structure Raw where (op u g gn d a b ty fn c imm : Nat)
  deriving DecidableEq, Repr

def Raw.ofWords (w x : Nat) : Raw where
  op := w / 2 ^ 26 % 64
  u := w / 2 ^ 25 % 2
  g := w / 2 ^ 22 % 8
  gn := w / 2 ^ 21 % 2
  d := w / 2 ^ 14 % 128
  a := w / 2 ^ 7 % 128
  b := w % 128
  ty := x / 2 ^ 27 % 32
  fn := x / 2 ^ 19 % 256
  c := x / 2 ^ 12 % 128
  imm := x % 4096

/-- The primary opcode fixes the length: 1 word for OP 0x01 to 0x0F, 2 above (12 R314). Words that are
no instruction have length 1. -/
def opWords (op : Nat) : Nat := if 0x10 ≤ op && op ≤ 0x3E then 2 else 1

/-- The classes of 12 R315 and R316; `none` is `nop`, which any clause takes. -/
def opClass (op : Nat) : Option Nat :=
  if op = 0x0C then none
  else if op ≤ 0x0C then some 0
  else if op ≤ 0x0F then some 4
  else if op = 0x10 then some 0
  else if op ≤ 0x13 then some 4
  else if op ≤ 0x1C then some 0
  else if op = 0x1D then some 4
  else if op ≤ 0x24 then some 0
  else if op ≤ 0x2E then some 1
  else if op ≤ 0x33 then some 2
  else if op ≤ 0x35 then some 3
  else some 4

def fin8 (n : Nat) : Fin 8 := ⟨n % 8, Nat.mod_lt _ (by decide)⟩
def fin4 (n : Nat) : Fin 4 := ⟨n % 4, Nat.mod_lt _ (by decide)⟩
def fin16 (n : Nat) : Fin 16 := ⟨n % 16, Nat.mod_lt _ (by decide)⟩
def fin32 (n : Nat) : Fin 32 := ⟨n % 32, Nat.mod_lt _ (by decide)⟩
def fin64 (n : Nat) : Fin 64 := ⟨n % 64, Nat.mod_lt _ (by decide)⟩

/-- Kind G (12 R311). -/
def grpOf (n : Nat) : Option (Fin 4) :=
  if n = 64 ∨ n = 72 ∨ n = 80 ∨ n = 88 then some (fin4 ((n - 64) / 8)) else none

/-- Kind F (12 R311). -/
def futOf (n : Nat) : Option (Fin 8) := if 88 ≤ n ∧ n < 96 then some (fin8 (n - 88)) else none

/-- Kind Q (12 R311). -/
def portOf (n : Nat) : Option Port := if 96 ≤ n then Port.ofCode (n - 96) else none

def opnd (n : Nat) : Option Operand := Operand.ofCode n
def pairX (n : Nat) : Option Pair := Pair.ofCode n

def Raw.guard (r : Raw) : Guard := ⟨fin8 r.g, r.gn == 1⟩
def Raw.hd (r : Raw) : Hd := ⟨r.u == 1, r.guard⟩
/-- High bits of a P or A field, of a T field (12 R311). -/
def pBad (n : Nat) : Bool := 8 ≤ n
def tBad (n : Nat) : Bool := 16 ≤ n

/-- A candidate instruction, if the fields name one, and whether a reserved field is non-zero. -/
abbrev Cand := Option Instr × Bool

def Raw.sh3 (r : Raw) (k : Sh3 → Instr) : Cand :=
  ((do return k ⟨r.hd, ← opnd r.d, ← opnd r.a, ← opnd r.b⟩), false)

def Raw.bin (r : Raw) (k : Bin → Instr) : Cand :=
  ((do return k ⟨r.hd, ← Ty.ofCode r.ty, ← opnd r.d, ← opnd r.a, ← opnd r.b⟩), r.c != 0 || r.imm != 0)

def Raw.un (r : Raw) (k : Un → Instr) : Cand :=
  ((do return k ⟨r.hd, ← Ty.ofCode r.ty, ← opnd r.d, ← opnd r.a⟩), r.b != 0 || r.c != 0 || r.imm != 0)

def Raw.tern (r : Raw) (k : Tern → Instr) : Cand :=
  ((do return k ⟨r.hd, ← Ty.ofCode r.ty, ← opnd r.d, ← opnd r.a, ← opnd r.b, ← opnd r.c⟩), r.imm != 0)

def Raw.imm3 (r : Raw) (x : Nat) (k : ImmF → Instr) : Cand :=
  ((do return k ⟨r.hd, ← opnd r.d, ← opnd r.a, BitVec.ofNat 32 x⟩), r.b != 0)

def Raw.fbin (r : Raw) (k : FBin → Instr) : Cand :=
  ((do return k ⟨r.hd, ← Ty.ofCode r.ty, RMode.ofCode (r.imm % 4), ← opnd r.d, ← opnd r.a, ← opnd r.b⟩),
    r.c != 0 || r.imm / 4 != 0)

def Raw.ftern (r : Raw) (k : FTern → Instr) : Cand :=
  ((do return k ⟨r.hd, ← Ty.ofCode r.ty, RMode.ofCode (r.imm % 4), ← opnd r.d, ← opnd r.a, ← opnd r.b,
      ← opnd r.c⟩), r.imm / 4 != 0)

def Raw.fun1 (r : Raw) (k : FUn → Instr) : Cand :=
  ((do return k ⟨r.hd, ← Ty.ofCode r.ty, RMode.ofCode (r.imm % 4), ← opnd r.d, ← opnd r.a⟩),
    r.b != 0 || r.c != 0 || r.imm / 4 != 0)

def Raw.lbin (r : Raw) (k : LBin → Instr) : Cand :=
  ((do return k ⟨r.hd, ← Ty.ofCode r.ty, r.imm % 2 == 1, ← opnd r.d, ← opnd r.a, ← opnd r.b⟩),
    r.c != 0 || r.imm / 2 != 0)

/-- Rows of OP 0x23 other than `cvt`: no E→L form (14 R378), SRC1 and SRC2 reserved. -/
def Raw.conv (r : Raw) (k : ConvF → Instr) : Cand :=
  if r.imm / 256 % 2 = 1 then (none, false)
  else ((do return k ⟨r.hd, ← Ty.ofCode r.ty, ← Ty.ofCode (r.imm % 32), r.imm / 128 % 2 == 1,
      RMode.ofCode (r.imm / 32 % 4), ← opnd r.d, ← opnd r.a⟩), r.b != 0 || r.c != 0 || r.imm / 512 != 0)

/-- `cvt`: with the E→L bit set, rounding bits are reserved (14 R378). -/
def Raw.cvt (r : Raw) : Cand :=
  let el := r.imm / 256 % 2 == 1
  let rm := r.imm / 32 % 4
  match Ty.ofCode r.ty, Ty.ofCode (r.imm % 32) with
  | some dt, some st =>
    let z := st.isZ || dt.isZ
    ((do
      let d ← opnd r.d
      let a ← opnd r.a
      let b ← (if z then (opnd r.b).map some else some none)
      return .cvt ⟨r.hd, dt, st, el, r.imm / 128 % 2 == 1, (if el then .rne else RMode.ofCode rm), d, a, b⟩),
      (el && rm != 0) || (!z && r.b != 0) || r.c != 0 || r.imm / 512 != 0)
  | _, _ => (none, false)

/-- No U bit outside class 0 and on the cross-lane forms (12 R309, 14 R364). -/
def Raw.noU (r : Raw) (k : Cand) : Cand := if r.u = 0 then k else (none, k.2)

def Raw.shfl (r : Raw) (k : ShflF → Instr) : Cand :=
  r.noU ((do return k ⟨r.guard, ← Ty.ofCode r.ty, ← opnd r.d, ← opnd r.a, ← opnd r.b⟩), r.c != 0 || r.imm != 0)

/-- Order and scope of the memory byte (12 R317). -/
def Raw.ord (r : Raw) : Option MOrd := MOrd.ofCode (r.fn / 32)
def Raw.sc (r : Raw) : Option Scope := Scope.ofCode (r.fn / 4 % 8)
def Raw.off (r : Raw) : BitVec 12 := BitVec.ofNat 12 r.imm

def Raw.ld (r : Raw) (k : LdF → Instr) : Cand :=
  r.noU ((do return k ⟨r.guard, ← r.ord, ← r.sc, ← Ty.ofCode r.ty, ← opnd r.d, ← pairX r.a, r.off⟩),
    r.b != 0 || r.c != 0)

def Raw.st (r : Raw) (k : StF → Instr) : Cand :=
  r.noU ((do return k ⟨r.guard, ← r.ord, ← r.sc, ← Ty.ofCode r.ty, ← pairX r.a, ← opnd r.b, r.off⟩),
    r.d != 0 || r.c != 0)

def Raw.atom (r : Raw) (k : AtomF → Instr) : Cand :=
  r.noU ((do return k ⟨r.guard, ← r.ord, ← r.sc, ← Ty.ofCode r.ty, ← opnd r.d, ← pairX r.a, ← opnd r.b, r.off⟩),
    r.c != 0)

def Raw.sigf (r : Raw) (k : SigF → Instr) : Cand :=
  r.noU ((do return k ⟨r.guard, ← r.ord, ← r.sc, ← pairX r.a, ← opnd r.b, r.off⟩),
    r.d != 0 || r.c != 0 || r.ty != 0)

def Raw.maint (r : Raw) (k : MaintF → Instr) : Cand :=
  r.noU ((do return k ⟨r.guard, ← Scope.ofCode (r.fn / 4 % 8), ← pairX r.a, ← opnd r.b⟩),
    r.d != 0 || r.c != 0 || r.ty != 0 || r.imm != 0)

def Raw.eng (r : Raw) (k : EngF → Instr) : Cand :=
  r.noU ((do return k ⟨r.guard, ← futOf r.d, ← grpOf r.a, fin64 (r.imm / 8), ← Scope.ofCode (r.imm % 8)⟩),
    r.b != 0 || r.c != 0 || r.ty != 0 || r.imm / 512 != 0)

def Raw.mloop (r : Raw) (k : MloopF → Instr) : Cand :=
  r.noU ((do return k ⟨r.guard, ← Ty.ofCode r.ty, ← Ty.ofCode (r.imm % 32), fin16 (r.imm / 256), ← futOf r.d,
      ← grpOf r.a, fin8 r.b⟩), r.c != 0 || pBad r.b || r.imm / 32 % 8 != 0)

/-- OP 0x18 (12 R316, 13 R338). -/
def decode18 (r : Raw) : Cand :=
  match r.fn with
  | 0x00 => r.bin .addXm | 0x01 => r.bin .subXm | 0x02 => r.bin .mul | 0x03 => r.bin .mulh
  | 0x04 => r.bin .div | 0x05 => r.bin .rem | 0x06 => r.bin .min | 0x07 => r.bin .max
  | 0x08 => r.bin .andXm | 0x09 => r.bin .orXm | 0x0A => r.bin .xorXm | 0x0B => r.bin .andn
  | 0x0C => r.bin .shlXm | 0x0D => r.bin .shrXm | 0x0E => r.bin .sraXm | 0x0F => r.bin .rol
  | 0x10 => r.bin .addSat | 0x11 => r.bin .subSat | 0x12 => r.bin .mulSat | 0x14 => r.bin .divSat
  | _ => (none, false)

/-- OP 0x19 (13 R342). -/
def decode19 (r : Raw) : Cand :=
  match r.fn with
  | 0x00 => r.un .abs | 0x01 => r.un .neg | 0x02 => r.un .not | 0x03 => r.un .clz | 0x04 => r.un .ctz
  | 0x05 => r.un .popc | 0x06 => r.un .brev | 0x07 => r.un .movXm | 0x10 => r.un .absSat
  | 0x11 => r.un .negSat | _ => (none, false)

/-- OP 0x1A (13 R343 to R347). -/
def decode1A (r : Raw) : Cand :=
  match r.fn with
  | 0x00 => r.tern .mad
  | 0x10 => r.tern .madSat
  | 0x01 => ((do return .addc ⟨r.hd, ← Ty.ofCode r.ty, ← opnd r.d, ← opnd r.a, ← opnd r.b, fin8 (r.imm / 16),
      fin8 r.imm⟩), r.c != 0 || r.imm / 128 != 0 || r.imm / 8 % 2 != 0)
  | 0x02 => ((do return .bfx ⟨r.hd, ← Ty.ofCode r.ty, ← opnd r.d, ← opnd r.a, fin64 (r.imm / 64), fin64 r.imm⟩),
      r.b != 0 || r.c != 0)
  | 0x03 => ((do return .bfi ⟨r.hd, ← Ty.ofCode r.ty, ← opnd r.d, ← opnd r.a, ← opnd r.b, fin64 (r.imm / 64),
      fin64 r.imm⟩), r.c != 0)
  | 0x04 => ((do return .sel ⟨r.hd, ← Ty.ofCode r.ty, ← opnd r.d, ← opnd r.a, ← opnd r.b, r.imm / 8 % 2 == 1,
      fin8 r.imm⟩), r.c != 0 || r.imm / 16 != 0)
  | 0x05 => ((do return .lea ⟨r.hd, ← Ty.ofCode r.ty, ← opnd r.d, ← pairX r.a, ← opnd r.b, fin8 r.imm⟩),
      r.c != 0 || r.imm / 8 != 0)
  | _ => (none, false)

/-- OP 0x1C: predicate instructions (13 R351). -/
def decode1C (r : Raw) : Cand :=
  let z := r.c != 0 || r.ty != 0 || r.imm != 0
  match r.fn with
  | 0x00 => (some (.pand ⟨r.hd, fin8 r.d, fin8 r.a, fin8 r.b⟩), z || pBad r.d || pBad r.a || pBad r.b)
  | 0x01 => (some (.por ⟨r.hd, fin8 r.d, fin8 r.a, fin8 r.b⟩), z || pBad r.d || pBad r.a || pBad r.b)
  | 0x02 => (some (.pxor ⟨r.hd, fin8 r.d, fin8 r.a, fin8 r.b⟩), z || pBad r.d || pBad r.a || pBad r.b)
  | 0x03 => (some (.pnot ⟨r.hd, fin8 r.d, fin8 r.a⟩), z || pBad r.d || pBad r.a || r.b != 0)
  | 0x04 => ((do return .pmovToPred ⟨r.hd, fin8 r.d, ← opnd r.a⟩), z || pBad r.d || r.b != 0)
  | 0x05 => ((do return .pmovFromPred ⟨r.hd, ← opnd r.d, fin8 r.a⟩), z || pBad r.a || r.b != 0)
  | 0x06 => ((do return .pcnt ⟨r.hd, ← opnd r.d, fin8 r.a⟩), z || pBad r.a || r.b != 0)
  | _ => (none, false)

/-- OP 0x1D: `brx`, `vote`, `getpc` (13 R352); `vote.cnt` under versions 1 and 2 (12 R322, R323). -/
def decode1D (ver : Nat) (r : Raw) : Cand :=
  let z := r.c != 0 || r.ty != 0 || r.imm != 0
  r.noU <| match r.fn with
  | 0x00 => ((do return .brx ⟨r.guard, ← opnd r.a⟩), z || r.d != 0 || r.b != 0)
  | 0x01 => (some (.voteOr ⟨r.guard, fin8 r.d, fin8 r.a⟩), z || pBad r.d || pBad r.a || r.b != 0)
  | 0x02 => (some (.voteAnd ⟨r.guard, fin8 r.d, fin8 r.a⟩), z || pBad r.d || pBad r.a || r.b != 0)
  | 0x03 => ((do return .voteMask ⟨r.guard, ← opnd r.d, fin8 r.a⟩), z || pBad r.a || r.b != 0)
  | 0x04 => ((do return .voteSame ⟨r.guard, fin8 r.d, ← opnd r.a⟩), z || pBad r.d || r.b != 0)
  | 0x05 => if ver < 3 then ((do return .voteCnt ⟨r.guard, ← opnd r.d, fin8 r.a⟩), z || pBad r.a || r.b != 0)
      else (none, false)
  | 0x08 => ((do return .getpc ⟨r.guard, ← opnd r.d⟩), z || r.a != 0 || r.b != 0)
  | _ => (none, false)

/-- OP 0x1E (14 R366, R368); `ffma.unf` under versions 1 and 2. -/
def decode1E (ver : Nat) (r : Raw) : Cand :=
  match r.fn with
  | 0x00 => r.fbin .faddXm | 0x01 => r.fbin .fsub | 0x02 => r.fbin .fmulXm | 0x03 => r.ftern .ffma
  | 0x04 => r.fbin .fdiv | 0x05 => r.bin .fmin | 0x06 => r.bin .fmax | 0x07 => r.fun1 .frnd
  | 0x08 => if ver < 3 then r.ftern .ffmaUnf else (none, false)
  | _ => (none, false)

/-- OP 0x1F (14 R369, R370). -/
def decode1F (r : Raw) : Cand :=
  match r.fn with
  | 0x00 => r.fun1 .frcp | 0x01 => r.fun1 .frsq | 0x02 => r.fun1 .fsqrt | 0x03 => r.fun1 .fex2
  | 0x04 => r.fun1 .flg2 | 0x05 => r.fun1 .fsin | 0x06 => r.fun1 .fcos | 0x07 => r.un .fcls
  | _ => (none, false)

/-- OP 0x22 (14 R374 to R376). -/
def decode22 (r : Raw) : Cand :=
  match r.fn with
  | 0x00 => if r.ty = Ty.t2.code then ((do return .tdot ⟨r.hd, ← opnd r.d, ← opnd r.a, ← opnd r.b, ← opnd r.c⟩),
      r.imm != 0) else (none, false)
  | 0x01 => if r.ty = Ty.i8.code then ((do return .smul ⟨r.hd, fin32 r.imm, ← opnd r.d, ← opnd r.a, ← opnd r.b⟩),
      r.c != 0 || r.imm / 32 != 0) else (none, false)
  | 0x02 => if r.ty = Ty.i8.code then ((do return .sgen ⟨r.hd, fin32 r.imm, ← opnd r.d, ← opnd r.a⟩),
      r.b != 0 || r.c != 0 || r.imm / 32 != 0) else (none, false)
  | _ => (none, false)

/-- OP 0x23 (14 R377). -/
def decode23 (r : Raw) : Cand :=
  match r.fn with
  | 0x00 => r.cvt
  | 0x01 => r.conv .mxq | 0x02 => r.conv .mxdq | 0x03 => r.conv .zq | 0x04 => r.conv .zdq
  | 0x05 => r.conv .tpk | 0x06 => r.conv .tunp
  | _ => (none, false)

/-- OP 0x24 (14 R384, R385); `shfl.wide` under versions 1 and 2. -/
def decode24 (ver : Nat) (r : Raw) : Cand :=
  match r.fn with
  | 0x00 => r.shfl .shflSel | 0x01 => r.shfl .shflLo | 0x02 => r.shfl .shflHi | 0x03 => r.shfl .shflFlip
  | 0x04 => r.shfl .bcast
  | 0x05 => r.noU ((do return .lred ⟨r.guard, ← Ty.ofCode r.ty, ← RedOp.ofCode (r.imm % 16), ← opnd r.d, ← opnd r.a⟩),
      r.b != 0 || r.c != 0 || r.imm / 16 != 0)
  | 0x06 => r.noU ((do return .lscan ⟨r.guard, ← Ty.ofCode r.ty, ← RedOp.ofCode (r.imm % 16), r.imm / 16 % 2 == 1,
      ← opnd r.d, ← opnd r.a⟩), r.b != 0 || r.c != 0 || r.imm / 32 != 0)
  | 0x07 => if ver < 3 then r.noU ((do return .shflWide ⟨r.guard, ← opnd r.d, ← opnd r.a, ← opnd r.b⟩),
      r.c != 0 || r.ty != 0 || r.imm != 0) else (none, false)
  | _ => (none, false)

/-- OP 0x29 (15 R394, R395). -/
def decode29 (r : Raw) : Cand :=
  match r.fn % 4 with
  | 0 => r.noU ((do return .cas ⟨r.guard, ← r.ord, ← r.sc, ← Ty.ofCode r.ty, ← opnd r.d, ← pairX r.a, ← opnd r.b,
      ← opnd r.c, r.off⟩), false)
  | 1 => r.ld .ldr
  | 2 => r.atom .stc
  | _ => (none, false)

/-- OP 0x2A (15 R396). -/
def decode2A (r : Raw) : Cand :=
  match r.fn % 4 with
  | 0 => r.noU ((do return .rst ⟨r.guard, ← r.ord, ← r.sc, ← Ty.ofCode r.ty, ← opnd r.a, ← opnd r.b, ← opnd r.c⟩),
      r.d != 0 || r.imm != 0)
  | 1 => r.noU ((do return .rld ⟨r.guard, ← r.ord, ← r.sc, ← Ty.ofCode r.ty, ← opnd r.d, ← opnd r.a, ← opnd r.c⟩),
      r.b != 0 || r.imm != 0)
  | _ => (none, false)

/-- OP 0x2E (15 R402). -/
def decode2E (r : Raw) : Cand :=
  let z := r.b != 0 || r.c != 0 || r.ty != 0 || r.imm != 0
  r.noU <| match r.fn with
  | 0x00 => ((do return .qstat ⟨r.guard, ← opnd r.d, ← portOf r.a⟩), z)
  | 0x01 => ((do return .qclose ⟨r.guard, ← portOf r.a⟩), z || r.d != 0)
  | 0x02 => ((do return .qpeek ⟨r.guard, ← opnd r.d, ← portOf r.a⟩), z)
  | _ => (none, false)

/-- OP 0x2F (16 R410, R411, R415); `mmsp` is undefined and `mma.tf32` defined under version 1. -/
def decode2F (ver : Nat) (r : Raw) (w x : Nat) : Cand :=
  match r.fn with
  | 0x00 => r.noU ((do return .mma ⟨r.guard, ← Ty.ofCode r.ty, ← Ty.ofCode (r.imm % 32), fin16 (r.imm / 256), fin8 r.d,
      fin16 r.a, fin16 r.b, ← opnd r.c⟩), pBad r.d || tBad r.a || tBad r.b || r.imm / 32 % 8 != 0)
  | 0x01 => r.noU ((do return .mmas ⟨r.guard, ← Ty.ofCode r.ty, ← Ty.ofCode (r.imm % 32), fin16 (r.imm / 256), fin8 r.d,
      fin16 r.a, fin16 r.b⟩), pBad r.d || tBad r.a || tBad r.b || r.imm / 32 % 8 != 0 || r.c != 0)
  | 0x02 => if ver = 1 then (none, false) else
      r.noU ((do return .mmsp ⟨r.guard, ← Ty.ofCode r.ty, ← Ty.ofCode (r.imm % 32), fin16 (r.imm / 256),
        fin8 (r.imm / 32), fin8 r.d, fin16 r.a, fin16 r.b, ← opnd r.c⟩), pBad r.d || tBad r.a || tBad r.b)
  | 0x03 => if ver = 1 then (some (.mmaTf32 ⟨BitVec.ofNat 26 w, BitVec.ofNat 5 r.ty, BitVec.ofNat 19 x⟩), false)
      else (none, false)
  | _ => (none, false)

/-- OP 0x30 (16 R416), undefined under version 1; FN 0x02 undefined under version 2 (12 R322, R323). -/
def decode30 (ver : Nat) (r : Raw) : Cand :=
  if ver = 1 then (none, false) else
  match r.fn with
  | 0x00 => r.mloop .mloop
  | 0x01 => r.mloop .mloopS
  | 0x02 => if ver = 2 then (none, false) else
      r.noU ((do return .mloopSp ⟨r.guard, ← Ty.ofCode r.ty, ← Ty.ofCode (r.imm % 32), fin16 (r.imm / 256), ← futOf r.d,
        ← grpOf r.a, fin8 r.b, ← pairX r.c⟩), pBad r.b || r.imm / 32 % 8 != 0)
  | _ => (none, false)

/-- OP 0x31 (16 R419, R420). -/
def decode31 (r : Raw) : Cand :=
  r.noU <| match r.fn with
  | 0x00 => ((do return .tld ⟨r.guard, ← Ty.ofCode r.ty, fin16 r.d, ← pairX r.a, r.off⟩),
      tBad r.d || r.b != 0 || r.c != 0)
  | 0x01 => ((do return .tst ⟨r.guard, ← Ty.ofCode r.ty, fin16 r.b, ← pairX r.a, r.off⟩),
      tBad r.b || r.d != 0 || r.c != 0)
  | 0x02 => ((do return .ttr ⟨r.guard, ← Ty.ofCode r.ty, fin16 r.d, fin16 r.a⟩),
      tBad r.d || tBad r.a || r.b != 0 || r.c != 0 || r.imm != 0)
  | _ => (none, false)

/-- OP 0x32 (16 R421, R422). -/
def decode32 (r : Raw) : Cand :=
  r.noU <| match r.fn with
  | 0x00 => ((do return .amov ⟨r.guard, ← Ty.ofCode r.ty, fin8 r.d, fin8 r.a⟩),
      pBad r.d || pBad r.a || r.b != 0 || r.c != 0 || r.imm != 0)
  | 0x01 => ((do return .aset ⟨r.guard, ← Ty.ofCode r.ty, fin8 r.d, ← opnd r.a⟩),
      pBad r.d || r.b != 0 || r.c != 0 || r.imm != 0)
  | 0x02 => ((do return .azero ⟨r.guard, ← Ty.ofCode r.ty, fin8 r.d⟩),
      pBad r.d || r.a != 0 || r.b != 0 || r.c != 0 || r.imm != 0)
  | 0x03 => ((do return .ard ⟨r.guard, ← Ty.ofCode r.ty, RMode.ofCode (r.imm % 4), fin16 r.d, fin8 r.a⟩),
      tBad r.d || pBad r.a || r.b != 0 || r.c != 0 || r.imm / 4 != 0)
  | _ => (none, false)

/-- OP 0x33 (16 R414). -/
def decode33 (r : Raw) : Cand :=
  r.noU <| match r.fn with
  | 0x00 => ((do return .scb ⟨r.guard, r.imm % 2 == 1, ← pairX r.a, ← opnd r.b⟩),
      r.d != 0 || r.c != 0 || r.ty != 0 || r.imm / 2 != 0)
  | 0x01 => (some (.scinv ⟨r.guard⟩),
      r.d != 0 || r.a != 0 || r.b != 0 || r.c != 0 || r.ty != 0 || r.imm != 0)
  | _ => (none, false)

/-- OP 0x35 (17 R435). -/
def decode35 (r : Raw) : Cand :=
  let z := r.b != 0 || r.c != 0 || r.ty != 0 || r.imm != 0
  r.noU <| match r.fn with
  | 0x00 => ((do return .fwait ⟨r.guard, ← futOf r.a⟩), z || r.d != 0)
  | 0x01 => ((do return .ftest ⟨r.guard, fin8 r.d, ← futOf r.a⟩), z || pBad r.d)
  | 0x02 => ((do return .fcancel ⟨r.guard, ← futOf r.a⟩), z || r.d != 0)
  | _ => (none, false)

/-- OP 0x36 (17 R437). -/
def decode36 (r : Raw) : Cand :=
  let z := r.c != 0 || r.ty != 0 || r.imm / 64 != 0
  r.noU <| match r.fn with
  | 0x00 => ((do return .arv ⟨r.guard, ← opnd r.d, ← opnd r.a, fin64 r.imm⟩), z || r.b != 0)
  | 0x01 => ((do return .bwait ⟨r.guard, ← opnd r.a, fin64 r.imm⟩), z || r.b != 0 || r.d != 0)
  | 0x02 => (some (.bsync ⟨r.guard, fin64 r.imm⟩), z || r.b != 0 || r.d != 0 || r.a != 0)
  | _ => (none, false)

/-- OP 0x37 (17 R438, R440). -/
def decode37 (r : Raw) : Cand :=
  r.noU <| match r.fn with
  | 0x00 => ((do return .launch ⟨r.guard, ← futOf r.d, ← grpOf r.a, ← opnd r.b⟩),
      r.c != 0 || r.ty != 0 || r.imm != 0)
  | 0x01 => ((do return .svc ⟨r.guard, ← opnd r.d, ← opnd r.a, BitVec.ofNat 12 r.imm⟩), r.b != 0 || r.c != 0 || r.ty != 0)
  | _ => (none, false)

/-- OP 0x38 (17 R442 to R446): functions 0xE0 to 0xFF are hints whatever the other fields hold
(12 R320). -/
def decode38 (r : Raw) (w x : Nat) : Cand :=
  if 0xE0 ≤ r.fn then (some (.hint ⟨fin32 r.fn, BitVec.ofNat 26 w, BitVec.ofNat 5 r.ty, BitVec.ofNat 19 x⟩), false)
  else r.noU <| match r.fn with
  | 0x00 => (some (.rte ⟨r.guard⟩), r.d != 0 || r.a != 0 || r.b != 0 || r.c != 0 || r.ty != 0 || r.imm != 0)
  | 0x01 => ((do return .csrr ⟨r.guard, ← opnd r.d, BitVec.ofNat 12 r.imm⟩), r.a != 0 || r.b != 0 || r.c != 0 || r.ty != 0)
  | 0x02 => ((do return .csrw ⟨r.guard, ← opnd r.a, BitVec.ofNat 12 r.imm⟩), r.d != 0 || r.b != 0 || r.c != 0 || r.ty != 0)
  | 0x03 => ((do return .tokq ⟨r.guard, ← opnd r.d⟩), r.a != 0 || r.b != 0 || r.c != 0 || r.ty != 0 || r.imm != 0)
  | _ => (none, false)

/-- The candidate instruction of a word pair under an encoding version (12 R315, R316, R321 to R323). -/
def candidate (ver w x : Nat) : Cand :=
  let r := Raw.ofWords w x
  match r.op with
  | 0x01 => r.sh3 .add | 0x02 => r.sh3 .sub | 0x03 => r.sh3 .and | 0x04 => r.sh3 .or
  | 0x05 => r.sh3 .xor | 0x06 => r.sh3 .shl | 0x07 => r.sh3 .shr | 0x08 => r.sh3 .sra
  | 0x09 => ((do return .mov ⟨r.hd, ← opnd r.d, ← opnd r.a⟩), r.b != 0)
  | 0x0A => if ver = 1 then (none, false) else r.sh3 .fadd
  | 0x0B => if ver = 1 then (none, false) else r.sh3 .fmul
  | 0x0C => (some (.nop ⟨r.guard⟩), r.u != 0 || r.d != 0 || r.a != 0 || r.b != 0)
  | 0x0D => r.noU (some (.exit ⟨r.guard⟩), r.d != 0 || r.a != 0 || r.b != 0)
  | 0x0E => r.noU ((do return .ret ⟨r.guard, ← opnd r.a⟩), r.d != 0 || r.b != 0)
  | 0x0F => r.noU (some (.yield ⟨r.guard⟩), r.d != 0 || r.a != 0 || r.b != 0)
  | 0x10 => ((do return .movi ⟨r.hd, ← opnd r.d, BitVec.ofNat 32 x⟩), r.a != 0 || r.b != 0)
  | 0x11 => r.noU (some (.br ⟨r.guard, BitVec.ofNat 32 (x / 4 * 4)⟩), r.d != 0 || r.a != 0 || r.b != 0 || x % 4 != 0)
  | 0x12 => r.noU ((do return .call ⟨r.guard, ← opnd r.d, BitVec.ofNat 32 (x / 4 * 4)⟩), r.a != 0 || r.b != 0 || x % 4 != 0)
  | 0x13 => r.noU (some (.trap ⟨r.guard, BitVec.ofNat 32 x⟩), r.d != 0 || r.a != 0 || r.b != 0)
  | 0x14 => if ver = 1 then (none, false) else r.imm3 x .addImm
  | 0x15 => if ver = 1 then (none, false) else r.imm3 x .andImm
  | 0x16 => if ver = 1 then (none, false) else r.imm3 x .orImm
  | 0x17 => if ver = 1 then (none, false) else r.imm3 x .xorImm
  | 0x18 => decode18 r
  | 0x19 => decode19 r
  | 0x1A => decode1A r
  | 0x1B => ((do return .cmp ⟨r.hd, ← Cond.ofCode r.fn, ← Ty.ofCode r.ty, fin8 r.d, ← opnd r.a, ← opnd r.b⟩),
      pBad r.d || r.c != 0 || r.imm != 0)
  | 0x1C => decode1C r
  | 0x1D => decode1D ver r
  | 0x1E => decode1E ver r
  | 0x1F => decode1F r
  | 0x20 => ((do return .fcmp ⟨r.hd, ← FCond.ofCode r.fn, ← Ty.ofCode r.ty, fin8 r.d, ← opnd r.a, ← opnd r.b⟩),
      pBad r.d || r.c != 0 || r.imm != 0)
  | 0x21 => match r.fn with
    | 0x00 => r.lbin .lmul | 0x01 => r.lbin .ldiv | 0x02 => r.lbin .ladd | 0x03 => r.lbin .lsub
    | _ => (none, false)
  | 0x22 => decode22 r
  | 0x23 => decode23 r
  | 0x24 => decode24 ver r
  | 0x25 => match r.fn % 4 with
    | 0 => r.ld .ld
    | 1 => r.ld .ldPoll
    | 2 => r.ld .ldu
    | _ => if ver = 1 then r.ld .ldNc else (none, false)
  | 0x26 => match r.fn % 4 with
    | 0 => r.st .st
    | 1 => r.st .stu
    | _ => (none, false)
  | 0x27 => match r.fn % 4 with
    | 0 => r.atom .atomAdd | 1 => r.atom .atomSub | 2 => r.atom .atomMin | _ => r.atom .atomMax
  | 0x28 => match r.fn % 4 with
    | 0 => r.atom .atomAnd | 1 => r.atom .atomOr | 2 => r.atom .atomXor | _ => r.atom .atomExch
  | 0x29 => decode29 r
  | 0x2A => decode2A r
  | 0x2B => if r.fn % 4 = 0 then r.noU ((do return .fence ⟨r.guard, ← r.ord, ← r.sc⟩),
      r.d != 0 || r.a != 0 || r.b != 0 || r.c != 0 || r.ty != 0 || r.imm != 0) else (none, false)
  | 0x2C => if r.fn % 4 = 0 then match r.fn / 32 with
      | 0 => r.maint .sfl | 1 => r.maint .sinv | 2 => r.maint .spf | 3 => r.maint .icinv | _ => (none, false)
      else (none, false)
  | 0x2D => match r.fn % 4 with
    | 0 => r.sigf .sig
    | 1 => r.sigf .sigw
    | _ => (none, false)
  | 0x2E => decode2E r
  | 0x2F => decode2F ver r w x
  | 0x30 => decode30 ver r
  | 0x31 => decode31 r
  | 0x32 => decode32 r
  | 0x33 => decode33 r
  | 0x34 => match r.fn with
    | 0x00 => r.eng .copy | 0x01 => r.eng .gath | 0x02 => r.eng .scat | 0x03 => r.eng .coll
    | 0x04 => r.eng .cmpr | _ => (none, false)
  | 0x35 => decode35 r
  | 0x36 => decode36 r
  | 0x37 => decode37 r
  | 0x38 => decode38 r w x
  | _ => (none, false)

/-- The decoder on a word pair; the second word is not read for one-word opcodes. ILLEGAL precedes RESV
(06 R176). -/
def decodeWords (ver w x : Nat) : Except DecodeError Instr :=
  match candidate ver w x with
  | (none, _) => .error .illegal
  | (some i, resv) => if i.wf then (if resv then .error .resv else .ok i) else .error .illegal

/-- The instruction that two words name whose reserved bits are not all zero, if its form is one: only its RESV is left
to raise (12 R319). -/
def reservedWords (ver w x : Nat) : Option Instr :=
  match candidate ver w x with
  | (some i, true) => if i.wf then some i else none
  | _ => none

/-- Words of a byte list, little-endian (12 introduction, 00 R9). -/
def wordAt (bs : List Byte) (k : Nat) : Nat := natLE ((bs.drop (4 * k)).take 4)

/-- Decoding from bytes: the instruction and the bytes after it (12 R300). -/
def decodeBytes (ver : Nat) (bs : List Byte) : Except DecodeError (Instr × List Byte) :=
  if bs.length < 4 then .error .truncated
  else
    let w := wordAt bs 0
    let n := opWords (w / 2 ^ 26 % 64)
    if bs.length < 4 * n then .error .truncated
    else match decodeWords ver w (if n = 2 then wordAt bs 1 else 0) with
      | .ok i => .ok (i, bs.drop (4 * n))
      | .error e => .error e

/-- The encoding version of a kernel that holds an opcode-table word: the native version 3, else the first of 2
and 1 under which the word is an instruction (05 R152; 12 R321 to R324). -/
def tableVersion (nbits w : Nat) : Nat :=
  let bs := bytesLE 8 (w % 2 ^ nbits)
  let good (v : Nat) : Bool := match decodeBytes v bs with
    | .ok _ => true
    | .error _ => false
  if good 3 then 3 else if good 2 then 2 else if good 1 then 1 else 3

/-- The instruction this decoder reads from an opcode-table word: bits numbered as the table numbers
them, words above `nbits` zero; in the native encoding version, or, for a retired instruction, in the version
that defines it. -/
def decodeTableWord (nbits w : Nat) : Option Instr :=
  match decodeBytes (tableVersion nbits w) (bytesLE 8 (w % 2 ^ nbits)) with
  | .ok (i, _) => some i
  | .error _ => none

/-! ## The encoder -/

def Bool.toBit (b : Bool) : Nat := if b then 1 else 0

/-- An I-word from its fields (12 R307). -/
def iword (op u : Nat) (g : Guard) (d a b : Nat) : Nat :=
  op * 2 ^ 26 + u * 2 ^ 25 + g.p.val * 2 ^ 22 + Bool.toBit g.neg * 2 ^ 21 + d * 2 ^ 14 + a * 2 ^ 7 + b

/-- An XM word from its fields (12 R310). -/
def xmword (ty fn c imm : Nat) : Nat := ty * 2 ^ 27 + fn * 2 ^ 19 + c * 2 ^ 12 + imm

/-- The memory byte (12 R317). -/
def membyte (o : MOrd) (s : Scope) (variant : Nat) : Nat := o.code * 32 + s.code * 4 + variant

def hdBit (h : Hd) : Nat := Bool.toBit h.u
def grpCode (g : Fin 4) : Nat := 64 + 8 * g.val
def futCode (f : Fin 8) : Nat := 88 + f.val
def portCode (p : Port) : Nat := 96 + p.code

def Sh3.enc (op : Nat) (x : Sh3) : List Nat := [iword op (hdBit x.h) x.h.g x.d.code x.a.code x.b.code]
def Gd.enc (op : Nat) (x : Gd) : List Nat := [iword op 0 x.g 0 0 0]
def ImmF.enc (op : Nat) (x : ImmF) : List Nat := [iword op (hdBit x.h) x.h.g x.d.code x.a.code 0, x.imm.toNat]
def Bin.enc (op fn : Nat) (x : Bin) : List Nat :=
  [iword op (hdBit x.h) x.h.g x.d.code x.a.code x.b.code, xmword x.ty.code fn 0 0]
def Un.enc (op fn : Nat) (x : Un) : List Nat :=
  [iword op (hdBit x.h) x.h.g x.d.code x.a.code 0, xmword x.ty.code fn 0 0]
def Tern.enc (fn : Nat) (x : Tern) : List Nat :=
  [iword 0x1A (hdBit x.h) x.h.g x.d.code x.a.code x.b.code, xmword x.ty.code fn x.c.code 0]
def P3.enc (fn : Nat) (x : P3) : List Nat :=
  [iword 0x1C (hdBit x.h) x.h.g x.pd.val x.pa.val x.pb.val, xmword 0 fn 0 0]
def PFromF.enc (fn : Nat) (x : PFromF) : List Nat :=
  [iword 0x1C (hdBit x.h) x.h.g x.d.code x.pa.val 0, xmword 0 fn 0 0]
def VoteP.enc (fn : Nat) (x : VoteP) : List Nat := [iword 0x1D 0 x.g x.pd.val x.ps.val 0, xmword 0 fn 0 0]
def VoteM.enc (fn : Nat) (x : VoteM) : List Nat := [iword 0x1D 0 x.g x.d.code x.ps.val 0, xmword 0 fn 0 0]
def FBin.enc (fn : Nat) (x : FBin) : List Nat :=
  [iword 0x1E (hdBit x.h) x.h.g x.d.code x.a.code x.b.code, xmword x.ty.code fn 0 x.rm.code]
def FTern.enc (fn : Nat) (x : FTern) : List Nat :=
  [iword 0x1E (hdBit x.h) x.h.g x.d.code x.a.code x.b.code, xmword x.ty.code fn x.c.code x.rm.code]
def FUn.enc (op fn : Nat) (x : FUn) : List Nat :=
  [iword op (hdBit x.h) x.h.g x.d.code x.a.code 0, xmword x.ty.code fn 0 x.rm.code]
def LBin.enc (fn : Nat) (x : LBin) : List Nat :=
  [iword 0x21 (hdBit x.h) x.h.g x.d.code x.a.code x.b.code, xmword x.ty.code fn 0 (Bool.toBit x.nan)]
def ConvF.enc (fn : Nat) (x : ConvF) : List Nat :=
  [iword 0x23 (hdBit x.h) x.h.g x.d.code x.a.code 0,
   xmword x.dty.code fn 0 (Bool.toBit x.nan * 128 + x.rm.code * 32 + x.sty.code)]
def ShflF.enc (fn : Nat) (x : ShflF) : List Nat :=
  [iword 0x24 0 x.g x.d.code x.a.code x.b.code, xmword x.ty.code fn 0 0]
def LdF.enc (op variant : Nat) (x : LdF) : List Nat :=
  [iword op 0 x.g x.d.code x.x.code 0, xmword x.ty.code (membyte x.ord x.sc variant) 0 x.off.toNat]
def StF.enc (variant : Nat) (x : StF) : List Nat :=
  [iword 0x26 0 x.g 0 x.x.code x.b.code, xmword x.ty.code (membyte x.ord x.sc variant) 0 x.off.toNat]
def AtomF.enc (op variant : Nat) (x : AtomF) : List Nat :=
  [iword op 0 x.g x.d.code x.x.code x.b.code, xmword x.ty.code (membyte x.ord x.sc variant) 0 x.off.toNat]
def MaintF.enc (k : Nat) (x : MaintF) : List Nat :=
  [iword 0x2C 0 x.g 0 x.x.code x.n.code, xmword 0 (k * 32 + x.sc.code * 4) 0 0]
def SigF.enc (variant : Nat) (x : SigF) : List Nat :=
  [iword 0x2D 0 x.g 0 x.x.code x.v.code, xmword 0 (membyte x.ord x.sc variant) 0 x.off.toNat]
def PortDF.enc (fn : Nat) (x : PortDF) : List Nat :=
  [iword 0x2E 0 x.g x.d.code (portCode x.q) 0, xmword 0 fn 0 0]
def MloopF.enc (fn : Nat) (x : MloopF) : List Nat :=
  [iword 0x30 0 x.g (futCode x.f) (grpCode x.grp) x.acc.val,
   xmword x.aty.code fn 0 (x.code.val * 256 + x.bty.code)]
def EngF.enc (fn : Nat) (x : EngF) : List Nat :=
  [iword 0x34 0 x.g (futCode x.f) (grpCode x.grp) 0, xmword 0 fn 0 (x.bar.val * 8 + x.sc.code)]
def FutF.enc (fn : Nat) (x : FutF) : List Nat := [iword 0x35 0 x.g 0 (futCode x.f) 0, xmword 0 fn 0 0]

/-- The words of an instruction (12 R315, R316); an event or command has none. -/
def encode : Instr → Option (List Nat)
  | .add x => some (x.enc 0x01) | .sub x => some (x.enc 0x02) | .and x => some (x.enc 0x03)
  | .or x => some (x.enc 0x04) | .xor x => some (x.enc 0x05) | .shl x => some (x.enc 0x06)
  | .shr x => some (x.enc 0x07) | .sra x => some (x.enc 0x08)
  | .mov x => some [iword 0x09 (hdBit x.h) x.h.g x.d.code x.a.code 0]
  | .fadd x => some (x.enc 0x0A) | .fmul x => some (x.enc 0x0B)
  | .nop x => some (x.enc 0x0C) | .exit x => some (x.enc 0x0D)
  | .ret x => some [iword 0x0E 0 x.g 0 x.a.code 0]
  | .yield x => some (x.enc 0x0F)
  | .movi x => some [iword 0x10 (hdBit x.h) x.h.g x.d.code 0 0, x.imm.toNat]
  | .br x => if x.disp.toNat % 4 = 0 then some [iword 0x11 0 x.g 0 0 0, x.disp.toNat] else none
  | .call x => if x.disp.toNat % 4 = 0 then some [iword 0x12 0 x.g x.d.code 0 0, x.disp.toNat] else none
  | .trap x => some [iword 0x13 0 x.g 0 0 0, x.imm.toNat]
  | .addImm x => some (x.enc 0x14) | .andImm x => some (x.enc 0x15) | .orImm x => some (x.enc 0x16)
  | .xorImm x => some (x.enc 0x17)
  | .addXm x => some (x.enc 0x18 0x00) | .subXm x => some (x.enc 0x18 0x01) | .mul x => some (x.enc 0x18 0x02)
  | .mulh x => some (x.enc 0x18 0x03) | .div x => some (x.enc 0x18 0x04) | .rem x => some (x.enc 0x18 0x05)
  | .min x => some (x.enc 0x18 0x06) | .max x => some (x.enc 0x18 0x07) | .andXm x => some (x.enc 0x18 0x08)
  | .orXm x => some (x.enc 0x18 0x09) | .xorXm x => some (x.enc 0x18 0x0A) | .andn x => some (x.enc 0x18 0x0B)
  | .shlXm x => some (x.enc 0x18 0x0C) | .shrXm x => some (x.enc 0x18 0x0D) | .sraXm x => some (x.enc 0x18 0x0E)
  | .rol x => some (x.enc 0x18 0x0F) | .addSat x => some (x.enc 0x18 0x10) | .subSat x => some (x.enc 0x18 0x11)
  | .mulSat x => some (x.enc 0x18 0x12) | .divSat x => some (x.enc 0x18 0x14)
  | .abs x => some (x.enc 0x19 0x00) | .neg x => some (x.enc 0x19 0x01) | .not x => some (x.enc 0x19 0x02)
  | .clz x => some (x.enc 0x19 0x03) | .ctz x => some (x.enc 0x19 0x04) | .popc x => some (x.enc 0x19 0x05)
  | .brev x => some (x.enc 0x19 0x06) | .movXm x => some (x.enc 0x19 0x07) | .absSat x => some (x.enc 0x19 0x10)
  | .negSat x => some (x.enc 0x19 0x11)
  | .mad x => some (x.enc 0x00) | .madSat x => some (x.enc 0x10)
  | .addc x => some [iword 0x1A (hdBit x.h) x.h.g x.d.code x.a.code x.b.code,
      xmword x.ty.code 0x01 0 (x.co.val * 16 + x.ci.val)]
  | .bfx x => some [iword 0x1A (hdBit x.h) x.h.g x.d.code x.a.code 0,
      xmword x.ty.code 0x02 0 (x.wid1.val * 64 + x.pos.val)]
  | .bfi x => some [iword 0x1A (hdBit x.h) x.h.g x.d.code x.a.code x.b.code,
      xmword x.ty.code 0x03 0 (x.wid1.val * 64 + x.pos.val)]
  | .sel x => some [iword 0x1A (hdBit x.h) x.h.g x.d.code x.a.code x.b.code,
      xmword x.ty.code 0x04 0 (Bool.toBit x.neg * 8 + x.p.val)]
  | .lea x => some [iword 0x1A (hdBit x.h) x.h.g x.d.code x.x.code x.b.code, xmword x.ty.code 0x05 0 x.sh.val]
  | .cmp x => some [iword 0x1B (hdBit x.h) x.h.g x.pd.val x.a.code x.b.code, xmword x.ty.code x.cond.code 0 0]
  | .pand x => some (x.enc 0x00) | .por x => some (x.enc 0x01) | .pxor x => some (x.enc 0x02)
  | .pnot x => some [iword 0x1C (hdBit x.h) x.h.g x.pd.val x.pa.val 0, xmword 0 0x03 0 0]
  | .pmovToPred x => some [iword 0x1C (hdBit x.h) x.h.g x.pd.val x.a.code 0, xmword 0 0x04 0 0]
  | .pmovFromPred x => some (x.enc 0x05) | .pcnt x => some (x.enc 0x06)
  | .brx x => some [iword 0x1D 0 x.g 0 x.a.code 0, xmword 0 0x00 0 0]
  | .voteOr x => some (x.enc 0x01) | .voteAnd x => some (x.enc 0x02) | .voteMask x => some (x.enc 0x03)
  | .voteSame x => some [iword 0x1D 0 x.g x.pd.val x.a.code 0, xmword 0 0x04 0 0]
  | .getpc x => some [iword 0x1D 0 x.g x.d.code 0 0, xmword 0 0x08 0 0]
  | .faddXm x => some (x.enc 0x00) | .fsub x => some (x.enc 0x01) | .fmulXm x => some (x.enc 0x02)
  | .ffma x => some (x.enc 0x03) | .fdiv x => some (x.enc 0x04)
  | .fmin x => some (x.enc 0x1E 0x05) | .fmax x => some (x.enc 0x1E 0x06) | .frnd x => some (x.enc 0x1E 0x07)
  | .frcp x => some (x.enc 0x1F 0x00) | .frsq x => some (x.enc 0x1F 0x01) | .fsqrt x => some (x.enc 0x1F 0x02)
  | .fex2 x => some (x.enc 0x1F 0x03) | .flg2 x => some (x.enc 0x1F 0x04) | .fsin x => some (x.enc 0x1F 0x05)
  | .fcos x => some (x.enc 0x1F 0x06) | .fcls x => some (x.enc 0x1F 0x07)
  | .fcmp x => some [iword 0x20 (hdBit x.h) x.h.g x.pd.val x.a.code x.b.code, xmword x.ty.code x.cond.code 0 0]
  | .lmul x => some (x.enc 0x00) | .ldiv x => some (x.enc 0x01) | .ladd x => some (x.enc 0x02)
  | .lsub x => some (x.enc 0x03)
  | .tdot x => some [iword 0x22 (hdBit x.h) x.h.g x.d.code x.a.code x.b.code, xmword Ty.t2.code 0x00 x.c.code 0]
  | .smul x => some [iword 0x22 (hdBit x.h) x.h.g x.d.code x.a.code x.b.code, xmword Ty.i8.code 0x01 0 x.n.val]
  | .sgen x => some [iword 0x22 (hdBit x.h) x.h.g x.d.code x.a.code 0, xmword Ty.i8.code 0x02 0 x.n.val]
  | .cvt x => some [iword 0x23 (hdBit x.h) x.h.g x.d.code x.a.code ((x.b.map Operand.code).getD 0),
      xmword x.dty.code 0x00 0 (Bool.toBit x.el * 256 + Bool.toBit x.nan * 128 + x.rm.code * 32 + x.sty.code)]
  | .mxq x => some (x.enc 0x01) | .mxdq x => some (x.enc 0x02) | .zq x => some (x.enc 0x03)
  | .zdq x => some (x.enc 0x04) | .tpk x => some (x.enc 0x05) | .tunp x => some (x.enc 0x06)
  | .shflSel x => some (x.enc 0x00) | .shflLo x => some (x.enc 0x01) | .shflHi x => some (x.enc 0x02)
  | .shflFlip x => some (x.enc 0x03) | .bcast x => some (x.enc 0x04)
  | .lred x => some [iword 0x24 0 x.g x.d.code x.a.code 0, xmword x.ty.code 0x05 0 x.op.code]
  | .lscan x => some [iword 0x24 0 x.g x.d.code x.a.code 0,
      xmword x.ty.code 0x06 0 (Bool.toBit x.excl * 16 + x.op.code)]
  | .ld x => some (x.enc 0x25 0) | .ldPoll x => some (x.enc 0x25 1) | .ldu x => some (x.enc 0x25 2)
  | .st x => some (x.enc 0) | .stu x => some (x.enc 1)
  | .atomAdd x => some (x.enc 0x27 0) | .atomSub x => some (x.enc 0x27 1) | .atomMin x => some (x.enc 0x27 2)
  | .atomMax x => some (x.enc 0x27 3) | .atomAnd x => some (x.enc 0x28 0) | .atomOr x => some (x.enc 0x28 1)
  | .atomXor x => some (x.enc 0x28 2) | .atomExch x => some (x.enc 0x28 3)
  | .cas x => some [iword 0x29 0 x.g x.d.code x.x.code x.b.code,
      xmword x.ty.code (membyte x.ord x.sc 0) x.c.code x.off.toNat]
  | .ldr x => some (x.enc 0x29 1) | .stc x => some (x.enc 0x29 2)
  | .rst x => some [iword 0x2A 0 x.g 0 x.o.code x.b.code, xmword x.ty.code (membyte x.ord x.sc 0) x.t.code 0]
  | .rld x => some [iword 0x2A 0 x.g x.d.code x.o.code 0, xmword x.ty.code (membyte x.ord x.sc 1) x.t.code 0]
  | .fence x => some [iword 0x2B 0 x.g 0 0 0, xmword 0 (membyte x.ord x.sc 0) 0 0]
  | .sfl x => some (x.enc 0) | .sinv x => some (x.enc 1) | .spf x => some (x.enc 2) | .icinv x => some (x.enc 3)
  | .sig x => some (x.enc 0) | .sigw x => some (x.enc 1)
  | .qstat x => some (x.enc 0x00)
  | .qclose x => some [iword 0x2E 0 x.g 0 (portCode x.q) 0, xmword 0 0x01 0 0]
  | .qpeek x => some (x.enc 0x02)
  | .mma x => some [iword 0x2F 0 x.g x.acc.val x.ta.val x.tb.val,
      xmword x.aty.code 0x00 x.sw.code (x.code.val * 256 + x.bty.code)]
  | .mmas x => some [iword 0x2F 0 x.g x.acc.val x.ta.val x.tb.val,
      xmword x.aty.code 0x01 0 (x.code.val * 256 + x.bty.code)]
  | .mmsp x => some [iword 0x2F 0 x.g x.acc.val x.ta.val x.tb.val,
      xmword x.aty.code 0x02 x.m.code (x.code.val * 256 + x.sel.val * 32 + x.bty.code)]
  | .mloop x => some (x.enc 0x00) | .mloopS x => some (x.enc 0x01)
  | .mloopSp x => some [iword 0x30 0 x.g (futCode x.f) (grpCode x.grp) x.acc.val,
      xmword x.aty.code 0x02 x.mp.code (x.code.val * 256 + x.bty.code)]
  | .tld x => some [iword 0x31 0 x.g x.t.val x.x.code 0, xmword x.ty.code 0x00 0 x.off.toNat]
  | .tst x => some [iword 0x31 0 x.g 0 x.x.code x.t.val, xmword x.ty.code 0x01 0 x.off.toNat]
  | .ttr x => some [iword 0x31 0 x.g x.d.val x.a.val 0, xmword x.ty.code 0x02 0 0]
  | .amov x => some [iword 0x32 0 x.g x.d.val x.a.val 0, xmword x.ty.code 0x00 0 0]
  | .aset x => some [iword 0x32 0 x.g x.d.val x.v.code 0, xmword x.ty.code 0x01 0 0]
  | .azero x => some [iword 0x32 0 x.g x.d.val 0 0, xmword x.ty.code 0x02 0 0]
  | .ard x => some [iword 0x32 0 x.g x.t.val x.a.val 0, xmword x.ty.code 0x03 0 x.rm.code]
  | .scb x => some [iword 0x33 0 x.g 0 x.x.code x.v.code, xmword 0 0x00 0 (Bool.toBit x.isB)]
  | .scinv x => some [iword 0x33 0 x.g 0 0 0, xmword 0 0x01 0 0]
  | .copy x => some (x.enc 0x00) | .gath x => some (x.enc 0x01) | .scat x => some (x.enc 0x02)
  | .coll x => some (x.enc 0x03) | .cmpr x => some (x.enc 0x04)
  | .fwait x => some (x.enc 0x00)
  | .ftest x => some [iword 0x35 0 x.g x.pd.val (futCode x.f) 0, xmword 0 0x01 0 0]
  | .fcancel x => some (x.enc 0x02)
  | .arv x => some [iword 0x36 0 x.g x.d.code x.e.code 0, xmword 0 0x00 0 x.bar.val]
  | .bwait x => some [iword 0x36 0 x.g 0 x.q.code 0, xmword 0 0x01 0 x.bar.val]
  | .bsync x => some [iword 0x36 0 x.g 0 0 0, xmword 0 0x02 0 x.bar.val]
  | .launch x => some [iword 0x37 0 x.g (futCode x.f) (grpCode x.grp) x.q.code, xmword 0 0x00 0 0]
  | .svc x => some [iword 0x37 0 x.g x.d.code x.a.code 0, xmword 0 0x01 0 x.n.toNat]
  | .rte x => some [iword 0x38 0 x.g 0 0 0, xmword 0 0x00 0 0]
  | .csrr x => some [iword 0x38 0 x.g x.d.code 0 0, xmword 0 0x01 0 x.n.toNat]
  | .csrw x => some [iword 0x38 0 x.g 0 x.a.code 0, xmword 0 0x02 0 x.n.toNat]
  | .tokq x => some [iword 0x38 0 x.g x.d.code 0 0, xmword 0 0x03 0 0]
  | .hint x => some [0x38 * 2 ^ 26 + x.iw.toNat, x.ty.toNat * 2 ^ 27 + (0xE0 + x.k.val) * 2 ^ 19 + x.lo.toNat]
  | .voteCnt x => some (x.enc 0x05)
  | .ffmaUnf x => some (x.enc 0x08)
  | .shflWide x => some [iword 0x24 0 x.g x.d.code x.a.code x.b.code, xmword 0 0x07 0 0]
  | .ldNc x => some (x.enc 0x25 3)
  | .mmaTf32 x => some [0x2F * 2 ^ 26 + x.iw.toNat, x.ty.toNat * 2 ^ 27 + 0x03 * 2 ^ 19 + x.lo.toNat]
  | _ => none

/-- The encoding version under which an instruction's words are defined: the retired ones have none in
version 3 (12 R322, R324). -/
def Instr.version : Instr → Nat
  | .voteCnt _ | .ffmaUnf _ | .shflWide _ => 2
  | .ldNc _ | .mmaTf32 _ => 1
  | _ => 3

end Sys2Proof
end

