-- ==== Sys2Proof/Config.lean ====
section
/-! DEFINITION. What the spec leaves to the implementation, and the free values: constants with no
body, so that nothing in Lean can evaluate them. A free value is applied to the plain counter
`State.fresh` or to the operands it depends on (log 8). -/

namespace Sys2Proof.Config

/-- A 32-bit value the spec leaves open, applied to `State.fresh` (log 8). -/
opaque freeWord : Nat → Word

/-- A byte the spec leaves open, applied to `State.fresh` (log 8). -/
opaque freeByte : Nat → Byte

/-- A truth value the spec leaves open, applied to `State.fresh` (log 8). -/
opaque freeBool : Nat → Bool

/-- A natural number the spec leaves open, applied to `State.fresh` (log 8). -/
opaque freeNat : Nat → Nat

/-- The rounding decision of a transcendental result that the interval evaluation at its highest
precision leaves undecided, by function code and operand bits (log 20). -/
opaque undecided : Nat → Nat → Bool

/-- The SHAKE256 digests of the firmware images in the package flash (18 R453, R454), by byte. -/
opaque digestByte : Nat → Byte

/-- The identity public key, derived from the fused device secret (18 R454), by byte. -/
opaque keyByte : Nat → Byte

/-- The ML-DSA-65 signature of the device over a message (18 R454), by byte. -/
opaque signByte : List Byte → Nat → Byte

end Sys2Proof.Config
end

