-- ==== Sys2Proof/Machine/Sparse.lean ====
section
/-! DEFINITION. Tables: sorted lists of key and value pairs, and the one canonical form that memory,
registers, tiles and accumulators share: keys strictly rising and no entry equal to what an unlisted key
reads as, so that equal contents are equal data. -/

namespace Sys2Proof

/-- A table: pairs of key and value, keys strictly rising. -/
abbrev Tab (β : Type) := List (Nat × β)

namespace Tab
variable {β : Type}

/-- The value at a key, if listed. -/
def get? : Tab β → Nat → Option β
  | [], _ => none
  | (k, v) :: t, x => if x = k then some v else get? t x

/-- Replaces or inserts the value at a key, keeping the order. -/
def put : Tab β → Nat → β → Tab β
  | [], x, w => [(x, w)]
  | (k, v) :: t, x, w => if x < k then (x, w) :: (k, v) :: t else if x = k then (k, w) :: t else (k, v) :: put t x w

/-- Removes a key. -/
def del (t : Tab β) (x : Nat) : Tab β := t.filter fun kv => decide (kv.1 ≠ x)

def getD (t : Tab β) (k : Nat) (d : β) : β := (t.get? k).getD d

def has (t : Tab β) (k : Nat) : Bool := (t.get? k).isSome

/-- Changes the value at a key, if listed. -/
def modify (t : Tab β) (k : Nat) (f : β → β) : Tab β := t.map fun kv => if kv.1 = k then (kv.1, f kv.2) else kv

/-- Every listed value changed. -/
def mapV {γ : Type} (t : Tab β) (f : Nat → β → γ) : Tab γ := t.map fun kv => (kv.1, f kv.1 kv.2)

def keys (t : Tab β) : List Nat := t.map (·.1)

def vals (t : Tab β) : List β := t.map (·.2)

/-- Keys strictly rising. -/
def Sorted : Tab β → Prop
  | [] => True
  | [_] => True
  | (a, _) :: (b, v) :: t => a < b ∧ Sorted ((b, v) :: t)

end Tab

/-- Sparse contents: a table in which an unlisted key reads as `d`. -/
abbrev Sparse (β : Type) := Tab β

namespace Sparse
variable {β : Type} [DecidableEq β]

def get (d : β) (m : Sparse β) (k : Nat) : β := (Tab.get? m k).getD d

/-- Writing the value an unlisted key reads as removes the entry. -/
def set (d : β) (m : Sparse β) (k : Nat) (v : β) : Sparse β := if v = d then Tab.del m k else Tab.put m k v

/-- Writes values at successive keys. -/
def fill (d : β) (m : Sparse β) (k : Nat) : List β → Sparse β
  | [] => m
  | v :: vs => fill d (set d m k v) (k + 1) vs

/-- The values at `n` successive keys. -/
def read (d : β) (m : Sparse β) (k : Nat) : Nat → List β
  | 0 => []
  | n + 1 => get d m k :: read d m (k + 1) n

/-- The canonical form. -/
def wf (d : β) (m : Sparse β) : Prop := Tab.Sorted m ∧ ∀ kv ∈ m, kv.2 ≠ d

end Sparse

end Sys2Proof
end

