-- ==== Sys2Proof/Machine/State.lean ====
section
/-! DEFINITION. The state of the ZP-1: every piece of state the spec gives the machine, as plain data,
and the state after reset (18 R453). INVENTORY.md, State, names the rule and the reset value of each. -/

namespace Sys2Proof.Machine

/-! ## Warps (01 R33, R44; 06 R159 to R178) -/

/-- An entry of a long accumulator: 640-bit two's complement and its three flags (01 R35, 02 R85). -/
structure LongEntry where
  n : BitVec 640
  nan : Bool
  pinf : Bool
  ninf : Bool
  deriving DecidableEq, Repr

/-- What will resolve an empty future (01 R46), or why nothing can (01 R48): `gone` carries the FUTDEAD
subcode, 1 exited, 2 faulted, 3 cancelled (06 R178). -/
inductive Producer
  | engine (op : Nat)
  | mloop (seq : Nat)
  | launch (queue : Nat) (seq : Word)
  | gone (sub : Nat)
  deriving DecidableEq, Repr

/-- A blocked lane's wake condition (06 R160). `bsync` is kind BARRIER: its arrival has reached the slot
or is still on its way. Of a path that waits for a port, the lanes that lack an entry or room are `short`; the others wait with
them. `svc` is kind SIGNAL. Lanes blocked by `bsync` and `svc` already stand past it. `fetch` is kind PAGE for a code fetch or a handler-table
read, waiting on record `fnum` of `die`. `released` is a wait that its barrier's release has ended: the lane may issue from the
next cc on (07 R187). -/
inductive Wake
  | barrier (idx : Nat)
  | bsync (idx : Nat) (arrived : Bool)
  | portRd (p : Port) (short : Bool)
  | portWr (p : Port) (short : Bool)
  | future (k : Fin 8)
  | remote (entry : Nat)
  | signal (addr : DWord)
  | svc
  | page (entry : Nat)
  | fetch (addr : DWord) (die : Nat) (fnum : Word)
  | released (idx : Nat)
  deriving DecidableEq, Repr

/-- Handler mode and the handler specials (06 R178). -/
structure Handler where
  on : Bool
  cause : Word
  epc : Word
  tpath : LaneMask
  tmask : LaneMask
  tlane : Word
  tval : Word
  tvalh : Word
  deriving DecidableEq, Repr

/-- One memory instruction that has issued and has incomplete lanes (06 R168, R173): its index among the 8 entries
of the log, its sources by lane, its completion mask, the page fault each waiting lane has joined (die and fault
number), by word of its destination the lanes in which a younger instruction has written it since, and the core that it
issued on (05 R148). -/
structure LogEntry where
  slot : Nat
  instr : Instr
  pc : Word
  path : LaneMask
  active : LaneMask
  done : LaneMask
  addr : List DWord
  b : List DWord
  c : List DWord
  faults : Tab (Nat × Word)
  pinned : Bool
  dead : Tab LaneMask
  core : Nat
  /-- of an `mmas`: the team scale binding it was issued with (16 R414) -/
  scb : BitVec 512
  deriving DecidableEq, Repr

/-- Trap causes (06 R177). -/
inductive Cause | illegal | resv | retired | align | regnum | rangelock | portdead | futdead | user | brk
  deriving DecidableEq, Repr

/-- A trap whose handler-table entry is still being paged in (03 R98): the path and its instruction, the cause with its subcode, the trap mask and the reported value. -/
structure PendTrap where
  path : LaneMask
  pc : Word
  len : Nat
  last : Bool
  cause : Cause
  sub : Nat
  mask : LaneMask
  val : DWord
  deriving DecidableEq, Repr

/-- One lane's inbound FIFO (09 R219, R221): entries oldest first; 0 open, 1 closed by qclose, 2 closed
by exit, 3 broken. -/
structure Fifo where
  q : List Word
  st : Nat
  deriving DecidableEq, Repr

/-- A reservation (11 R288): the line and the cycle count of the `ldr`. -/
structure Resv where
  line : Nat
  cc : Nat
  deriving DecidableEq, Repr

/-- A pin of a warp (18 R451): identifier, PINC code, pinned lanes, PC and length of the instruction,
whether it was the last of its clause, the operand-log entry it stands in, if any, and whether it stands for a trap that
found no handler (03 R98; 06 R175). -/
structure WarpPin where
  id : Nat
  cause : Nat
  lanes : LaneMask
  pc : Word
  len : Nat
  last : Bool
  entry : Option Nat
  trap : Bool
  deriving DecidableEq, Repr

/-- A path waiting for a service reply (06 R179): its lanes, active lanes and destination. -/
structure SvcWait where
  path : LaneMask
  active : LaneMask
  d : Operand
  deriving DecidableEq, Repr

structure Warp where
  team : Nat
  no : Nat
  slot : Nat
  gen : BitVec 8
  /-- allotments V, S, T, A (06 R174 ALLOT) -/
  va : Nat
  sa : Nat
  ta : Nat
  aa : Nat
  pcv : List Word
  exited : LaneMask
  demoted : LaneMask
  /-- lanes whose PC enters the clause it names (12 R303) -/
  entering : LaneMask
  /-- the clause header each lane stands inside; a lane in neither resumes by search (12 R302) -/
  inside : Tab Word
  wake : Tab Wake
  pins : List WarpPin
  handler : Handler
  traps : List PendTrap
  /-- lanes exempt from the breakpoint check of their next instruction (17 R441) -/
  bpExempt : LaneMask
  fairTimer : Nat
  fairLeft : Nat
  fairPath : LaneMask
  /-- the lowest-key path that waited when the fairness timer last counted (06 R167) -/
  fairNext : LaneMask
  /-- the cc until which the warp defers to others (13 R356) -/
  yieldUntil : Nat
  /-- the cc of the first failed draw since the last draw (10 R247) -/
  tempoSince : Option Nat
  v : Sparse Word
  u : Sparse Word
  p : Sparse LaneMask
  tiles : Sparse Byte
  accs : Sparse Word
  laccs : Sparse LongEntry
  /-- poisoned register elements, keyed by class and element (18 R448) -/
  marks : Tab Unit
  fut : Tab Producer
  log : Tab LogEntry
  fifo : Tab Fifo
  outClosed : Sparse LaneMask
  resv : Tab Resv
  svcs : List SvcWait
  /-- paths whose engine operation is held up at its issue by a page fault: die and fault number (17 R426, R431) -/
  held : List (LaneMask × Nat × Word)
  deriving DecidableEq, Repr

/-! ## Teams, gangs, barriers, grids -/

/-- A team (01 R25): gang, position in the gang, core, warps, team scale binding (16 R413), barrier. -/
structure Team where
  gang : Nat
  pos : Nat
  core : Nat
  warps : Nat
  scb : BitVec 512
  bar : Nat
  retired : Bool
  deriving DecidableEq, Repr

inductive GangSt | allotted | staged | running | evicted | restored | retired
  deriving DecidableEq, Repr

/-- A gang (06 R158): grid, number, state, north-west core, shape in rows and columns, teams by age
ordinal, barrier ids by index, the unit it is evicted with (06 R170), eviction mark and progress. -/
structure Gang where
  grid : Word
  num : Nat
  st : GangSt
  die : Nat
  row : Nat
  col : Nat
  teams : List Nat
  bars : List Nat
  unit : Nat
  placedAt : Nat
  mark : Bool
  evicting : Bool
  freed : Bool
  /-- dirty on-touch lines by line of location: the cc they became dirty and the team's position (11 R264, R267) -/
  dirty : Tab (Nat × Nat)
  /-- lines a write-back region owns, with the team's position (11 R264), and how many of them a retired gang is
  writing home (05 R145) -/
  wb : Tab Nat
  wbOut : Nat
  /-- scratch bytes of the window (11 R268), and its poisoned lines of 128 bytes (18 R448) -/
  scratch : List Host.Cell
  scratchBad : Tab Unit
  deriving DecidableEq, Repr

inductive BarSt | free | armed | released | saved
  deriving DecidableEq, Repr

/-- An arrival that belongs to the next phase (07 R185): its warp and bytes, and the lanes of a `bsync` path. -/
structure LateArr where
  warp : Nat
  e : Nat
  core : Nat
  path : LaneMask
  sync : Bool
  deriving DecidableEq, Repr

/-- A barrier (07 R183, R184): the implicit barrier of a team, or a slot of a barrier group. `all` says
that COUNT was 0, `slot` is the physical slot in `cluster`, `relAt` the cc of the last release. -/
structure Bar where
  st : BarSt
  ph : Bool
  expw : Nat
  cnt : Nat
  arrived : List Nat
  bexp : Nat
  barr : Nat
  txb : Nat
  all : Bool
  /-- 32 for a team barrier -/
  idx : Nat
  /-- the warps it serves -/
  group : List Nat
  cluster : Nat
  slot : Option Nat
  relAt : Nat
  late : List LateArr
  deriving DecidableEq, Repr

/-- An arrival on its way to a barrier (07 R186), and the cc in which it reaches the slot: the destination of an
`arv`, or a `bsync` path. -/
structure Arrival where
  due : Nat
  bar : Nat
  warp : Nat
  e : Nat
  path : LaneMask
  active : LaneMask
  d : Option Operand
  deriving DecidableEq, Repr

/-- A warp's exit on its way to a barrier (07 R190), and the cc in which it reaches it. -/
structure ExitMsg where
  due : Nat
  bar : Nat
  warp : Nat
  deriving DecidableEq, Repr

structure Grid where
  ctx : Nat
  queue : Nat
  seq : Word
  lrec : BitVec 1024
  kcb : BitVec 512
  regions : List (BitVec 256)
  portmap : BitVec 256
  bents : List (BitVec 64)
  /-- bound die class, 0 M, 1 L, 2 X, 3 T (05 R140) -/
  cls : Nat
  placed : Nat
  parent : Option Word
  /-- children not yet completed, reported or failed (05 R149), and those of the reports being delivered that have been
  counted, by grid identifier (22 R481) -/
  kids : Nat
  counted : List Word
  poison : Nat
  killed : Bool
  reported : Bool
  deriving DecidableEq, Repr

/-! ## Cores, clusters, dies -/

/-- Why a matrix step runs: a single step, or ply `p` of a loop sequencer. -/
inductive StepSrc | single | ply (seq : Nat)
  deriving DecidableEq, Repr

/-- A licensed matrix step (16 R408): the operation, its step word, metadata string (`mmsp`) and scales, the
operand-log entry that still reads its scales, the cc of its draw, its datapath time, the cc in which it began to wait
for a grant (10 R251), and, once started, the rows it has read and the cc it ends. An `mmas` is one step on both
windows. -/
structure MStep where
  warp : Nat
  acc : Nat
  instr : Instr
  src : StepSrc
  sw : Word
  mdata : Nat
  scaleA : List Nat
  scaleB : List Nat
  entry : Option Nat
  drawn : Nat
  time : Nat
  waits : Option Nat
  rowsA : List (List Byte)
  rowsB : List (List Byte)
  ends : Option Nat
  deriving DecidableEq, Repr

/-- One loop sequencer in use (16 R416 to R418): plies drawn and completed, and, for K.FS8, the exact partial
sums of the running k-block, entry 64i+j in units of 2^-18, with the entries that a NaN has reached. -/
structure Mloop where
  core : Nat
  warp : Nat
  ctx : Nat
  acc : Nat
  /-- bounding ranges of its reads: first byte and length (16 R418) -/
  rd : List (Nat × Nat)
  instr : Instr
  pc : Word
  fut : Fin 8
  params : BitVec 256
  mp : DWord
  scb : BitVec 512
  drawn : Nat
  ply : Nat
  part : Sparse Int
  nans : Sparse Bool
  cancelled : Bool
  fault : Option (Nat × Word)
  deriving DecidableEq, Repr

/-- Register-bank grants (10 R253, R254): the cc they were last given in and how many of it, and what the issued
instructions that wait for more still lack, the oldest first. -/
structure Grants where
  cc : Nat
  given : Nat
  queue : List Nat
  deriving DecidableEq, Repr

structure Core where
  /-- tempi in the pool (10 R244) -/
  pool : Nat
  stale : Word
  lsat : Word
  t2inv : Word
  zwrap : Word
  cvsat : Word
  barmis : Word
  qdrop : Word
  bgwait : Word
  lad : List Word
  poison : Word
  ladsel : Word
  bp : List Word
  /-- generation of each warp slot (01 R51) and generations still carried by returns (01 R52) -/
  gens : Sparse (BitVec 8)
  outstandingGens : List (Nat × BitVec 8)
  /-- outstanding counter slots: grid and count (05 R148) -/
  out : List (Word × Nat)
  /-- critical order, head first (10 R248) -/
  critical : List Nat
  /-- drew tempi, or held a warp stalled for tempi, in this revolution and in the last (10 R243) -/
  demandNow : Bool
  demandPrev : Bool
  drawn : Nat
  mq : List MStep
  /-- warp, accumulator and cc of the step that ended last (16 R408) -/
  ended : Option (Nat × Nat × Nat)
  grants : Grants
  /-- pool and critical order before the draws of this cycle, while the second port still issues (17 R445) -/
  before : Option (Nat × List Nat)
  /-- code lines in L0, oldest first: line of location and bytes (11 R261, R271) -/
  l0 : List (Nat × List Byte)
  deriving DecidableEq, Repr

inductive ClusterSt | pooled | draining | ramping
  deriving DecidableEq, Repr

structure Cluster where
  cls : BitVec 2
  /-- clock and voltage in force, the latter in mV, and the hub cycle in which the ramp began (10 R257) -/
  clock : BitVec 2
  volt : Nat
  rampAt : Nat
  st : ClusterSt
  target : BitVec 2
  pend : Option (BitVec 2)
  level : Nat
  reserve : Nat
  /-- filler operations of this revolution (10 R252) -/
  filled : Nat
  /-- cycle counter at hub cycle `hcBase`; it runs at the class clock (01 R42, 10 R257) -/
  ccBase : Nat
  hcBase : Nat
  lastRefill : Nat
  /-- slew boundaries up to the last one taken: its number and 1 (10 R250) -/
  lastSlew : Nat
  droops : BitVec 16
  lastDroop : Option Nat
  deriving DecidableEq, Repr

inductive Thermal | normal | reduced | minimum
  deriving DecidableEq, Repr

structure Die where
  thermal : Thermal
  /-- over budget in the last revolution (10 R254) -/
  overBudget : Bool
  /-- marked failed since reset: all eight die links Down (09 R227) -/
  failed : Bool
  nextFnum : Word
  deriving DecidableEq, Repr

/-- A fault-table entry (08 R205 to R207). -/
structure FaultEnt where
  ctx : Nat
  va : DWord
  joins : Nat
  acc : AccKind
  kind : Nat
  level : Nat
  grid : Word
  written : Bool
  deriving DecidableEq, Repr

/-- A TLB entry (08 R201): the level and unit that hold it, the tag, and the translation. -/
structure TlbEnt where
  level : Nat
  unit : Nat
  ctx : Nat
  vpage : Nat
  /-- page size exponent -/
  size : Nat
  pte : DWord
  /-- the surface record, zero without a surface (08 R212) -/
  srec : BitVec 512
  deriving DecidableEq, Repr

/-- A line in the LLC (03 R105 to R107; 11 R261): the class and the context that filled it (64: none), its fill order,
and the window of the schedule entry that tags it. -/
structure LlcLine where
  cls : Nat
  ctx : Nat
  fill : Nat
  tag : Option (Nat × Nat)
  deriving DecidableEq, Repr

/-! ## Hub objects -/

inductive CtxSt | created | active | quiescing | suspended | destroyed
  deriving DecidableEq, Repr

structure Ctx where
  st : CtxSt
  desc : BitVec 512
  sclass : BitVec 4
  phase : BitVec 16
  evt : Bool
  sched : List (BitVec 256)
  deriving DecidableEq, Repr

inductive QueueSt | free | disabled | enabled
  deriving DecidableEq, Repr

structure Queue where
  st : QueueSt
  desc : BitVec 256
  nextSeq : Word
  /-- positions of head and tail, counted from creation -/
  head : Nat
  tail : Nat
  qoff : Word
  qcred : Word
  qdup : Word
  qgap : Word
  qfull : Word
  qbad : Word
  /-- hub cycle at which the head became head (04 R122) -/
  headSince : Nat
  passedSince : Option Nat
  reserved : Bool
  /-- launching grids of child records in the ring, by SEQ, and whether they were killed (05 R151) -/
  parents : Tab (Word × Bool)
  /-- the watch entry of the head: the location of the signal it waits for (04 R121) -/
  watch : Option Nat
  /-- the hub cycle in which it left Enabled: a head taken in that cycle is still placed (04 R113) -/
  offAt : Option Nat
  /-- the JSEQ of the QCFG entry of its creation, if a dispatch core was active (04 R127, R129) -/
  born : Option Nat
  deriving DecidableEq, Repr

/-- A retirement report of the placer (04 R125, 05 R149). -/
structure Report where
  grid : Word
  ctx : Nat
  queue : Nat
  seq : Word
  csig : DWord
  cval : DWord
  parent : Option Word
  killed : Bool
  poison : Nat
  deriving DecidableEq, Repr

inductive JType | enq | place | done | fail | ckpt | qcfg
  deriving DecidableEq, Repr

/-- A journal entry (04 R126); `bad` when its CHECK no longer matches. -/
structure JEntry where
  jseq : Nat
  ty : JType
  queue : Nat
  rseq : Word
  grid : Word
  addr : DWord
  value : DWord
  bad : Bool
  deriving DecidableEq, Repr

/-- What Uliend keeps (04 R127): the live grids it has journalled, and the journalled tail per queue. -/
structure Uliend where
  grids : List Word
  tails : Tab Nat
  deriving DecidableEq, Repr

inductive DispSt | active | standby | failed
  deriving DecidableEq, Repr

inductive EngKind | copy | gath | scat | coll | cmpr
  deriving DecidableEq, Repr

/-- An engine operation (17 R424 to R434): its barrier is 0 for none, else 1 more than the barrier's key; with its global read and write ranges (first byte and
length), its stash ranges (read, write), and, for `coll`, the issue number on its group, the grants and the data received. -/
structure EngOp where
  kind : EngKind
  desc : BitVec 256
  scope : Scope
  bar : Nat
  warp : Nat
  gang : Nat
  grid : Word
  ctx : Nat
  die : Nat
  core : Nat
  fut : Fin 8
  started : Bool
  /-- the hub cycle of its `fcancel` (17 R436) -/
  cancelled : Option Nat
  pinned : Option (Nat × DWord)
  released : Bool
  fault : Option (Nat × Word)
  rd : Option (Nat × Nat)
  wr : Option (Nat × Nat)
  srd : Option (Nat × Nat)
  swr : Option (Nat × Nat)
  idx : List Nat
  /-- the surface a `cmpr` writes (08 R215) -/
  surf : Nat
  seq : Nat
  grants : List Grant
  data : Tab (List Byte)
  /-- of a `coll`: 0 not yet paired, 1 its grants are sent -/
  status : Nat
  /-- of a `coll`: it is an issue of its group; a grant of a member differs from its descriptor (17 R432) -/
  numbered : Bool
  differs : Bool
  /-- saturation events so far, and whether it has read a poisoned line -/
  ev : Nat
  poison : Bool
  deriving DecidableEq, Repr

/-- The shard of an issue that has resolved here, kept for the ranks that have not yet granted credit (17 R432, R433): the
issue, its descriptor, the bytes on the wire, and those ranks. -/
structure KeptShard where
  seq : Nat
  desc : BitVec 256
  data : List Byte
  ranks : List Nat
  deriving DecidableEq, Repr

/-- A collective group (17 R432): context, members in rank order, issues so far, the grants of peers
that issued before this package, and the shards kept for peers that will issue after it. -/
structure CollGroup where
  ctx : Nat
  members : List Nat
  issued : Nat
  early : List Grant
  kept : List KeptShard
  deriving DecidableEq, Repr

inductive LinkSt | reset | training | up | degraded | down
  deriving DecidableEq, Repr

structure LinkS where
  st : LinkSt
  width : Nat
  hold : Bool
  cvsati : Word
  cvsato : Word
  deriving DecidableEq, Repr

/-- A pinned master (18 R451): a remote requester is one of them (log 18). -/
inductive Master | warp (w : Nat) | engine (op : Nat)
  deriving DecidableEq, Repr

/-- A pin and its record (18 R451); `written` when it stands in the pin list. -/
structure Pin where
  id : Nat
  master : Master
  cause : Nat
  ctx : Nat
  grid : Word
  gang : Nat
  team : Nat
  warp : Nat
  pc : Word
  addr : DWord
  written : Bool
  deriving DecidableEq, Repr

/-- An error-log entry (18 R450). -/
structure ErrEnt where
  addr : DWord
  chan : Nat
  ue : Bool
  stamp : Word
  deriving DecidableEq, Repr

/-- A reply to an Edwick command: the request's command code and OPLEN, status and result (09 R236, R237). -/
structure EdwReply where
  src : Nat
  tag : BitVec 16
  cmd : Nat
  oplen : Nat
  status : Nat
  result : List DWord
  deriving DecidableEq, Repr

/-- A service record (17 R440). -/
structure SvcRec where
  warp : Nat
  n : Nat
  mask : LaneMask
  ctx : Nat
  grid : Word
  place : Word
  who : Word
  words : List Word
  deriving DecidableEq, Repr

/-- An entry, a close (1, 2) or a break (3) on its way to a peer lane's FIFO (09 R219 to R221). -/
structure PortMsg where
  warp : Nat
  p : Port
  lane : Nat
  entry : Option Word
  close : Nat
  deriving DecidableEq, Repr

/-- The path, and the instruction of it, that is issuing. -/
structure Issue where
  w : Nat
  path : LaneMask
  pc : Word
  len : Nat
  last : Bool
  deriving DecidableEq, Repr

/-- What moves next (log 5): an event of the table, the issue of a core through its first fetch port, then, through
its second, of the path `m` of warp `w` that was chosen with the first (`only`: the first of the two, of the same
warp, has raised a trap or a pin and this one retires beside it, 06 R175), or time. -/
inductive Turn
  | event (e : Instr)
  | issue (core : Nat)
  | second (core w : Nat) (m : LaneMask) (only : Bool)
  | elapse (hc : Nat)
  deriving DecidableEq, Repr

inductive Boot | ready | rejected | failed
  deriving DecidableEq, Repr

/-- Values fused into the package or loaded with its firmware (18 R453, R454; log 1). -/
structure Fused where
  partB : Bool
  pkg : Nat
  fwVersion : BitVec 16
  rollback : BitVec 16
  /-- dies that failed their self-test (18 R453 step 3) -/
  failedDies : BitVec 12
  allow : List Nat
  /-- the signatures of the firmware images verify (18 R453 step 2) -/
  imagesOk : Bool
  /-- an HBM stack has failed (18 R453 step 3) -/
  stackFailed : Bool
  /-- links, by code, that fail their training at bring-up (18 R453 steps 3 and 5) -/
  badLinks : List Nat
  deriving DecidableEq, Repr

/-- Hub counters (04 R117, 09 R232 and R236, 10 R243 and R257, 17 R427, 18 R450). -/
structure HubCounters where
  ontbad : Word
  edwbad : Word
  unroute : Word
  pwrflr : Word
  pwrcoal : Word
  collsat : Word
  cmprsat : Word
  elovf : Word
  deriving DecidableEq, Repr

/-- The placer's own state (04 R122, R128; 06 R164) and the next numbers it hands out. -/
structure Placer where
  stopped : Bool
  rr : Tab Nat
  nextAge : Nat
  nextSerial : Nat
  nextGang : Nat
  nextBar : Nat
  nextOp : Nat
  nextPin : Nat
  /-- no placement before this hub cycle (04 R123) -/
  nextPlace : Nat
  deriving DecidableEq, Repr

/-- Dispatch cores, completion FIFO, hold buffer and journal (04 R125 to R131): castling, until placement restarts; the
reports, and how many of the four steps of delivering the oldest one are done (22 R480). -/
structure Dispatch where
  cores : List DispSt
  castling : Bool
  fifo : List Report
  steps : Nat
  uliend : Uliend
  nextJseq : Nat
  journal : List JEntry
  sinceCkpt : Nat
  ckpts : List Uliend
  ckptArea : Nat
  deriving DecidableEq, Repr

/-- The error hardware and pin list (18 R447 to R451). -/
structure Errs where
  cec : Sparse Word
  uec : Sparse Word
  log : List ErrEnt
  svcFailed : List Bool
  hubFatal : Bool
  pins : List Pin
  /-- Edwick events raised: 0 thermal with its die, 1 fatal, 2 no dispatch core left (04 R131, 10 R259, 18 R447) -/
  events : List (Nat × Nat)
  deriving DecidableEq, Repr

/-- The fault ring (08 R206, R491) and the fault tables of the dies, keyed die * 2^32 + FNUM. -/
structure Paging where
  ringBase : DWord
  head : BitVec 13
  tail : BitVec 13
  faults : Tab FaultEnt
  tlb : List TlbEnt
  /-- the register FREPLY (08 R207) -/
  freply : DWord
  deriving DecidableEq, Repr

/-- A gang's image in the save pool (06 R173): its length, and its bytes by offset. A byte not listed is zero, or one of
those whose contents the spec does not lay out (log 55). -/
structure Image where
  len : Nat
  bytes : List Host.Cell
  deriving DecidableEq, Repr

/-- Save pool (06 R171), and the images in it, by gang. -/
structure SavePool where
  base : DWord
  len : DWord
  saved : Tab Image
  deriving DecidableEq, Repr

/-- What leaves the package: the answer to a pod request; the answer to an endpoint's read; over a queue pair the answer to
an RDMA read, a write, and a read request with its length; a credit grant and a shard of a collective (09 R233, R235; 17
R429, R432, R433). -/
inductive Sent
  | pod (bs : List Byte)
  | endpoint (pkg : Nat) (bs : List Byte)
  | rdmaReply (qp : Nat) (bs : List Byte)
  | rdmaWrite (qp : Nat) (va : DWord) (bs : List Byte)
  | rdmaRead (qp : Nat) (va : DWord) (n : Nat)
  | grant (pkg seq : Nat) (desc : BitVec 256)
  | shard (pkg group seq : Nat) (bs : List Byte)
  deriving DecidableEq, Repr

/-- The host port and management channel (09 R235 to R237). -/
structure HostPort where
  udpPort : BitVec 16
  /-- last tag and reply per source -/
  last : Tab EdwReply
  replies : List EdwReply
  qpSlow : Sparse Bool
  /-- what has left the package, the latest last -/
  sent : List Sent
  deriving DecidableEq, Repr

/-- The power manager (10 R241 to R243). -/
structure Power where
  q : Nat
  lastRev : Nat
  /-- energy licensed in each of the last 8 revolutions, in picojoules, the latest first (10 R241) -/
  licensed : List Nat
  deriving DecidableEq, Repr

structure State where
  fused : Fused
  boot : Boot
  hc : Nat
  lastSweep : Nat
  counters : HubCounters
  scls : List Word
  ctxs : Tab Ctx
  /-- the hub cycle in which a context number was last destroyed (03 R101) -/
  freedAt : Tab Nat
  queues : Tab Queue
  placer : Placer
  disp : Dispatch
  grids : Tab Grid
  gangs : Tab Gang
  teams : Tab Team
  warps : Tab Warp
  bars : Tab Bar
  arrivals : List Arrival
  exits : List ExitMsg
  flight : List PortMsg
  cores : Tab Core
  clusters : Tab Cluster
  dies : Tab Die
  power : Power
  mloops : Tab Mloop
  ops : Tab EngOp
  groups : Tab CollGroup
  svcRing : List SvcRec
  errs : Errs
  paging : Paging
  pool : SavePool
  links : Tab LinkS
  routes : Sparse DWord
  acts : Sparse DWord
  host : HostPort
  /-- memory by location: package * 2^39 + canonical offset (11 R262) -/
  mem : List Host.Cell
  /-- lines whose HBM bytes are older than the coherent ones (11 R272, R296) -/
  hbmOld : Tab (List Byte)
  /-- lines of local HBM in the LLC, and how many fills there have been (03 R107) -/
  llc : Tab LlcLine
  llcFills : Nat
  poisonLines : Tab Unit
  /-- lines of compressed surfaces, data and metadata, written past the compressor (08 R213) -/
  spoiled : Tab Unit
  /-- the model's own fields (log 5, 8): the issuing path, what moves next, the free-value counter -/
  cur : Option Issue
  agenda : List Turn
  fresh : Nat
  deriving DecidableEq, Repr

/-- Why the model stops with a fault. The device itself never stops (INVENTORY, Faults). -/
inductive Fault
  /-- `exec` was given a Nozin instruction while no path is issuing, or the issuing warp is not placed:
  not a state of the machine. Raised by `settle` of Machine/Ops.lean. Safe: the machine never issues an
  instruction of no warp. -/
  | noIssue
  deriving DecidableEq, Repr

/-- Why the model gives no meaning. -/
inductive Refusal
  /-- An instruction without a meaning in this model, by its mnemonic. Raised by the arms of
  Machine/Dispatch.lean alone. Safe: nothing is claimed of it. -/
  | notModelled (mnemonic : String)
  deriving DecidableEq, Repr

/-- A core after die reset: a full pool and zero counters (01 R42, 10 R244; log 9). -/
def Core.reset : Core where
  pool := 64
  stale := 0#32
  lsat := 0#32
  t2inv := 0#32
  zwrap := 0#32
  cvsat := 0#32
  barmis := 0#32
  qdrop := 0#32
  bgwait := 0#32
  lad := [0#32, 0#32, 0#32, 0#32]
  poison := 0#32
  ladsel := 0#32
  bp := [0#32, 0#32, 0#32, 0#32]
  gens := []
  outstandingGens := []
  out := []
  critical := []
  demandNow := false
  demandPrev := false
  drawn := 0
  mq := []
  ended := none
  grants := ⟨0, 0, []⟩
  before := none
  l0 := []

/-- A cluster after bring-up: Pooled at C2 (10 R256, 18 R453 step 5), ramp reserve full (10 R252). -/
def Cluster.reset : Cluster where
  cls := 2#2
  clock := 2#2
  volt := 750
  rampAt := 0
  st := .pooled
  target := 2#2
  pend := none
  level := 0
  reserve := 64
  filled := 0
  ccBase := 0
  hcBase := 0
  lastRefill := 0
  lastSlew := 0
  droops := 0#16
  lastDroop := none

def Die.reset : Die := ⟨.normal, false, false, 0#32⟩

/-- A link after bring-up: trained to full width (18 R453 step 5; log 9): 8 modules of a die link, 4
lanes of a pod port or endpoint, 8 of the host port. -/
def LinkS.reset (code : Nat) : LinkS :=
  ⟨.up, if code < 96 ∨ 136 ≤ code then 8 else 4, false, 0#32, 0#32⟩

/-- A queue after bring-up (18 R453 step 5). -/
def Queue.reset : Queue where
  st := .free
  desc := 0#256
  nextSeq := 0#32
  head := 0
  tail := 0
  qoff := 0#32
  qcred := 0#32
  qdup := 0#32
  qgap := 0#32
  qfull := 0#32
  qbad := 0#32
  headSince := 0
  passedSince := none
  reserved := false
  parents := []
  watch := none
  offAt := none
  born := none

def Fused.reset : Fused where
  partB := false
  pkg := 0
  fwVersion := 0#16
  rollback := 0#16
  failedDies := 0#12
  allow := [0]
  imagesOk := true
  stackFailed := false
  badLinks := []

/-- The boot state that bring-up ends in (18 R453): Rejected when an image fails its verification or its version stands
below the fused rollback version, Failed with a failed HBM stack. -/
def Fused.boot (f : Fused) : Boot :=
  if ¬ f.imagesOk ∨ f.fwVersion < f.rollback then .rejected else if f.stackFailed then .failed else .ready

/-- The links that do not come up (18 R453): those that fail their training; of a rejected package all but the host port,
which alone is brought up. -/
def Fused.links (f : Fused) : Tab LinkS :=
  let off (st : LinkSt) (ks : List Nat) : Tab LinkS :=
    ks.foldl (fun t k => t.put k { LinkS.reset k with st := st, width := 0 }) []
  if f.boot = .rejected then off .reset (List.range 136) else off .down f.badLinks

/-- The dies that fail because their eight links all fail training (18 R453 step 3). -/
def Fused.dies (f : Fused) : Tab Die :=
  ((List.range 12).filter fun d => (List.range 8).all fun j => f.badLinks.contains (8 * d + j)).map fun d =>
    (d, { Die.reset with failed := true })

/-- The machine after bring-up with the given fused values (18 R453). -/
def State.afterReset (f : Fused) : State where
  fused := f
  boot := f.boot
  hc := 0
  lastSweep := 0
  counters := ⟨0#32, 0#32, 0#32, 0#32, 0#32, 0#32, 0#32, 0#32⟩
  scls := 0xE0014000#32 :: List.replicate 15 0#32
  ctxs := []
  freedAt := []
  queues := []
  placer := ⟨false, [], 0, 0, 0, 0, 0, 0, 0⟩
  disp := ⟨[.active, .standby], false, [], 0, ⟨[], []⟩, 0, [], 0, [⟨[], []⟩, ⟨[], []⟩], 0⟩
  grids := []
  gangs := []
  teams := []
  warps := []
  bars := []
  arrivals := []
  exits := []
  flight := []
  cores := []
  clusters := []
  dies := f.dies
  power := ⟨64, 0, []⟩
  mloops := []
  ops := []
  groups := []
  svcRing := []
  errs := ⟨[], [], [], [false, false], false, [], []⟩
  paging := ⟨0#64, 0#13, 0#13, [], [], 0#64⟩
  pool := ⟨0#64, 0#64, []⟩
  links := f.links
  routes := []
  acts := []
  host := ⟨9171#16, [], [], [], []⟩
  mem := []
  hbmOld := []
  llc := []
  llcFills := 0
  poisonLines := []
  spoiled := []
  cur := none
  agenda := []
  fresh := 0

/-- The machine right after reset, with the fused values of log 1. -/
def State.reset : State := State.afterReset Fused.reset

end Sys2Proof.Machine
end

