-- ==== Sys2Proof/Machine/Basic.lean ====
section
/-! DEFINITION. Accessors of the state: cores, clusters and clocks (01 R22 to R26, R42; 10 R255), the
fields of kernel control blocks and launch records (05 R136, R137), the object a warp belongs to, and
register access. -/

namespace Sys2Proof.Machine

/-! ## Cores, clusters, dies (01 R22, R23) -/

/-- Core number over the package: 64 cores a die, 8 a row. -/
def coreKey (die row col : Nat) : Nat := die * 64 + row * 8 + col
def coreDie (k : Nat) : Nat := k / 64
def coreRow (k : Nat) : Nat := k % 64 / 8
def coreCol (k : Nat) : Nat := k % 8
/-- Cluster on its die: (row div 2) × 2 + (column div 4). -/
def coreClusterNo (k : Nat) : Nat := coreRow k / 2 * 2 + coreCol k / 4
/-- Cluster number over the package. -/
def coreCluster (k : Nat) : Nat := coreDie k * 8 + coreClusterNo k
/-- The cores of a cluster, in ascending number. -/
def clusterCores (cl : Nat) : List Nat :=
  (List.range 64).filterMap fun i =>
    let k := cl / 8 * 64 + i
    if coreCluster k = cl then some k else none

/-- Die class by part number: 0 M, 1 L, 2 X, 3 T (01 R23, R42). -/
def dieClass (f : Fused) (d : Nat) : Nat :=
  if f.partB then (if d < 10 then 0 else 2)
  else if d < 6 then 0 else if d < 8 then 1 else if d < 10 then 2 else 3

def State.core (s : State) (k : Nat) : Core := s.cores.getD k Core.reset
def State.modCore (s : State) (k : Nat) (f : Core → Core) : State :=
  { s with cores := s.cores.put k (f (s.core k)) }
def State.cluster (s : State) (k : Nat) : Cluster := s.clusters.getD k Cluster.reset
def State.modCluster (s : State) (k : Nat) (f : Cluster → Cluster) : State :=
  { s with clusters := s.clusters.put k (f (s.cluster k)) }
def State.die (s : State) (k : Nat) : Die := s.dies.getD k Die.reset
def State.modDie (s : State) (k : Nat) (f : Die → Die) : State := { s with dies := s.dies.put k (f (s.die k)) }
def State.dieFailed (s : State) (d : Nat) : Bool := s.fused.failedDies.getLsbD d || (s.die d).failed

/-- Compute cycles per 20 hub cycles at each operating class (10 R255; hub clock 2.0 GHz, 00 R2). -/
def ccRate (cls : BitVec 2) : Nat :=
  match cls.toNat with
  | 0 => 6 | 1 => 8 | 2 => 10 | _ => 12

/-- The cluster's cycle counter (01 R42). -/
def Cluster.cc (c : Cluster) (hc : Nat) : Nat := c.ccBase + (hc - c.hcBase) * ccRate c.clock / 20

def State.clusterCc (s : State) (cl : Nat) : Nat := (s.cluster cl).cc s.hc
def State.coreCc (s : State) (k : Nat) : Nat := s.clusterCc (coreCluster k)

/-- A free value is applied to `fresh`, which then advances (log 8). -/
def State.tick (s : State) : State := { s with fresh := s.fresh + 1 }

/-- n free bytes, no two of which share an argument (log 8). -/
def State.freeBytes (s : State) (n : Nat) : List Byte := (List.range n).map fun i => Config.freeByte (s.fresh * 2 ^ 40 + i)

/-! ## Kernel control block (05 R136) -/

namespace Grid
def textb (g : Grid) : Nat := bits g.kcb 511 448
def textl (g : Grid) : Nat := bits g.kcb 447 416
def entry (g : Grid) : Nat := bits g.kcb 415 384
def hando (g : Grid) : Nat := bits g.kcb 383 352
def sckey (g : Grid) : Nat := bits g.kcb 351 336
def vregs (g : Grid) : Nat := bits g.kcb 335 328
def sregs (g : Grid) : Nat := bits g.kcb 327 320
def tregs (g : Grid) : Nat := bits g.kcb 319 312
def aregs (g : Grid) : Nat := bits g.kcb 311 304
def stash (g : Grid) : Nat := bits g.kcb 303 288
def barn (g : Grid) : Nat := bits g.kcb 287 280
def ports (g : Grid) : Nat := bits g.kcb 276 272
def nreg (g : Grid) : Nat := bits g.kcb 271 264
def contract (g : Grid) : Nat := bits g.kcb 263 260
def opClass (g : Grid) : Nat := bits g.kcb 259 258
def ver (g : Grid) : Nat := bits g.kcb 255 248
/-! Launch record (04 R114, 05 R137). -/
def kcba (g : Grid) : Nat := bits g.lrec 1023 960
def csig (g : Grid) : DWord := g.lrec.extractLsb' 896 64
def cval (g : Grid) : DWord := g.lrec.extractLsb' 832 64
def ltab (g : Grid) : Nat := bits g.lrec 831 768
def arg (g : Grid) : DWord := g.lrec.extractLsb' 704 64
def gangs (g : Grid) : Nat := bits g.lrec 703 680
def phase (g : Grid) : Nat := bits g.lrec 679 664
def shape (g : Grid) : Nat := bits g.lrec 663 662
def warpsN (g : Grid) : Nat := bits g.lrec 661 658 + 1
def prio (g : Grid) : Nat := bits g.lrec 34 32
/-- Gang shape in rows and columns of cores. -/
def rows (g : Grid) : Nat := if g.shape = 2 ∨ g.shape = 3 then 2 else 1
def cols (g : Grid) : Nat := if g.shape = 1 ∨ g.shape = 3 then 2 else 1
def teamsN (g : Grid) : Nat := g.rows * g.cols
/-- Bytes of one team's part of the window, and of the gang window (11 R263). -/
def teamWin (g : Grid) : Nat := g.stash * 4096
def window (g : Grid) : Nat := g.teamWin * g.teamsN
/-- Component width and height in gangs; 1 × 1 without a port map (05 R146). -/
def cw (g : Grid) : Nat := if g.ports = 0 then 1 else bits g.portmap 167 160
def ch (g : Grid) : Nat := if g.ports = 0 then 1 else bits g.portmap 175 168
/-- Direction d of the team at position t is valid: bit 7 of entry byte 5t + d (05 R146). -/
def portValid (g : Grid) (t d : Nat) : Bool := g.ports ≠ 0 && g.portmap.getLsbD (8 * (5 * t + d) + 7)
/-- Long accumulators under K.X32, contract 7 (01 R31). -/
def longAcc (g : Grid) : Bool := g.contract = 7
end Grid

/-! ## The objects of a warp -/

/-- A warp with its team, gang and grid. -/
structure Place where
  key : Nat
  w : Warp
  t : Team
  g : Gang
  gid : Nat
  gr : Grid
  deriving DecidableEq, Repr

/-- Warp keys: age order is key order (06 R164). -/
def warpKey (ordinal w : Nat) : Nat := ordinal * 16 + w

def State.place? (s : State) (k : Nat) : Option Place :=
  match s.warps.get? k with
  | none => none
  | some w => match s.teams.get? w.team with
    | none => none
    | some t => match s.gangs.get? t.gang with
      | none => none
      | some g => match s.grids.get? g.grid.toNat with
        | none => none
        | some gr => some ⟨k, w, t, g, t.gang, gr⟩

def State.modWarp (s : State) (k : Nat) (f : Warp → Warp) : State := { s with warps := s.warps.modify k f }
def State.modGang (s : State) (k : Nat) (f : Gang → Gang) : State := { s with gangs := s.gangs.modify k f }
def State.modTeam (s : State) (k : Nat) (f : Team → Team) : State := { s with teams := s.teams.modify k f }
def State.modGrid (s : State) (k : Word) (f : Grid → Grid) : State := { s with grids := s.grids.modify k.toNat f }
def State.modCtx (s : State) (k : Nat) (f : Ctx → Ctx) : State := { s with ctxs := s.ctxs.modify k f }
def State.queue (s : State) (k : Nat) : Queue := s.queues.getD k Queue.reset
def State.modQueue (s : State) (k : Nat) (f : Queue → Queue) : State :=
  { s with queues := s.queues.put k (f (s.queue k)) }
def State.link (s : State) (k : Nat) : LinkS := s.links.getD k (LinkS.reset k)
def State.modLink (s : State) (k : Nat) (f : LinkS → LinkS) : State := { s with links := s.links.put k (f (s.link k)) }
def State.modOp (s : State) (k : Nat) (f : EngOp → EngOp) : State := { s with ops := s.ops.modify k f }
def State.modBar (s : State) (k : Nat) (f : Bar → Bar) : State := { s with bars := s.bars.modify k f }

def Warp.pc (w : Warp) (lane : Nat) : Word := w.pcv.getD lane 0#32
def Warp.setPcs (w : Warp) (m : LaneMask) (x : Word) : Warp :=
  { w with pcv := (List.range 32).map fun i => if m.getLsbD i then x else w.pc i }

/-- A wake record that its barrier's release has ended (07 R187). -/
def Wake.over : Wake → Bool
  | .released _ => true
  | _ => false

/-- Lanes that wait: those with a wake record that nothing has ended (06 R160). -/
def Warp.blocked (w : Warp) : LaneMask := maskOf ((w.wake.filter fun lw => !lw.2.over).map (·.1))
/-- Lanes that a wake record keeps from issuing, the woken ones of this cc among them (07 R187). -/
def Warp.heldBack (w : Warp) : LaneMask := maskOf w.wake.keys

/-- The issue key of a lane: demoted bit above PC (01 R45). -/
def Warp.key (w : Warp) (l : Nat) : Nat := (if w.demoted.getLsbD l then 2 ^ 32 else 0) + (w.pc l).toNat

/-- The lanes that may issue: in handler mode those of `%tpath` (06 R178). -/
def Warp.scope (w : Warp) : LaneMask := if w.handler.on then w.handler.tpath else 0xFFFFFFFF#32

/-- Lanes of paths that may issue: not exited, in handler mode those of `%tpath`, and no lane of their path is blocked
(06 R159, R178). -/
def Warp.live (w : Warp) : LaneMask :=
  let m := ~~~ w.exited &&& w.scope
  if m &&& w.blocked = 0#32 then m
  else
    let ks := (lanesOf (m &&& w.blocked)).map w.key
    maskOf ((lanesOf (m &&& ~~~ w.blocked)).filter fun l => !ks.contains (w.key l))

/-- The warp states of 06 R159. -/
inductive WarpSt | running | blocked | pinned | exited
  deriving DecidableEq, Repr

def Warp.st (w : Warp) : WarpSt :=
  if w.exited = 0xFFFFFFFF#32 then .exited
  else if w.pins ≠ [] then .pinned
  else if w.live = 0#32 then .blocked
  else .running

/-- A blocking point: Blocked, Pinned or Exited (06 R159). -/
def Warp.atBlock (w : Warp) : Bool := w.st ≠ .running

/-- In the first cycle in which every non-exited, non-blocked lane is demoted, all demoted bits clear; lanes outside
`%tpath` are not blocked for this rule (06 R166; log 13: with no such lane nothing clears). -/
def Warp.clearDemoted (w : Warp) : Warp :=
  let m := ~~~ w.exited &&& ~~~ w.blocked
  if m ≠ 0#32 ∧ m &&& ~~~ w.demoted = 0#32 then { w with demoted := 0#32 } else w

/-! ## Registers (01 R33, R34) -/

def vKey (r lane : Nat) : Nat := 32 * r + lane

/-- Keys of poisoned elements (18 R448): vector element, uniform register, tile word, accumulator entry. -/
def markV (r lane : Nat) : Nat := vKey r lane
def markU (r : Nat) : Nat := 4096 + r
def markT (t word : Nat) : Nat := 8192 + 1024 * t + word
def markA (a entry : Nat) : Nat := 32768 + 4096 * a + entry

/-- Elements that are overwritten are poisoned no more: n keys from k on (18 R448). -/
def Warp.unmark (w : Warp) (k n : Nat) : Warp := { w with marks := w.marks.filter fun x => !(decide (k ≤ x.1) && decide (x.1 < k + n)) }

def Warp.getV (w : Warp) (r lane : Nat) : Word := Sparse.get 0#32 w.v (vKey r lane)
def Warp.setV (w : Warp) (r lane : Nat) (x : Word) : Warp :=
  { w with v := Sparse.set 0#32 w.v (vKey r lane) x, marks := w.marks.del (markV r lane) }
def Warp.getU (w : Warp) (r : Nat) : Word := Sparse.get 0#32 w.u r
def Warp.setU (w : Warp) (r : Nat) (x : Word) : Warp := { w with u := Sparse.set 0#32 w.u r x, marks := w.marks.del (markU r) }
/-- `p7` reads as all ones; a write to it is discarded (01 R34). -/
def Warp.getP (w : Warp) (r : Fin 8) : LaneMask := if r = 7 then 0xFFFFFFFF#32 else Sparse.get 0#32 w.p r.val
def Warp.setP (w : Warp) (r : Fin 8) (x : LaneMask) : Warp :=
  if r = 7 then w else { w with p := Sparse.set 0#32 w.p r.val x }
/-- Tile bytes: byte b of row r of tile t at 4096t + 64r + b (01 R35). -/
def Warp.tileRead (w : Warp) (t off n : Nat) : List Byte := Sparse.read 0#8 w.tiles (4096 * t + off) n
def Warp.tileWrite (w : Warp) (t off : Nat) (bs : List Byte) : Warp :=
  { w.unmark (markT t (off / 4)) (bs.length / 4) with tiles := Sparse.fill 0#8 w.tiles (4096 * t + off) bs }
/-- Entry (i, j) of short accumulator a (01 R35). -/
def Warp.accGet (w : Warp) (a i j : Nat) : Word := Sparse.get 0#32 w.accs (4096 * a + 64 * i + j)
def Warp.accFill (w : Warp) (a : Nat) (xs : List Word) : Warp :=
  { w.unmark (markA a 0) 4096 with accs := Sparse.fill 0#32 w.accs (4096 * a) xs }
def LongEntry.zero : LongEntry := ⟨0#640, false, false, false⟩
def Warp.laccGet (w : Warp) (a i j : Nat) : LongEntry := Sparse.get LongEntry.zero w.laccs (1024 * a + 32 * i + j)
def Warp.laccFill (w : Warp) (a : Nat) (xs : List LongEntry) : Warp :=
  { w.unmark (markA a 0) 4096 with laccs := Sparse.fill LongEntry.zero w.laccs (1024 * a) xs }

/-- The core a warp's team stands on. -/
def State.warpCore (s : State) (k : Nat) : Nat :=
  match s.warps.get? k with
  | none => 0
  | some w => ((s.teams.get? w.team).map (·.core)).getD 0

/-- Poisoned loads: each adds 1 to the core's `%poison` and to the grid's count, which saturates at
2^24 − 1 (18 R449). -/
def State.addPoison (s : State) (core : Nat) (grid : Word) (n : Nat) : State :=
  if n = 0 then s
  else (s.modCore core fun c => { c with poison := c.poison + BitVec.ofNat 32 n }).modGrid grid
    fun g => { g with poison := Nat.min (g.poison + n) (2 ^ 24 - 1) }

/-- Raising a context's error event sets CTXERR.EVT (03 R109). -/
def State.raiseCtx (s : State) (ctx : Nat) : State := s.modCtx ctx fun c => { c with evt := true }

end Sys2Proof.Machine
end

