-- ==== Sys2Proof/Machine/Paging.lean ====
section
/-! DEFINITION. Regions (05 R142, R143; 11 R264; 15 R388), page tables, TLBs and page faults (08 R193 to
R208, R491), apertures (08 R209, R212). -/

namespace Sys2Proof.Machine

/-! ## Bytes of memory (11 R262) -/

def State.memRead (s : State) (loc n : Nat) : List Byte := Sparse.read 0#8 s.mem loc n
def State.memWord (s : State) (loc : Nat) : DWord := BitVec.ofNat 64 (natLE (s.memRead loc 8))
/-- The plain write of bytes, with no other effect. -/
def State.memFill (s : State) (loc : Nat) (bs : List Byte) : State := { s with mem := Sparse.fill 0#8 s.mem loc bs }

/-! ## Regions -/

/-- 08 R193: bits [63:56] all equal to bit [55]. -/
def canonicalVa (a : Nat) : Bool := a < 2 ^ 55 || (2 ^ 64 - 2 ^ 55 ≤ a && a < 2 ^ 64)

/-- What a region mode admits (15 R388): loads and stores, with an order or plain, and
read-modify-writes. -/
inductive MemAcc | load (ordered : Bool) | store (ordered : Bool) | rmw
  deriving DecidableEq, Repr

def regionAdmits (mode : Nat) : MemAcc → Bool
  | .load o => mode ≤ 3 || (mode = 4 && o)
  | .store o => mode = 1 || mode = 2 || (mode = 4 && o)
  | .rmw => mode = 1 || mode = 2 || mode = 4

/-! Region entry fields (05 R142). -/
def regBase (r : BitVec 256) : Nat := bits r 255 192
def regExtent (r : BitVec 256) : Nat := bits r 191 160
def regRows (r : BitVec 256) : Nat := bits r 159 144
def regStride (r : BitVec 256) : Nat := bits r 143 112
def regSoff (r : BitVec 256) : Nat := bits r 111 90
def regMode (r : BitVec 256) : Nat := bits r 82 80
def regGstep (r : BitVec 256) : Nat := bits r 63 0

/-- Row and offset in the row of a global address of gang `g`, if the region holds it; the sums wrap at 2^64 (05
R143). -/
def regionRow (r : BitVec 256) (g a : Nat) : Option (Nat × Nat) :=
  let b := (regBase r + g * regGstep r) % 2 ^ 64
  let d := (a + 2 ^ 64 - b) % 2 ^ 64
  let j := if regRows r ≤ 1 then 0 else d / regStride r
  let o := d - j * regStride r
  if j < regRows r ∧ o < regExtent r then some (j, o) else none

/-- The stash offset and mode of a global address (05 R143). -/
def regionOf (rs : List (BitVec 256)) (g a : Nat) : Option (Nat × Nat) :=
  rs.findSome? fun r => (regionRow r g a).map fun jo => (regSoff r + jo.1 * regExtent r + jo.2, regMode r)

/-- The n bytes at `a` lie in regions that admit the access (05 R143, 08 R193). Rows are whole lines, so
each 64-byte piece is judged by its first byte. -/
def regionOk (gr : Grid) (g a n : Nat) (k : MemAcc) : Bool :=
  canonicalVa a && ((List.range (n / 64 + 1)).all fun i =>
    let x := a + 64 * i
    (n ≤ 64 * i && 0 < i) || match regionOf gr.regions g x with
    | some (_, m) => regionAdmits m k
    | none => false)

/-- The global address and mode behind a stash offset, if a region covers it (05 R143, 11 R269). -/
def regionAtStash (rs : List (BitVec 256)) (g o : Nat) : Option (Nat × Nat) :=
  rs.findSome? fun r =>
    if regSoff r ≤ o ∧ o < regSoff r + regRows r * regExtent r then
      let d := o - regSoff r
      some (((regBase r + g * regGstep r) + d / regExtent r * regStride r + d % regExtent r) % 2 ^ 64, regMode r)
    else none

/-! ## Apertures (08 R209) -/

/-- The canonical offset of an aperture's offset. -/
def canonOff (ap o : Nat) : Nat :=
  match ap with
  | 1 => o / 4096 * 4096 + (o / 128 % 32 ^^^ o / 4096 % 32) * 128 + o % 128
  | 2 =>
    let s := o / 2 ^ 36 % 8
    let k := o / 4096 % 2 ^ 24
    (if k = 2 ^ 24 - 1 then 2 ^ 27 - 8 + s else 24 * (k / 3) + 3 * s + k % 3) * 4096 + o % 4096
  | _ => o

/-- The local granule index k of a canonical offset in its home stack (08 R210). -/
def granuleK (c : Nat) : Nat :=
  let g := c / 4096
  if g < 2 ^ 27 - 8 then 3 * (g / 24) + g % 24 % 3 else 2 ^ 24 - 1
/-- Its home stack. -/
def homeStack (c : Nat) : Nat :=
  let g := c / 4096
  if g < 2 ^ 27 - 8 then g % 24 / 3 else g - (2 ^ 27 - 8)

/-- The LLC slice of a canonical offset (08 R210). -/
def llcSlice (c : Nat) : Nat :=
  let g := c / 4096
  if g < 2 ^ 27 - 8 then g % 24 else 3 * (g - (2 ^ 27 - 8))

/-- Where a line stands in its stack (08 R211). -/
structure HbmPlace where (pseudo channel column group bank sid row : Nat) deriving DecidableEq, Repr

def hbmPlace (c : Nat) : HbmPlace :=
  let l := 32 * granuleK c + c / 128 % 32
  { pseudo := l % 2, channel := l / 2 % 32, column := l / 64 % 8
    group := l / 2 ^ 9 % 4 ^^^ l / 2 ^ 20 % 4, bank := l / 2 ^ 11 % 4 ^^^ l / 2 ^ 22 % 4
    sid := l / 2 ^ 13 % 4, row := l / 2 ^ 15 % 2 ^ 14 }

/-- A physical address and what its translation carries: the surface index and the surface's record. -/
structure Xlat where
  pkg : Nat
  ap : Nat
  off : Nat
  surf : Nat
  srec : BitVec 512
  /-- the service class that overrides the context's (08 R198) -/
  scl : Option Nat
  deriving DecidableEq, Repr

/-- The CMP bit of the translation (08 R201, R212). -/
def Xlat.cmp (x : Xlat) : Bool := decide (x.surf ≠ 0) && x.srec.getLsbD 0

/-- The location key of a canonical byte: package and canonical offset (11 R262). -/
def locOf (pkg c : Nat) : Nat := pkg * 2 ^ 39 + c
def Xlat.loc (x : Xlat) : Nat := locOf x.pkg (canonOff x.ap x.off)
def lineOf (loc : Nat) : Nat := loc / 128

/-- The line an access names to the reservation and ordering rules: a line read through aperture 3 is a location apart
from the plain line (08 R209). -/
def ap3Line (line : Nat) : Nat := line + 2 ^ 62
def Xlat.line (x : Xlat) : Nat := if x.ap = 3 then ap3Line (lineOf x.loc) else lineOf x.loc

def State.linePoisoned (s : State) (loc : Nat) : Bool := s.poisonLines.has (lineOf loc)

/-! ## Routes (09 R230 to R232) -/

def linkWorks (x : LinkS) : Bool := x.st = .up || x.st = .degraded

/-- None of a die's eight links works: nothing runs between the die and the hub (09 R217). -/
def State.dieCut (s : State) (d : Nat) : Bool := (List.range 8).all fun j => !linkWorks (s.link (d * 8 + j))

/-- A pod port of this package works: without one nothing arrives from another package (09 R217). -/
def State.podUp (s : State) : Bool := (List.range 32).any fun p => linkWorks (s.link (96 + p))

def State.route (s : State) (pkg : Nat) : DWord := Sparse.get 0#64 s.routes pkg

/-- The working pod ports that reach a package, in ascending order (09 R231). -/
def State.podPorts (s : State) (pkg : Nat) : List Nat :=
  (List.range 32).filter fun p => (s.route pkg).getLsbD p && linkWorks (s.link (96 + p))

/-- The port that an access to a location of another package takes: the set bit number l mod n of the n working ports,
by the canonical line number l (09 R231). -/
def State.podPort (s : State) (pkg loc : Nat) : Option Nat :=
  let ps := s.podPorts pkg
  ps[loc % 2 ^ 39 / 128 % ps.length]?

/-- A working pod port reaches the package. -/
def State.routable (s : State) (pkg : Nat) : Bool := !(s.podPorts pkg).isEmpty

/-- Another package that no working pod port reaches (09 R232). -/
def State.unreachable (s : State) (pkg : Nat) : Bool := decide (pkg ≠ s.fused.pkg) && !s.routable pkg

/-! ## Walks (08 R195 to R200) -/

/-- How a walk ends: a leaf with its size exponent and its own location, or a fault of kind
0 NOTPRESENT, 1 PERM, 2 BADPTE at a level (08 R206). -/
inductive WalkEnd
  | leaf (pte : DWord) (size ploc level : Nat)
  | fault (kind level : Nat)
  deriving DecidableEq, Repr

/-- A table entry as the walker reads it: all ones in a poisoned line (18 R448), or where its package cannot be reached
(09 R232). -/
def State.entryAt (s : State) (loc : Nat) : DWord :=
  if s.linePoisoned loc || s.unreachable (loc / 2 ^ 39) then 0xFFFFFFFFFFFFFFFF#64 else s.memWord loc

/-- The walk over the levels from 4 down, without the surface and permission checks (08 R195 to R197); `tbl` gives the
location of a byte of the level's table. -/
def walkRaw (s : State) (va : Nat) : List Nat → (Nat → Nat) → WalkEnd
  | [], _ => .fault 2 0
  | l :: ls, tbl =>
    let ploc := tbl (8 * (va / 2 ^ (12 + 9 * l) % (if l = 4 then 256 else 512)))
    let e := s.entryAt ploc
    let off := bits e 39 12 * 4096
    if ¬ e.getLsbD 0 then .fault 0 l
    else if off ≥ 2 ^ 39 then .fault 2 l
    else if e.getLsbD 1 then
      if l = 4 ∨ off % 2 ^ (12 + 9 * l) ≠ 0 ∨ (bits e 41 40 = 3 ∧ e.getLsbD 3) then .fault 2 l
      else .leaf e (12 + 9 * l) ploc l
    else if l = 0 ∨ bits e 63 52 ≠ 0 ∨ bits e 11 2 ≠ 0 ∨ bits e 51 42 ≠ s.fused.pkg ∨ bits e 41 40 ≠ 0 then .fault 2 l
    else walkRaw s va ls fun o => locOf s.fused.pkg (off + o)

/-- The walk of a context's tables from ROOT, a physical address of any package and aperture (03 R96, 08 R194, R195);
an unbacked ROOT is a BADPTE of level 4 (log 36). -/
def walkFrom (s : State) (c : Ctx) (va : Nat) : WalkEnd :=
  let off := bits c.desc 167 140 * 4096
  if 2 ^ 39 ≤ off then .fault 2 4
  else walkRaw s va [4, 3, 2, 1, 0] fun o => locOf (bits c.desc 179 170) (canonOff (bits c.desc 169 168) (off + o))

def leafXlat (pte : DWord) (size va : Nat) (srec : BitVec 512) : Xlat where
  pkg := bits pte 51 42
  ap := bits pte 41 40
  off := bits pte 39 12 * 4096 + va % 2 ^ size
  surf := bits pte 63 52
  srec := srec
  scl := if pte.getLsbD 11 then some (bits pte 10 7) else none

/-- Where the surface record n of a context stands, through its page tables (08 R196, R212), if it translates. -/
def surfSpot (s : State) (c : Ctx) (n : Nat) : Option Xlat :=
  let va := bits c.desc 319 256 + 64 * (n - 1)
  match walkFrom s c va with
  | .leaf pte size _ _ => if pte.getLsbD 2 then some (leafXlat pte size va 0#512) else none
  | .fault _ _ => none

/-- The surface record n of a context: all ones in a poisoned line (18 R448), or where its package cannot be reached
(09 R232). -/
def surfRecord (s : State) (c : Ctx) (n : Nat) : Option (BitVec 512) :=
  (surfSpot s c n).map fun x =>
    if s.linePoisoned x.loc || s.unreachable x.pkg then BitVec.allOnes 512 else BitVec.ofNat 512 (natLE (s.memRead x.loc 64))

/-- A walk meets a table or a surface record in a package that cannot be reached (09 R232). -/
def walkLost (s : State) (c : Ctx) (va : Nat) : Bool :=
  s.unreachable (bits c.desc 179 170) || match walkFrom s c va with
    | .leaf pte _ _ _ => decide (pte.extractLsb' 52 12 ≠ 0#12) && (surfSpot s c (bits pte 63 52)).any fun x => s.unreachable x.pkg
    | .fault _ _ => false

/-- The rules of a surface record (08 R212). -/
def surfOk (s : State) (r : BitVec 512) : Bool :=
  bits r 351 344 = 0 && bits r 338 1 = 0 && bits r 383 352 ≠ 0
    && bits r 511 500 = 0 && bits r 499 490 = s.fused.pkg && bits r 489 488 = 0 && bits r 459 448 = 0
    && bits r 447 436 = 0 && bits r 435 426 = s.fused.pkg && bits r 425 424 = 0 && bits r 389 384 = 0

/-! ## The LLC (03 R105 to R107; 08 R198, R210; 11 R261, R272) -/

/-- Who fills a line: the context (64: none) and the service class. -/
structure Filler where (ctx cls : Nat) deriving DecidableEq, Repr

def Filler.hub : Filler := ⟨64, 0⟩

def State.classOf (s : State) (ctx : Nat) : Nat := ((s.ctxs.get? ctx).map (·.sclass.toNat)).getD 0

/-- Accesses through a page use its class, if it names one, in place of the context's (08 R198). -/
def Xlat.filler (x : Xlat) (s : State) (ctx : Nat) : Filler := ⟨ctx, x.scl.getD (s.classOf ctx)⟩

/-- Ways of a set and sets of a slice (log 7). -/
def llcWays : Nat := 16
def llcSets : Nat := 349525

/-- Slice and set of a line (08 R210; log 7). -/
def llcSet (line : Nat) : Nat × Nat :=
  let c := line % 2 ^ 32 * 128
  (llcSlice c, (c / 4096 / 24 * 32 + line % 32) % llcSets)

/-- The window of the first entry of the filler's schedule that holds the line (03 R106). -/
def schedTag (s : State) (ctx line : Nat) : Option (Nat × Nat) :=
  let c := line % 2 ^ 32 * 128
  match s.ctxs.get? ctx with
  | none => none
  | some x => (x.sched.find? fun e => bits e 255 192 ≤ c ∧ c < bits e 255 192 + bits e 191 128).map fun e =>
      (bits e 127 112, bits e 111 96)

/-- The order in which lines are given up: past lines, unscheduled ones, future ones from the largest FIRST, live ones,
and the oldest fill first (03 R107). -/
def LlcLine.rank (s : State) (x : LlcLine) : Nat × Nat × Nat :=
  let phase := ((s.ctxs.get? x.ctx).map (·.phase.toNat)).getD 0
  match x.tag with
  | none => (1, 0, x.fill)
  | some (first, last) =>
    if last < phase then (0, 0, x.fill) else if phase < first then (2, 65535 - first, x.fill) else (3, 0, x.fill)

def rankBefore (a b : Nat × Nat × Nat) : Bool :=
  a.1 < b.1 || (a.1 = b.1 && (a.2.1 < b.2.1 || (a.2.1 = b.2.1 && a.2.2 < b.2.2)))

/-- The victim of a set: of the filler's class when that class stands at its quota and the set holds a line of it
(03 R107). -/
def llcVictim (s : State) (set : Nat × Nat) (cls : Nat) : Option Nat :=
  let lines := s.llc.filter fun kx => llcSet kx.1 = set
  let mine := lines.filter fun kx => kx.2.cls = cls
  let quota := bits (s.scls.getD cls 0#32) 15 0 * 8192
  let cands := if quota ≤ (s.llc.filter fun kx => kx.2.cls = cls).length ∧ mine ≠ [] then mine else lines
  (cands.foldl (fun (r : Option (Nat × LlcLine)) kx => match r with
    | none => some kx
    | some y => if rankBefore (kx.2.rank s) (y.2.rank s) then some kx else some y) none).map (·.1)

/-- A line of local HBM enters the LLC; in a full set a victim leaves, and its bytes reach HBM (03 R107; 11 R272). -/
def State.llcFill (s : State) (f : Filler) (line : Nat) : State :=
  if line % 2 ^ 62 / 2 ^ 32 ≠ s.fused.pkg ∨ s.llc.has line then s
  else
    let room : Bool := (s.llc.filter fun kx => llcSet kx.1 = llcSet line).length < llcWays
    let out : Option Nat := if room then none else llcVictim s (llcSet line) f.cls
    { s with
      llc := (out.elim s.llc fun v => s.llc.del v).put line ⟨f.cls, f.ctx, s.llcFills, schedTag s f.ctx line⟩
      hbmOld := out.elim s.hbmOld fun v => s.hbmOld.del v
      llcFills := s.llcFills + 1 }

/-- Permissions an access kind needs: loads RD, stores W, atomics both, fetches X (08 R200). -/
def permOk (pte : DWord) : AccKind → Bool
  | .load => pte.getLsbD 2
  | .store => pte.getLsbD 3
  | .atomic => pte.getLsbD 2 && pte.getLsbD 3
  | .fetch => pte.getLsbD 4

def accWrites : AccKind → Bool
  | .store | .atomic => true
  | _ => false

/-- The record of the leaf's surface, or `none` for a BADPTE of the surface (08 R197, R212). -/
def surfOf (s : State) (c : Ctx) (pte : DWord) : Option (BitVec 512) :=
  let n := bits pte 63 52
  if n = 0 then some 0#512
  else if bits c.desc 451 440 < n then none
  else match surfRecord s c n with
    | some r => if surfOk s r then some r else none
    | none => none

/-- What a walk of an access finds, before it changes anything: the leaf, its location and size and its surface's record,
or the fault's kind and level (08 R199, R200, R205). An address that is not canonical has no walk (08 R193). -/
def walkEnd (s : State) (ctx va : Nat) (acc : AccKind) : Except (Nat × Nat) (DWord × Nat × Nat × BitVec 512) :=
  match s.ctxs.get? ctx with
  | none => .error (0, 4)
  | some c => if ¬ canonicalVa va then .error (2, 4) else match walkFrom s c va with
    | .fault k l => .error (k, l)
    | .leaf pte size ploc l => match surfOf s c pte with
      | none => .error (2, l)
      | some srec => if ¬ permOk pte acc then .error (1, l) else .ok (pte, size, ploc, srec)

/-! ## TLBs (08 R201) -/

/-- The TLBs a master looks up in order: level and unit. -/
def coreTlbs (core : Nat) : List (Nat × Nat) := [(0, core), (1, coreCluster core), (2, coreDie core)]
def dieTlbs (die : Nat) : List (Nat × Nat) := [(2, die)]

def TlbEnt.hits (e : TlbEnt) (lu : Nat × Nat) (ctx va : Nat) : Bool :=
  e.level = lu.1 && e.unit = lu.2 && e.ctx = ctx && va / 2 ^ e.size = e.vpage

def tlbLookup (s : State) (us : List (Nat × Nat)) (ctx va : Nat) : Option TlbEnt :=
  us.findSome? fun lu => s.paging.tlb.find? fun e => e.hits lu ctx va

/-- A TLB entry serves an access: it grants it, and its D is set for a write (08 R199, R201). -/
def TlbEnt.serves (e : TlbEnt) (acc : AccKind) : Bool := permOk e.pte acc && (!(accWrites acc) || e.pte.getLsbD 6)

/-- Where an access would go, with no walk made. -/
def peek (s : State) (us : List (Nat × Nat)) (ctx va : Nat) (acc : AccKind) : Option Xlat :=
  match (tlbLookup s us ctx va).filter fun e => e.serves acc with
  | some e => some (leafXlat e.pte e.size va e.srec)
  | none => match walkEnd s ctx va acc with
    | .ok (pte, size, _, srec) => some (leafXlat pte size va srec)
    | .error _ => none

/-! ## Stores at the point of coherence (11 R265, R272, R288; 18 R448) -/

/-- A gang holds a line no longer, or holds it clean. -/
def Gang.cleaned (g : Gang) (line : Nat) : Gang := { g with dirty := g.dirty.del line, wb := g.wb.del line }

/-- Copies of a line in stashes other than that of gang `gid` are invalidated (11 R265). -/
def State.takeLine (s : State) (gid : Option Nat) (line : Nat) : State :=
  if s.gangs.any fun kg => (kg.2.dirty.has line || kg.2.wb.has line) && decide (some kg.1 ≠ gid) then
    { s with gangs := s.gangs.mapV fun k g => if some k = gid then g else g.cleaned line }
  else s

/-- The lanes of a warp whose `sigw` waits on a signal of the line: by the wake record, and by the addresses that
the operand-log entry of the path holds (15 R401). -/
def sigLanes (w : Warp) (onLine : DWord → Bool) : LaneMask :=
  let m := maskOf (w.wake.filterMap fun lw => match lw.2 with
    | .signal a => if onLine a then some lw.1 else none
    | _ => none)
  w.log.foldl (fun m ke => match ke.2.instr with
    | .sigw _ => if (lanesOf ke.2.active).any fun l => onLine (ke.2.addr.getD l 0#64) then m ||| ke.2.path else m
    | _ => m) m

def Wake.isSignal : Wake → Bool
  | .signal _ => true
  | _ => false

/-- The line a warp's address stands on, if it translates for a load. -/
def lineOfVa (s : State) (k : Nat) (a : DWord) : Option Nat :=
  (s.place? k).bind fun p => (peek s (coreTlbs p.t.core) p.gr.ctx a.toNat .load).map fun x => lineOf x.loc

/-- A write to a line by any agent re-tests the `sigw` waiters on it (11 R293; 15 R401): their paths execute
the instruction again. -/
def wakeSigLine (s : State) (line : Nat) : State :=
  { s with warps := s.warps.mapV fun k w =>
      if w.wake.any fun lw => lw.2.isSignal then
        let m := sigLanes w fun a => lineOfVa s k a = some line
        { w with wake := w.wake.filter fun lw => !(lw.2.isSignal && m.getLsbD lw.1) }
      else w }

/-- A store to a line takes away every other lane's reservation on it (11 R288). -/
def dropResv (line : Nat) (who : Option (Nat × Nat)) (k : Nat) (w : Warp) : Warp :=
  if w.resv.any fun lr => lr.2.line = line ∧ who ≠ some (k, lr.1) then
    { w with resv := w.resv.filter fun lr => ¬ ((w.resv.get? lr.1).any (fun r => r.line = line) ∧ who ≠ some (k, lr.1)) }
  else w

/-- The location of a surface record's base (aperture 0 of this package). An offset of 2^39 or more counts modulo 2^39: 08 R212
does not list it as BADPTE (DESIGN CHOICE, log 36). -/
def surfBase (s : State) (r : BitVec 512) (hi lo : Nat) : Nat := locOf s.fused.pkg (bits r hi lo % 2 ^ 39)

/-- A line is one of a compressed surface's, of its data or its metadata: a store to it that the compressor does not make
passes the compressor (08 R213). -/
def State.isSurfLine (s : State) (line : Nat) : Bool :=
  s.ctxs.any fun kc => (List.range (bits kc.2.desc 451 440)).any fun n => match surfRecord s kc.2 (n + 1) with
    | some r =>
      let d := lineOf (surfBase s r 511 448)
      let m := surfBase s r 447 384
      surfOk s r && r.getLsbD 0 && ((decide (d ≤ line) && decide (line < d + bits r 383 352))
        || (decide (lineOf m ≤ line) && decide (line ≤ lineOf (m + (bits r 383 352 - 1) / 2))))
    | none => false

/-- Bytes of one line performed at their point of coherence by a lane of gang `gid` or another agent. The line's HBM
bytes are kept when they were current (11 R272); a store of a whole line clears a poison mark, a partial
one leaves it (18 R448); copies in other stashes go, and waiters on the line test again (11 R265; 15 R401). -/
def State.storeLoc (s : State) (loc : Nat) (bs : List Byte) (who : Option (Nat × Nat)) (f : Filler := Filler.hub)
    (gid : Option Nat := none) : State :=
  let line := lineOf loc
  let s := s.llcFill f line
  let old := if s.hbmOld.has line then s.hbmOld else s.hbmOld.put line (s.memRead (128 * line) 128)
  let s := { s.memFill loc bs with
    hbmOld := old
    spoiled := if s.isSurfLine line then s.spoiled.put line () else s.spoiled
    poisonLines := if bs.length = 128 then s.poisonLines.del line else s.poisonLines
    warps := s.warps.mapV (dropResv line who) }
  wakeSigLine (s.takeLine gid line) line

/-- Ways and sets of a level: fully associative of 64; 4-way of 256 sets; 8-way of 2,048 sets (08 R201). -/
def tlbWays (level : Nat) : Nat := if level = 0 then 64 else if level = 1 then 4 else 8
def tlbSets (level : Nat) : Nat := if level = 0 then 1 else if level = 1 then 256 else 2048

/-- The set of an entry: the low bits of its page number (log 7). -/
def TlbEnt.set (e : TlbEnt) : Nat × Nat × Nat := (e.level, e.unit, e.vpage % tlbSets e.level)

/-- Entries of one set beyond its n ways leave, the oldest first. -/
def tlbTrim (at_ : Nat × Nat × Nat) : Nat → List TlbEnt → List TlbEnt
  | _, [] => []
  | n, e :: es =>
    if e.set = at_ then
      (if n = 0 then tlbTrim at_ 0 es else e :: tlbTrim at_ (n - 1) es)
    else e :: tlbTrim at_ n es

/-- An entry joins its TLB, in place of those within its page. -/
def tlbPut (t : List TlbEnt) (e : TlbEnt) : List TlbEnt :=
  let t := t.filter fun x => !(decide (x.level = e.level) && decide (x.unit = e.unit) && decide (x.ctx = e.ctx)
    && (decide (x.vpage * 2 ^ x.size / 2 ^ e.size = e.vpage) || decide (e.vpage * 2 ^ e.size / 2 ^ x.size = x.vpage)))
  tlbTrim e.set (tlbWays e.level) (e :: t)

/-- The run of 16 leaves at level 1 around a 2 MiB leaf: they cover 32 MiB, 32 MiB-aligned, lead to contiguous output
that is 32 MiB-aligned, and agree in every field but PA. The first leaf stands for it (08 R202). -/
def runOf (s : State) (c : Ctx) (va : Nat) : Option DWord :=
  let leaf (i : Nat) : Option DWord := match walkFrom s c (va / 2 ^ 25 * 2 ^ 25 + i * 2 ^ 21) with
    | .leaf pte size _ _ => if size = 21 then some pte else none
    | .fault _ _ => none
  match leaf 0 with
  | none => none
  | some p => if bits p 39 12 % 2 ^ 13 = 0 ∧ ((List.range 16).all fun i => leaf i = some (p + BitVec.ofNat 64 (i * 2 ^ 21))) then some p
    else none

/-- What a walk puts into one TLB: the page, or in an LLTLB the run that holds it (08 R201, R202). -/
def tlbFill1 (ctx va size : Nat) (pte : DWord) (run : Option DWord) (srec : BitVec 512) (t : List TlbEnt) (lu : Nat × Nat) :
    List TlbEnt :=
  tlbPut t (match run with
    | some p => if lu.1 = 2 then ⟨2, lu.2, ctx, va / 2 ^ 25, 25, p, srec⟩ else ⟨lu.1, lu.2, ctx, va / 2 ^ size, size, pte, srec⟩
    | none => ⟨lu.1, lu.2, ctx, va / 2 ^ size, size, pte, srec⟩)

/-- A walk of an access (08 R199, R200, R205): on success A, and D for a write, are set in the entry by a
read-modify-write, and the TLBs filled; otherwise the fault's kind and level. -/
def walk (s : State) (us : List (Nat × Nat)) (ctx : Nat) (va : Nat) (acc : AccKind) :
    Except (Nat × Nat) (State × Xlat) :=
  match walkEnd s ctx va acc with
  | .error kl => .error kl
  | .ok (pte, size, ploc, srec) =>
    let pte := pte ||| (if accWrites acc then 0x60#64 else 0x20#64)
    let s := s.storeLoc ploc (bytesLE 8 pte.toNat) none ⟨ctx, s.classOf ctx⟩
    let run := if size = 21 ∧ us.any (fun lu => lu.1 = 2) then (s.ctxs.get? ctx).bind fun c => runOf s c va else none
    .ok ({ s with paging := { s.paging with
      tlb := us.foldl (tlbFill1 ctx va size pte run srec) s.paging.tlb } }, leafXlat pte size va srec)

/-- Translation of an access: a TLB entry that serves it; otherwise it walks (08 R199, R201, R203). -/
def translate (s : State) (us : List (Nat × Nat)) (ctx : Nat) (va : Nat) (acc : AccKind) :
    Except (Nat × Nat) (State × Xlat) :=
  match tlbLookup s us ctx va with
  | some e => if e.serves acc then .ok (s, leafXlat e.pte e.size va e.srec) else walk s us ctx va acc
  | none => walk s us ctx va acc

/-! ## Fault tables and ring (08 R205 to R208, R491) -/

def faultKey (die : Nat) (fnum : Word) : Nat := die * 2 ^ 32 + fnum.toNat

/-- An access joins the pending entry of its page, or takes a new one; `none` when the table of 64 is
full and the access stalls (08 R205). A walk that met an unreachable package raises the error event (09 R232). -/
def joinFault (s : State) (die ctx : Nat) (va : DWord) (acc : AccKind) (kind level : Nat) (grid : Word) :
    Option (State × Word) :=
  let s := if kind = 2 ∧ (s.ctxs.get? ctx).any (fun c => walkLost s c va.toNat) then s.raiseCtx ctx else s
  let mine := s.paging.faults.filter fun kv => kv.1 / 2 ^ 32 = die
  match mine.find? fun kv => kv.2.ctx = ctx ∧ kv.2.va.toNat / 4096 = va.toNat / 4096 with
  | some (k, e) =>
    let s := { s with paging := { s.paging with
      faults := s.paging.faults.put k { e with joins := e.joins + 1 } } }
    some (s, BitVec.ofNat 32 k)
  | none =>
    if 64 ≤ mine.length then none
    else
      let f := (s.die die).nextFnum
      let e : FaultEnt := ⟨ctx, va, 1, acc, kind, level, grid, false⟩
      let s := s.modDie die fun d => { d with nextFnum := d.nextFnum + 1 }
      some ({ s with paging := { s.paging with faults := s.paging.faults.put (faultKey die f) e } }, f)

def accCode : AccKind → Nat
  | .load => 0 | .store => 1 | .atomic => 2 | .fetch => 3

/-- Accesses leave the entries that they joined (08 R208). -/
def State.leaveFaults (s : State) (fs : List (Nat × Word)) : State :=
  if fs = [] then s
  else { s with paging := { s.paging with
    faults := fs.foldl (fun t f => t.modify (faultKey f.1 f.2) fun e => { e with joins := e.joins - 1 }) s.paging.faults } }

/-- The 32-byte fault record (08 R206). JOIN counts the accesses attached to the entry now: at least 1, saturating. -/
def faultRecord (die : Nat) (fnum : Nat) (e : FaultEnt) : Nat :=
  e.va.toNat * 2 ^ 192 + fnum * 2 ^ 160 + Nat.max 1 (Nat.min e.joins 0xFFFF) * 2 ^ 144 + die * 2 ^ 140 + e.level * 2 ^ 132
    + e.kind * 2 ^ 130 + accCode e.acc * 2 ^ 128 + e.ctx * 2 ^ 64 + e.grid.toNat * 2 ^ 32

/-- Writes the records of the entries not yet written while the ring has room (08 R206, R491). The base is taken modulo 2^39
as a canonical offset of this package: the spec gives its form nowhere (DESIGN CHOICE, log 36). -/
def emitFaults (s : State) : State :=
  s.paging.faults.foldl (fun s ke =>
    let p := s.paging
    if ke.2.written ∨ (p.tail.toNat + 8192 - p.head.toNat) % 8192 = 4096 then s
    else
      let loc := locOf s.fused.pkg (p.ringBase.toNat % 2 ^ 39 + 32 * (p.tail.toNat % 4096))
      let s := s.storeLoc loc (bytesLE 32 (faultRecord (ke.1 / 2 ^ 32) (ke.1 % 2 ^ 32) ke.2)) none
      { s with paging := { s.paging with tail := p.tail + 1, faults := s.paging.faults.put ke.1 { ke.2 with written := true } } })
    s

end Sys2Proof.Machine
end

