-- ==== Sys2Proof/Machine/Reads.lean ====
section
/-! DEFINITION. What a read of a line returns: memory, routes to other packages (09 R230 to R234), compressed surfaces
(08 R212 to R214; 17 R434), poisoned lines (18 R448). -/

namespace Sys2Proof.Machine

/-- What HBM holds of n bytes of a line: the bytes last written home (09 R233, 11 R296). -/
def hbmRead (s : State) (loc n : Nat) : List Byte :=
  match s.hbmOld.get? (lineOf loc) with
  | some old => (old.drop (loc % 128)).take n
  | none => s.memRead loc n

/-! ## Compressed surfaces (08 R214; 17 R434) -/

/-- Bytes of a granule. -/
def granBytes (etype : Nat) : Nat := if (Ty.ofCode etype).any (·.width = 16) then 2 else 4

/-- The granules of a line. -/
def granules (g : Nat) (bs : List Byte) : List (List Byte) :=
  (List.range (128 / g)).map fun i => (bs.drop (g * i)).take g

def isZeros (bs : List Byte) : Bool := bs.all (· = 0#8)

/-- The code and data line of a plain line. -/
def compressLine (g : Nat) (bs : List Byte) : Nat × List Byte :=
  let gs := granules g bs
  let mask := (gs.zipIdx.map fun xi => if isZeros xi.1 then 0 else 2 ^ xi.2).foldl (· + ·) 0
  let kept := (gs.filter fun x => !isZeros x).flatten
  let body := bytesLE (16 / g) mask ++ kept
  let pad := body ++ List.replicate (128 - body.length) 0#8
  if mask = 0 then (0, pad)
  else match [1, 2, 3].find? fun c => decide (body.length ≤ 32 * c) with
    | some c => (c, pad)
    | none => (4, bs)

/-- The granules named by a mask, from its bit i on, taken in order. -/
def spread (g mask : Nat) : Nat → Nat → List Byte → List Byte
  | 0, _, _ => []
  | n + 1, i, kept =>
    if mask.testBit i then
      let x := kept.take g
      x ++ List.replicate (g - x.length) 0#8 ++ spread g mask n (i + 1) (kept.drop g)
    else List.replicate g 0#8 ++ spread g mask n (i + 1) kept

/-- The plain line of a data line in the compressor's line format. -/
def expandLine (g : Nat) (data : List Byte) : List Byte :=
  spread g (natLE (data.take (16 / g))) (128 / g) 0 (data.drop (16 / g))

/-- What a read returns: bytes, the poison pattern, or a denial of the stack endpoint. -/
inductive Got
  | bytes (bs : List Byte)
  | poison
  | denied
  deriving DecidableEq, Repr

def State.plainRead (s : State) (loc n : Nat) : Got := if s.linePoisoned loc then .poison else .bytes (s.memRead loc n)

/-- A read of a line of the package goes through the LLC (11 R272), where a line read through aperture 3 stands apart from
the plain line (08 R209). -/
def State.readLine (s : State) (ctx : Nat) (x : Xlat) : State := s.llcFill (x.filler s ctx) x.line

/-- The mask of a data line names no more granules than its first 32 × code bytes hold. -/
def lineHolds (g code : Nat) (data : List Byte) : Bool :=
  let mask := natLE (data.take (16 / g))
  16 / g + g * ((List.range (128 / g)).filter mask.testBit).length ≤ 32 * code

/-- An aperture-3 read of n bytes in one line, by the record that the translation holds (08 R212, R214). A line of the
surface that was written past the compressor reads as any value (08 R213), and so does one whose mask names granules
beyond the bytes of its code (log 2). -/
def ap3Read (s : State) (x : Xlat) (n : Nat) : State × Got :=
  let r := x.srec
  if ¬ x.cmp then (s, s.plainRead x.loc n)
  else
    let d := surfBase s r 511 448
    let line := lineOf x.loc * 128
    let k := (line - d) / 128
    if s.spoiled.has (lineOf x.loc) then (s.tick, .bytes (s.freeBytes n))
    else if line < d ∨ bits r 383 352 ≤ k then (s, s.plainRead x.loc n)
    else
      let mloc := surfBase s r 447 384 + k / 2
      let code := ((s.memRead mloc 1).headD 0#8).toNat / 16 ^ (k % 2) % 16
      let off := x.loc % 128
      if s.linePoisoned mloc ∨ 5 ≤ code then (s, .poison)
      else if code = 0 then (s, .bytes (List.replicate n 0#8))
      else if s.linePoisoned line then (s, .poison)
      else if code = 4 then (s, .bytes (s.memRead x.loc n))
      else
        let g := granBytes (bits r 343 339)
        let data := s.memRead line (32 * code)
        if lineHolds g code data then (s, .bytes (((expandLine g data).drop off).take n))
        else (s.tick, .bytes (s.freeBytes n))

/-- A read that leaves through the pod ports: poison when no port reaches the package (09 R231, R232). -/
def State.podRead (s : State) (ctx : Nat) (x : Xlat) (n : Nat) : State × Got :=
  match s.podPort x.pkg x.loc with
  | some _ => (s, s.plainRead x.loc n)
  | none => (s.raiseCtx ctx, .poison)

/-- A read of n bytes of one line (08 R209, R214; 09 R230 to R234). Whether the other package's stack endpoint
is Down, so that the pod ports serve the read, and whether it grants a read are free (log 57). -/
def State.readAt (s : State) (ctx : Nat) (x : Xlat) (n : Nat) : State × Got :=
  if x.pkg ≠ s.fused.pkg then
    if x.ap = 2 ∧ (s.route x.pkg).getLsbD 32 then
      if Config.freeBool s.fresh then s.tick.tick.podRead ctx x n
      else (s.tick.tick, if Config.freeBool (s.fresh + 1) then
          (if s.linePoisoned x.loc then .poison else .bytes (hbmRead s x.loc n)) else .denied)
    else s.podRead ctx x n
  else if x.ap = 3 then ap3Read (s.readLine ctx x) x n
  else (s.readLine ctx x, s.plainRead x.loc n)

end Sys2Proof.Machine
end

