-- ==== Sys2Proof/Machine/Ops.lean ====
section
/-! DEFINITION. The named operations over the state: stores and what they reach, neighbour ports, pins,
blocking, taking a trap and returning from it (06 R175 to R178, 17 R442), outstanding counters (05 R148),
and the outcome of an instruction. -/

namespace Sys2Proof.Machine

/-! ## Stores (11 R265, R274, R288; 18 R448) -/

/-- The north-west core of a gang. -/
def Gang.core (g : Gang) : Nat := coreKey g.die g.row g.col

/-- A stored line of an on-touch region is dirty in the gang's stash, one of a write-back region owned there; `at_` is the
mode and the position of the team (11 R264, R267). -/
def State.holdLine (s : State) (gid line : Nat) (at_ : Nat × Nat) : State :=
  if at_.1 = 1 then s.modGang gid fun g =>
    if g.dirty.has line then g else { g with dirty := g.dirty.put line (s.coreCc g.core, at_.2) }
  else if at_.1 = 2 then s.modGang gid fun g => if g.wb.has line then g else { g with wb := g.wb.put line at_.2 }
  else s

/-! ## Neighbour ports (09 R219 to R222, R228) -/

/-- Direction number of a port in the port map (05 R146). -/
def portDir : Port → Option Nat
  | .qn => some 0 | .qs => some 1 | .qe => some 2 | .qw => some 3 | .qd => some 4
  | .ql => none | .qr => none

/-- The FIFO that a written port feeds, as its owner reads it (09 R219). -/
def portFeeds : Port → Port
  | .qr => .ql | .ql => .qr | .qe => .qw | .qw => .qe | .qs => .qn | .qn => .qs | .qd => .qd

def portDepth : Port → Nat
  | .ql | .qr => 4
  | _ => 8

/-- Rows and columns of cores of a port component (05 R147). -/
def Grid.compRows (g : Grid) : Nat := g.ch * g.rows
def Grid.compCols (g : Grid) : Nat := g.cw * g.cols

/-- Where the team at position t of gang number n stands in its component: row and column. -/
def Grid.spot (g : Grid) (n t : Nat) : Nat × Nat :=
  (n % (g.cw * g.ch) / g.cw * g.rows + t / g.cols, n % g.cw * g.cols + t % g.cols)

/-- The place beyond a core in a direction, if the component has one (05 R147). -/
def Grid.beyond (g : Grid) (rc : Nat × Nat) (d : Nat) : Option (Nat × Nat) :=
  match d with
  | 0 => if 0 < rc.1 then some (rc.1 - 1, rc.2) else none
  | 1 => if rc.1 + 1 < g.compRows then some (rc.1 + 1, rc.2) else none
  | 2 => if rc.2 + 1 < g.compCols then some (rc.1, rc.2 + 1) else none
  | _ => if 0 < rc.2 then some (rc.1, rc.2 - 1) else none

/-- The gang number and team position at a place of the component of gang number n. -/
def Grid.teamAt (g : Grid) (n : Nat) (rc : Nat × Nat) : Nat × Nat :=
  (n / (g.cw * g.ch) * (g.cw * g.ch) + rc.1 / g.rows * g.cw + rc.2 / g.cols, rc.1 % g.rows * g.cols + rc.2 % g.cols)

/-- The team that a core port leads to: gang number and position (05 R147; 09 R228, R229). The paired component of a `qd`
byte is its neighbour by number. -/
def Grid.across (g : Grid) (n t d : Nat) : Option (Nat × Nat) :=
  if d = 4 then
    let k := g.cw * g.ch
    some ((if n / k % 2 = 0 then n + k else n - k), t)
  else (g.beyond (g.spot n t) d).map (g.teamAt n)

/-- Whether a port is bound (01 R37, 05 R147): lane ports always. -/
def Place.bound (p : Place) (q : Port) : Bool :=
  match portDir q with
  | none => true
  | some d => p.gr.portValid p.t.pos d && (p.gr.across p.g.num p.t.pos d).isSome

/-- The working dies of a class, ascending. -/
def classDies (s : State) (cls : Nat) : List Nat :=
  (List.range 12).filter fun d => dieClass s.fused d = cls ∧ ¬ s.dieFailed d

/-- The next working die of the same class, wrapping (09 R228). -/
def nextDie (s : State) (d : Nat) : Option Nat :=
  let l := classDies s (dieClass s.fused d)
  match l.find? (d < ·) with
  | some x => some x
  | none => match l with
    | x :: _ => if x = d then none else some x
    | [] => none

/-- The previous one: that whose next is `d`. -/
def prevDie (s : State) (d : Nat) : Option Nat :=
  (classDies s (dieClass s.fused d)).find? fun x => nextDie s x = some d

/-- The peer FIFO a lane's push reaches: warp, port and lane (09 R219). -/
def State.peer (s : State) (p : Place) (q : Port) (lane : Nat) : Option (Nat × Port × Nat) :=
  match portDir q with
  | none => if q = .qr then some (p.key, .ql, (lane + 1) % 32) else some (p.key, .qr, (lane + 31) % 32)
  | some d =>
    if ¬ p.bound q then none
    else match p.gr.across p.g.num p.t.pos d with
      | none => none
      | some (n, t) => match s.gangs.find? fun kg => kg.2.grid = p.g.grid && kg.2.num = n with
        | none => none
        | some (_, g) => (g.teams[t]?).map fun k => (warpKey k p.w.no, portFeeds q, lane)

/-- The die link at a core of row 0 or 7 that carries its `qd` port (09 R228). -/
def qdLink (core : Nat) : Nat :=
  coreDie core * 8 + (if coreRow core = 7 then 4 + coreCol core / 2 else coreCol core / 2)

/-- The two die links of a core's `qd` binding (09 R228). -/
def qdLinks (s : State) (core : Nat) : List Nat :=
  let far := if coreRow core = 7 then (nextDie s (coreDie core)).map fun d => coreKey d 0 (coreCol core)
    else (prevDie s (coreDie core)).map fun d => coreKey d 7 (coreCol core)
  qdLink core :: (far.map qdLink).toList

/-- A die link of the binding is Down: nothing crosses it (09 R217, R221). -/
def State.qdDown (s : State) (core : Nat) (q : Port) : Bool :=
  decide (q = .qd) && (qdLinks s core).any fun l => (s.link l).st = .down

def fifoKey (q : Port) (lane : Nat) : Nat := q.code * 32 + lane
def Warp.getFifo (w : Warp) (q : Port) (lane : Nat) : Fifo := w.fifo.getD (fifoKey q lane) ⟨[], 0⟩
/-- An open empty FIFO is not listed. -/
def Warp.setFifo (w : Warp) (q : Port) (lane : Nat) (f : Fifo) : Warp :=
  { w with fifo := if f = ⟨[], 0⟩ then w.fifo.del (fifoKey q lane) else w.fifo.put (fifoKey q lane) f }

/-- Entries queued in a FIFO and in flight to it (09 R220). -/
def State.fifoLoad (s : State) (w : Nat) (q : Port) (lane : Nat) : Nat :=
  (((s.warps.get? w).map fun x => (x.getFifo q lane).q.length).getD 0)
    + (s.flight.filter fun m => m.warp = w ∧ m.p = q ∧ m.lane = lane ∧ m.entry ≠ none).length

/-- A peer lane that takes nothing: exited, or its warp pinned (09 R222). -/
def State.peerGone (s : State) (w lane : Nat) : Bool :=
  match s.warps.get? w with
  | none => true
  | some x => x.exited.getLsbD lane || x.pins ≠ []

/-- Room for n more entries in the peer's FIFO; pushes toward a gone peer, or a `qd` link that is Down, never wait
(09 R220, R222; log 62). -/
def State.portRoom (s : State) (p : Place) (q : Port) (lane n : Nat) : Bool :=
  match s.peer p q lane with
  | none => true
  | some (w, pq, l) => s.peerGone w l || s.qdDown p.t.core q || s.fifoLoad w pq l + n ≤ portDepth q

/-- A push by one lane: into flight, or discarded and counted in `%qdrop` (09 R222). -/
def State.push (s : State) (p : Place) (q : Port) (lane : Nat) (x : Word) : State :=
  match s.peer p q lane with
  | none => s
  | some (w, pq, l) =>
    if s.peerGone w l || s.qdDown p.t.core q then s.modCore p.t.core fun c => { c with qdrop := c.qdrop + 1#32 }
    else { s with flight := s.flight ++ [⟨w, pq, l, some x, 0⟩] }

/-- A close or break of a lane's outbound links, sent behind every entry pushed before it (09 R221). -/
def State.closeLane (s : State) (p : Place) (qs : List Port) (lane how : Nat) : State :=
  qs.foldl (fun s q => match s.peer p q lane with
    | none => s
    | some (w, pq, l) => { s with flight := s.flight ++ [⟨w, pq, l, none, how⟩] }) s

def allPorts : List Port := [.qn, .qs, .qe, .qw, .ql, .qr, .qd]

/-! ## Pins (18 R451) -/

/-- Writes pin records while the list of 256 has room (18 R451). -/
def writePins (s : State) : State :=
  let room := 256 - (s.errs.pins.filter (·.written)).length
  let go := s.errs.pins.foldl (fun (acc : List Pin × Nat) q =>
    if q.written ∨ acc.2 = 0 then (acc.1 ++ [q], acc.2) else (acc.1 ++ [{ q with written := true }], acc.2 - 1))
    (([] : List Pin), room)
  { s with errs := { s.errs with pins := go.1 } }

/-- The masters of a context that are pinned: CTXERR.PINS, saturating (03 R109, 18 R451). -/
def State.pinsOf (s : State) (ctx : Nat) : Nat :=
  Nat.min ((s.errs.pins.filterMap fun q => if q.ctx = ctx then some q.master else none).eraseDups.length) 0xFFFF

/-- A master is pinned: the error event is raised, and the record written or held (18 R451). -/
def State.addPin (s : State) (q : Pin) : State :=
  let s := s.raiseCtx q.ctx
  writePins { s with
    errs := { s.errs with pins := s.errs.pins ++ [q] }
    placer := { s.placer with nextPin := s.placer.nextPin + 1 } }

/-- Ends the tempo wait of a warp that is Blocked, Pinned or Evicted (10 R247, R248). -/
def State.dropWait (s : State) (w core : Nat) : State :=
  (s.modWarp w fun x => { x with tempoSince := none }).modCore core
    fun c => { c with critical := c.critical.filter (· ≠ w) }

/-- A warp is pinned at an instruction: its issue freezes and its state stays (18 R451); its outbound
links break (09 R221). -/
def State.pinWarp (s : State) (p : Place) (lanes : LaneMask) (pc : Word) (len : Nat) (last : Bool)
    (cause : Nat) (addr : DWord) (entry : Option Nat) (trap : Bool := false) : State :=
  let id := s.placer.nextPin
  let s := s.addPin ⟨id, .warp p.key, cause, p.gr.ctx, p.g.grid, p.g.num, p.t.pos, p.w.no, pc, addr, false⟩
  let s := s.modWarp p.key fun w => { w with pins := w.pins ++ [⟨id, cause, lanes, pc, len, last, entry, trap⟩] }
  let s := (List.range 32).foldl (fun s l => s.closeLane p allPorts l 3) s
  s.dropWait p.key p.t.core

/-! ## Blocking and moving on -/

/-- Lanes block, each with its wake record (06 R160), and resume inside their clause by search (12 R302); a warp that
becomes Blocked ends its tempo wait and its yield (10 R247, 13 R356). -/
def State.blockLanes (s : State) (w core : Nat) (ws : List (Nat × Wake)) : State :=
  let s := s.modWarp w fun x =>
    { x with wake := ws.foldl (fun t lw => t.put lw.1 lw.2) x.wake
             inside := x.inside.filter fun lh => !(maskOf (ws.map (·.1))).getLsbD lh.1
             fairLeft := if x.fairPath &&& maskOf (ws.map (·.1)) ≠ 0#32 then 0 else x.fairLeft }
  match s.warps.get? w with
  | some x =>
    if x.st = .blocked then (s.dropWait w core).modWarp w fun x => { x with yieldUntil := 0 } else s
  | none => s

/-- Lanes wake: their wake records go. -/
def Warp.unblock (w : Warp) (m : LaneMask) : Warp :=
  { w with wake := w.wake.filter fun lw => ¬ m.getLsbD lw.1 }

/-- An operand-log entry retires: the lanes that wait on it wake (06 R160). -/
def Warp.dropEntry (w : Warp) (k : Nat) : Warp :=
  { w with
    log := w.log.del k
    wake := w.wake.filter fun lw => decide (lw.2 ≠ .page k) && decide (lw.2 ≠ .remote k) }

/-- Lanes step over an instruction of `len` bytes at `pc`: inside their clause, or, after its last
instruction, at the next header (12 R303, R306). -/
def Warp.stepOver (w : Warp) (m : LaneMask) (pc : Word) (len : Nat) (last : Bool) : Warp :=
  let w := w.setPcs m (pc + BitVec.ofNat 32 len)
  let w := { w with bpExempt := w.bpExempt &&& ~~~ m }
  if last then { w with entering := w.entering ||| m, inside := w.inside.filter fun lw => ¬ m.getLsbD lw.1 } else w

/-- Lanes transfer to a clause header (12 R306). -/
def Warp.jump (w : Warp) (m : LaneMask) (target : Word) : Warp :=
  let w := w.setPcs m target
  { w with bpExempt := w.bpExempt &&& ~~~ m, entering := w.entering ||| m,
           inside := w.inside.filter fun lw => ¬ m.getLsbD lw.1 }

/-- The issued instruction retires and its path moves past it. -/
def State.retire (s : State) (i : Issue) : State :=
  s.modWarp i.w fun w => w.stepOver i.path i.pc i.len i.last

/-! ## Traps (06 R175 to R178; 03 R98) -/

/-- The codes of 06 R177. -/
def causeCode : Cause → Nat
  | .illegal => 1 | .resv => 2 | .retired => 3 | .align => 4 | .regnum => 5 | .rangelock => 6
  | .portdead => 7 | .futdead => 8 | .user => 9 | .brk => 10

/-- Pin causes (06 R174 PINC). -/
def pinRegion : Nat := 1
def pinCompress : Nat := 2
def pinPort : Nat := 3
def pinAct : Nat := 4
def pinPriv : Nat := 5
def pinNoHandler : Nat := 6

/-- Where a trap goes (03 R98): the handler offset; a page fault on the entry's address; a read that pins the warp; one that
waits because no link of the die works (09 R217); or no handler. -/
inductive HandlerAt
  | found (s : State) (off : Word)
  | cut
  | faults (va kind level : Nat)
  | pins (s : State) (cause : Nat) (va : Nat)
  | none (s : State)
  deriving Repr

/-- One handler table: a valid entry for the cause gives its offset. The read is a plain load through the context's page
tables: an address that is not canonical pins with P-REGION (08 R193), and a poisoned entry reads as ones (03 R98,
18 R448). -/
def handlerIn (s : State) (p : Place) (tbl cause : Nat) : HandlerAt :=
  let va := (tbl + 8 * cause) % 2 ^ 64
  if ¬ canonicalVa va then .pins s pinRegion va
  else if s.dieCut (coreDie p.t.core) then .cut
  else match translate s (coreTlbs p.t.core) p.gr.ctx va .load with
  | .error (k, l) => .faults va k l
  | .ok (s, x) => match s.readAt p.gr.ctx x 8 with
    | (s, .denied) => .pins s pinAct va
    | (s, .poison) => .found (s.addPoison p.t.core p.g.grid 1) 0xFFFFFFFF#32
    | (s, .bytes bs) => if natLE bs / 2 ^ 63 % 2 = 1 then .found s (BitVec.ofNat 32 (natLE bs)) else .none s

/-- The handler the kernel control block names, else the context's (03 R98, 05 R136). -/
def findHandler (s : State) (p : Place) (cause : Nat) : HandlerAt :=
  let fromCtx (s : State) : HandlerAt := match s.ctxs.get? p.gr.ctx with
    | none => .none s
    | some c =>
      let b := bits c.desc 255 192
      if b = 0 then .none s else handlerIn s p b cause
  if p.gr.hando = 0xFFFFFFFF then fromCtx s
  else match handlerIn s p (p.gr.textb + p.gr.hando) cause with
    | .none s => fromCtx s
    | h => h

def lowLane (m : LaneMask) : Nat := (lanesOf m).headD 0

/-- A stalled path gives its port back: another path may issue instead (06 R165). -/
def State.giveBack (s : State) : State := { s with cur := none }

/-- The handler state is filled, the warp enters handler mode, and every lane of the trapping path goes to the handler
(06 R178). -/
def Warp.enterHandler (w : Warp) (i : Issue) (cause : Cause) (sub : Nat) (mask : LaneMask) (val : DWord) (off : Word) : Warp :=
  { w.jump i.path off with
    handler := {
      on := true
      cause := BitVec.ofNat 32 (sub * 256 + causeCode cause)
      epc := i.pc
      tpath := i.path
      tmask := mask
      tlane := BitVec.ofNat 32 (lowLane mask)
      tval := loWord val
      tvalh := hiWord val } }

/-- TAKING A TRAP (06 R178). Without a handler, or in handler mode, the warp is pinned with P-NOHANDLER. A page fault on
the handler entry blocks the path with kind PAGE; the trap stands in `traps` and is taken once the page has been
serviced (03 R98). -/
def takeTrap (s : State) (p : Place) (i : Issue) (cause : Cause) (sub : Nat) (mask : LaneMask) (val : DWord) : State :=
  let pin (s : State) (c va : Nat) : State := s.pinWarp p i.path i.pc i.len i.last c (BitVec.ofNat 64 va) none true
  if p.w.handler.on then pin s pinNoHandler 0
  else match findHandler s p (causeCode cause) with
    | .none s => pin s pinNoHandler 0
    | .cut => s.giveBack
    | .pins s c va => pin s c va
    | .faults va k l =>
      let wait (s : State) : State := s.modWarp p.key fun w =>
        { w with traps := w.traps ++ [⟨i.path, i.pc, i.len, i.last, cause, sub, mask, val⟩] }
      match joinFault s (coreDie p.t.core) p.gr.ctx (BitVec.ofNat 64 va) .load k l p.g.grid with
      | none => s.giveBack
      | some (s, f) => emitFaults ((wait s).blockLanes p.key p.t.core
          ((lanesOf i.path).map fun l => (l, Wake.fetch (BitVec.ofNat 64 va) (coreDie p.t.core) f)))
    | .found s off => s.modWarp p.key fun w => w.enterHandler i cause sub mask val off

/-- A trap of a path that waits for its handler's entry: the page has been serviced, so it is taken (03 R98). -/
def retakeTrap (s : State) (p : Place) (t : PendTrap) : State :=
  let s := s.modWarp p.key fun w => { w with traps := w.traps.filter fun x => x ≠ t }
  takeTrap s p ⟨p.key, t.path, t.pc, t.len, t.last⟩ t.cause t.sub t.mask t.val

/-- RETURN FROM A TRAP (06 R178, 17 R442): handler mode ends and every lane of `%tpath` that has not
exited (01 R44) stands at `%epc`, inside or at the head of its clause (12 R302), exempt from one breakpoint check (17 R441). -/
def returnFromTrap (w : Warp) : Warp :=
  let m := w.handler.tpath &&& ~~~ w.exited
  let w := w.setPcs m w.handler.epc
  { w with
    handler := { w.handler with on := false }
    entering := w.entering &&& ~~~ m
    inside := w.inside.filter fun lw => ¬ m.getLsbD lw.1
    bpExempt := w.bpExempt ||| m }

/-! ## Outstanding counters (05 R148) -/

/-- Takes n counts of a grid on a core; `none` when the issue waits. -/
def State.takeOut (s : State) (core : Nat) (grid : Word) (n : Nat) : Option State :=
  let c := s.core core
  if n = 0 then some s
  else if c.out.any (·.1 = grid) then
    if c.out.all fun gc => gc.1 ≠ grid ∨ gc.2 + n ≤ 65535 then
      some (s.modCore core fun c => { c with out := c.out.map fun gc => if gc.1 = grid then (grid, gc.2 + n) else gc })
    else none
  else if c.out.length < 16 ∧ n ≤ 65535 then some (s.modCore core fun c => { c with out := c.out ++ [(grid, n)] })
  else none

/-- A team of the grid is resident on the core. -/
def State.residentOn (s : State) (core : Nat) (grid : Word) : Bool :=
  s.teams.any fun kt => kt.2.core = core && !kt.2.retired &&
    (s.gangs.get? kt.2.gang).any fun g => g.grid = grid && g.st ≠ .evicted && g.st ≠ .retired

/-- Acknowledgements take n counts; a slot at zero with no resident team of its grid is freed. -/
def State.ackOut (s : State) (core : Nat) (grid : Word) (n : Nat) : State :=
  s.modCore core fun c =>
    { c with
      out := (c.out.map fun gc => if gc.1 = grid then (grid, gc.2 - n) else gc).filter
        (fun gc => decide (gc.2 ≠ 0) || s.residentOn core gc.1) }

/-- Slots at zero with no resident team of their grid are freed, where teams have left. -/
def State.dropZeroSlots (s : State) : State :=
  { s with cores := s.cores.mapV fun k c =>
      if c.out.any fun gc => decide (gc.2 = 0) then
        { c with out := c.out.filter fun gc => decide (gc.2 ≠ 0) || s.residentOn k gc.1 }
      else c }

/-! ## The outcome of an instruction -/

/-- Why an instruction does not retire: a trap with its mask and value, a pin, lanes that block, a stall,
or a lack of tempi (06 R160, R176; 10 R246). -/
inductive Stop
  | trap (cause : Cause) (sub : Nat) (mask : LaneMask) (val : DWord)
  | pin (cause : Nat) (addr : DWord)
  | block (ws : List (Nat × Wake))
  | stall
  | tempo
  deriving DecidableEq, Repr

/-- A failed draw starts the warp's tempo wait and marks the core as demanding (10 R243, R247). -/
def State.failDraw (s : State) (w core : Nat) : State :=
  (s.modWarp w fun x => { x with tempoSince := some (x.tempoSince.getD (s.coreCc core)) }).modCore core
    fun c => { c with demandNow := true }

/-- The cause a pin of the warp is recorded with: a pin in handler mode is a P-NOHANDLER (06 R178). -/
def Place.pinCause (p : Place) (c : Nat) : Nat := if p.w.handler.on then pinNoHandler else c

/-- What a stop does to the machine. -/
def applyStop (s : State) (p : Place) (i : Issue) : Stop → State
  | .trap c sub m v => takeTrap s p i c sub m v
  | .pin c a => s.pinWarp p i.path i.pc i.len i.last (p.pinCause c) a none
  | .block ws => s.blockLanes p.key p.t.core ws
  | .stall => s.giveBack
  | .tempo => s.failDraw p.key p.t.core

/-- The issuing path and what it belongs to, or the fault of a state in which no path issues. -/
def settle (s : State) (f : Place → Issue → Except Stop State) : Host.Outcome State Fault Refusal :=
  match s.cur with
  | none => .fault .noIssue
  | some i => match s.place? i.w with
    | none => .fault .noIssue
    | some p => match f p i with
      | .ok t => .next t
      | .error e => .next (applyStop s p i e)

end Sys2Proof.Machine
end

