-- ==== Sys2Proof/Machine/Operands.lean ====
section
/-! DEFINITION. Operands: what a source supplies in a lane, what a destination receives, and the checks
every instruction makes of them before it has any effect, in the order of 06 R176 (01 R36 to R43, R46 to
R48; 06 R160, R168, R169; 09 R221, R222). -/

namespace Sys2Proof.Machine

/-- The lanes of the path in which the guard holds (12 R308). -/
def Warp.guardMask (w : Warp) (g : Guard) : LaneMask := if g.neg then ~~~ (w.getP g.p) else w.getP g.p

def activeOf (p : Place) (i : Issue) (g : Guard) : LaneMask := i.path &&& p.w.guardMask g

/-- The read-only specials of the operand field (01 R42). -/
def specialVal (s : State) (p : Place) (lane : Nat) : Special → Word
  | .lane => BitVec.ofNat 32 lane
  | .warp => BitVec.ofNat 32 p.w.no
  | .team => BitVec.ofNat 32 p.t.pos
  | .gang => BitVec.ofNat 32 p.g.num
  | .core => BitVec.ofNat 32 (coreClusterNo p.t.core * 64 + coreRow p.t.core * 8 + coreCol p.t.core)
  | .die => BitVec.ofNat 32 (dieClass s.fused (coreDie p.t.core) * 16 + coreDie p.t.core)
  | .grid => p.g.grid
  | .clk => BitVec.ofNat 32 (s.coreCc p.t.core)

/-- One source operand as an instruction names it: the operand, the registers it takes (01 R40), and the
words it supplies when it is a constant (01 R43). -/
structure Src where
  o : Operand
  n : Nat
  k : List Word
  deriving DecidableEq, Repr

/-- A 32-bit integer constant. -/
def kWord (o : Operand) : List Word := match o with
  | .imm k => [BitVec.ofNat 32 k.val]
  | _ => [0#32]

/-- A one-register source read as a 32-bit word. -/
def src1 (o : Operand) : Src := ⟨o, 1, kWord o⟩

/-- The words a source supplies in a lane. `skip` entries of the port are taken by earlier sources of the
same instruction (01 R37). -/
def opWordsOf (s : State) (p : Place) (lane : Nat) (x : Src) (skip : Nat) : List Word :=
  match x.o with
  | .v r => (List.range x.n).map fun j => p.w.getV (r.val + j) lane
  | .s r => (List.range x.n).map fun j => p.w.getU (r.val + j)
  | .port q => ((p.w.getFifo q lane).q.drop skip).take x.n
  | .spec y => [specialVal s p lane y]
  | .imm _ => x.k

/-- Entries that sources of the list take from a port. -/
def portCount (q : Port) : List Src → Nat
  | [] => 0
  | x :: xs => (if x.o = .port q then x.n else 0) + portCount q xs

/-- The values of all sources in a lane, in the order src0, src1, src2. -/
def srcVals (s : State) (p : Place) (lane : Nat) : List Src → List Src → List (List Word)
  | _, [] => []
  | before, x :: xs =>
    opWordsOf s p lane x (match x.o with | .port q => portCount q before | _ => 0)
      :: srcVals s p lane (before ++ [x]) xs

/-- The ports named by sources. -/
def srcPorts (xs : List Src) : List Port :=
  allPorts.filter fun q => portCount q xs ≠ 0

/-- Pops what the sources took, in every active lane (01 R37). -/
def popSrcs (w : Warp) (active : LaneMask) (xs : List Src) : Warp :=
  (srcPorts xs).foldl (fun w q => (lanesOf active).foldl (fun w l =>
    let f := w.getFifo q l
    w.setFifo q l { f with q := f.q.drop (portCount q xs) }) w) w

/-! ## Poisoned elements (18 R448) -/

/-- The element keys a source reads. -/
def srcMarks (active : LaneMask) (x : Src) : List Nat :=
  match x.o with
  | .v r => (List.range x.n).flatMap fun j => (lanesOf active).map fun l => markV (r.val + j) l
  | .s r => (List.range x.n).map fun j => markU (r.val + j)
  | _ => []

/-- The first read of a poisoned element counts one poisoned load and takes its mark away. -/
def State.readMarks (s : State) (p : Place) (keys : List Nat) : State :=
  if p.w.marks = [] then s
  else
    let hit := p.w.marks.keys.filter keys.contains
    (s.modWarp p.key fun w => { w with marks := hit.foldl (fun t k => t.del k) w.marks }).addPoison
      p.t.core p.g.grid hit.length

/-- The grant limit G of a core (10 R254). -/
def grantLimit (s : State) (core : Nat) : Nat :=
  if (s.cluster (coreCluster core)).lastDroop ≠ none then 2
  else if (s.die (coreDie core)).overBudget then 4
  else 8

/-- Register-bank grants an instruction needs: one for each vector register that each of its sources reads (10 R253; DESIGN
CHOICE, log 15: a register that two sources name needs two). -/
def grantNeed (xs : List Src) : Nat := (xs.map fun x => match x.o with | .v _ => x.n | _ => 0).foldl (· + ·) 0

/-- An instruction that issues takes what this cc has left of its g grants, and waits for the rest behind those issued
before it (10 R253; DESIGN CHOICE, log 15: any bank may give several of them). -/
def Core.takeGrants (c : Core) (now g n : Nat) : Core :=
  let given := if c.grants.cc = now then c.grants.given else 0
  let m := if c.grants.queue = [] then Nat.min n (g - given) else 0
  { c with grants := ⟨now, given + m, c.grants.queue ++ if m = n then [] else [n - m]⟩ }

/-- A cc's grants go to the instructions that wait, in issue order. -/
def giveGrants : Nat → List Nat → List Nat
  | _, [] => []
  | g, x :: xs => if x ≤ g then giveGrants (g - x) xs else (x - g) :: xs

/-- k further cc, the last of them `now`, in which g grants are given each: a cc in which an instruction still waits for
grants adds 1 to %bgwait (10 R254). -/
def Core.gather (now g : Nat) : Nat → Core → Core
  | 0, c => c
  | k + 1, c =>
    if c.grants.queue = [] then c
    else
      let q := giveGrants g c.grants.queue
      Core.gather now g k { c with
        grants := ⟨now - k, Nat.min g (c.grants.queue.foldl (· + ·) 0), q⟩
        bgwait := c.bgwait + 1#32 }

/-- The sources are read: ports popped, poisoned elements counted, waits for grants counted. -/
def State.consume (s : State) (p : Place) (active : LaneMask) (xs : List Src) : State :=
  let n := grantNeed xs
  let s := if n = 0 then s
    else s.modCore p.t.core fun c => c.takeGrants (s.coreCc p.t.core) (grantLimit s p.t.core) n
  let s := if srcPorts xs = [] then s else s.modWarp p.key fun w => popSrcs w active xs
  s.readMarks p (xs.flatMap (srcMarks active))

/-! ## Destinations -/

/-- Writes words to successive registers from `r` in one lane. -/
def Warp.setVs (w : Warp) (r lane : Nat) (xs : List Word) : Warp :=
  (xs.zipIdx).foldl (fun w xj => w.setV (r + xj.2) lane xj.1) w
def Warp.setUs (w : Warp) (r : Nat) (xs : List Word) : Warp :=
  (xs.zipIdx).foldl (fun w xj => w.setU (r + xj.2) xj.1) w

/-- A result reaches its destination: each active lane's element, the lowest active lane's value in a
uniform register, one push per word in each active lane of a port (01 R36 to R38, R40). -/
def State.writeOp (s : State) (p : Place) (active : LaneMask) (d : Operand) (val : Nat → List Word) : State :=
  match d with
  | .v r => s.modWarp p.key fun w => (lanesOf active).foldl (fun w l => w.setVs r.val l (val l)) w
  | .s r => s.modWarp p.key fun w => w.setUs r.val (val (lowLane active))
  | .port q => (lanesOf active).foldl (fun s l => (val l).foldl (fun s x => s.push p q l x) s) s
  | _ => s

/-- A predicate receives one bit per active lane; other lanes keep theirs (00 R16). -/
def Warp.writeP (w : Warp) (r : Fin 8) (active val : LaneMask) : Warp :=
  w.setP r ((w.getP r &&& ~~~ active) ||| (val &&& active))

/-! ## Checks (06 R176) -/

/-- A register operand stays within its allotment (01 R30, R40). -/
def inAllot (w : Warp) (o : Operand) (n : Nat) : Bool :=
  match o with
  | .v r => r.val + n ≤ w.va
  | .s r => r.val + n ≤ w.sa
  | _ => true

/-- REGNUM applies to the whole path, also with an empty active set (log 12). -/
def checkRegs (p : Place) (i : Issue) (xs : List (Operand × Nat)) : Except Stop Unit :=
  if xs.all fun x => inAllot p.w x.1 x.2 then .ok () else .error (.trap .regnum 0 i.path 0#64)

/-- Naming an unbound port pins the warp with P-PORT (01 R37). -/
def checkBound (p : Place) (os : List Operand) : Except Stop Unit :=
  if os.all fun o => match o with | .port q => p.bound q | _ => true then .ok ()
  else .error (.pin pinPort 0#64)

/-- PORTDEAD subcode of an inbound state: 1 exited, 2 faulted (09 R221). -/
def deadSub (st : Nat) : Nat := if st = 3 then 2 else 1

/-- The lanes whose FIFO of a port is closed or broken and lacks the n entries a read takes (09 R221). -/
def deadLanes (p : Place) (active : LaneMask) (q : Port) (n : Nat) : List Nat :=
  (lanesOf active).filter fun l =>
    let f := p.w.getFifo q l
    decide (f.q.length < n) && decide (f.st ≠ 0)

/-- The ports that sources name, in the order src0, src1, src2. -/
def namedPorts (xs : List Src) : List Port :=
  (xs.filterMap fun x => match x.o with | .port q => some q | _ => none).eraseDups

/-- Lanes that raise PORTDEAD, each with its subcode and port, in the order of the naming: reads of dead FIFOs, then
pushes on a link the lane has closed (09 R221, R222). -/
def deadPorts (p : Place) (active : LaneMask) (srcs : List Src) (dsts : List (Operand × Nat)) : List (Nat × Nat × Port) :=
  ((namedPorts srcs).flatMap fun q => (deadLanes p active q (portCount q srcs)).map fun l =>
      (l, deadSub (p.w.getFifo q l).st, q))
    ++ dsts.flatMap fun d => match d.1 with
      | .port q => (lanesOf (active &&& Sparse.get 0#32 p.w.outClosed q.code)).map fun l => (l, 1, q)
      | _ => []

/-- PORTDEAD: the mask is every lane that is dead on some port, and its lowest lane is reported (06 R176). -/
def checkDead (p : Place) (active : LaneMask) (srcs : List Src) (dsts : List (Operand × Nat)) : Except Stop Unit :=
  let ds := deadPorts p active srcs dsts
  let m := maskOf (ds.map (·.1))
  match ds.find? fun d => d.1 = lowLane m with
  | none => .ok ()
  | some d => .error (.trap .portdead d.2.1 m (BitVec.ofNat 64 (96 + d.2.2.code)))

/-- The futures among the registers of an operand (01 R46). -/
def futsOf (o : Operand) (n : Nat) : List (Fin 8) :=
  match o with
  | .s r => (List.range n).filterMap fun j =>
      if h : 24 ≤ r.val + j ∧ r.val + j < 32 then some ⟨r.val + j - 24, by omega⟩ else none
  | _ => []

/-- An empty future with no producer left traps with FUTDEAD (01 R48). -/
def checkFutDead (p : Place) (active : LaneMask) (fs : List (Fin 8)) : Except Stop Unit :=
  match fs.findSome? fun k => match p.w.fut.get? k.val with
      | some (.gone sub) => some (k, sub)
      | _ => none with
  | some (k, sub) => .error (.trap .futdead sub active (BitVec.ofNat 64 (24 + k.val)))
  | none => .ok ()

def allLanes (m : LaneMask) (w : Wake) : List (Nat × Wake) := (lanesOf m).map fun l => (l, w)

/-- An empty future blocks the path with kind FUTURE (01 R47). -/
def checkFutWait (p : Place) (i : Issue) (fs : List (Fin 8)) : Except Stop Unit :=
  match fs.find? fun k => p.w.fut.has k.val with
  | some k => .error (.block (allLanes i.path (.future k)))
  | none => .ok ()

/-! ## Order in the operand log (11 R279, R280) -/

def MemOrdRel (o : MOrd) : Bool := o == .rel || o == .ar || o == .sc
def MemOrdAcq (o : MOrd) : Bool := o == .acq || o == .ar || o == .sc

/-- The order an instruction carries. -/
def ordOf : Instr → MOrd
  | .ld x | .ldPoll x | .ldu x | .ldr x => x.ord
  | .st x | .stu x => x.ord
  | .atomAdd x | .atomSub x | .atomMin x | .atomMax x | .atomAnd x | .atomOr x | .atomXor x | .atomExch x
  | .stc x => x.ord
  | .cas x => x.ord
  | .rst x => x.ord
  | .rld x => x.ord
  | .sig x | .sigw x => x.ord
  | .fence x => x.ord
  | _ => .plain

/-- Bytes an instruction of one address per lane accesses; `none` for the others. -/
def spanOf : Instr → Option Nat
  | .ld x | .ldPoll x | .ldu x | .ldr x => some (x.ty.width / 8)
  | .st x | .stu x => some (x.ty.width / 8)
  | .atomAdd x | .atomSub x | .atomMin x | .atomMax x | .atomAnd x | .atomOr x | .atomXor x | .atomExch x
  | .stc x => some (x.ty.width / 8)
  | .cas x => some (x.ty.width / 8)
  | .sig _ => some 8
  | _ => none

/-- `ldr` and `stc`, whose lanes' reservations come and go in program order (11 R288). -/
def onResv : Instr → Bool
  | .ldr _ | .stc _ => true
  | _ => false

/-- An older incomplete access of the lane comes first: it is an acquire, the newer one is a release, or the
two may touch one location (11 R279, R280), or both bear on the lane's reservation (11 R288). Apertures keep bits [6:0] of
an address (08 R209). -/
def LogEntry.holds (e : LogEntry) (newer : Instr) (va : DWord) (lane : Nat) : Bool :=
  (e.active &&& ~~~ e.done).getLsbD lane &&
    (MemOrdAcq (ordOf e.instr) || MemOrdRel (ordOf newer) || (onResv e.instr && onResv newer) || match spanOf e.instr, spanOf newer with
      | some m, some n =>
        let a := (e.addr.getD lane 0#64).toNat % 128
        let b := va.toNat % 128
        a < b + n && b < a + m
      | _, _ => true)

/-- Lanes of a newer access that wait for an older entry. -/
def behindOlder (older : List (Nat × LogEntry)) (newer : Instr) (va : Nat → DWord) (lane : Nat) : Bool :=
  older.any fun ke => ke.2.holds newer (va lane) lane

/-- Registers that a memory instruction in the operand log will still write, and those it has read. -/
def logRegs : Instr → List (Operand × Nat) × List (Operand × Nat)
  | .ld x | .ldPoll x | .ldu x | .ldr x => ([(x.d, x.ty.regs)], [(pairOp x.x, 2)])
  | .st x | .stu x => ([], [(pairOp x.x, 2), (x.b, x.ty.regs)])
  | .atomAdd x | .atomSub x | .atomMin x | .atomMax x | .atomAnd x | .atomOr x | .atomXor x
  | .atomExch x => ([(x.d, x.ty.regs)], [(pairOp x.x, 2), (x.b, x.ty.regs)])
  | .stc x => ([(x.d, 1)], [(pairOp x.x, 2), (x.b, x.ty.regs)])
  | .cas x => ([(x.d, x.ty.regs)], [(pairOp x.x, 2), (x.b, x.ty.regs), (x.c, x.ty.regs)])
  | .rst x => ([], [(x.o, 1), (x.b, x.ty.regs), (x.t, 1)])
  | .rld x => ([(x.d, x.ty.regs)], [(x.o, 1), (x.t, 1)])
  | .sig x => ([], [(pairOp x.x, 2), (x.v, 2)])
  | .tld x | .tst x => ([], [(pairOp x.x, 2)])
  | _ => ([], [])
where
  /-- The register of a kind X field as an operand. -/
  pairOp : Pair → Operand
    | .v r => .v ⟨2 * r.val, by omega⟩
    | .s r => .s ⟨2 * r.val, by omega⟩

/-- Two register ranges of one class meet. -/
def regsMeet (a : Operand × Nat) (b : Operand × Nat) : Bool :=
  match a.1, b.1 with
  | .v x, .v y => x.val < y.val + b.2 && y.val < x.val + a.2
  | .s x, .s y => x.val < y.val + b.2 && y.val < x.val + a.2
  | _, _ => false

/-- The registers of an operand: whether they are vector registers, and their numbers. -/
def regsOf (x : Operand × Nat) : List (Bool × Nat) :=
  match x.1 with
  | .v r => (List.range x.2).map fun j => (true, r.val + j)
  | .s r => (List.range x.2).map fun j => (false, r.val + j)
  | _ => []

/-- Lanes in which an access of the entry has not completed. -/
def LogEntry.open (e : LogEntry) : LaneMask := e.active &&& ~~~ e.done

/-- Entries with a lane that waits on a page fault, itself or behind an older such entry (06 R169; 08 R208). -/
def pageHeld (log : Tab LogEntry) : List Nat :=
  log.foldl (fun ks ke =>
    if decide (ke.2.faults ≠ []) || log.any fun je => decide (je.1 < ke.1) && ks.contains je.1 &&
        (lanesOf ke.2.open).any fun l => je.2.holds ke.2.instr (ke.2.addr.getD l 0#64) l
    then ks ++ [ke.1] else ks) []

/-- The registers an entry will still write, each with the lanes: those that a younger instruction has not written
since. -/
def LogEntry.pending (e : LogEntry) : List ((Bool × Nat) × LaneMask) :=
  (logRegs e.instr).1.flatMap fun d => (regsOf d).zipIdx.map fun rj => (rj.1, e.open &&& ~~~ e.dead.getD rj.2 0#32)

/-- A register is among those of a list, in lanes that count: any lane of a uniform register. -/
def regIn (active : LaneMask) (xs : List (Bool × Nat)) (rm : (Bool × Nat) × LaneMask) : Bool :=
  xs.contains rm.1 && rm.2 &&& (if rm.1.1 then active else 0xFFFFFFFF#32) ≠ 0#32

def LogEntry.isRld (e : LogEntry) : Bool := match e.instr with
  | .rld _ => true
  | _ => false

/-- An instruction reads a register that the entry will write (06 R168). -/
def LogEntry.readBy (e : LogEntry) (active : LaneMask) (reads : List (Operand × Nat)) : Bool :=
  e.pending.any (regIn active (reads.flatMap regsOf))

/-- An instruction writes a register that the entry has as a source (06 R168). -/
def LogEntry.reusedBy (e : LogEntry) (active : LaneMask) (writes : List (Operand × Nat)) : Bool :=
  ((logRegs e.instr).2.flatMap regsOf).any fun r => regIn active (writes.flatMap regsOf) (r, e.open)

/-- Dependence on an incomplete entry: a reader of its destinations, or a writer of its sources, waits with kind PAGE
where a page fault holds one of them; a reader of an `rld` with kind REMOTE; any other as a scoreboard stall (06 R160, R168,
R169; 08 R208). An instruction that only writes its destinations retires past it. -/
def checkLog (p : Place) (i : Issue) (active : LaneMask) (reads writes : List (Operand × Nat)) : Except Stop Unit :=
  match p.w.log.filter fun ke => ke.2.readBy active reads || ke.2.reusedBy active writes with
  | [] => .ok ()
  | es => match es.find? fun ke => (pageHeld p.w.log).contains ke.1, es.find? fun ke => ke.2.isRld && ke.2.readBy active reads with
    | some (k, _), _ => .error (.block (allLanes i.path (.page k)))
    | none, some (k, _) => .error (.block (allLanes i.path (.remote k)))
    | none, none => .error .stall

/-- An entry gives up the words of its destination that an instruction has written (06 R168). -/
def LogEntry.supersede (e : LogEntry) (active : LaneMask) (writes : List (Bool × Nat)) : LogEntry :=
  { e with dead := ((logRegs e.instr).1.flatMap fun d => (regsOf d).zipIdx).foldl (fun t rj =>
      if writes.contains rj.1 then
        t.put rj.2 (t.getD rj.2 0#32 ||| (if rj.1.1 then active else 0xFFFFFFFF#32))
      else t) e.dead }

/-- After an instruction has retired: the entries older than it no longer write what it has written. -/
def supersedeLog (p : Place) (i : Issue) (active : LaneMask) (writes : List (Operand × Nat)) (t : State) : State :=
  let rs := writes.flatMap regsOf
  if p.w.log.all fun ke => ((logRegs ke.2.instr).1.flatMap regsOf).all fun r => !rs.contains r then t
  else t.modWarp p.key fun w =>
    if w.pc (lowLane active) = i.pc ∨ (w.handler.on ∧ ¬ p.w.handler.on) then w
    else { w with log := w.log.mapV fun k e => if p.w.log.has k then e.supersede active rs else e }

/-- Every access of the lanes in the operand log has performed: otherwise the path waits, with kind PAGE where a page
fault holds one of them back, else as a stall (06 R160, R169; 08 R208). -/
def checkDone (p : Place) (i : Issue) (active : LaneMask) : Except Stop Unit :=
  match p.w.log.filter fun ke => decide (ke.2.open &&& active ≠ 0#32) with
  | [] => .ok ()
  | es => match es.find? fun ke => (pageHeld p.w.log).contains ke.1 with
    | some (k, _) => .error (.block (allLanes i.path (.page k)))
    | none => .error .stall

/-- A fence, and whether it is one of `.rel`, `.ar` and `.sc`. -/
def isFence : Instr → Bool
  | .fence _ => true
  | _ => false
def isRelFence : Instr → Bool
  | .fence x => x.ord == .rel || x.ord == .ar || x.ord == .sc
  | _ => false

/-- A fence of the lanes, of a kind, is not yet done (15 R398). -/
def fencePending (kind : Instr → Bool) (w : Warp) (active : LaneMask) : Bool :=
  w.log.any fun ke => kind ke.2.instr && decide (ke.2.open &&& active ≠ 0#32)

/-- A push comes behind a release fence of its lanes (11 R294). -/
def checkPushFence (p : Place) (i : Issue) (active : LaneMask) (dsts : List (Operand × Nat)) : Except Stop Unit :=
  if (dsts.any fun d => d.1.isPort) && fencePending isRelFence p.w active then checkDone p i active else .ok ()

/-- A register that an `arv` in flight will write is pending: an instruction that names it stalls
(07 R186). -/
def checkArv (s : State) (p : Place) (xs : List (Operand × Nat)) : Except Stop Unit :=
  if s.arrivals.any fun a => decide (a.warp = p.key) &&
      (match a.d with | some d => xs.any fun x => regsMeet x (d, 1) | none => false)
  then .error .stall else .ok ()

/-- An empty source port blocks with kind PORTRD (01 R37). -/
def checkPortRd (p : Place) (i : Issue) (active : LaneMask) (q : Port) (n : Nat) : Except Stop Unit :=
  if (lanesOf active).all fun l => n ≤ (p.w.getFifo q l).q.length then .ok ()
  else .error (.block ((lanesOf i.path).map fun l =>
    (l, .portRd q (active.getLsbD l && decide ((p.w.getFifo q l).q.length < n)))))

/-- A full destination port blocks with kind PORTWR (01 R37). The room is that before the instruction's own pops, also
where its sources feed the same FIFO (log 62). -/
def checkPortWr (s : State) (p : Place) (i : Issue) (active : LaneMask) (d : Operand × Nat) : Except Stop Unit :=
  match d.1 with
  | .port q =>
    if (lanesOf active).all fun l => s.portRoom p q l d.2 then .ok ()
    else .error (.block ((lanesOf i.path).map fun l => (l, .portWr q (active.getLsbD l && !s.portRoom p q l d.2))))
  | _ => .ok ()

/-- Runs a check over a list. -/
def each {α : Type} (xs : List α) (f : α → Except Stop Unit) : Except Stop Unit :=
  match xs with
  | [] => .ok ()
  | x :: rest => match f x with
    | .ok _ => each rest f
    | .error e => .error e

def srcRegs (xs : List Src) : List (Operand × Nat) := xs.map fun x => (x.o, x.n)

/-- The checks of the last causes of 06 R176 and the waits, for the sources and destinations of an
instruction with a non-empty active set. -/
def checkWaits (s : State) (p : Place) (i : Issue) (active : LaneMask) (srcs : List Src)
    (dsts : List (Operand × Nat)) : Except Stop Unit :=
  let regs := srcRegs srcs
  let futs := (regs ++ dsts).flatMap fun x => futsOf x.1 x.2
  match checkDead p active srcs dsts with
  | .error e => .error e
  | .ok _ => match checkFutDead p active futs with
  | .error e => .error e
  | .ok _ => match checkFutWait p i futs with
  | .error e => .error e
  | .ok _ => match checkLog p i active regs dsts with
  | .error e => .error e
  | .ok _ => match checkArv s p (regs ++ dsts) with
  | .error e => .error e
  | .ok _ => match checkPushFence p i active dsts with
  | .error e => .error e
  | .ok _ => match each (srcPorts srcs) fun q => checkPortRd p i active q (portCount q srcs) with
  | .error e => .error e
  | .ok _ => each dsts fun d => checkPortWr s p i active d

/-- The frame of every instruction that only computes: REGNUM, then, with an empty active set, nothing
(00 R16), else P-PORT, the remaining causes and waits, and the effect. -/
def withOperands (s : State) (p : Place) (i : Issue) (g : Guard) (srcs : List Src)
    (dsts : List (Operand × Nat)) (k : LaneMask → Except Stop State) : Except Stop State :=
  match checkRegs p i (srcRegs srcs ++ dsts) with
  | .error e => .error e
  | .ok _ =>
    let active := activeOf p i g
    if active = 0#32 then .ok (s.retire i)
    else match checkBound p (srcs.map (·.o) ++ dsts.map (·.1)) with
    | .error e => .error e
    | .ok _ => match checkWaits s p i active srcs dsts with
    | .error e => .error e
    | .ok _ => (k active).map (supersedeLog p i active dsts)

end Sys2Proof.Machine
end

