-- ==== Sys2Proof/Machine/Fetch.lean ====
section
/-! DEFINITION. Code: fetching the line of a PC, clauses and their headers (12 R300 to R306), entry into a
clause, breakpoints (17 R441), paths (01 R45), and the events of the issue: clause entry, fairness
(06 R167) and yield (13 R356). -/

namespace Sys2Proof.Machine

/-! ## Lines and clauses -/

/-- The address of the line of `.text` that holds a PC (05 R157). -/
def codeVa (p : Place) (pc : Word) : Nat := (p.gr.textb + pc.toNat / 128 * 128) % 2 ^ 64

/-- The bytes of a code line that L0 does not hold. The read is no load (09 R233). A poisoned line, and one that cannot be
routed, reads as ones (18 R448). -/
def fillCode (s : State) (ctx : Nat) (x : Xlat) : State × List Byte :=
  let got := if x.pkg ≠ s.fused.pkg then s.podRead ctx x 128
    else if x.ap = 3 then ap3Read (s.readLine ctx x) x 128
    else (s.readLine ctx x, s.plainRead x.loc 128)
  (got.1, match got.2 with
    | .bytes bs => bs
    | _ => List.replicate 128 0xFF#8)

/-- Lines in L0: 64 KiB (11 R261). -/
def l0Lines : Nat := 512

/-- A code line enters L0, in place of the oldest when it is full (log 7); no line of another package is held (09 R230). -/
def State.keepCode (s : State) (core : Nat) (x : Xlat) (bs : List Byte) : State :=
  if x.pkg ≠ s.fused.pkg then s
  else s.modCore core fun c => { c with l0 := (c.l0 ++ [(x.line, bs)]).drop (c.l0.length + 1 - l0Lines) }

/-- The bytes that L0 holds of a code line. -/
def State.heldCode (s : State) (core : Nat) (x : Xlat) : Option (List Byte) :=
  ((s.core core).l0.find? fun e => e.1 = x.line).map (·.2)

/-- The bytes of a code line: those that L0 holds, whatever has been stored since, else those of the line now, which L0
then holds (05 R157, 11 R271). -/
def textBytes (s : State) (core ctx : Nat) (x : Xlat) : State × List Byte :=
  match s.heldCode core x with
  | some bs => (s, bs)
  | none => let r := fillCode s ctx x
    (r.1.keepCode core x r.2, r.2)

/-- Why a code line is not there: a page fault on its address, of a kind at a level, or no link of the die that works while
neither its TLBs nor L0 serve it (09 R217). -/
inductive CodeMiss
  | fault (va kind level : Nat)
  | cut
  deriving DecidableEq, Repr

/-- The 32 words of that line (12 R302). -/
def codeLine (s : State) (p : Place) (pc : Word) : Except CodeMiss (State × List Nat) :=
  let va := codeVa p pc
  let words (bs : List Byte) : List Nat := (List.range 32).map (wordAt bs)
  if s.dieCut (coreDie p.t.core) then
    match (tlbLookup s (coreTlbs p.t.core) p.gr.ctx va).filter fun e => e.serves .fetch with
    | some e => (match s.heldCode p.t.core (leafXlat e.pte e.size va e.srec) with
      | some bs => .ok (s, words bs)
      | none => .error .cut)
    | none => .error .cut
  else match translate s (coreTlbs p.t.core) p.gr.ctx va .fetch with
    | .error (k, l) => .error (.fault va k l)
    | .ok (s, x) => let r := textBytes s p.t.core p.gr.ctx x
      .ok (r.1, words r.2)

/-- N instructions from word index i of a line: their indexes and lengths in words, if they end within the
line (12 R303). -/
def clauseInstrs (ws : List Nat) : Nat → Nat → Option (List (Nat × Nat))
  | 0, _ => some []
  | n + 1, i =>
    let k := opWords (ws.getD i 0 / 2 ^ 26 % 64)
    if 32 < i + k then none else (clauseInstrs ws n (i + k)).map ((i, k) :: ·)

/-- The header fields (12 R301). -/
structure Header where (n cls wait pw low : Nat) deriving DecidableEq, Repr

def headerOf (w : Nat) : Header := ⟨w / 2 ^ 28 % 16, w / 2 ^ 25 % 8, w / 2 ^ 17 % 256, w / 2 ^ 16 % 2, w % 2 ^ 16⟩

/-- The instructions of the clause whose header is word h: `none` when N is 0 or the clause passes its
line. -/
def clauseAt (ws : List Nat) (h : Nat) : Option (List (Nat × Nat)) :=
  let n := (headerOf (ws.getD h 0)).n
  if n = 0 then none else clauseInstrs ws n (h + 1)

/-- The word index after a clause. -/
def clauseEnd (h : Nat) (is : List (Nat × Nat)) : Nat := (is.getLast?.map fun ik => ik.1 + ik.2).getD (h + 1)

/-- The search of 12 R302 from word h: the header of the clause that holds word t (t itself when t is a
header). -/
def searchClause (ws : List Nat) (t : Nat) : Nat → Nat → Option Nat
  | 0, _ => none
  | fuel + 1, h =>
    if h = t then some h
    else match clauseAt ws h with
    | none => none
    | some is =>
      if t < clauseEnd h is then (if is.any fun ik => ik.1 = t then some h else none)
      else searchClause ws t fuel (clauseEnd h is)

/-! ## Class and position of an instruction (12 R305, R306) -/

def isHintOp (op fn : Nat) : Bool := op = 0x38 && decide (0xE0 ≤ fn)

/-- The control-transfer instructions by opcode and function (12 R306). -/
def isControl (op fn : Nat) : Bool :=
  op = 0x0D || op = 0x0E || op = 0x0F || op = 0x11 || op = 0x12 || op = 0x13
    || (op = 0x1D && fn = 0) || (op = 0x38 && fn = 0)

/-- Admitted in a clause of the class, at its place in the clause. -/
def admitted (cls op fn : Nat) (last : Bool) : Bool :=
  if isHintOp op fn then true
  else if isControl op fn then last
  else 5 ≤ cls || op = 0x0C || opClass op = some cls

/-- What stands at a path's PC: the header of a clause to enter, an instruction with its length in bytes
and whether it is the last of its clause, one with a reserved bit set, or a cause, with the length that the opcode gives what stands there. -/
inductive Fetched
  | enter
  | instr (i : Instr) (len : Nat) (last : Bool)
  | resv (i : Instr) (len : Nat) (last : Bool)
  | cause (c : Cause) (val : DWord) (len : Nat) (last : Bool)
  deriving DecidableEq, Repr

/-- The instruction at word t of the clause with header h: the breakpoint first (06 R176, 17 R441), then
ILLEGAL before RESV. -/
def fetchInstr (s : State) (p : Place) (m : LaneMask) (pc : Word) (ws : List Nat) (h t : Nat) : Fetched :=
  match clauseAt ws h with
  | none => .cause .illegal 0#64 4 false
  | some is => match is.find? fun ik => ik.1 = t with
    | none => .cause .illegal 0#64 4 false
    | some (_, k) =>
      match (s.core p.t.core).bp.findIdx? fun b => b.getLsbD 0 && bits b 31 2 * 4 = pc.toNat with
      | some n =>
        if p.w.bpExempt &&& m = 0#32 then .cause .brk (BitVec.ofNat 64 n) (4 * k) (decide (is.getLast? = some (t, k))) else decodeAt is k
      | none => decodeAt is k
where
  decodeAt (is : List (Nat × Nat)) (k : Nat) : Fetched :=
    let w := ws.getD t 0
    let x := if k = 2 then ws.getD (t + 1) 0 else 0
    let last := decide (is.getLast? = some (t, k))
    if ¬ admitted (headerOf (ws.getD h 0)).cls (w / 2 ^ 26 % 64) (x / 2 ^ 19 % 256) last
        ∨ p.gr.textl < pc.toNat + 4 * k then .cause .illegal 0#64 (4 * k) last
    else match decodeWords p.gr.ver w x with
      | .ok i => .instr i (4 * k) last
      | .error .resv => match reservedWords p.gr.ver w x with
        | some i => .resv i (4 * k) last
        | none => .cause .resv 0#64 (4 * k) last
      | .error _ => .cause .illegal 0#64 (4 * k) last

/-- What a path at `pc` fetches. Lanes that enter read a header there; lanes inside a clause go on in it;
other lanes resume by the search (12 R302, R303). A path takes the mode of its lowest lane (log 11). -/
def fetchAt (s : State) (p : Place) (m : LaneMask) (pc : Word) (ws : List Nat) : Fetched :=
  let t := pc.toNat % 128 / 4
  if p.w.entering.getLsbD (lowLane m) then .enter
  else match p.w.inside.get? (lowLane m) with
  | some h =>
    if h.toNat / 128 = pc.toNat / 128 then fetchInstr s p m pc ws (h.toNat % 128 / 4) t
    else .cause .illegal 0#64 4 false
  | none => match searchClause ws t 33 0 with
    | none => .cause .illegal 0#64 4 false
    | some h => if h = t then .enter else fetchInstr s p m pc ws h t

/-- A code fetch takes a page fault: the path blocks with kind PAGE, or stalls while the fault table is
full (08 R205). -/
def fetchFault (s : State) (p : Place) (m : LaneMask) (f : Nat × Nat × Nat) : State :=
  match joinFault s (coreDie p.t.core) p.gr.ctx (BitVec.ofNat 64 f.1) .fetch f.2.1 f.2.2 p.g.grid with
  | none => s.giveBack
  | some (s, n) => emitFaults (s.blockLanes p.key p.t.core
      (allLanes m (.fetch (BitVec.ofNat 64 f.1) (coreDie p.t.core) n)))

/-! ## Ports that a clause names (12 R304) -/

/-- The operands an instruction reads and writes. -/
def Instr.ops : Instr → List Operand × List Operand
  | .add x | .sub x | .and x | .or x | .xor x | .shl x | .shr x | .sra x | .fadd x | .fmul x => ([x.a, x.b], [x.d])
  | .mov x => ([x.a], [x.d])
  | .ret x | .brx x => ([x.a], [])
  | .movi x => ([], [x.d])
  | .call x => ([], [x.d])
  | .addImm x | .andImm x | .orImm x | .xorImm x => ([x.a], [x.d])
  | .addXm x | .subXm x | .mul x | .mulh x | .div x | .rem x | .min x | .max x | .andXm x | .orXm x | .xorXm x
  | .andn x | .shlXm x | .shrXm x | .sraXm x | .rol x | .addSat x | .subSat x | .mulSat x | .divSat x
  | .fmin x | .fmax x => ([x.a, x.b], [x.d])
  | .abs x | .neg x | .not x | .clz x | .ctz x | .popc x | .brev x | .movXm x | .absSat x | .negSat x
  | .fcls x => ([x.a], [x.d])
  | .mad x | .madSat x => ([x.a, x.b, x.c], [x.d])
  | .addc x => ([x.a, x.b], [x.d])
  | .bfx x => ([x.a], [x.d])
  | .bfi x => ([x.a, x.b], [x.d])
  | .sel x => ([x.a, x.b], [x.d])
  | .lea x => ([x.b], [x.d])
  | .cmp x => ([x.a, x.b], [])
  | .pmovToPred x => ([x.a], [])
  | .pmovFromPred x | .pcnt x => ([], [x.d])
  | .voteMask x | .voteCnt x => ([], [x.d])
  | .voteSame x => ([x.a], [])
  | .getpc x | .tokq x => ([], [x.d])
  | .faddXm x | .fsub x | .fmulXm x | .fdiv x => ([x.a, x.b], [x.d])
  | .ffma x | .ffmaUnf x => ([x.a, x.b, x.c], [x.d])
  | .frnd x | .frcp x | .frsq x | .fsqrt x | .fex2 x | .flg2 x | .fsin x | .fcos x => ([x.a], [x.d])
  | .fcmp x => ([x.a, x.b], [])
  | .lmul x | .ldiv x | .ladd x | .lsub x => ([x.a, x.b], [x.d])
  | .tdot x => ([x.a, x.b, x.c], [x.d])
  | .smul x => ([x.a, x.b], [x.d])
  | .sgen x => ([x.a], [x.d])
  | .cvt x => (x.a :: x.b.toList, [x.d])
  | .mxq x | .mxdq x | .zq x | .zdq x | .tpk x | .tunp x => ([x.a], [x.d])
  | .shflSel x | .shflLo x | .shflHi x | .shflFlip x | .bcast x => ([x.a, x.b], [x.d])
  | .shflWide x => ([x.a, x.b], [x.d])
  | .lred x => ([x.a], [x.d])
  | .lscan x => ([x.a], [x.d])
  | .ld x | .ldPoll x | .ldu x | .ldr x | .ldNc x => ([], [x.d])
  | .st x | .stu x => ([x.b], [])
  | .atomAdd x | .atomSub x | .atomMin x | .atomMax x | .atomAnd x | .atomOr x | .atomXor x | .atomExch x
  | .stc x => ([x.b], [x.d])
  | .cas x => ([x.b, x.c], [x.d])
  | .rst x => ([x.o, x.b, x.t], [])
  | .rld x => ([x.o, x.t], [x.d])
  | .sfl x | .sinv x | .spf x | .icinv x => ([x.n], [])
  | .sig x | .sigw x => ([x.v], [])
  | .qstat x | .qpeek x => ([], [x.d])
  | .mma x => ([x.sw], [])
  | .mmsp x => ([x.m], [])
  | .aset x => ([x.v], [])
  | .scb x => ([x.v], [])
  | .arv x => ([x.e], [x.d])
  | .bwait x => ([x.q], [])
  | .launch x => ([x.q], [])
  | .svc x => ([x.a], [x.d])
  | .csrr x => ([], [x.d])
  | .csrw x => ([x.a], [])
  | _ => ([], [])

def portsIn (os : List Operand) : List Port :=
  os.filterMap fun o => match o with | .port q => some q | _ => none

/-- The instructions of a clause that decode. -/
def clauseCode (ver : Nat) (ws : List Nat) (is : List (Nat × Nat)) : List Instr :=
  is.filterMap fun ik => match decodeWords ver (ws.getD ik.1 0) (if ik.2 = 2 then ws.getD (ik.1 + 1) 0 else 0) with
    | .ok i => some i
    | .error _ => none

/-! ## Entry (12 R303, R304) -/

/-- The causes a header raises, in the order of 06 R176. -/
def headerCause (p : Place) (pc : Word) (h : Header) (is : Option (List (Nat × Nat))) : Option Cause :=
  let passes : Bool := match is with
    | none => true
    | some is => decide (p.gr.textl < pc.toNat / 128 * 128 + 4 * clauseEnd 0 is)
  if passes ∨ 6 ≤ h.cls then some .illegal
  else if (if p.gr.ver = 1 then h.low % 2 ^ 12 else h.low) ≠ 0 then some .resv
  else if (List.range 8).any fun k => h.wait.testBit k && decide (p.w.sa ≤ 24 + k) then some .regnum
  else none

/-- The conditions of a header: futures full, source ports with an entry (or closed or broken, whose read
then traps), destination ports with room (12 R304, 06 R160). -/
def headerWaits (s : State) (p : Place) (m : LaneMask) (h : Header) (code : List Instr) : Except Stop Unit :=
  let futs := ((List.range 8).filter fun k => h.wait.testBit k).map fin8
  match checkFutDead p m futs with
  | .error e => .error e
  | .ok _ => match futs.find? fun k => p.w.fut.has k.val with
  | some k => .error (.block (allLanes m (.future k)))
  | none =>
    if h.pw = 0 then .ok ()
    else
      let src := portsIn (code.flatMap fun i => (Instr.ops i).1)
      let dst := portsIn (code.flatMap fun i => (Instr.ops i).2)
      match src.find? fun q => (lanesOf m).any fun l => (p.w.getFifo q l).q = [] && (p.w.getFifo q l).st = 0 with
      | some q => .error (.block ((lanesOf m).map fun l =>
          (l, .portRd q ((p.w.getFifo q l).q = [] && (p.w.getFifo q l).st = 0))))
      | none => match dst.find? fun q => (lanesOf m).any fun l => !s.portRoom p q l 1 with
        | some q => .error (.block ((lanesOf m).map fun l => (l, .portWr q (!s.portRoom p q l 1))))
        | none => .ok ()

/-- Lanes stand at the first instruction of the clause whose header is at `pc`. -/
def Warp.enter (w : Warp) (m : LaneMask) (pc : Word) : Warp :=
  let w := w.setPcs m (pc + 4)
  { w with entering := w.entering &&& ~~~ m
           inside := (lanesOf m).foldl (fun t l => t.put l pc) w.inside }

/-- A path enters the clause whose header is at its PC. -/
def enterClause (s : State) (p : Place) (i : Issue) : Except Stop State :=
  if i.pc.toNat % 4 ≠ 0 ∨ p.gr.textl ≤ i.pc.toNat then .error (.trap .illegal 0 i.path 0#64)
  else if ¬ canonicalVa (codeVa p i.pc) then .error (.pin pinRegion (BitVec.ofNat 64 (codeVa p i.pc)))
  else match codeLine s p i.pc with
  | .error (.fault va k l) => .ok (fetchFault s p i.path (va, k, l))
  | .error .cut => .error .stall
  | .ok (s, ws) =>
    let t := i.pc.toNat % 128 / 4
    let h := headerOf (ws.getD t 0)
    let is := clauseAt ws t
    match headerCause p i.pc h is with
    | some c => .error (.trap c 0 i.path 0#64)
    | none => match headerWaits s p i.path h (clauseCode p.gr.ver ws (is.getD [])) with
      | .error e => .error e
      | .ok _ => .ok (s.modWarp p.key fun w => w.enter i.path i.pc)

/-- CLAUSE_ENTRY (12 R303): the issuing path enters the clause at its PC. -/
def execClauseEntry (s : State) : Host.Outcome State Fault Refusal := settle s (enterClause s)

/-- CLAUSE_CONDITIONS_MET (12 R304): the path that waits at a header starts once its conditions hold. -/
def execClauseConditionsMet (warp : Nat) (path : LaneMask) (s : State) : Host.Outcome State Fault Refusal :=
  match s.place? warp with
  | none => .next s
  | some p =>
    let pc := p.w.pc (lowLane path)
    let i : Issue := ⟨warp, path, pc, 4, false⟩
    let s1 := s.modWarp warp fun w => w.unblock path
    if path = 0#32 ∨ p.w.blocked &&& path ≠ path ∨ p.w.entering &&& path ≠ path
        ∨ ¬ (lanesOf path).all fun l => p.w.pc l = pc then .next s
    else match enterClause s1 { p with w := p.w.unblock path } i with
      | .ok t => .next t
      | .error (.block _) => .next s
      | .error .stall => .next s
      | .error e => .next (applyStop s1 { p with w := p.w.unblock path } i e)

/-! ## Paths (01 R45; 06 R165 to R167) -/

/-- The lanes of a mask by key. -/
def Warp.pathsOf (w : Warp) (m : LaneMask) : Tab LaneMask :=
  (lanesOf m).foldl (fun t l => t.put (w.key l) (t.getD (w.key l) 0#32 ||| (1#32 <<< l))) []

/-- The paths of a warp by key: its lanes that have not exited, and in handler mode those of `%tpath`. -/
def Warp.paths (w : Warp) : Tab LaneMask := w.pathsOf (~~~ w.exited &&& w.scope)

/-- Every path of a warp, those that wait outside `%tpath` among them. -/
def Warp.groups (w : Warp) : List (Nat × LaneMask) := w.paths ++ w.pathsOf (~~~ w.exited &&& ~~~ w.scope)

/-- Paths none of whose lanes is blocked, lowest key first (13 R360). -/
def Warp.eligible (w : Warp) : Tab LaneMask := w.paths.filter fun km => km.2 &&& w.heldBack = 0#32

/-- A lane whose destination port has room again, with every lane of its path, wakes (06 R160 PORTWR). -/
def wakeWriters (s : State) (k : Nat) (w : Warp) : Warp :=
  if w.wake.any fun lw => match lw.2 with | .portWr _ _ => true | _ => false then
    match s.place? k with
    | none => w
    | some p => w.groups.foldl (fun w km =>
        let full := (lanesOf km.2).any fun l => match p.w.wake.get? l with
          | some (.portWr q true) => !s.portRoom p q l 1
          | _ => false
        let mine := maskOf ((lanesOf km.2).filter fun l => match p.w.wake.get? l with
          | some (.portWr _ _) => true
          | _ => false)
        if full then w else w.unblock mine) w
  else w

/-- What each cycle settles before the choice of paths: writers wake, demoted bits clear (06 R160, R166). -/
def State.refresh (s : State) : State :=
  { s with warps := s.warps.mapV fun k w => (wakeWriters s k w).clearDemoted }

/-- A warp of the core that may issue: its gang Running and its issue not stopped (06 R158, R171). -/
def mayIssue (s : State) (core : Nat) (kw : Nat × Warp) : Bool :=
  kw.2.st = .running &&
    match s.place? kw.1 with
    | some p => p.t.core = core && p.g.st = .running && !p.g.evicting
    | none => false

/-- The warps of a core in the order the ports serve them: oldest first, yielding ones last (06 R165,
13 R356). -/
def warpOrder (s : State) (core : Nat) : List (Nat × Warp) :=
  let ws := s.warps.filter (mayIssue s core)
  ws.filter (fun kw => kw.2.yieldUntil = 0) ++ ws.filter (fun kw => kw.2.yieldUntil ≠ 0)

def pathsOf (kw : Nat × Warp) : List (Nat × LaneMask) := kw.2.eligible.map fun km => (kw.1, km.2)

/-- What the first port may serve, best first: the head of the critical order, then by age (06 R165,
10 R248). -/
def firstChoices (s : State) (core : Nat) : List (Nat × LaneMask) :=
  let ws := warpOrder s core
  let head := ((s.core core).critical.head?).getD 0
  let isHead (kw : Nat × Warp) : Bool := decide ((s.core core).critical ≠ []) && decide (kw.1 = head)
  (ws.filter isHead ++ ws.filter fun kw => !isHead kw).flatMap pathsOf

/-- The fairness path of a warp while it lasts (06 R167). -/
def Warp.fair (w : Warp) : Option LaneMask :=
  if w.fairLeft = 0 then none
  else (w.eligible.find? fun km => km.2 &&& w.fairPath ≠ 0#32 && km.2 &&& ~~~ w.fairPath = 0#32).map (·.2)

/-- The fairness path is over: its 64 instructions have issued, or no path is left of it that has not blocked, exited or
joined another; a pin, or another path's trap, only holds it up (06 R167). -/
def Warp.fairOver (w : Warp) : Bool :=
  decide (w.fairLeft = 0)
    || !w.groups.any fun km => decide (km.2 &&& w.fairPath ≠ 0#32 ∧ km.2 &&& ~~~ w.fairPath = 0#32 ∧ km.2 &&& w.blocked = 0#32)

/-- What the second port may serve: the fairness path or the next path of the same warp, then the other warps (06 R165).
A yielding warp that holds the first port lets those that do not yield go before its own paths (13 R356). -/
def secondChoices (s : State) (core w : Nat) (used : LaneMask) : List (Nat × LaneMask) :=
  let ws := warpOrder s core
  let mine := ws.filter fun kw => kw.1 = w
  let own := (mine.filterMap fun kw => kw.2.fair.map fun m => (kw.1, m)) ++ mine.flatMap pathsOf
  let others := (ws.filter fun kw => kw.1 ≠ w).flatMap pathsOf
  let soft (wm : Nat × LaneMask) : Bool := (s.warps.get? wm.1).any fun x => decide (x.yieldUntil ≠ 0)
  (if mine.any fun kw => kw.2.yieldUntil ≠ 0 then others.filter (fun wm => !soft wm) ++ own ++ others.filter soft
    else own ++ others).filter fun wm => wm.1 ≠ w || wm.2 &&& used = 0#32

/-- The paths of a warp that are not demoted, other than two of them, lowest key first (06 R167). -/
def Warp.others (w : Warp) (a b : LaneMask) : List LaneMask :=
  (w.eligible.filter fun km => decide (km.1 < 2 ^ 32) && km.2 &&& (a ||| b) = 0#32).map (·.2)

/-- The fairness timer counts a cycle in which both ports serve the warp while the paths of `wait` wait, lowest key first
(06 R167). -/
def Warp.countFair (w : Warp) (wait : List LaneMask) : Warp :=
  match wait with
  | [] => w
  | m :: _ => { w with fairTimer := w.fairTimer + 1, fairNext := m }

/-- Where a lane stands: an instruction that retires in it changes this. -/
def Warp.spot (w : Warp) (l : Nat) : Word × Bool × Option Word × Bool :=
  (w.pc l, w.entering.getLsbD l, w.inside.get? l, w.exited.getLsbD l)

/-- The fairness path has one instruction less to go when one of its own has issued (06 R167). -/
def countFairIssue (s t : State) (w : Nat) (m : LaneMask) : State :=
  match s.warps.get? w with
  | some a => if a.fair = some m then t.modWarp w fun b =>
      if b.spot (lowLane m) = a.spot (lowLane m) then b else { b with fairLeft := b.fairLeft - 1 }
    else t
  | none => t

/-- What becomes of a chosen path: done at its fetch (a trap, a pin, a page fault), or running an instruction, or held at
one with a reserved bit set, or the entry into its clause, with the path as the issuing one. -/
inductive Chosen
  | done (s : State)
  | run (s : State) (i : Instr)
  | resv (s : State) (i : Instr)
  | enter (s : State)
  deriving Repr

/-- Fetches for the path `m` of warp `w`. -/
def fetchPath (s : State) (w : Nat) (m : LaneMask) : Chosen :=
  match s.place? w with
  | none => .done s.giveBack
  | some p =>
    let pc := p.w.pc (lowLane m)
    let at_ (len : Nat) (last : Bool) : Issue := ⟨w, m, pc, len, last⟩
    let stop (s : State) (i : Issue) (e : Stop) : Chosen := .done (applyStop { s with cur := some i } p i e)
    match p.w.traps.find? fun t => t.path &&& m ≠ 0#32 with
    | some t => .done (retakeTrap { s with cur := some ⟨w, t.path, t.pc, t.len, t.last⟩ } p t)
    | none =>
    if pc.toNat % 4 ≠ 0 ∨ p.gr.textl ≤ pc.toNat then stop s (at_ 4 false) (.trap .illegal 0 m 0#64)
    else if ¬ canonicalVa (codeVa p pc) then stop s (at_ 4 false) (.pin pinRegion (BitVec.ofNat 64 (codeVa p pc)))
    else match codeLine s p pc with
    | .error (.fault va k l) => .done (fetchFault { s with cur := some (at_ 4 false) } p m (va, k, l))
    | .error .cut => .done s.giveBack
    | .ok (s, ws) => match fetchAt s p m pc ws with
      | .enter => .enter { s with cur := some (at_ 4 false) }
      | .instr i len last => .run { s with cur := some (at_ len last) } i
      | .resv i len last => .resv { s with cur := some (at_ len last) } i
      | .cause c v len last => stop s (at_ len last) (.trap c 0 m v)

/-- FAIRNESS_TIMER_EXPIRES: at 4,096 the timer resets, and the lowest-key waiting path that is not demoted
becomes the fairness path (06 R167). -/
def execFairnessTimerExpires (warp : Nat) (s : State) : Host.Outcome State Fault Refusal :=
  .next (s.modWarp warp fun w =>
    if w.fairTimer < 4096 then w else { w with fairTimer := 0, fairPath := w.fairNext, fairLeft := 64 })

/-- FAIRNESS_PATH_ENDS: its 64 instructions have issued, or it has blocked, exited or joined (06 R167). -/
def execFairnessPathEnds (warp : Nat) (s : State) : Host.Outcome State Fault Refusal :=
  .next (s.modWarp warp fun w =>
    if w.fairOver then { w with fairPath := 0#32, fairLeft := 0 } else w)

/-- YIELD_ENDS: 64 cc after the `yield`, or once the warp is Blocked, as it is when the last of its lanes have joined
blocked paths (13 R356). -/
def execYieldEnds (warp : Nat) (s : State) : Host.Outcome State Fault Refusal :=
  .next (s.modWarp warp fun w =>
    if w.yieldUntil ≤ s.coreCc (s.warpCore warp) ∨ w.st = .blocked then { w with yieldUntil := 0 } else w)

end Sys2Proof.Machine
end

