-- ==== Sys2Proof/Machine/Flags.lean ====
section
/-! DEFINITION. Elements of lane words (13 R334), and what is computed from exact integer results: wrap
and saturation (02 R53, R54), carries (13 R344), the quotient and remainder (02 R55), and the conditions
of the integer and float comparisons (13 R350, 14 R371). The machine has no flag register: conditions and
carries go to predicates. -/

namespace Sys2Proof.Machine

/-! ## Words and elements -/

/-- The words of a register group as one number, the lowest register lowest (01 R40). -/
def wordsNat : List Word → Nat
  | [] => 0
  | x :: xs => x.toNat + 2 ^ 32 * wordsNat xs

/-- The low n words of a number. -/
def natWords : Nat → Nat → List Word
  | 0, _ => []
  | n + 1, x => BitVec.ofNat 32 x :: natWords n (x / 2 ^ 32)

/-- The n elements of width w of a number, element 0 lowest (13 R334). -/
def splitElems (w n x : Nat) : List Nat := (List.range n).map fun e => x / 2 ^ (w * e) % 2 ^ w

/-- Elements of width w packed into a number. -/
def joinElems (w : Nat) : List Nat → Nat
  | [] => 0
  | e :: es => e % 2 ^ w + 2 ^ w * joinElems w es

/-- Elements a lane holds of a type: 32/w, or one for 64-bit types. -/
def perLane (t : Ty) : Nat := if t.width = 64 then 1 else 32 / t.width

def elemsOf (t : Ty) (xs : List Word) : List Nat := splitElems t.width (perLane t) (wordsNat xs)
def packElems (t : Ty) (es : List Nat) : List Word := natWords t.regs (joinElems t.width es)

/-- An element read as the type reads it: two's complement or unsigned (13 R334). -/
def intOf (t : Ty) (e : Nat) : Int :=
  if t.signed && decide (2 ^ (t.width - 1) ≤ e) then (e : Int) - 2 ^ t.width else e

/-! ## Wrap and saturation -/

/-- The low w bits of a two's-complement value (02 R53). -/
def wrapTo (w : Nat) (r : Int) : Nat := (r % (2 ^ w : Int)).toNat

def tyMin (t : Ty) : Int := if t.signed then -(2 ^ (t.width - 1)) else 0
def tyMax (t : Ty) : Int := if t.signed then 2 ^ (t.width - 1) - 1 else 2 ^ t.width - 1

/-- SAT (02 R54). -/
def satTo (lo hi r : Int) : Int := if r < lo then lo else if hi < r then hi else r

/-- An exact result as an element: saturated or wrapped (13 R339). -/
def elemResult (t : Ty) (sat : Bool) (r : Int) : Nat :=
  wrapTo t.width (if sat then satTo (tyMin t) (tyMax t) r else r)

/-! ## Quotient and remainder (02 R55) -/

/-- The quotient: truncated; for a zero divisor all bits set for an N type, −1 for an I type. -/
def quotOf (t : Ty) (a b : Int) : Int :=
  if b = 0 then (if t.signed then -1 else 2 ^ t.width - 1) else a.tdiv b

/-- The remainder, with the sign of the dividend; the dividend for a zero divisor. -/
def remOf (a b : Int) : Int := if b = 0 then a else a.tmod b

/-! ## Conditions -/

/-- The integer conditions (13 R350). -/
def condHolds (c : Cond) (a b : Int) : Bool :=
  match c with
  | .eq => a == b
  | .ne => a != b
  | .lt => a < b
  | .le => a ≤ b
  | .gt => b < a
  | .ge => b ≤ a

/-- The carry out of one element: the unsigned sum reaches 2^w (13 R344). -/
def carryOut (w s : Nat) : Bool := decide (2 ^ w ≤ s)

end Sys2Proof.Machine
end

