-- ==== Sys2Proof/Machine/Image.lean ====
section
/-! DEFINITION. The image of a gang in the save pool (01 R35; 06 R173, R174; 07 R191). -/

namespace Sys2Proof.Machine

/-- The non-zero bytes of a number of n bytes that stands at an offset, little-endian. -/
def imageField (off n v : Nat) : List Host.Cell :=
  (bytesLE n v).zipIdx.filterMap fun bi => if bi.1 = 0#8 then none else some (off + bi.2, bi.1)

/-- Words at successive offsets. -/
def imageWords (off : Nat) (ws : List Word) : List Host.Cell :=
  ws.zipIdx.flatMap fun wi => imageField (off + 4 * wi.2) 4 wi.1.toNat

def warpBytes (gr : Grid) : Nat :=
  12928 + 128 * gr.vregs + 4096 * gr.tregs + (if gr.longAcc then 82304 else 16384) * gr.aregs

/-- Bytes of a team area. -/
def teamBytes (gr : Grid) : Nat := 64 + gr.teamWin + 16 * (gr.barn + 1) + gr.warpsN * warpBytes gr

/-- Bytes of a gang's image (06 R173). -/
def imageSize (gr : Grid) : Nat := 128 + gr.teamsN * teamBytes gr

/-- The index of a log entry among the 8 (06 R173). -/
def Warp.slotOf (w : Warp) (k : Nat) : Nat := ((w.log.get? k).map (·.slot)).getD 0

def bitSet (ks : List Nat) : Nat := (ks.map fun k => 2 ^ k).foldl (· + ·) 0

/-- The warp header (06 R174). -/
def warpHeader (w : Warp) : Nat :=
  w.team * 2 ^ 448 + w.exited.toNat * 2 ^ 416 + w.demoted.toNat * 2 ^ 384 + w.blocked.toNat * 2 ^ 352
    + w.fairTimer % 4096 * 2 ^ 340 + w.fairLeft % 128 * 2 ^ 333 + bitSet w.fut.keys * 2 ^ 325
    + ((w.pins.head?.map (·.cause)).getD 0) * 2 ^ 322 + (if w.handler.on then 2 ^ 321 else 0)
    + (w.va * 2 ^ 24 + w.sa * 2 ^ 16 + w.ta * 2 ^ 8 + w.aa) * 2 ^ 288
    + bitSet (w.log.map fun ke => ke.2.slot) * 2 ^ 280 + w.gen.toNat * 2 ^ 272 + w.no * 2 ^ 264

/-- The kind and value of a wake record (06 R160, R173). -/
def wakeCode (w : Warp) : Wake → Nat × Nat
  | .barrier i => (1, i)
  | .bsync i _ => (1, i)
  | .released i => (1, i)
  | .portRd q _ => (2, 96 + q.code)
  | .portWr q _ => (3, 96 + q.code)
  | .future k => (4, 24 + k.val)
  | .remote e => (5, w.slotOf e)
  | .signal a => (6, a.toNat % 2 ^ 56)
  | .svc => (6, 0)
  | .page e => (7, w.slotOf e)
  | .fetch a _ _ => (7, a.toNat % 2 ^ 56)

/-- The 64-bit wake record of a lane: kind in [63:60], value in [55:0] (06 R173). -/
def wakeRecord (w : Warp) (k : Wake) : Nat := (wakeCode w k).1 * 2 ^ 60 + (wakeCode w k).2 % 2 ^ 56

/-- The handler state (06 R178). -/
def handlerWords (h : Handler) : List Word := [h.cause, h.epc, h.tpath, h.tmask, h.tlane, h.tval, h.tvalh]

/-- The lanes' values of a source: a 64-bit one takes two vectors, the low words first. -/
def sourceWords (wide : Bool) (xs : List DWord) : List (List Word) :=
  if wide then [xs.map loWord, xs.map hiWord] else [xs.map loWord]

/-- The sources that an entry holds, in the order of its instruction's fields: the base of an address stands without its
offset. -/
def LogEntry.sources (e : LogEntry) : List (List Word) :=
  let base (off : BitVec 12) : List (List Word) := sourceWords true (e.addr.map (· - off.signExtend 64))
  match e.instr with
  | .ld x | .ldPoll x | .ldu x | .ldr x => base x.off
  | .st x | .stu x => base x.off ++ sourceWords x.ty.wide e.b
  | .atomAdd x | .atomSub x | .atomMin x | .atomMax x | .atomAnd x | .atomOr x | .atomXor x | .atomExch x
  | .stc x => base x.off ++ sourceWords x.ty.wide e.b
  | .cas x => base x.off ++ sourceWords x.ty.wide e.b ++ sourceWords x.ty.wide e.c
  | .sig x | .sigw x => base x.off ++ sourceWords true e.b
  | .rst x => sourceWords false e.addr ++ sourceWords x.ty.wide e.b ++ sourceWords false e.c
  | .rld _ => sourceWords false e.addr ++ sourceWords false e.c
  | .tld x | .tst x => base x.off
  | _ => []

/-- An operand-log entry (06 R173): I-word, extension word, PC, path mask, completion mask, and its status, 1 where a pin
holds it; then its first four source vectors (log 55). -/
def entryImage (off : Nat) (e : LogEntry) : List Host.Cell :=
  let ws := (encode e.instr).getD []
  imageWords off [BitVec.ofNat 32 (ws.headD 0), BitVec.ofNat 32 (ws.getD 1 0), e.pc, e.path, e.done ||| ~~~ e.active,
      if e.pinned then 1#32 else 0#32]
    ++ (e.sources.take 4).zipIdx.flatMap fun xk =>
      imageWords (off + 64 + 128 * xk.2) xk.1

/-- The inbound FIFOs of one port (06 R173): the entries, the occupancies, and the greatest state of a lane (log 55). -/
def portImage (off : Nat) (w : Warp) (q : Port) : List Host.Cell :=
  let fs := (List.range 32).map (w.getFifo q)
  (fs.zipIdx.flatMap fun fl => imageWords (off + 32 * fl.2) fl.1.q)
    ++ imageField (off + 1024) 16 ((fs.zipIdx.map fun fl => fl.1.q.length * 16 ^ fl.2).foldl (· + ·) 0)
    ++ imageField (off + 1040) 1 ((fs.map (·.st)).foldl Nat.max 0)

/-- A long accumulator: its entries, then their flags (06 R173). -/
def longImage (off : Nat) (w : Warp) (a : Nat) : List Host.Cell :=
  let es := (w.laccs.filter fun ke => ke.1 / 1024 = a).map fun ke => (ke.1 % 1024, ke.2)
  (es.flatMap fun ke => imageField (off + 80 * ke.1) 80 ke.2.n.toNat)
    ++ imageField (off + 81920) 384 ((es.map fun ke =>
      ((if ke.2.nan then 4 else 0) + (if ke.2.pinf then 2 else 0) + (if ke.2.ninf then 1 else 0)) * 8 ^ ke.1).foldl (· + ·) 0)

/-- A warp image at an offset (06 R173). -/
def warpImage (off : Nat) (gr : Grid) (w : Warp) : List Host.Cell :=
  let tiles := off + 12928 + 128 * gr.vregs
  let accs := tiles + 4096 * gr.tregs
  imageField off 64 (warpHeader w)
    ++ imageWords (off + 64) w.pcv
    ++ (w.wake.flatMap fun lk => imageField (off + 192 + 8 * lk.1) 8 (wakeRecord w lk.2))
    ++ imageWords (off + 448) (handlerWords w.handler)
    ++ ((List.range 8).flatMap fun k => (w.log.filter fun ke => ke.2.slot = k).flatMap fun ke =>
      entryImage (off + 512 + 576 * k) ke.2)
    ++ (allPorts.zipIdx.flatMap fun qk => portImage (off + 5120 + 1088 * qk.2) w qk.1)
    ++ ((List.range 8).flatMap fun k => imageField (off + 12736 + 4 * k) 4
      (if k = 7 then 0xFFFFFFFF else (Sparse.get 0#32 w.p k).toNat))
    ++ (w.u.flatMap fun kx => if kx.1 < w.sa then imageField (off + 12800 + 4 * kx.1) 4 kx.2.toNat else [])
    ++ (w.v.flatMap fun kx => imageField (off + 12928 + 4 * kx.1) 4 kx.2.toNat)
    ++ (w.tiles.map fun kb => (tiles + kb.1, kb.2))
    ++ (if gr.longAcc then (List.range gr.aregs).flatMap fun a => longImage (accs + 82304 * a) w a
        else w.accs.flatMap fun kx => imageField (accs + 4 * kx.1) 4 kx.2.toNat)

/-- A barrier record of a team's area (07 R191). -/
def barRecord (b : Bar) (team : Nat) : Nat :=
  b.bexp * 2 ^ 104 + b.barr * 2 ^ 80 + b.expw * 2 ^ 72 + b.cnt * 2 ^ 64
    + bitSet (b.arrived.filterMap fun k => if k / 16 = team then some (k % 16) else none) * 2 ^ 48
    + b.idx * 2 ^ 32 + (if b.ph then 1 else 0)

/-- The area of the team at a position: its header, which is the team scale binding (16 R413), its window, in which region bytes are zero, the barrier records, the team
barrier's last, and the warp images (06 R173; 07 R191). -/
def teamImage (s : State) (off : Nat) (gr : Grid) (g : Gang) (team pos : Nat) : List Host.Cell :=
  let recs := off + 64 + gr.teamWin
  let bars := g.bars ++ ((s.teams.get? team).map (·.bar)).toList
  imageField off 64 (((s.teams.get? team).map (·.scb.toNat)).getD 0)
    ++ (g.scratch.filterMap fun c => if c.1 / gr.teamWin = pos then some (off + 64 + c.1 % gr.teamWin, c.2) else none)
    ++ (bars.zipIdx.flatMap fun bk => match s.bars.get? bk.1 with
      | some b => imageField (recs + 16 * bk.2) 16 (barRecord b team)
      | none => [])
    ++ ((List.range gr.warpsN).flatMap fun n => match s.warps.get? (warpKey team n) with
      | some w => warpImage (recs + 16 * (gr.barn + 1) + n * warpBytes gr) gr w
      | none => [])

/-- A gang's image (06 R173). -/
def gangImage (s : State) (gr : Grid) (g : Gang) : Image :=
  ⟨imageSize gr, g.teams.zipIdx.flatMap fun tp => teamImage s (128 + tp.2 * teamBytes gr) gr g tp.1 tp.2⟩

/-- The image of an evicted gang is written to the save pool: at its eviction, and when a future, a service reply or
bytes of a barrier reach it there (01 R49; 06 R171, R179; 07 R188). -/
def State.writeImage (s : State) (k : Nat) : State :=
  match s.gangs.get? k with
  | none => s
  | some g => match s.grids.get? g.grid.toNat with
    | none => s
    | some gr =>
      if g.st = .evicted then { s with pool := { s.pool with saved := s.pool.saved.put k (gangImage s gr g) } } else s

/-- The image that holds a warp, if its gang is evicted. -/
def State.imageOfWarp (s : State) (w : Nat) : State := match (s.warps.get? w).bind fun x => s.teams.get? x.team with
  | some t => s.writeImage t.gang
  | none => s

end Sys2Proof.Machine
end

