-- ==== Sys2Proof/Machine/Queue.lean ====
section
/-! DEFINITION. Futures, queues, Ontia, Uliend, the journal and castling (01 R46 to R49; 04). -/

namespace Sys2Proof.Machine

/-! ## Futures (01 R46, R49) -/

/-- A future is resolved with its result word: the register becomes full and waiters wake (also in a
saved image, R49). -/
def resolveFut (s : State) (w : Nat) (k : Fin 8) (val : Word) : State :=
  (s.modWarp w fun x =>
    { x.setU (24 + k.val) val with
      fut := x.fut.del k.val
      wake := x.wake.filter fun lw => lw.2 ≠ .future k }).imageOfWarp w

/-- A future whose producer is gone keeps its empty tag; waiters wake and then trap (01 R48). -/
def killFut (s : State) (w : Nat) (k : Fin 8) (sub : Nat) : State :=
  (s.modWarp w fun x =>
    { x with fut := x.fut.put k.val (.gone sub), wake := x.wake.filter fun lw => lw.2 ≠ .future k }).imageOfWarp w

/-- STATUS << 24 | EV, EV saturating at 2^24 − 1 (17 R427). -/
def statusWord (status ev : Nat) : Word := BitVec.ofNat 32 (status * 2 ^ 24 + Nat.min ev (2 ^ 24 - 1))

def stOk : Nat := 0
def stRegion : Nat := 1
def stCancelled : Nat := 2
def stBadloop : Nat := 3
def stBaddesc : Nat := 4
def stBadconv : Nat := 5
def stBarrier : Nat := 6
def stUnroute : Nat := 7
def stDepth : Nat := 16
def stQueue : Nat := 17
def stFull : Nat := 18
def stFailed : Nat := 19
def stKilled : Nat := 20

/-- The `launch` future of a record, wherever it waits (17 R439). -/
def resolveLaunch (s : State) (q : Nat) (seq val : Word) : State :=
  s.warps.foldl (fun s kw => kw.2.fut.foldl (fun s kf =>
    if kf.2 = .launch q seq then resolveFut s kw.1 ⟨kf.1 % 8, Nat.mod_lt _ (by decide)⟩ val else s) s) s

/-! ## Uliend and the journal (04 R125 to R131) -/

def Dispatch.up (d : Dispatch) : Bool := d.cores.contains DispSt.active

/-- An entry of the journal, in the slot of its number among 16,384 (04 R126). -/
def Dispatch.entry (d : Dispatch) (ty : JType) (queue : Nat) (rseq grid : Word) (addr value : DWord) : Dispatch :=
  { d with
    journal := (d.journal.filter fun x => x.jseq % 16384 ≠ d.nextJseq % 16384)
      ++ [(⟨d.nextJseq, ty, queue, rseq, grid, addr, value, false⟩ : JEntry)]
    nextJseq := d.nextJseq + 1
    sinceCkpt := d.sinceCkpt + 1 }

/-- After every 4,096 entries, the CKPT entry itself among the next ones, a checkpoint is due (04 R127; 22 R484). -/
def Dispatch.due (d : Dispatch) : Bool := d.up && decide (4096 ≤ d.sinceCkpt)

/-- Uliend writes the checkpoint image into the next area, and a CKPT entry that names it (04 R127). -/
def Dispatch.checkpoint (d : Dispatch) : Dispatch :=
  { ({ d with ckpts := d.ckpts.set d.ckptArea d.uliend, ckptArea := 1 - d.ckptArea }).entry .ckpt 0 0#32 0#32 0#64
      (BitVec.ofNat 64 d.ckptArea) with sinceCkpt := 1 }

/-- JOURNAL_CHECKPOINT. -/
def journalCheckpoint (s : State) : State := if s.disp.due then { s with disp := s.disp.checkpoint } else s

/-- Uliend journals an entry, behind a checkpoint that is due (04 R126, R127). While no dispatch core is active it journals
nothing, and only the ENQ entries are made up for later: 04 R129 names no other, so the QCFG and FAIL entries of that time
are never written (DESIGN CHOICE, log 41). -/
def journal (s : State) (ty : JType) (queue : Nat) (rseq grid : Word) (addr value : DWord) : State :=
  if ¬ s.disp.up then s
  else
    let s := journalCheckpoint s
    { s with disp := s.disp.entry ty queue rseq grid addr value }

/-- Uliend's journalled tail of a queue (04 R127). -/
def State.setTail (s : State) (n t : Nat) : State :=
  { s with disp := { s.disp with uliend := { s.disp.uliend with tails := s.disp.uliend.tails.put n t } } }

def JType.code : JType → Nat
  | .enq => 1 | .place => 2 | .done => 3 | .fail => 4 | .ckpt => 5 | .qcfg => 6

/-- CRC-32C of bytes, bit by bit (04 R126 CHECK). -/
def crc32c (bs : List Byte) : Word :=
  ~~~ bs.foldl (fun c b =>
    (List.range 8).foldl (fun (c : Word) _ => if c.getLsbD 0 then (c >>> 1) ^^^ 0x82F63B78#32 else c >>> 1)
      (c ^^^ b.setWidth 32)) 0xFFFFFFFF#32

/-- The 64 bytes of a journal entry (04 R126). -/
def JEntry.bytes (e : JEntry) : List Byte :=
  let body := bytesLE 60 (e.jseq % 2 ^ 64 + e.ty.code * 2 ^ 64 + e.queue * 2 ^ 96 + e.rseq.toNat * 2 ^ 128
    + e.grid.toNat * 2 ^ 160 + e.addr.toNat * 2 ^ 192 + e.value.toNat * 2 ^ 256)
  body ++ bytesLE 4 (crc32c body).toNat

/-- Uliend writes an ENQ entry after it observes a tail advance (04 R127). -/
def journalEnq (s : State) (q : Nat) (seq : Word) : State :=
  if ¬ s.disp.up then s
  else
    let s := journal s .enq q seq 0#32 0#64 0#64
    s.setTail q (s.queue q).tail

/-! ## Queues (04 R111 to R119) -/

namespace Queue
def cred (q : Queue) : DWord := q.desc.extractLsb' 192 64
def ringb (q : Queue) : Nat := bits q.desc 191 128
def ringn (q : Queue) : Nat := bits q.desc 47 44
def src (q : Queue) : Nat := bits q.desc 43 42
def ctx (q : Queue) : Nat := bits q.desc 37 32
def len (q : Queue) : Nat := q.tail - q.head
def full (q : Queue) : Bool := 2 ^ q.ringn ≤ q.len
/-- The pending-kick bit: Enabled and not empty (04 R112, R113). -/
def kick (q : Queue) : Bool := q.st = .enabled && q.head < q.tail
/-- The placer may take the head in this hub cycle: the bit is set, or was until a disable of the same cycle (04 R113). -/
def takes (q : Queue) (hc : Nat) : Bool := q.head < q.tail && (q.st = .enabled || (q.st = .disabled && q.offAt = some hc))
end Queue

/-- The location of a physical address (08 R194, R209). -/
def physLoc (pa : Nat) : Nat := locOf (pa / 2 ^ 42 % 1024) (canonOff (pa / 2 ^ 40 % 4) (pa % 2 ^ 40))

def Queue.slotLoc (q : Queue) (pos : Nat) : Nat := physLoc (q.ringb + 128 * (pos % 2 ^ q.ringn))

/-- A record enters the ring: it receives SEQ := NEXTSEQ, which then increments (04 R115). -/
def enqueue (s : State) (n : Nat) (r : BitVec 1024) : State :=
  let q := s.queue n
  let r := (r.extractLsb' 32 992) ++ q.nextSeq
  let s := s.storeLoc (q.slotLoc q.tail) (bytesLE 128 r.toNat) none
  let s := s.modQueue n fun x =>
    { x with tail := x.tail + 1, nextSeq := x.nextSeq + 1#32,
             headSince := if x.head = x.tail then s.hc else x.headSince }
  journalEnq s n q.nextSeq

/-- The record at a position of the ring; one in a poisoned line reads as ones (18 R448). -/
def recordAt (s : State) (n pos : Nat) : BitVec 1024 :=
  let loc := (s.queue n).slotLoc pos
  if s.linePoisoned loc then BitVec.allOnes 1024 else BitVec.ofNat 1024 (natLE (s.memRead loc 128))

/-- The launching grid no longer waits for a child record that failed (05 R149). -/
def childDone (s : State) (parent : Option Word) : State :=
  match parent with
  | none => s
  | some g => s.modGrid g fun x => { x with kids := x.kids - 1 }

/-- The launching grid counts a child grid once, however often its completion is delivered (05 R149; 22 R481). -/
def childCounted (s : State) (parent : Option Word) (child : Word) : State :=
  match parent with
  | none => s
  | some g => s.modGrid g fun x =>
    if x.counted.contains child then x else { x with kids := x.kids - 1, counted := x.counted ++ [child] }

/-- A child record fails: Uliend journals FAIL and the parent's future resolves with FAILED (04 R112,
17 R439). -/
def failChild (s : State) (n : Nat) (seq : Word) : State :=
  let s := journal s .fail n seq 0#32 0#64 0#64
  match (s.queue n).parents.get? seq.toNat with
  | none => s
  | some (g, _) =>
    let s := resolveLaunch s n seq (statusWord stFailed 0)
    (childDone s (some g)).modQueue n fun x => { x with parents := x.parents.del seq.toNat }

/-- The head leaves the ring; the record behind it becomes head now (04 R122). -/
def popHead (s : State) (n : Nat) : State :=
  s.modQueue n fun x =>
    { x with head := x.head + 1, headSince := s.hc, passedSince := none, reserved := false, watch := none }

/-- A head record fails: removed unplaced, QBAD + 1, the context's error event, a FAIL entry (04 R120). -/
def failHead (s : State) (n : Nat) : State :=
  let q := s.queue n
  let seq := (recordAt s n q.head).extractLsb' 0 32
  let s := popHead s n
  let s := (s.modQueue n fun x => { x with qbad := x.qbad + 1#32 }).raiseCtx q.ctx
  failChild s n seq

/-- The queue enters Free: every record is discarded; those of a child queue fail (04 R112). -/
def freeQueueNow (s : State) (n : Nat) : State :=
  let q := s.queue n
  let s := if q.src = 1 then
      (List.range q.len).foldl (fun s j => failChild s n ((recordAt s n (q.head + j)).extractLsb' 0 32)) s
    else s
  s.modQueue n fun x =>
    { x with st := .free, head := x.tail, passedSince := none, reserved := false, parents := [], watch := none, offAt := none }

/-! ## Ontia (04 R116, R117) -/

/-- The records of a datagram one by one (04 R117). -/
def ontiaRecords (s : State) (n : Nat) (fseq : Word) (count : Nat) : Nat → List (BitVec 1024) → State
  | _, [] => s
  | i, r :: rs =>
    let q := s.queue n
    let d := (fseq + BitVec.ofNat 32 i - q.nextSeq).toNat
    if 2 ^ 31 ≤ d then
      ontiaRecords (s.modQueue n fun x => { x with qdup := x.qdup + 1#32 }) n fseq count (i + 1) rs
    else if q.full then s.modQueue n fun x => { x with qfull := x.qfull + BitVec.ofNat 32 (count - i) }
    else
      let s := if 0 < d then s.modQueue n fun x =>
          { x with qgap := x.qgap + BitVec.ofNat 32 d, nextSeq := fseq + BitVec.ofNat 32 i } else s
      ontiaRecords (enqueue s n r) n fseq count (i + 1) rs

/-- The UDP checksum of a datagram (04 R116): the 16-bit one's complement of the one's complement sum of the
pseudo-header's words, the UDP header and the payload. -/
def onesSum (ws : List Nat) : Nat :=
  let n := ws.foldl (· + ·) 0
  let n := n / 65536 + n % 65536
  n / 65536 + n % 65536

/-- 16-bit words of bytes in network order, an odd last byte padded with zero. -/
def netWords : List Byte → List Nat
  | [] => []
  | [a] => [a.toNat * 256]
  | a :: b :: r => (a.toNat * 256 + b.toNat) :: netWords r

/-- The checksum is not used (zero), or is that of the datagram. The sum of all words with the checksum is 0xFFFF. -/
def checksumOk (sum : Nat) (pseudo : List Nat) (header : List Nat) (payload : List Byte) : Bool :=
  sum = 0 || onesSum (pseudo ++ header ++ [sum] ++ netWords payload) = 0xFFFF

def chunks128 : Nat → List Byte → List (BitVec 1024)
  | 0, _ => []
  | k + 1, bs => BitVec.ofNat 1024 (natLE (bs.take 128)) :: chunks128 k (bs.drop 128)

/-- ONTIA_DATAGRAM: a datagram for the port's UDP destination port. One whose UDP checksum is not zero and wrong is
dropped; the others are checked in order and their records are taken (04 R116, R117). -/
def ontiaDatagram (pseudo : List Nat) (h : UdpHeader) (payload : List Byte) (s : State) : State :=
  let udpPort := h.dst
  let udpLen := h.len
  if udpPort ≠ s.host.udpPort.toNat ∨ s.boot ≠ .ready ∨ ¬ linkWorks (s.link 136)
      ∨ ¬ checksumOk h.sum pseudo [h.src, h.dst, h.len] payload then s
  else
    let h := BitVec.ofNat 192 (natLE (payload.take 24))
    let count := bits h 83 80
    let n := bits h 73 64
    let ok := bits h 15 0 = 0x4F4E ∧ bits h 31 16 = 1 ∧ bits h 63 32 = 0 ∧ bits h 79 74 = 0 ∧ bits h 95 84 = 0
      ∧ 1 ≤ count ∧ count ≤ 8 ∧ udpLen = 32 + 128 * count ∧ payload.length = 24 + 128 * count
    if ¬ ok then { s with counters := { s.counters with ontbad := s.counters.ontbad + 1#32 } }
    else
      let q := s.queue n
      if q.st ≠ .enabled ∨ q.src ≠ 0 then s.modQueue n fun x => { x with qoff := x.qoff + 1#32 }
      else if h.extractLsb' 128 64 ≠ q.cred then s.modQueue n fun x => { x with qcred := x.qcred + 1#32 }
      else ontiaRecords s n (h.extractLsb' 96 32) count 0 (chunks128 count (payload.drop 24))

/-! ## Signals and completions (04 R121, R125) -/

/-- A store, an atomic or an engine write that cannot be routed (09 R232). -/
def State.unrouted (s : State) (ctx : Nat) : State :=
  { s with counters := { s.counters with unroute := s.counters.unroute + 1#32 } }.raiseCtx ctx

/-- A write that watch entries see: the heads that wait for the signal at the location are evaluated again (04 R121). -/
def hitWatch (s : State) (loc : Nat) : State :=
  if s.queues.any fun kq => kq.2.watch = some loc then
    { s with queues := s.queues.mapV fun _ q => if q.watch = some loc then { q with watch := none } else q }
  else s

/-- The completion write: signal := max(signal, value), a system-scope release; dropped, with the error
event, when CSIG does not translate with RD and W (04 R125), and discarded when it cannot be routed (09 R232). -/
def writeCompletion (s : State) (ctx : Nat) (csig cval : DWord) : State :=
  match translate s [] ctx csig.toNat .atomic with
  | .error _ => s.raiseCtx ctx
  | .ok (s, x) =>
    if s.unreachable x.pkg then s.unrouted ctx
    else
      let old := s.memWord x.loc
      hitWatch (s.storeLoc x.loc (bytesLE 8 (Nat.max old.toNat cval.toNat)) none (x.filler s ctx)) x.loc

/-- Step 1 of a delivery: the signal of a grid that completed, the error event for one that was killed (04 R125; 05 R151). -/
def deliverSignal (s : State) (r : Report) : State :=
  if r.killed then s.raiseCtx r.ctx else if r.csig = 0#64 then s else writeCompletion s r.ctx r.csig r.cval

/-- Step 2: DONE in the journal (04 R127). -/
def deliverDone (s : State) (r : Report) : State :=
  let s := journal s .done r.queue r.seq r.grid r.csig (if r.killed then 0#64 else r.cval)
  { s with disp := { s.disp with uliend := { s.disp.uliend with grids := s.disp.uliend.grids.filter (· ≠ r.grid) } } }

/-- Step 3: the parent's `launch` future resolves, if it has not (17 R439), and the parent counts the child (22 R481). -/
def deliverParent (s : State) (r : Report) : State :=
  match r.parent with
  | none => s
  | some g => childCounted (resolveLaunch s r.queue r.seq (statusWord (if r.killed then stKilled else stOk) r.poison)) (some g) r.grid

/-- Step 4: the entry is acknowledged and leaves the FIFO. With the last held one castling ends and placement restarts (04
R129). -/
def deliverAck (s : State) (r : Report) (rest : List Report) : State :=
  let s := match r.parent with
    | none => s
    | some g => s.modGrid g fun x => { x with counted := x.counted.filter (· ≠ r.grid) }
  let restart := s.disp.castling && rest.isEmpty
  { s with
    disp := { s.disp with fifo := rest, castling := s.disp.castling && !restart }
    placer := if restart then { s.placer with stopped := s.errs.hubFatal } else s.placer }

/-- COMPLETION_DELIVERY: the active dispatch core takes the next of the four steps of delivering the oldest report (04 R125;
22 R480). -/
def completionDelivery (s : State) : State :=
  if ¬ s.disp.up then s
  else match s.disp.fifo with
    | [] => s
    | r :: rest =>
      let n := s.disp.steps
      let s := { s with disp := { s.disp with steps := if n < 3 then n + 1 else 0 } }
      match n with
      | 0 => deliverSignal s r
      | 1 => deliverDone s r
      | 2 => deliverParent s r
      | _ => deliverAck s r rest

/-! ## Castling (04 R128, R129) -/

/-- What a standby replays (04 R127, R129): the area of the last valid CKPT entry, the entries after it up to the first that
is not valid, and the JSEQ behind the last valid one (22 R482). -/
structure Replay where
  area : Option Nat
  es : List JEntry
  next : Nat
  stop : Bool

def Replay.see (r : Replay) (e : JEntry) : Replay :=
  if e.bad then { r with stop := true }
  else if e.ty = .ckpt then ⟨some e.value.toNat, [], e.jseq + 1, false⟩
  else if r.stop then r
  else { r with es := r.es ++ [e], next := e.jseq + 1 }

def replayFrom (es : List JEntry) : Replay := es.foldl Replay.see ⟨none, [], (es.map (·.jseq)).headD 0, false⟩

/-- Replay rebuilds Uliend's state and writes no signal (04 R129). -/
def replay (u : Uliend) (e : JEntry) : Uliend :=
  match e.ty with
  | .enq => { u with tails := u.tails.put e.queue ((u.tails.getD e.queue 0) + 1) }
  | .place => { u with grids := u.grids ++ [e.grid] }
  | .done => { u with grids := u.grids.filter (· ≠ e.grid) }
  | .qcfg => if e.value = 1#64 then { u with tails := u.tails.put e.queue 0 } else u
  | _ => u

/-- ENQ for each of the next k records past the journalled tail of a queue (04 R129 step 3). -/
def scanQueue (s : State) (n : Nat) : Nat → State
  | 0 => s
  | k + 1 =>
    let pos := s.disp.uliend.tails.getD n 0
    let s := journal s .enq n ((recordAt s n pos).extractLsb' 0 32) 0#32 0#64 0#64
    scanQueue (s.setTail n (pos + 1)) n k

/-- Uliend's state after the replay, and the numbering of the entries it writes next: from the JSEQ behind the last valid
one (04 R129 steps 1 and 2; 22 R482). -/
def Dispatch.replayed (d : Dispatch) : Dispatch :=
  let r := replayFrom d.journal
  { d with
    cores := d.cores.map fun (c : DispSt) => if c = DispSt.standby then DispSt.active else c
    uliend := r.es.foldl replay ((r.area.map fun a => d.ckpts.getD a ⟨[], []⟩).getD ⟨[], []⟩)
    nextJseq := r.next
    sinceCkpt := r.es.length + (if r.area.isSome then 1 else 0)
    ckptArea := (r.area.map fun a => 1 - a).getD 0 }

/-- The position up to which a queue's records are journalled, after a replay: none of a queue whose creation the replay does
not know; records that have left a ring are not found in it (04 R129 step 3). -/
def Dispatch.journalled (d : Dispatch) (n : Nat) (q : Queue) : Nat :=
  Nat.max (if q.born.any fun j => decide (j < d.nextJseq) then d.uliend.tails.getD n 0 else 0) q.head

/-- STANDBY_TAKEOVER: the standby loads the checkpoint, replays, and journals ENQ for every record it finds unjournalled (04
R129). It delivers the held completions as any other, and placement restarts behind the last. -/
def standbyTakeover (s : State) : State :=
  let d := s.disp
  if ¬ d.castling ∨ ¬ d.cores.contains DispSt.standby then s
  else
    let d := d.replayed
    let s := { s with disp := d }
    let s := s.queues.foldl (fun (s : State) (kq : Nat × Queue) =>
      let t := d.journalled kq.1 kq.2
      let s := (s.setTail kq.1 t).modQueue kq.1 fun q => { q with born := some 0 }
      if kq.2.kick then scanQueue s kq.1 (kq.2.tail - t) else s) s
    let more := s.disp.fifo ≠ []
    { s with
      disp := { s.disp with castling := more }
      placer := { s.placer with stopped := more || s.errs.hubFatal } }

/-- A dispatch core fails (04 R128, R131). The active one: castling, an unacknowledged entry held in front, or, without a
standby, the end of placement and delivery, which the hub reports through Edwick as event 2 (log 41); so does the standby
that castling has released. A standby beside a healthy active core is only marked. -/
def dispatchFails (s : State) (k : Nat) : State :=
  let d := s.disp
  match d.cores[k]? with
  | some .active =>
    { s with
      disp := { d with cores := d.cores.set k .failed, castling := d.cores.contains DispSt.standby, steps := 0 }
      placer := { s.placer with stopped := true }
      errs := if d.cores.contains DispSt.standby then s.errs else { s.errs with events := s.errs.events ++ [(2, k)] } }
  | some .standby =>
    { s with
      disp := { d with cores := d.cores.set k .failed, castling := false }
      errs := if d.castling then { s.errs with events := s.errs.events ++ [(2, k)] } else s.errs }
  | _ => s

end Sys2Proof.Machine
end

