-- ==== Sys2Proof/Machine/Access.lean ====
section
/-! DEFINITION. Reads and writes at their point of coherence: lines of any length, routes to other packages
(09 R230 to R234), compressed surfaces (08 R212 to R215; 17 R434), poisoned lines (15 R392, 18 R448), and the
locks a thread access meets (11 R290, R291). -/

namespace Sys2Proof.Machine

/-! ## Stores by an agent that is no lane -/

/-- Bytes stored line by line; `n` bounds the number of lines. -/
def storeBytes (s : State) (loc : Nat) (bs : List Byte) : Nat → State
  | 0 => s
  | n + 1 =>
    if bs = [] then s
    else
      let k := 128 - loc % 128
      storeBytes (s.storeLoc loc (bs.take k) none) (loc + k) (bs.drop k) n

def storeAll (s : State) (loc : Nat) (bs : List Byte) : State := storeBytes s loc bs (bs.length / 128 + 2)

/-- Bytes of one line as another agent reads them: all ones where the line is poisoned (18 R448). -/
def State.sentLine (s : State) (loc n : Nat) : List Byte :=
  if s.linePoisoned loc then List.replicate n 0xFF#8 else s.memRead loc n

/-- Bytes over any number of lines; the last argument bounds the number of lines. -/
def sentFrom (s : State) (loc n : Nat) : Nat → List Byte
  | 0 => []
  | k + 1 =>
    let m := Nat.min n (128 - loc % 128)
    s.sentLine loc m ++ (if n ≤ m then [] else sentFrom s (loc + m) (n - m) k)

def State.sentBytes (s : State) (loc n : Nat) : List Byte := sentFrom s loc n (n / 128 + 2)

/-- A lane's write of bytes within one line, through a region of the mode and by the team position of `at_`: discarded when
it cannot be routed; a local line of an on-touch region becomes dirty in the gang's stash, and one of a write-back region
is owned there (09 R232; 11 R264 to R267). -/
def State.writeAt (s : State) (ctx : Nat) (who : Option (Nat × Nat)) (gid : Nat) (at_ : Nat × Nat) (x : Xlat) (bs : List Byte) : State :=
  if s.unreachable x.pkg then s.unrouted ctx
  else
    let s := s.storeLoc x.loc bs who (x.filler s ctx) (some gid)
    if x.pkg = s.fused.pkg then s.holdLine gid (lineOf x.loc) at_ else s

/-- Every dirty on-touch line of a team is home before a release of its lanes is performed (11 R267). -/
def State.releaseHome (s : State) (p : Place) : State :=
  if (s.gangs.get? p.gid).any fun g => g.dirty ≠ [] then
    s.modGang p.gid fun g => { g with dirty := g.dirty.filter fun l => l.2.2 ≠ p.t.pos }
  else s

/-! ## Read-modify-writes (15 R393) -/

/-- Arithmetic wraps; comparisons follow the type's sign (15 R393). -/
def rmwEval (f : RmwFn) (t : Ty) (old b : Nat) : Nat :=
  match f with
  | .add => wrapTo t.width (intOf t old + intOf t b)
  | .sub => wrapTo t.width (intOf t old - intOf t b)
  | .min => if intOf t b < intOf t old then b else old
  | .max => if intOf t old < intOf t b then b else old
  | .and => old &&& b
  | .or => old ||| b
  | .xor => old ^^^ b
  | .exch => b

/-! ## Locks (08 R215; 11 R290, R291; 16 R418) -/

def rangesMeet (a n : Nat) (r : Nat × Nat) : Bool := a < r.1 + r.2 && r.1 < a + n

/-- A thread access of a context overlaps a destination range of an engine operation, or writes into a source
range of an operation or a loop. -/
def State.rangeLocked (s : State) (ctx a n : Nat) (write : Bool) : Bool :=
  (s.ops.any fun ko => decide (ko.2.ctx = ctx) &&
      (ko.2.wr.any (rangesMeet a n) || (write && ko.2.rd.any (rangesMeet a n))))
    || (write && s.mloops.any fun km => decide (km.2.ctx = ctx) && km.2.rd.any (rangesMeet a n))

/-- Entries in use of the range-lock table of 1,024 (11 R290; 16 R418). -/
def State.rangeEntries (s : State) : Nat :=
  s.ops.foldl (fun n ko => n + (if ko.2.rd.isSome then 1 else 0) + (if ko.2.wr.isSome then 1 else 0)) 0
    + s.mloops.foldl (fun n km => n + km.2.rd.length) 0

/-- Entries in use of a core's stash range scoreboard of 16 (11 R291). -/
def State.stashEntries (s : State) (core : Nat) : Nat :=
  s.ops.foldl (fun n ko => if ko.2.core = core then
    n + (if ko.2.srd.isSome then 1 else 0) + (if ko.2.swr.isSome then 1 else 0) else n) 0

/-- A compressor operation is writing the surface. -/
def State.surfLocked (s : State) (ctx surf : Nat) : Bool :=
  decide (surf ≠ 0) && s.ops.any fun ko => decide (ko.2.kind = .cmpr) && ko.2.started && decide (ko.2.ctx = ctx)
    && decide (ko.2.surf = surf)

/-- Bytes of a gang window that an engine operation writes, or, for a store, reads (11 R291). -/
def State.stashBusy (s : State) (gid off n : Nat) (write : Bool) : Bool :=
  s.ops.any fun ko => decide (ko.2.gang = gid) &&
    (ko.2.swr.any (rangesMeet off n) || (write && ko.2.srd.any (rangesMeet off n)))

/-- Bytes of the warp's window behind a global address are so held. -/
def State.windowBusy (s : State) (p : Place) (va n : Nat) (write : Bool) : Bool :=
  (regionOf p.gr.regions p.g.num va).any fun om => s.stashBusy p.gid om.1 n write

end Sys2Proof.Machine
end

