-- ==== Sys2Proof/Machine/Barrier.lean ====
section
/-! DEFINITION. Barriers: `arv`, `bwait`, `bsync` and the events of their slots (07; 17 R437). -/

namespace Sys2Proof.Machine

/-- The barrier an index names: 32 is the team barrier, others stand below BARN (07 R180, R189). -/
def Place.bar (p : Place) (idx : Nat) : Option Nat :=
  if idx = 32 then some p.t.bar
  else if idx < p.gr.barn then p.g.bars[idx]? else none

/-- The `%barmis` counter of a core (07 R189). -/
def State.barmis (s : State) (core n : Nat) : State :=
  s.modCore core fun c => { c with barmis := c.barmis + BitVec.ofNat 32 n }

/-- A release wakes every lane that waits for the phase, which may issue from the next cc on; a `bsync` path that arrived
for the next phase now waits for that one (07 R185, R187). -/
def wakeBarrier (b : Bar) (k : Nat) (w : Warp) : Warp :=
  let late : LaneMask := b.late.foldl (fun m a => if a.warp = k ∧ a.sync then m ||| a.path else m) 0#32
  { w with wake := w.wake.mapV fun l x => match x with
      | .barrier i => if i = b.idx then .released i else x
      | .bsync i true => if i = b.idx then .released i else x
      | .bsync i false => if i = b.idx ∧ late.getLsbD l then .bsync i true else x
      | _ => x }

/-- The lanes that a release woke may issue (07 R187). -/
def Warp.endRelease (w : Warp) (idx : Nat) : Warp := { w with wake := w.wake.filter fun lw => lw.2 ≠ .released idx }

def maxBytes : Nat := 2 ^ 24 - 1

/-- The state of a barrier behind its release: the arrivals that belong to the new phase are counted, and their bytes
added to TXB, saturating (07 R184, R185). -/
def Bar.released (b : Bar) (cc : Nat) : Bar :=
  { b with
    st := .released
    ph := !b.ph
    cnt := b.late.length
    barr := 0
    arrived := b.late.map (·.warp)
    bexp := b.late.foldl (fun n a => Nat.min (n + a.e) maxBytes) b.txb
    relAt := cc
    late := [] }

/-- The cores whose late `arv` takes the new BEXP past its limit (07 R189). -/
def Bar.overflows (b : Bar) : List Nat :=
  (b.late.foldl (fun (r : Nat × List Nat) a =>
    (Nat.min (r.1 + a.e) maxBytes, if maxBytes < r.1 + a.e then r.2 ++ [a.core] else r.2)) (b.txb, [])).2

/-- The completion test: with CNT = EXPW and BARR ≥ BEXP an Armed barrier is released (07 R184, R185). -/
def phaseTest (s : State) (id : Nat) : State :=
  match s.bars.get? id with
  | none => s
  | some b =>
    if b.st = .armed ∧ b.cnt = b.expw ∧ b.bexp ≤ b.barr then
      let s := b.overflows.foldl (fun s c => s.barmis c 1) s
      let s := s.modBar id fun x => x.released (s.clusterCc b.cluster)
      { s with warps := s.warps.mapV fun k w => if b.group.contains k then wakeBarrier b k w else w }
    else s

/-- The parity an arrival returns reaches its destination; a `bsync` path counted in this phase now waits for the
release. -/
def arrivalResult (s : State) (p : Place) (b : Bar) (a : Arrival) (ph now : Bool) : State :=
  match a.d with
  | some d => s.writeOp p a.active d fun _ => [if ph then 1#32 else 0#32]
  | none => if now then s.modWarp a.warp fun w =>
      { w with wake := w.wake.mapV fun l k => match k with
          | .bsync i false => if i = b.idx ∧ a.path.getLsbD l then .bsync i true else .bsync i false
          | k => k }
    else s

/-- An arrival reaches the slot (07 R186, R189). A second arrival of its warp in the phase is discarded. One that finds
CNT = EXPW belongs to the next phase: it is recorded, counted by the release, and returns the next parity (07 R185,
log 14). -/
def arrive (s : State) (a : Arrival) : State :=
  match s.bars.get? a.bar, s.place? a.warp with
  | some b, some p =>
    if b.st = .free ∨ b.st = .saved then s
    else if b.arrived.contains a.warp ∨ b.late.any (fun x => x.warp = a.warp) then
      arrivalResult (s.barmis p.t.core 1) p b a b.ph true
    else if b.cnt = b.expw then
      arrivalResult (s.modBar a.bar fun b => { b with late := b.late ++ [⟨a.warp, a.e, p.t.core, a.path, a.d.isNone⟩] })
        p b a (!b.ph) false
    else
      let tooBig := decide (maxBytes < b.bexp + a.e)
      let s := s.modBar a.bar fun b =>
        { b with cnt := b.cnt + 1, arrived := b.arrived ++ [a.warp], bexp := Nat.min (b.bexp + a.e) maxBytes }
      arrivalResult (s.barmis p.t.core (if tooBig then 1 else 0)) p b a b.ph true
  | _, _ => s

/-- A warp drops out of a barrier allotted with COUNT = 0, and of its team barrier (07 R190). -/
def dropOut (s : State) (bar warp : Nat) : State :=
  s.modBar bar fun b =>
    if b.all ∨ b.idx = 32 then
      { b with expw := b.expw - 1
               cnt := if b.arrived.contains warp then b.cnt - 1 else b.cnt
               arrived := b.arrived.filter (· ≠ warp) }
    else b

/-- Arrivals by the age of their warps; those of one warp stand in issue order, the lower key first (07 R185, R186). -/
def insertArrival (a : Arrival) : List Arrival → List Arrival
  | [] => [a]
  | x :: xs => if a.warp < x.warp then a :: x :: xs else x :: insertArrival a xs

/-- What reaches a barrier by a cc: first the exits, then the arrivals by age (07 R185). -/
def reachBarrier (s : State) (bar cc : Nat) : State :=
  let gone := s.exits.filter fun m => decide (m.bar = bar) && decide (m.due ≤ cc)
  let come := (s.arrivals.filter fun a => decide (a.bar = bar) && decide (a.due ≤ cc)).foldl
    (fun l a => insertArrival a l) []
  let s := { s with
    exits := s.exits.filter fun m => !(decide (m.bar = bar) && decide (m.due ≤ cc))
    arrivals := s.arrivals.filter fun a => !(decide (a.bar = bar) && decide (a.due ≤ cc)) }
  come.foldl arrive (gone.foldl (fun s m => dropOut s bar m.warp) s)

/-- The cycle counter of a barrier's cluster. -/
def barCc (s : State) (bar : Nat) : Nat := s.clusterCc (((s.bars.get? bar).map (·.cluster)).getD 0)

/-- One cc of a barrier: what reaches it, then the completion test (07 R185). -/
def barrierCycle (s : State) (bar cc : Nat) : State := phaseTest (reachBarrier s bar cc) bar

/-- BARRIER_ARRIVAL: the arrivals due at the barrier reach it, 2 cc after their issue, with all else that reaches it in
that cc (07 R185, R186). -/
def barrierArrival (bar : Nat) (s : State) : State :=
  match s.arrivals.find? fun a => decide (a.bar = bar) && decide (a.due ≤ barCc s bar) with
  | none => s
  | some _ => barrierCycle s bar (barCc s bar)

/-- RELEASE_ENDS: Released returns to Armed one cc later, the woken paths may issue, and arrivals counted meanwhile are
tested (07 R184, R187). -/
def releaseEnds (bar : Nat) (s : State) : State :=
  match s.bars.get? bar with
  | none => s
  | some b =>
    if b.st = .released ∧ b.relAt < barCc s bar then
      let s := { s with warps := s.warps.mapV fun k w => if b.group.contains k then w.endRelease b.idx else w }
      phaseTest (s.modBar bar fun b => { b with st := .armed }) bar
    else s

/-- EXIT_REACHES_BARRIER: 2 cc after the exit of the warp's last lane, with all else that reaches the barrier in that cc
(07 R185, R190). -/
def exitReachesBarrier (bar warp : Nat) (s : State) : State :=
  match s.exits.find? fun m => decide (m.bar = bar) && decide (m.warp = warp) && decide (m.due ≤ barCc s bar) with
  | none => s
  | some _ => barrierCycle s bar (barCc s bar)

/-- Bytes of an engine operation arrive at a barrier, in whatever state it is but Free, behind the exits and arrivals of
their cc; those above BEXP are not counted and add to `%barmis` of the issuing core (07 R185, R188, R189). In the cc
of the release they belong to the phase that it completed, which has all its bytes. -/
def barrierBytes (s : State) (bar core n : Nat) : State :=
  let s := reachBarrier s bar (barCc s bar)
  match s.bars.get? bar with
  | none => s
  | some b =>
    if b.st = .free then s
    else if b.st = .released ∧ b.relAt = barCc s bar then s.barmis core (if n = 0 then 0 else 1)
    else
      let s := s.barmis core (if b.bexp < b.barr + n then 1 else 0)
      let s := s.modBar bar fun b => { b with barr := Nat.min (b.barr + n) (Nat.max b.bexp b.barr) }
      if b.st = .saved then b.group.foldl (fun (s : State) w => s.imageOfWarp w) s else phaseTest s bar

/-- `arv` (07 R186, 17 R437): a release, so that every access of its lanes has performed. -/
def execArv (x : ArvF) (s : State) : Host.Outcome State Fault Refusal :=
  settle s fun p i =>
    match p.bar x.bar.val with
    | none => .error (.trap .illegal 0 i.path 0#64)
    | some b => withOperands s p i x.g [src1 x.e] [(x.d, 1)] fun active =>
      match checkDone p i active with
      | .error e => .error e
      | .ok _ =>
        let e := ((srcVals s p (lowLane active) [] [src1 x.e]).headD []).headD 0#32
        let s := (s.consume p active [src1 x.e]).releaseHome p
        .ok ({ s with arrivals := s.arrivals ++
          [(⟨s.coreCc p.t.core + 2, b, p.key, bits e 23 0, i.path, active, some x.d⟩ : Arrival)] }.retire i)

/-- `bwait` (07 R187, 17 R437): a parity equal to PH blocks with kind BARRIER. -/
def execBwait (x : BwaitF) (s : State) : Host.Outcome State Fault Refusal :=
  settle s fun p i =>
    match p.bar x.bar.val with
    | none => .error (.trap .illegal 0 i.path 0#64)
    | some b => withOperands s p i x.g [src1 x.q] [] fun active =>
      let q := ((srcVals s p (lowLane active) [] [src1 x.q]).headD []).headD 0#32
      if ((s.bars.get? b).map (·.ph)) = some (q.getLsbD 0) then
        .error (.block (allLanes i.path (.barrier x.bar.val)))
      else .ok ((s.consume p active [src1 x.q]).retire i)

/-- `bsync` (07 R187): the arrival of `arv` with E = 0, and the wait on the parity it returns. The path
stands past the instruction and blocks until the release. -/
def execBsync (x : BsyncF) (s : State) : Host.Outcome State Fault Refusal :=
  settle s fun p i =>
    match p.bar x.bar.val with
    | none => .error (.trap .illegal 0 i.path 0#64)
    | some b => withOperands s p i x.g [] [] fun active =>
      match checkDone p i active with
      | .error e => .error e
      | .ok _ =>
        let s := s.releaseHome p
        let s := { s with arrivals := s.arrivals ++
          [(⟨s.coreCc p.t.core + 2, b, p.key, 0, i.path, active, none⟩ : Arrival)] }.retire i
        .ok (s.blockLanes p.key p.t.core (allLanes i.path (.bsync x.bar.val false)))

end Sys2Proof.Machine
end

