-- ==== Sys2Proof/Machine/Num.lean ====
section
/-! DEFINITION. Exact values and number formats (02 R56 to R62, R66 to R73): decoding an element into its exact
value, ENCODE, and the exact arithmetic of the float instructions (14 R367 to R371). -/

namespace Sys2Proof.Machine

/-- An exact value: NaN (also NaR), an infinity, the dyadic number ±m × 2^e, or the logarithmic ±2^(e/sc). A
result that is not dyadic is held as a dyadic number with enough bits and its lowest bit set, which every
rounding mode treats as it would the exact value. -/
inductive Val
  | nan
  | inf (neg : Bool)
  | num (neg : Bool) (m : Nat) (e : Int)
  | lg (neg : Bool) (e : Int) (sc : Nat)
  deriving DecidableEq, Repr

def Val.ofInt (i : Int) : Val := .num (decide (i < 0)) i.natAbs 0
def Val.zero : Val := .num false 0 0

/-- m / 2^sh rounded to an integer (02 R59). -/
def roundShift (mode : RMode) (neg : Bool) (m sh : Nat) : Nat :=
  let q := m / 2 ^ sh
  let r := m % 2 ^ sh
  let up : Bool := match mode with
    | .rne => decide (2 ^ sh < 2 * r) || (decide (2 * r = 2 ^ sh) && decide (0 < sh) && q % 2 == 1)
    | .rtz => false
    | .rdn => neg && decide (0 < r)
    | .rup => !neg && decide (0 < r)
  if up then q + 1 else q

/-- The magnitude m × 2^e rounded to a multiple of 2^q, counted in that quantum. -/
def roundTo (mode : RMode) (neg : Bool) (m : Nat) (e q : Int) : Nat :=
  if q ≤ e then m * 2 ^ (e - q).toNat else roundShift mode neg m (q - e).toNat

/-- The largest k below 2^b with k^d ≤ t. -/
def rootBits (d t : Nat) : Nat → Nat → Nat
  | 0, k => k
  | b + 1, k => if (k + 2 ^ b) ^ d ≤ t then rootBits d t b (k + 2 ^ b) else rootBits d t b k

/-- ⌊log2 m^k⌋ of a non-zero m, whose whole part of k × ⌊log2 m⌋ is taken first. -/
def log2Pow (m k : Nat) : Nat := k * Nat.log2 m + Nat.log2 (m ^ k / 2 ^ (k * Nat.log2 m))

/-- ⌊√n⌋ of a number below 2^(2b). -/
def isqrt (b n : Nat) : Nat := rootBits 2 n b 0

/-- A logarithmic value as a dyadic number of 48 bits (02 R91: never a tie unless e is a multiple of the
scale). -/
def Val.dyadic : Val → Val
  | .lg neg e sc =>
    let i := e / sc
    let f := (e % sc).toNat
    if f = 0 then .num neg 1 i
    else .num neg (2 * rootBits sc (2 ^ (48 * sc + f)) 49 0 + 1) (i - 49)
  | v => v

/-! ## Float formats (02 R56) -/

/-- Width, fraction bits, bias, largest finite value maxM × 2^maxE, infinity, canonical NaN (02 R57). -/
structure Fmt where (w mb bias maxM : Nat) (maxE : Int) (inf : Bool) (nan : Option Nat)
  deriving DecidableEq, Repr

def fmtF32 : Fmt := ⟨32, 23, 127, 2 ^ 24 - 1, 104, true, some 0x7FC00000⟩
def fmtF16 : Fmt := ⟨16, 10, 15, 2 ^ 11 - 1, 5, true, some 0x7E00⟩
def fmtBf16 : Fmt := ⟨16, 7, 127, 2 ^ 8 - 1, 120, true, some 0x7FC0⟩
def fmtE4m3 : Fmt := ⟨8, 3, 7, 14, 5, false, some 0x7F⟩
def fmtE5m2 : Fmt := ⟨8, 2, 15, 7, 13, true, some 0x7E⟩
def fmtE2m1 : Fmt := ⟨4, 1, 1, 3, 1, false, none⟩

/-- The float format of a type. -/
def fmtOf : Ty → Option Fmt
  | .f32 => some fmtF32 | .f16 => some fmtF16 | .bf16 => some fmtBf16
  | .e4m3 => some fmtE4m3 | .e5m2 => some fmtE5m2 | .e2m1 => some fmtE2m1
  | _ => none

/-- The fields of a code: sign, exponent, fraction. -/
def Fmt.fields (f : Fmt) (x : Nat) : Bool × Nat × Nat :=
  (x / 2 ^ (f.w - 1) % 2 == 1, x / 2 ^ f.mb % 2 ^ (f.w - 1 - f.mb), x % 2 ^ f.mb)

/-- The top exponent field of the format. -/
def Fmt.top (f : Fmt) : Nat := 2 ^ (f.w - 1 - f.mb) - 1

/-- The exact value of a code (02 R56, R58). -/
def Fmt.decode (f : Fmt) (x : Nat) : Val :=
  let (neg, e, m) := f.fields x
  if f.inf ∧ e = f.top then (if m = 0 then .inf neg else .nan)
  else if ¬ f.inf ∧ f.nan ≠ none ∧ e = f.top ∧ m = 2 ^ f.mb - 1 then .nan
  else if e = 0 then .num neg m (1 - f.bias - f.mb)
  else .num neg (2 ^ f.mb + m) ((e : Int) - f.bias - f.mb)

def Fmt.signed (f : Fmt) (neg : Bool) (x : Nat) : Nat := (if neg then 2 ^ (f.w - 1) else 0) + x

/-- The code of k × 2^q, where q is the quantum of k. -/
def Fmt.pack (f : Fmt) (k : Nat) (q : Int) : Nat :=
  if k < 2 ^ f.mb then k
  else
    let (k, q) := if k = 2 ^ (f.mb + 1) then (2 ^ f.mb, q + 1) else (k, q)
    (q + f.mb + f.bias).toNat * 2 ^ f.mb + (k - 2 ^ f.mb)

def Fmt.maxCode (f : Fmt) : Nat := f.pack f.maxM f.maxE
def Fmt.infCode (f : Fmt) : Nat := f.top * 2 ^ f.mb

/-- k × 2^q exceeds the largest finite value. -/
def Fmt.beyond (f : Fmt) (k : Nat) (q : Int) : Bool :=
  if f.maxE ≤ q then decide (f.maxM < k * 2 ^ (q - f.maxE).toNat) else decide (f.maxM * 2 ^ (f.maxE - q).toNat < k)

/-- The result of an overflow (02 R60). -/
def Fmt.overflow (f : Fmt) (neg : Bool) (mode : RMode) (nanMode : Bool) : Nat :=
  if ¬ nanMode then f.signed neg f.maxCode
  else if f.inf then
    let toInf : Bool := match mode with
      | .rne => true
      | .rtz => false
      | .rdn => neg
      | .rup => !neg
    f.signed neg (if toInf then f.infCode else f.maxCode)
  else match f.nan with
    | some n => n
    | none => f.signed neg f.maxCode

/-- ENCODE of 02 R60: the code and the saturation events (0 or 1). `nanMode` is the NAN saturation mode. -/
def Fmt.encode (f : Fmt) (v : Val) (mode : RMode) (nanMode : Bool) : Nat × Nat :=
  match v.dyadic with
  | .nan => match f.nan with
    | some n => (n, 0)
    | none => (0, 1)
  | .inf neg =>
    if f.inf then (f.signed neg f.infCode, 0)
    else match nanMode, f.nan with
      | true, some n => (n, 1)
      | _, _ => (f.signed neg f.maxCode, 1)
  | .num neg m e =>
    if m = 0 then (f.signed neg 0, 0)
    else
      let q : Int := max (e + Nat.log2 m - f.mb) (1 - f.bias - f.mb)
      let k := roundTo mode neg m e q
      if f.beyond k q then (f.overflow neg mode nanMode, 1) else (f.signed neg (f.pack k q), 0)
  | .lg _ _ _ => (0, 0)

/-! ## Exact arithmetic (14 R367) -/

def Val.neg : Val → Val
  | .nan => .nan
  | .inf n => .inf !n
  | .num n m e => .num (!n) m e
  | .lg n e s => .lg (!n) e s

def Val.isZero : Val → Bool
  | .num _ m _ => m == 0
  | _ => false
def Val.isNan : Val → Bool
  | .nan => true
  | _ => false

/-- The signed integer of ±m × 2^e in units of 2^q, q ≤ e. -/
def scaled (neg : Bool) (m : Nat) (e q : Int) : Int :=
  let x : Int := m * 2 ^ (e - q).toNat
  if neg then -x else x

/-- The exact sum; an exact zero of operands of opposite sign is −0 under RDN (14 R367). -/
def Val.add (mode : RMode) (a b : Val) : Val :=
  match a, b with
  | .inf x, .inf y => if x = y then .inf x else .nan
  | .nan, _ | _, .nan => .nan
  | .inf x, _ => .inf x
  | _, .inf y => .inf y
  | .num na ma ea, .num nb mb eb =>
    let q := min ea eb
    let i := scaled na ma ea q + scaled nb mb eb q
    if i = 0 then .num (if na = nb then na else mode == .rdn) 0 0 else .num (decide (i < 0)) i.natAbs q
  | _, _ => .nan

/-- The exact product; an infinity times zero is NaN. -/
def Val.mul (a b : Val) : Val :=
  match a, b with
  | .nan, _ | _, .nan => .nan
  | .inf x, .inf y => .inf (x != y)
  | .inf x, .num n m _ | .num n m _, .inf x => if m = 0 then .nan else .inf (x != n)
  | .num na ma ea, .num nb mb eb => .num (na != nb) (ma * mb) (ea + eb)
  | _, _ => .nan

/-- The quotient, to 90 bits below the dividend's and a sticky bit. -/
def Val.div (a b : Val) : Val :=
  match a, b with
  | .nan, _ | _, .nan => .nan
  | .inf _, .inf _ => .nan
  | .inf x, .num n _ _ => .inf (x != n)
  | .num n _ _, .inf x => .num (x != n) 0 0
  | .num na ma ea, .num nb mb eb =>
    if mb = 0 then (if ma = 0 then .nan else .inf (na != nb))
    else
      let t := ma * 2 ^ 90
      .num (na != nb) (2 * (t / mb) + (if t % mb = 0 then 0 else 1)) (ea - eb - 91)
  | _, _ => .nan

/-- Rounding to an integral value, keeping the sign (14 R366, R367 `frnd`). -/
def Val.rint (mode : RMode) : Val → Val
  | .num n m e => if 0 ≤ e then .num n m e else .num n (roundShift mode n m (-e).toNat) 0
  | v => v

/-- m × 2^e as m' × 2^(2k) with m' of at least 2·b bits. -/
def evenUp (b : Nat) (m : Nat) (e : Int) : Nat × Int :=
  let s : Nat := 2 * b + (if (e - 2 * b) % 2 = 0 then 0 else 1)
  (m * 2 ^ s, (e - s) / 2)

/-- √a (14 R369). -/
def Val.sqrt : Val → Val
  | .num n m e =>
    if m = 0 then .num n 0 0
    else if n then .nan
    else
      let (m', k) := evenUp 60 m e
      let r := isqrt 80 m'
      .num false (2 * r + (if r * r = m' then 0 else 1)) (k - 1)
  | .inf false => .inf false
  | _ => .nan

/-- 1/√a (14 R369). -/
def Val.rsqrt : Val → Val
  | .num n m e =>
    if m = 0 then .inf n
    else if n then .nan
    else
      let (m', k) := if e % 2 = 0 then (m, e / 2) else (2 * m, (e - 1) / 2)
      let r := isqrt 101 (2 ^ 200 / m')
      .num false (2 * r + (if r * r * m' = 2 ^ 200 then 0 else 1)) (-k - 101)
  | .inf false => .num false 0 0
  | _ => .nan

/-! ## Transcendental values (14 R369)

Fixed-point evaluation with 512 fraction bits and a bound on its error: `lo` and `hi` enclose the exact
irrational value. -/

def fxBits : Nat := 512
def fxOne : Nat := 2 ^ 512
/-- ⌊ln 2 × 2^512⌋. -/
def fxLn2 : Nat :=
  0xb17217f7d1cf79abc9e3b39803f2f6af40f343267298b62d8a0d175b8baafa2be7b876206debac98559552fb4afa1b10ed2eae35c138214427573b291169b825
/-- ⌊π/2 × 2^512⌋. -/
def fxHalfPi : Nat :=
  0x1921fb54442d18469898cc51701b839a252049c1114cf98e804177d4c76273644a29410f31c6809bbdf2a33679a748636605614dbe4be286e9fc26adadaa3848b

/-- A fixed-point integer between whose value and the next the exact value lies, as a value. -/
def fxVal (i : Int) : Val :=
  if i < 0 then .num true (2 * i.natAbs - 1) (-513) else .num false (2 * i.natAbs + 1) (-513)

/-- Two values that enclose the exact one; equal when it is known. -/
abbrev Enclosed := Val × Val

/-- Σ x^k/k! from term k on. -/
def expSum (x : Nat) : Nat → Nat → Nat → Nat
  | 0, _, _ => 0
  | n + 1, k, t => t + expSum x n (k + 1) (t * x / fxOne / (k + 1))

/-- 2^a. -/
def Val.exp2 : Val → Enclosed
  | .nan => (.nan, .nan)
  | .inf true => (Val.zero, Val.zero)
  | .inf false => (.inf false, .inf false)
  | .num n m e =>
    if m = 0 then (.num false 1 0, .num false 1 0)
    else if 2 ^ 10 ≤ (m : Int) * 2 ^ e.toNat / 2 ^ (-e).toNat then
      let v := Val.num false 1 (if n then -1024 else 1024)
      (v, v)
    else
      let x : Int := scaled n m (e + 512) 0
      let i := x / fxOne
      let f := (x % fxOne).toNat
      if f = 0 then (.num false 1 i, .num false 1 i)
      else
        let s := expSum (f * fxLn2 / fxOne) 110 0 fxOne
        (.num false (2 * s + 1) (i - 513), .num false (2 * (s + 1024) + 1) (i - 513))
  | v => (v, v)

/-- Σ z^(2j+1)/(2j+1), with t the next power. -/
def atanhSum (z2 : Nat) : Nat → Nat → Nat → Nat
  | 0, _, _ => 0
  | n + 1, j, t => t / (2 * j + 1) + atanhSum z2 n (j + 1) (t * z2 / fxOne)

/-- log2 a. -/
def Val.log2 : Val → Enclosed
  | .num n m e =>
    if m = 0 then (.inf true, .inf true)
    else if n then (.nan, .nan)
    else
      let k := Nat.log2 m
      if m = 2 ^ k then (Val.ofInt (k + e), Val.ofInt (k + e))
      else
        let z := (m - 2 ^ k) * fxOne / (m + 2 ^ k)
        let ln := 2 * atanhSum (z * z / fxOne) 180 0 z
        let l : Int := (k + e) * fxOne + ln * fxOne / fxLn2
        (fxVal l, fxVal (l + 8192))
  | .inf false => (.inf false, .inf false)
  | _ => (.nan, .nan)

/-- Σ (−1)^j x^(2j+c)/(2j+c)!, with t the next term and k its exponent. -/
def trigSum (x2 : Nat) : Nat → Nat → Nat → Int
  | 0, _, _ => 0
  | n + 1, k, t => t - trigSum x2 n (k + 2) (t * x2 / fxOne / ((k + 1) * (k + 2)))

/-- sin (c = 0) or cos (c = 1) of a number, by quadrant. -/
def trig (c : Nat) (neg : Bool) (m : Nat) (e : Int) : Enclosed :=
  let x := m * 2 ^ (e + 512).toNat
  let k := x / fxHalfPi
  let r := x % fxHalfPi
  let r2 := r * r / fxOne
  let quad := (k + c) % 4
  let v : Int := if quad % 2 = 0 then trigSum r2 80 1 r else trigSum r2 80 0 fxOne
  let v : Int := if 2 ≤ quad then -v else v
  let v : Int := if neg ∧ c = 0 then -v else v
  (fxVal (v - k - 1024), fxVal (v + k + 1024))

def Val.sin : Val → Enclosed
  | .num n m e => if m = 0 then (.num n 0 0, .num n 0 0) else trig 0 n m e
  | _ => (.nan, .nan)

def Val.cos : Val → Enclosed
  | .num n m e => if m = 0 then (.num false 1 0, .num false 1 0) else trig 1 n m e
  | _ => (.nan, .nan)

/-- ENCODE of an enclosed value; an undecided rounding is a free choice between the two (log 20). -/
def Fmt.encodeIn (f : Fmt) (fn x : Nat) (v : Enclosed) (mode : RMode) : Nat :=
  let a := (f.encode v.1 mode true).1
  let b := (f.encode v.2 mode true).1
  if a = b then a else if Config.undecided fn x then a else b

/-! ## Comparison (14 R368, R371) -/

/-- Exact order of two dyadic numbers, −0 equal to +0. -/
def numLt (na : Bool) (ma : Nat) (ea : Int) (nb : Bool) (mb : Nat) (eb : Int) : Bool :=
  let q := min ea eb
  decide (scaled na ma ea q < scaled nb mb eb q)

/-- a < b for values that are not NaN. -/
def Val.lt : Val → Val → Bool
  | .inf x, .inf y => x && !y
  | .inf x, .num _ _ _ => x
  | .num _ _ _, .inf y => !y
  | .num na ma ea, .num nb mb eb => numLt na ma ea nb mb eb
  | _, _ => false

/-- The float conditions (14 R371). -/
def fcondHolds (c : FCond) (a b : Val) : Bool :=
  let un := a.isNan || b.isNan
  match c with
  | .eq => !un && !a.lt b && !b.lt a
  | .ne => un || a.lt b || b.lt a
  | .lt => !un && a.lt b
  | .le => !un && !b.lt a
  | .gt => !un && b.lt a
  | .ge => !un && !a.lt b
  | .un => un
  | .ord => !un

/-- `fmin` and `fmax` of two codes: one operand bit for bit, −0 below +0 (14 R368). -/
def Fmt.minMax (f : Fmt) (isMax : Bool) (x y : Nat) : Nat :=
  let a := f.decode x
  let b := f.decode y
  let below : Bool := a.lt b || (!b.lt a && (f.fields x).1 && !(f.fields y).1)
  if a.isNan ∧ b.isNan then f.nan.getD 0
  else if a.isNan then y
  else if b.isNan then x
  else if below = isMax then y else x

/-- The class mask (14 R370). -/
def Fmt.cls (f : Fmt) (x : Nat) : Nat :=
  let (neg, e, m) := f.fields x
  let bit : Nat :=
    if e = f.top ∧ m ≠ 0 then (if m / 2 ^ (f.mb - 1) % 2 = 0 then 8 else 9)
    else if e = f.top then (if neg then 0 else 7)
    else if e = 0 ∧ m = 0 then (if neg then 3 else 4)
    else if e = 0 then (if neg then 2 else 5)
    else (if neg then 1 else 6)
  2 ^ bit

end Sys2Proof.Machine
end

