-- ==== Sys2Proof/Machine/Conv.lean ====
section
/-! DEFINITION. Elements of every type as exact values and back (02 R61 to R73, R91 to R95; 14 R379), the
quantisation of blocks (02 R63), constants (01 R43), logarithmic arithmetic (02 R69 to R72) and bit streams
(02 R74 to R77). -/

namespace Sys2Proof.Machine

/-! ## Logarithmic formats (02 R67 to R72) -/

/-- The scale of a logarithmic type, in field units per log2 unit (02 R67, R68). -/
def lScale (t : Ty) : Nat := if t = .l8 then 8 else 512
/-- The threshold of 02 R69. -/
def lLimit (t : Ty) : Nat := 2 ^ (t.width - 2)
def lZero (t : Ty) : Nat := 2 ^ (t.width - 2)
def lNar (t : Ty) : Nat := 2 ^ (t.width - 1) + 2 ^ (t.width - 2)

/-- The value of a code: zero, NaR, or ±2^(e/scale). -/
def lDecode (t : Ty) (x : Nat) : Val :=
  let h := 2 ^ (t.width - 1)
  if x = lZero t then Val.zero
  else if x = lNar t then .nan
  else
    let f := x % h
    .lg (decide (h ≤ x)) (if f < h / 2 then f else (f : Int) - h) (lScale t)

/-- An exact field limited by 02 R69: code and events. A flush to zero is an event as a clamp is, in a conversion
too (log 61). -/
def lLimited (t : Ty) (neg : Bool) (e : Int) (nanMode : Bool) : Nat × Nat :=
  let h := 2 ^ (t.width - 1)
  if (lLimit t : Int) ≤ e then
    (if nanMode then lNar t else (if neg then h else 0) + (lLimit t - 1), 1)
  else if e ≤ -(lLimit t : Int) then (lZero t, 1)
  else ((if neg then h else 0) + wrapTo (t.width - 1) e, 0)

/-- PHI (minus = false) and PSI of 02 R71 at scale s. 48 bits of 2^(−d/s) decide the rounding at every d. -/
def lCorr (s : Nat) (minus : Bool) (d : Nat) : Int :=
  let k := if 48 * s < d then 0 else rootBits s (2 ^ (48 * s - d)) 49 0
  let y := if minus then 2 ^ 48 - k else 2 ^ 48 + k
  ((log2Pow y (2 * s) : Int) - 96 * s + 1) / 2

/-- `lmul` and `ldiv` (02 R69, R70; 14 R373). -/
def lMulDiv (t : Ty) (isDiv nanMode : Bool) (x y : Nat) : Nat × Nat :=
  match lDecode t x, lDecode t y with
  | .nan, _ | _, .nan => (lNar t, 0)
  | .lg na ea _, .lg nb eb _ => lLimited t (na != nb) (if isDiv then ea - eb else ea + eb) nanMode
  | _, .num _ _ _ => (if isDiv then lNar t else lZero t, 0)
  | _, _ => (lZero t, 0)

/-- LADD of 02 R72 on codes; `sub` negates the second operand. -/
def lAdd (t : Ty) (sub nanMode : Bool) (x y : Nat) : Nat × Nat :=
  match lDecode t x, lDecode t y with
  | .nan, _ | _, .nan => (lNar t, 0)
  | .lg na ea _, .lg nb eb _ =>
    let nb := nb != sub
    let (neg, big, d) := if ea < eb then (nb, eb, (eb - ea).toNat) else (na, ea, (ea - eb).toNat)
    if na = nb then lLimited t neg (big + lCorr (lScale t) false d) nanMode
    else if d = 0 then (lZero t, 0)
    else lLimited t neg (big + lCorr (lScale t) true d) nanMode
  | .lg _ _ _, _ => (x, 0)
  | _, .lg nb eb _ => lLimited t (nb != sub) eb nanMode
  | _, _ => (lZero t, 0)

/-- log2 |v| in units of 1/(2s), rounded down, and whether it is exact. -/
def logHalves (s : Nat) : Val → Int × Bool
  | .num _ m e => ((log2Pow m (2 * s) : Int) + 2 * s * e, m = 2 ^ Nat.log2 m)
  | .lg _ e sc => (2 * s * e / sc, 2 * s * e % sc = 0)
  | _ => (0, true)

/-- A count of halves rounded to an integer: to nearest even, down, or up. -/
def halvesNear (t : Int × Bool) : Int :=
  if t.1 % 2 = 0 then t.1 / 2
  else if t.2 ∧ t.1 / 2 % 2 = 0 then t.1 / 2
  else t.1 / 2 + 1
def halvesDown (t : Int × Bool) : Int := t.1 / 2
def halvesUp (t : Int × Bool) : Int := if t.1 % 2 = 0 ∧ t.2 then t.1 / 2 else t.1 / 2 + 1

/-- The log field of a magnitude: the mode rounds the magnitude, so RTZ and RDN round the field down
(02 R91; log 21). -/
def lField (s : Nat) (mode : RMode) (v : Val) : Int :=
  let t := logHalves s v
  match mode with
  | .rne => halvesNear t
  | .rtz | .rdn => halvesDown t
  | .rup => halvesUp t

/-! ## Elements as values (02 R91) -/

def t2Val (x : Nat) : Int := if x = 1 then 1 else if x = 3 then -1 else 0

/-- The exact value of an element; z is the zero point of a Z type. -/
def elemVal (t : Ty) (z x : Nat) : Val :=
  match t with
  | .i32 | .n32 | .i16 | .n16 | .i8 | .n8 | .i64 | .n64 => Val.ofInt (intOf t x)
  | .f32 => fmtF32.decode x
  | .bf16 => fmtBf16.decode x
  | .f16 => fmtF16.decode x
  | .e4m3 => fmtE4m3.decode x
  | .e5m2 => fmtE5m2.decode x
  | .e2m1 => fmtE2m1.decode x
  | .mxi8 =>
    let c := intOf .i8 x
    .num (decide (c < 0)) c.natAbs (-6)
  | .z8 | .z4 => Val.ofInt ((x : Int) - z)
  | .l16 | .l8 => lDecode t x
  | .t2 => Val.ofInt (t2Val x)
  | .b1 => Val.ofInt x
  | .e8m0 => if x = 255 then .nan else .num false 1 ((x : Int) - 127)

/-- A finite value times 2^k rounded to an integer. -/
def Val.round (mode : RMode) (k : Int) (v : Val) : Int :=
  match v.dyadic with
  | .num n m e =>
    let r : Int := roundTo mode n m (e + k) 0
    if n then -r else r
  | _ => 0

/-- SAT(round(v × 2^k) + off, lo, hi), and the events; `nanTo` is what NaN gives (02 R91, R92). -/
def satRound (mode : RMode) (k : Int) (off lo hi : Int) (v : Val) : Int × Nat :=
  match v with
  | .nan => (off, 1)
  | .inf neg => (if neg then lo else hi, 1)
  | _ =>
    let r := v.round mode k + off
    (satTo lo hi r, if r < lo ∨ hi < r then 1 else 0)

/-- E8M0 of a value (02 R91, R92). A rounded exponent below -127 gives code 0 and counts in both modes: the table names it for
SAT alone (DESIGN CHOICE, log 61). -/
def e8m0Of (mode : RMode) (nanMode : Bool) : Val → Nat × Nat
  | .nan => (255, 0)
  | .inf neg => (if neg || nanMode then 255 else 254, 1)
  | .num neg m e =>
    if neg || m == 0 then (255, 1) else finish (logHalves 1 (.num false m e))
  | .lg neg e sc => if neg then (255, 1) else finish (logHalves 1 (.lg false e sc))
where
  finish (t : Int × Bool) : Nat × Nat :=
    let r := match mode with
      | .rne => halvesNear t
      | .rtz => if t.1 < 0 then halvesUp t else halvesDown t
      | .rdn => halvesDown t
      | .rup => halvesUp t
    if 127 < r then (if nanMode then 255 else 254, 1)
    else if r < -127 then (0, 1)
    else ((r + 127).toNat, 0)

/-- The code of a value in a type, and the saturation events (02 R91, R92); z is the zero point of a Z type. A zero
gives the E2M1 code 0, as R92's table says, where R60's ENCODE keeps its sign (log 61). -/
def elemOf (t : Ty) (z : Nat) (mode : RMode) (nanMode : Bool) (v : Val) : Nat × Nat :=
  let ints (k off lo hi : Int) : Nat × Nat :=
    let r := satRound mode k off lo hi v
    (wrapTo t.width r.1, r.2)
  match t with
  | .i32 | .n32 | .i16 | .n16 | .i8 | .n8 | .i64 | .n64 => ints 0 0 (tyMin t) (tyMax t)
  | .f32 => fmtF32.encode v mode nanMode
  | .bf16 => fmtBf16.encode v mode nanMode
  | .f16 => fmtF16.encode v mode nanMode
  | .e4m3 => fmtE4m3.encode v mode nanMode
  | .e5m2 => fmtE5m2.encode v mode nanMode
  | .e2m1 => if v.isZero then (0, 0) else fmtE2m1.encode v mode nanMode
  | .mxi8 => ints 6 0 (-128) 127
  | .z8 => ints 0 z 0 255
  | .z4 => ints 0 z 0 15
  | .l16 | .l8 => match v with
    | .nan => (lNar t, 0)
    | .inf neg => lLimited t neg (lLimit t) nanMode
    | .num neg m e =>
      if m = 0 then (lZero t, 0) else lLimited t neg (lField (lScale t) mode (.num neg m e)) nanMode
    | .lg neg e sc => lLimited t neg (lField (lScale t) mode (.lg neg e sc)) nanMode
  | .t2 => ints 0 0 (-1) 1
  | .b1 => match v with
    | .nan => (0, 1)
    | .num _ m _ => (if m = 0 then 0 else 1, 0)
    | _ => (1, 0)
  | .e8m0 => e8m0Of mode nanMode v

/-- A code of the type with a float NaN made canonical (14 R379). -/
def canonElem (t : Ty) (x : Nat) : Nat :=
  match fmtOf t with
  | some f => if (f.decode x).isNan then f.nan.getD x else x
  | none => x

/-- One element converted (02 R91, R92; 14 R379): code and events. -/
def convElem (st dt : Ty) (zs zd : Nat) (mode : RMode) (nanMode : Bool) (x : Nat) : Nat × Nat :=
  if st = dt then (canonElem st x, 0) else elemOf dt zd mode nanMode (elemVal st zs x)

/-- T2 elements with code 0b10 (02 R73). -/
def t2Bad (xs : List Nat) : Nat := (xs.filter (· = 2)).length

/-- The E→L mode (02 R94). -/
def expToL16 (nanMode : Bool) (x : Nat) : Nat × Nat :=
  match fmtF32.decode x with
  | .nan => (lNar .l16, 0)
  | .inf neg => if neg then (lZero .l16, 0) else lLimited .l16 false (lLimit .l16) nanMode
  | .num neg m e =>
    if m = 0 then (0, 0)
    else
      let t : Int := (m * 2 ^ 10 * 2 ^ (min e 40).toNat * fxOne / (fxLn2 * 2 ^ (-e).toNat) : Nat)
      let r := (t + 1) / 2
      lLimited .l16 false (if neg then -r else r) nanMode
  | .lg _ _ _ => (0, 0)

/-! ## Blocks (02 R61, R63) -/

def mxEmax : Ty → Int
  | .e4m3 => 8 | .e5m2 => 15 | .e2m1 => 2 | _ => 0

/-- ⌊log2 |v|⌋ of a finite non-zero value. -/
def floorLog2 : Val → Option Int
  | .num _ m e => if m = 0 then none else some (Nat.log2 m + e)
  | .lg _ e sc => some (e / sc)
  | _ => none

/-- v × 2^k. -/
def Val.scale (k : Int) : Val → Val
  | .num n m e => .num n m (e + k)
  | .lg n e sc => .lg n (e + k * sc) sc
  | v => v

def isSpecial : Val → Bool
  | .nan | .inf _ => true
  | _ => false

/-- An element of MXQUANT: ENCODE, which keeps the sign of a zero, or the MXI8 clamp (02 R63). -/
def mxElem (t : Ty) (mode : RMode) (nanMode : Bool) (v : Val) : Nat × Nat :=
  if t = .e2m1 then fmtE2m1.encode v mode nanMode else elemOf t 0 mode nanMode v

/-- MXQUANT (02 R63): the scale code, the element codes and the events. -/
def mxQuant (t : Ty) (mode : RMode) (nanMode : Bool) (vs : List Val) : Nat × List Nat × Nat :=
  if vs.any isSpecial then (255, vs.map fun _ => 0, 0)
  else
    let xs : Int := match (vs.filterMap floorLog2).max? with
      | none => -127
      | some a => satTo (-127) 127 (a - mxEmax t)
    let qs := vs.map fun v => mxElem t mode nanMode (v.scale (-xs))
    ((xs + 127).toNat, qs.map (·.1), (qs.map (·.2)).foldl (· + ·) 0)

/-- An element of a block with scale code X (02 R61). -/
def mxVal (t : Ty) (scale x : Nat) : Val := if scale = 255 then .nan else (elemVal t 0 x).scale ((scale : Int) - 127)

/-! ## Constants (01 R43) -/

/-- The element code that `#k` supplies. A value E5M2 cannot hold is rounded to nearest even (log 22). -/
def constElem (t : Ty) (k : Nat) : Nat :=
  match t with
  | .z8 | .z4 | .e8m0 | .mxi8 | .t2 | .b1 => k
  | _ => (elemOf t 0 .rne false (Val.ofInt k)).1

/-- The words that `#k` supplies to an operand of the type. -/
def constWords (t : Ty) (k : Nat) : List Word := packElems t (List.replicate (perLane t) (constElem t k))

/-- A typed source operand of one element word or pair. -/
def srcT (t : Ty) (o : Operand) : List Word :=
  match o with
  | .imm k => constWords t k.val
  | _ => []

/-! ## Bit streams (02 R74 to R77) -/

def lfsrStep (taps s : Nat) : Nat := if s % 2 = 1 then s / 2 ^^^ taps else s / 2
def lfsrTaps (j : Nat) : Nat := if j = 0 then 0xB400 else 0xD008

def streamSeed (key x y j : Nat) : Nat :=
  let s := (key ^^^ x * 0x0101 ^^^ y * 0x0013 ^^^ j * 0x1000) % 2 ^ 16
  if s = 0 then 1 else s

/-- The seed advanced by i steps. -/
def lfsrAt (taps : Nat) : Nat → Nat → Nat
  | 0, s => s
  | i + 1, s => lfsrAt taps i (lfsrStep taps s)

/-- Stream bit of magnitude k at LFSR state s, for length 2^n (02 R76). -/
def streamBit (n k s : Nat) : Bool := decide (s / 2 ^ (16 - n) < k)

/-- Positions among the next `len` at which both streams hold 1. -/
def streamOnes (n ka kb : Nat) : Nat → Nat → Nat → Nat
  | 0, _, _ => 0
  | len + 1, sa, sb =>
    (if streamBit n ka sa && streamBit n kb sb then 1 else 0)
      + streamOnes n ka kb len (lfsrStep (lfsrTaps 0) sa) (lfsrStep (lfsrTaps 1) sb)

/-- Magnitude of an I8 as a count of a stream of length 2^n (02 R88, 14 R375). -/
def streamMag (n : Nat) (x : Int) : Nat := x.natAbs * 2 ^ n / 128

/-- The signed count of a stochastic product (02 R77). -/
def streamMul (n key xa ya xb yb : Nat) (a b : Int) : Int :=
  let c := streamOnes n (streamMag n a) (streamMag n b) (2 ^ n) (streamSeed key xa ya 0) (streamSeed key xb yb 1)
  if decide (a < 0) != decide (b < 0) then -(c : Int) else c

end Sys2Proof.Machine
end

