-- ==== Sys2Proof/Machine/Tempo.lean ====
section
/-! DEFINITION. Tempi, refills, the ring revolution, droop alarms and operating classes (10). The slew
boundary and the plies stand in Matrix.lean. -/

namespace Sys2Proof.Machine

/-! ## Drawing a price (10 R244 to R248) -/

/-- Whether the critical order lets the warp draw (10 R248). -/
def Core.mayDraw (c : Core) (w : Nat) : Bool :=
  match c.critical with
  | [] => true
  | h :: _ => h = w

/-- Takes the price from the core's pool; a failed draw waits (10 R246, R247). Drawing ends the warp's
tempo wait and takes it out of the critical order. -/
def drawPrice (s : State) (core w price : Nat) : Option State :=
  if price = 0 then some s
  else
    let c := s.core core
    if c.mayDraw w ∧ price ≤ c.pool then
      some ((s.modCore core fun c => { c with
        pool := c.pool - price
        drawn := c.drawn + price
        demandNow := true
        critical := c.critical.filter (· ≠ w) }).modWarp w fun x => { x with tempoSince := none })
    else none

/-- `withOperands` for an instruction with a price: the causes and waits, `board` the last of them, come first (10 R246),
and an empty active set is still charged (00 R16). -/
def withPriceAfter (board : Except Stop Unit) (s : State) (p : Place) (i : Issue) (g : Guard) (srcs : List Src)
    (dsts : List (Operand × Nat)) (price : Nat) (k : State → LaneMask → Except Stop State) : Except Stop State :=
  match checkRegs p i (srcRegs srcs ++ dsts) with
  | .error e => .error e
  | .ok _ =>
    if activeOf p i g = 0#32 then
      match drawPrice s p.t.core p.key price with
      | none => .error .tempo
      | some s => .ok (s.retire i)
    else withOperands s p i g srcs dsts fun active => match board with
      | .error e => .error e
      | .ok _ => match drawPrice s p.t.core p.key price with
        | none => .error .tempo
        | some s => k s active

def withPrice (s : State) (p : Place) (i : Issue) (g : Guard) (srcs : List Src) (dsts : List (Operand × Nat))
    (price : Nat) (k : State → LaneMask → Except Stop State) : Except Stop State :=
  withPriceAfter (.ok ()) s p i g srcs dsts price k

/-- Inserts a warp by the moment it became critical, then by age (10 R248). -/
def insertCritical (since : Nat → Nat) (w : Nat) : List Nat → List Nat
  | [] => [w]
  | x :: xs => if since w < since x ∨ (since w = since x ∧ w < x) then w :: x :: xs else x :: insertCritical since w xs

/-- WARP_BECOMES_CRITICAL: the tempo wait counter has reached 512 (10 R247, R248). -/
def warpBecomesCritical (w : Nat) (s : State) : State :=
  match s.warps.get? w with
  | none => s
  | some x => match x.tempoSince with
    | none => s
    | some t =>
      let core := s.warpCore w
      if s.coreCc core < t + 512 ∨ (s.core core).critical.contains w then s
      else s.modCore core fun c => { c with
        critical := insertCritical (fun k => ((s.warps.get? k).bind (·.tempoSince)).getD 0) w c.critical }

/-! ## Refill and revolution (10 R241 to R244, R252, R254, R259) -/

/-- Tempi a core of the die receives per refill (10 R259). -/
def dieQuota (t : Thermal) (q : Nat) : Nat :=
  match t with
  | .normal => q
  | .reduced => Nat.max 2 (q / 2)
  | .minimum => 2

/-- POOL_REFILL: the ramp reserve is filled, then each pool of the cluster receives its quota; what would
pass 64 is discarded (10 R244, R252). -/
def poolRefill (die cl : Nat) (s : State) : State :=
  let k := die * 8 + cl
  let q := dieQuota (s.die die).thermal s.power.q
  let s := s.modCluster k fun c => { c with reserve := 64, lastRefill := c.cc s.hc / 16 }
  { s with cores := s.cores.mapV fun n c =>
      if coreCluster n = k then { c with pool := Nat.min 64 (c.pool + q) } else c }

/-- Weight w in half milliwatts and energy E in picojoules per tempo (10 R242). -/
def classWeight2 (cls : BitVec 2) : Nat :=
  match cls.toNat with
  | 0 => 192 | 1 => 329 | 2 => 500 | _ => 771
def classEnergy (cls : BitVec 2) : Nat :=
  match cls.toNat with
  | 0 => 2560 | 1 => 3290 | 2 => 4000 | _ => 5140

/-- The energy licensed in this revolution, in picojoules: the tempi drawn from the pools, and the fillers (10 R241, R242,
R252). -/
def licensedNow (s : State) : Nat :=
  (s.cores.map fun kc => kc.2.drawn * classEnergy (s.cluster (coreCluster kc.1)).cls).foldl (· + ·) 0
    + (s.clusters.map fun kc => kc.2.filled * classEnergy kc.2.cls).foldl (· + ·) 0

/-- The allowance A = 3,000 W − B over n revolutions of 128 ns, in milliwatts times 128 n: B is the package power less the
power of the energy licensed in them (10 R241). -/
def allowance (powerMw : Nat) (licensed : List Nat) : Int :=
  (3000000 - (powerMw : Int)) * (128 * licensed.length) + ((licensed.foldl (· + ·) 0 : Nat) : Int)

/-- The quota of an allowance a / d and demand W, the latter in half milliwatts (10 R243). -/
def quota (a : Int) (d w2 : Nat) : Nat :=
  if w2 = 0 then 64 else Nat.max 2 (Nat.min 64 ((2 * a).toNat / (w2 * d)))

/-- Thermal level from T in units of 0.125 °C and the previous level (10 R259). -/
def thermalOf (prev : Thermal) (t : Int) : Thermal :=
  if 920 ≤ t then .minimum
  else if 800 ≤ t then .reduced
  else if 760 ≤ t then (if prev = .normal then .normal else .reduced)
  else .normal

/-- A die over budget: licensed energy above its share by more than 5 % (10 R254). -/
def dieOver (s : State) (d : Nat) : Bool :=
  let q := dieQuota (s.die d).thermal s.power.q
  let cs := s.cores.filter fun kc => coreDie kc.1 = d
  let used := (cs.map fun kc => kc.2.drawn * classEnergy (s.cluster (coreCluster kc.1)).cls).foldl (· + ·) 0
  let share := (cs.map fun kc =>
    if kc.2.demandPrev then q * classWeight2 (s.cluster (coreCluster kc.1)).cls * 64 else 0).foldl (· + ·) 0
  105 * share < 100 * used

/-- REVOLUTION: every 256 hc the power manager sets the allowance, the quota and the thermal levels
(10 R241, R243, R254, R259). -/
def revolution (r : RevReading) (s : State) : State :=
  let w2 : Nat := (s.cores.map fun kc =>
    if kc.2.demandNow then classWeight2 (s.cluster (coreCluster kc.1)).cls else 0).foldl (· + ·) 0
  let licensed := (licensedNow s :: s.power.licensed).take 8
  let a := allowance r.powerMw licensed
  let d := 128 * licensed.length
  let dies := (List.range 12).foldl (fun (t : Tab Die) d =>
    let x := s.die d
    t.put d { x with overBudget := dieOver s d, thermal := thermalOf x.thermal (r.dieTemp.getD d 0) }) s.dies
  let hot := (List.range 12).filter fun d => (dies.getD d Die.reset).thermal = .minimum
  { s with
    dies := dies
    power := { q := quota a d w2, lastRev := s.hc / 256, licensed := licensed }
    clusters := s.clusters.mapV fun _ c => { c with filled := 0 }
    counters := if a < ((w2 * d : Nat) : Int) then { s.counters with pwrflr := s.counters.pwrflr + 1 } else s.counters
    cores := s.cores.mapV fun _ c => { c with demandPrev := c.demandNow, demandNow := false, drawn := 0 }
    errs := { s.errs with events := s.errs.events ++ hot.map fun d => (0, d) } }

/-! ## Droop and rationing (10 R253, R254, R258) -/

/-- DROOP_ALARM: counted by the cluster and remembered for the rationing (10 R258). -/
def droopAlarm (die cl : Nat) (s : State) : State :=
  s.modCluster (die * 8 + cl) fun c => { c with droops := c.droops + 1#16, lastDroop := some (c.cc s.hc) }

/-- DROOP_RATIONING_ENDS: 256 cc after the last alarm (10 R254). -/
def droopRationingEnds (die cl : Nat) (s : State) : State :=
  match (s.cluster (die * 8 + cl)).lastDroop with
  | none => s
  | some t =>
    if t + 256 ≤ s.clusterCc (die * 8 + cl) then s.modCluster (die * 8 + cl) fun c => { c with lastDroop := none }
    else s

/-- Time passes: in each cc of a cluster its cores give their grants to the instructions that wait for them, by the G in
force (10 R253, R254). -/
def State.elapse (n : Nat) (s : State) : State :=
  let t := { s with hc := s.hc + n }
  if s.cores.all fun kc => kc.2.grants.queue = [] then t
  else { t with cores := s.cores.mapV fun k c => c.gather (t.coreCc k) (grantLimit s k) (t.coreCc k - s.coreCc k) }

/-! ## Operating classes (10 R255 to R257) -/

/-- A team is resident in the cluster. -/
def clusterBusy (s : State) (cl : Nat) : Bool :=
  s.teams.any fun kt => coreCluster kt.2.core = cl &&
    (s.gangs.get? kt.2.gang).any fun g => g.st ≠ .evicted && !g.freed

/-- The quiesce point: no team resident, every outstanding counter slot zero, no return on its way and no asynchronous
operation of the cluster in flight (10 R256). -/
def clusterQuiet (s : State) (cl : Nat) : Bool :=
  !clusterBusy s cl
    && (s.cores.all fun kc => coreCluster kc.1 ≠ cl || ((kc.2.out.all fun gc => gc.2 = 0) && decide (kc.2.outstandingGens = [])))
    && s.ops.all fun ko => coreCluster ko.2.core ≠ cl

/-- QUIESCE_POINT: a Draining cluster that is quiet starts Ramping (10 R256). -/
def quiescePoint (die cl : Nat) (s : State) : State :=
  let k := die * 8 + cl
  if (s.cluster k).st = .draining ∧ clusterQuiet s k then
    s.modCluster k fun c => { c with st := .ramping, rampAt := s.hc }
  else s

/-- The voltage of a class, in mV (10 R255). -/
def classVolt (cls : BitVec 2) : Nat :=
  match cls.toNat with
  | 0 => 600 | 1 => 680 | 2 => 750 | _ => 850

/-- A new clock from a hub cycle on; the cycle counter goes on (01 R42). -/
def Cluster.setClock (c : Cluster) (hc : Nat) (cls : BitVec 2) : Cluster :=
  if c.clock = cls then c else { c with ccBase := c.cc hc, hcBase := hc, clock := cls }

/-- Hub cycles of the voltage's way at 10 mV/µs, and of the clock relock of 2 µs (10 R257). -/
def voltTime (a b : BitVec 2) : Nat := 200 * ((classVolt a - classVolt b) + (classVolt b - classVolt a))
def relockTime : Nat := 4000

/-- A ramp is over: the cluster stands at its target; a pending target that differs starts a new ramp (10 R257). -/
def Cluster.rampDone (c : Cluster) (hc : Nat) : Cluster :=
  let r := { c with cls := c.target, volt := classVolt c.target, pend := none }
  match c.pend with
  | none => { r with st := .pooled }
  | some t => if t = c.target then { r with st := .pooled } else { r with target := t, rampAt := hc }

/-- RAMP_ENDS: a ramp goes on (10 R256, R257). Upward the voltage rises before the clock, downward the clock falls before
the voltage; behind both the ramp is over. -/
def rampEnds (die cl : Nat) (s : State) : State :=
  let k := die * 8 + cl
  let c := s.cluster k
  let way := voltTime c.cls c.target
  let up := classVolt c.cls < classVolt c.target
  let clockAt := c.rampAt + relockTime + (if up then way else 0)
  if c.st ≠ .ramping then s
  else if c.rampAt + relockTime + way ≤ s.hc then
    s.modCluster k fun c => (c.setClock clockAt c.target).rampDone (c.rampAt + relockTime + way)
  else if up ∧ c.rampAt + way ≤ s.hc then s.modCluster k fun c => { c with volt := classVolt c.target }
  else if ¬ up ∧ clockAt ≤ s.hc then s.modCluster k fun c => c.setClock clockAt c.target
  else s

/-- A new target for a cluster (10 R255 to R257). -/
def setTarget (s : State) (k : Nat) (t : BitVec 2) : State :=
  let c := s.cluster k
  match c.st with
  | .pooled => s.modCluster k fun c => if t = c.cls then c else { c with st := .draining, target := t }
  | .draining => s.modCluster k fun c => { c with target := t, st := if t = c.cls then .pooled else .draining }
  | .ramping =>
    let s := if c.pend = none then s else
      { s with counters := { s.counters with pwrcoal := s.counters.pwrcoal + 1 } }
    s.modCluster k fun c => { c with pend := some t }

end Sys2Proof.Machine
end

