-- ==== Sys2Proof/Machine/Alu.lean ====
section
/-! DEFINITION. The shape shared by the instructions that compute in each lane: sources of a type, the uniform
form (01 R38), counters of events (02 R89), results to a register or port, or to a predicate (13 R336). -/

namespace Sys2Proof.Machine

/-- A source of one element word or pair of the type (01 R40, R43). -/
def srcOf (t : Ty) (o : Operand) : Src := ⟨o, t.regs, srcT t o⟩

/-- The register pair of a kind X field as a source (12 R311). -/
def srcPair (x : Pair) : Src := ⟨logRegs.pairOp x, 2, []⟩

/-- Events of the per-core counters of 02 R89. -/
structure Counts where (lsat t2inv zwrap cvsat : Nat)
  deriving DecidableEq, Repr

def Counts.none : Counts := ⟨0, 0, 0, 0⟩
def Counts.add (a b : Counts) : Counts :=
  ⟨a.lsat + b.lsat, a.t2inv + b.t2inv, a.zwrap + b.zwrap, a.cvsat + b.cvsat⟩

/-- Adds events to a core's counters, which wrap. -/
def State.count (s : State) (core : Nat) (n : Counts) : State :=
  if n = Counts.none then s
  else s.modCore core fun c => { c with
    lsat := c.lsat + BitVec.ofNat 32 n.lsat
    t2inv := c.t2inv + BitVec.ofNat 32 n.t2inv
    zwrap := c.zwrap + BitVec.ofNat 32 n.zwrap
    cvsat := c.cvsat + BitVec.ofNat 32 n.cvsat }

/-- The lanes whose operands an instruction reads: with U = 1 only the lowest active one (01 R38). -/
def readLanes (h : Hd) (active : LaneMask) : LaneMask := if h.u then maskOf [lowLane active] else active

/-- The lane whose result lane l receives. -/
def laneFor (h : Hd) (active : LaneMask) (l : Nat) : Nat := if h.u then lowLane active else l

/-- What a lane-wise computation gives in a lane: words and events. -/
abbrev LaneFn := Place → Nat → List (List Word) → List Word × Counts

/-- The next state of a lane-wise instruction with the given active lanes. -/
def aluResult (s : State) (p : Place) (i : Issue) (h : Hd) (srcs : List Src) (d : Operand) (f : LaneFn)
    (active : LaneMask) : State :=
  let out (l : Nat) := f p (laneFor h active l) (srcVals s p (laneFor h active l) [] srcs)
  let rd := readLanes h active
  let n := (lanesOf rd).foldl (fun n l => n.add (out l).2) Counts.none
  (((s.consume p rd srcs).count p.t.core n).writeOp p active d fun l => (out l).1).retire i

/-- A lane-wise instruction with a price, a destination of nd registers and a result per lane. -/
def runAlu (price : Nat) (h : Hd) (srcs : List Src) (d : Operand) (nd : Nat) (f : LaneFn) (s : State) :
    Host.Outcome State Fault Refusal :=
  settle s fun p i => withPrice s p i h.g srcs [(d, nd)] price fun s active =>
    .ok (aluResult s p i h srcs d f active)

/-- The next state of a lane-wise test. -/
def predResult (s : State) (p : Place) (i : Issue) (h : Hd) (srcs : List Src) (pd : Fin 8)
    (f : Place → Nat → List (List Word) → Bool) (active : LaneMask) : State :=
  let out (l : Nat) := f p (laneFor h active l) (srcVals s p (laneFor h active l) [] srcs)
  let m := maskOf ((lanesOf active).filter out)
  ((s.consume p (readLanes h active) srcs).modWarp p.key fun w => w.writeP pd active m).retire i

/-- A lane-wise test whose result goes to a predicate (13 R336). -/
def runTest (h : Hd) (srcs : List Src) (pd : Fin 8) (f : Place → Nat → List (List Word) → Bool) (s : State) :
    Host.Outcome State Fault Refusal :=
  settle s fun p i => withOperands s p i h.g srcs [] fun active => .ok (predResult s p i h srcs pd f active)

/-- A computation without events. -/
def pureFn (f : List (List Word) → List Word) : LaneFn := fun _ _ vs => (f vs, Counts.none)

/-- Element-wise operations on one, two and three operands (13 R334). -/
def map1 (t : Ty) (f : Nat → Nat) (vs : List (List Word)) : List Word :=
  packElems t ((elemsOf t (vs.getD 0 [])).map f)
def map2 (t : Ty) (f : Nat → Nat → Nat) (vs : List (List Word)) : List Word :=
  packElems t (List.zipWith f (elemsOf t (vs.getD 0 [])) (elemsOf t (vs.getD 1 [])))
def map3 (t : Ty) (f : Nat → Nat → Nat → Nat) (vs : List (List Word)) : List Word :=
  packElems t (List.zipWith (fun ab c => f ab.1 ab.2 c)
    (List.zip (elemsOf t (vs.getD 0 [])) (elemsOf t (vs.getD 1 []))) (elemsOf t (vs.getD 2 [])))

end Sys2Proof.Machine
end

