-- ==== Sys2Proof/Machine/Memory.lean ====
section
/-! DEFINITION. Memory instructions: the checks of their addresses (15 R387), what one lane's access does
(15 R390 to R395, R400), the operand log (06 R168, R169), and the issue of an access for every active lane. -/

namespace Sys2Proof.Machine

/-! ## Elements (15 R386, R392) -/

def elemBytes (t : Ty) : Nat := t.width / 8

/-- A loaded element in its destination words: sign-extended for I8 and I16, zero-extended otherwise. -/
def extendElem (t : Ty) (n : Nat) : List Word :=
  if t.wide then natWords 2 n
  else if t.signed then [BitVec.ofInt 32 (BitVec.ofNat t.width n).toInt]
  else [BitVec.ofNat 32 n]

/-- The poison pattern of a type. -/
def poisonWords (t : Ty) : List Word :=
  match t with
  | .f32 => [0x7FC00000#32]
  | .bf16 => [0x7FC0#32]
  | .f16 => [0x7E00#32]
  | t => extendElem t (2 ^ t.width - 1)

/-- The bytes a store takes from its source words. -/
def storeBytesOf (t : Ty) (v : Nat) : List Byte := bytesLE (elemBytes t) v

/-! ## The instructions of one address per lane -/

inductive MemFn
  | load (poll : Bool) | store | rmw (f : RmwFn) | cas | ldr | stc | sig
  deriving DecidableEq, Repr

/-- A memory instruction: guard, function, type, order, address, value operands, destination; `low` is that of
`ldu` and `stu`, which access for the lowest active lane alone. -/
structure MemOp where
  g : Guard
  fn : MemFn
  ty : Ty
  ord : MOrd
  x : Pair
  off : BitVec 12
  vals : List Operand
  d : Option Operand
  low : Bool
  deriving DecidableEq, Repr

def ldOp (x : LdF) (fn : MemFn) (low : Bool) : MemOp := ⟨x.g, fn, x.ty, x.ord, x.x, x.off, [], some x.d, low⟩
def stOp (x : StF) (low : Bool) : MemOp := ⟨x.g, .store, x.ty, x.ord, x.x, x.off, [x.b], none, low⟩
def atomOp (x : AtomF) (fn : MemFn) : MemOp := ⟨x.g, fn, x.ty, x.ord, x.x, x.off, [x.b], some x.d, false⟩
def casOp (x : CasF) : MemOp := ⟨x.g, .cas, x.ty, x.ord, x.x, x.off, [x.b, x.c], some x.d, false⟩
def sigOp (x : SigF) : MemOp := ⟨x.g, .sig, .n64, x.ord, x.x, x.off, [x.v], none, false⟩

def memOpOf : Instr → Option MemOp
  | .ld x => some (ldOp x (.load false) false)
  | .ldPoll x => some (ldOp x (.load true) false)
  | .ldu x => some (ldOp x (.load false) true)
  | .ldr x => some (ldOp x .ldr false)
  | .st x => some (stOp x false)
  | .stu x => some (stOp x true)
  | .atomAdd x => some (atomOp x (.rmw .add))
  | .atomSub x => some (atomOp x (.rmw .sub))
  | .atomMin x => some (atomOp x (.rmw .min))
  | .atomMax x => some (atomOp x (.rmw .max))
  | .atomAnd x => some (atomOp x (.rmw .and))
  | .atomOr x => some (atomOp x (.rmw .or))
  | .atomXor x => some (atomOp x (.rmw .xor))
  | .atomExch x => some (atomOp x (.rmw .exch))
  | .stc x => some (atomOp x .stc)
  | .cas x => some (casOp x)
  | .sig x => some (sigOp x)
  | _ => none

namespace MemOp
def bytes (o : MemOp) : Nat := elemBytes o.ty
/-- Permissions of the access (08 R200). -/
def acc (o : MemOp) : AccKind :=
  match o.fn with
  | .load _ | .ldr => .load
  | .store | .stc => .store
  | .rmw _ | .cas | .sig => .atomic
/-- What a region must admit (15 R388). -/
def need (o : MemOp) : MemAcc :=
  match o.fn with
  | .load poll => .load (poll || o.ord != .plain)
  | .store => .store (o.ord != .plain)
  | _ => .rmw
def writes (o : MemOp) : Bool :=
  match o.fn with
  | .load _ | .ldr => false
  | _ => true
/-- Registers of the destination: one for `stc` (15 R395). -/
def dregs (o : MemOp) : Nat := if o.fn = .stc then 1 else o.ty.regs
def addrSrc (o : MemOp) : Src := srcPair o.x
def srcs (o : MemOp) : List Src := o.addrSrc :: o.vals.map (srcOf o.ty)
def dsts (o : MemOp) : List (Operand × Nat) := o.d.toList.map fun d => (d, o.dregs)
/-- The lanes that access: the lowest active one for `ldu` and `stu`. -/
def lanes (o : MemOp) (active : LaneMask) : LaneMask := if o.low then maskOf [lowLane active] else active
/-- The lanes that complete with lane l. -/
def fin (o : MemOp) (active : LaneMask) (l : Nat) : LaneMask := if o.low then active else 1#32 <<< l
end MemOp

/-- ADDR(lane) (15 R386). -/
def memAddr (x : List Word) (off : BitVec 12) : DWord := BitVec.ofNat 64 (wordsNat x) + off.signExtend 64

/-- The values an instruction holds for one lane: its address and its value operands. -/
structure LaneVals where
  va : DWord
  b : DWord
  c : DWord
  deriving DecidableEq, Repr

def MemOp.valsOf (o : MemOp) (s : State) (p : Place) (lane : Nat) : LaneVals :=
  let vs := srcVals s p lane [] o.srcs
  ⟨memAddr (vs.getD 0 []) o.off, BitVec.ofNat 64 (wordsNat (vs.getD 1 [])), BitVec.ofNat 64 (wordsNat (vs.getD 2 []))⟩

/-! ## One lane's access -/

/-- How a lane's access ends: performed with words for its destination; waiting on a page fault; waiting as a
stall; or pinning the warp. -/
inductive LaneRes
  | done (s : State) (ws : List Word)
  | fault (s : State) (f : Nat × Word)
  | wait (s : State)
  | pin (s : State) (cause : Nat)

def State.demote (s : State) (w : Nat) (m : LaneMask) : State := s.modWarp w fun x => { x with demoted := x.demoted ||| m }

/-- A poisoned load counts (18 R449). -/
def State.poisoned (s : State) (p : Place) (n : Nat) : State := s.addPoison p.t.core p.g.grid n

/-- The region mode of an address, and the position of the storing team. -/
def Place.spotOf (p : Place) (va : Nat) : Nat × Nat := (((regionOf p.gr.regions p.g.num va).map (·.2)).getD 4, p.t.pos)

/-- A lane holds a reservation on a line (11 R288): no more than 512 cc old. -/
def State.reserved (s : State) (p : Place) (lane line : Nat) : Bool :=
  ((s.warps.get? p.key).bind fun w => w.resv.get? lane).any fun r => decide (r.line = line) && s.coreCc p.t.core < r.cc + 512

/-- The access of one lane whose translation has arrived (15 R390 to R395, R400). An `stc` whose reservation holds answers 0 also
when its store cannot be routed and is discarded: 09 R232 gives it no other result (DESIGN CHOICE, log 30). -/
def MemOp.perform (o : MemOp) (s : State) (p : Place) (lane : Nat) (v : LaneVals) (x : Xlat) : LaneRes :=
  let n := o.bytes
  let line := x.line
  let write (s : State) (val : Nat) : State :=
    s.writeAt p.gr.ctx (some (p.key, lane)) p.gid (p.spotOf v.va.toNat) x (bytesLE n val)
  let lost := s.unreachable x.pkg
  let read (k : State → Nat → LaneRes) : LaneRes :=
    match s.readAt p.gr.ctx x n with
    | (s, .bytes bs) => k s (natLE bs)
    | (s, .poison) => .done (s.poisoned p 1) (poisonWords o.ty)
    | (s, .denied) => .pin s pinAct
  let b := v.b.toNat % 2 ^ o.ty.width
  match o.fn with
  | .load _ => read fun s old => .done s (extendElem o.ty old)
  | .ldr =>
    let s := s.modWarp p.key fun w => { w with resv := w.resv.put lane ⟨line, s.coreCc p.t.core⟩ }
    match s.readAt p.gr.ctx x n with
    | (s, .bytes bs) => .done s (extendElem o.ty (natLE bs))
    | (s, .poison) => .done (s.poisoned p 1) (poisonWords o.ty)
    | (s, .denied) => .pin s pinAct
  | .store => .done (write s b) []
  | .rmw f =>
    if lost then .done (s.unrouted p.gr.ctx).tick.tick (natWords o.ty.regs (pairOf (Config.freeWord s.fresh) (Config.freeWord (s.fresh + 1))).toNat)
    else if s.linePoisoned x.loc then .done (s.poisoned p 1) (poisonWords o.ty)
    else
      let old := natLE (s.memRead x.loc n)
      .done (write s (rmwEval f o.ty old b)) (extendElem o.ty old)
  | .cas =>
    let c := v.c.toNat % 2 ^ o.ty.width
    if lost then
      let ws := natWords o.ty.regs (pairOf (Config.freeWord s.fresh) (Config.freeWord (s.fresh + 1))).toNat
      let s := (s.unrouted p.gr.ctx).tick.tick
      .done (if wordsNat ws = b then s else s.demote p.key (1#32 <<< lane)) ws
    else if s.linePoisoned x.loc then .done ((s.poisoned p 1).demote p.key (1#32 <<< lane)) (poisonWords o.ty)
    else
      let old := natLE (s.memRead x.loc n)
      .done (if old = b then write s c else s.demote p.key (1#32 <<< lane)) (extendElem o.ty old)
  | .stc =>
    let ok := s.reserved p lane line && !s.linePoisoned x.loc
    let s := if ok then write s b else s.demote p.key (1#32 <<< lane)
    .done (s.modWarp p.key fun w => { w with resv := w.resv.del lane }) [if ok then 0#32 else 1#32]
  | .sig =>
    if lost then .done (s.unrouted p.gr.ctx) []
    else if s.linePoisoned x.loc then .done (s.poisoned p 1) []
    else .done (hitWatch (write s ((natLE (s.memRead x.loc n) + b) % 2 ^ 64)) x.loc) []

/-- The translation of a lane's access and its checks as it arrives (15 R387), then the access. Nothing passes while no
link of the die works (09 R217). -/
def accessLane (s : State) (p : Place) (acc : AccKind) (writes : Bool) (va : DWord) (k : State → Xlat → LaneRes) : LaneRes :=
  if s.dieCut (coreDie p.t.core) then .wait s
  else match translate s (coreTlbs p.t.core) p.gr.ctx va.toNat acc with
  | .error (kind, l) => match joinFault s (coreDie p.t.core) p.gr.ctx va acc kind l p.g.grid with
    | some (s, f) => .fault s (coreDie p.t.core, f)
    | none => .wait s
  | .ok (s, x) =>
    if writes && x.cmp then .pin s pinCompress
    else if s.surfLocked p.gr.ctx x.surf then .wait s
    else k s x

def MemOp.lane (o : MemOp) (s : State) (p : Place) (l : Nat) (v : LaneVals) : LaneRes :=
  accessLane s p o.acc o.writes v.va fun s x => o.perform s p l v x

/-- The words of a result that no younger instruction has superseded in a lane, with their places (06 R168). -/
def keptWords (dead : Tab LaneMask) (lane : Nat) (ws : List Word) : List (Word × Nat) :=
  ws.zipIdx.filter fun xj => !(dead.getD xj.2 0#32).getLsbD lane

/-- A lane's result reaches the destination: its own element of a vector register, or, from the lowest active
lane, the uniform register (15 R389); every active lane's for `ldu`. -/
def writeLane (s : State) (p : Place) (d : Option Operand) (active fin : LaneMask) (dead : Tab LaneMask) (l : Nat)
    (ws : List Word) : State :=
  match d with
  | some (.v r) => s.modWarp p.key fun w => (lanesOf fin).foldl (fun w k =>
      (keptWords dead k ws).foldl (fun w xj => w.setV (r.val + xj.2) k xj.1) w) w
  | some (.s r) => if l = lowLane active then s.modWarp p.key fun w =>
      (keptWords dead l ws).foldl (fun w xj => w.setU (r.val + xj.2) xj.1) w else s
  | _ => s

/-! ## Checks of addresses (15 R387; 06 R176) -/

/-- What the checks of an address find in one lane. -/
structure AddrChk where
  lane : Nat
  va : DWord
  region : Bool
  align : Bool
  lock : Bool
  deriving DecidableEq, Repr

def chkMask (f : AddrChk → Bool) (cs : List AddrChk) : LaneMask := maskOf ((cs.filter f).map (·.lane))
def chkAddr (f : AddrChk → Bool) (cs : List AddrChk) : DWord := ((cs.find? f).map (·.va)).getD 0#64

/-- P-REGION of any lane. -/
def checkRegion (cs : List AddrChk) : Except Stop Unit :=
  if cs.all (·.region) then .ok () else .error (.pin pinRegion (chkAddr (fun c => !c.region) cs))

/-- ALIGN, then RANGELOCK, of the lanes that raise it. -/
def checkAlignLock (cs : List AddrChk) : Except Stop Unit :=
  let bad (c : AddrChk) : Bool := !c.align
  if chkMask bad cs ≠ 0#32 then .error (.trap .align 0 (chkMask bad cs) (chkAddr bad cs))
  else if chkMask (·.lock) cs ≠ 0#32 then .error (.trap .rangelock 0 (chkMask (·.lock) cs) (chkAddr (·.lock) cs))
  else .ok ()

/-- The lanes whose address is known: no empty future, no incomplete entry and no arrival stands behind it, and
its ports hold their entries. -/
def knownLanes (s : State) (p : Place) (i : Issue) (active : LaneMask) (srcs addr : List Src) : LaneMask :=
  let regs := srcRegs addr
  let futs := regs.flatMap fun x => futsOf x.1 x.2
  if futs.any (fun k => p.w.fut.has k.val) then 0#32
  else match checkLog p i active regs [], checkArv s p regs with
    | .ok _, .ok _ => maskOf ((lanesOf active).filter fun l => (srcPorts addr).all fun q =>
        portCount q srcs ≤ (p.w.getFifo q l).q.length)
    | _, _ => 0#32

/-- The frame of a memory instruction: REGNUM, an empty active set, then the causes of its addresses in the
lanes where they are known ahead of P-PORT, PORTDEAD and FUTDEAD, the waits, and the effect. -/
def withAddress (s : State) (p : Place) (i : Issue) (g : Guard) (srcs addr : List Src)
    (dsts : List (Operand × Nat)) (lanes : LaneMask → LaneMask) (chk : Nat → AddrChk)
    (k : LaneMask → Except Stop State) : Except Stop State :=
  match checkRegs p i (srcRegs srcs ++ dsts) with
  | .error e => .error e
  | .ok _ =>
    let active := activeOf p i g
    let checks (_ : Unit) : List AddrChk :=
      (lanesOf (lanes active &&& knownLanes s p i active srcs addr)).map chk
    if active = 0#32 then .ok (s.retire i)
    else match checkBound p (srcs.map (·.o) ++ dsts.map (·.1)) with
    | .error e => match checkRegion (checks ()) with
      | .error e => .error e
      | .ok _ => .error e
    | .ok _ => match checkWaits s p i active srcs dsts with
      | .error (.trap c sub m v) => (match checkRegion (checks ()) with
        | .error e => .error e
        | .ok _ => match checkAlignLock (checks ()) with
          | .error e => .error e
          | .ok _ => .error (.trap c sub m v))
      | .error e => .error e
      | .ok _ =>
        let cs := (lanesOf (lanes active)).map chk
        match checkRegion cs with
        | .error e => .error e
        | .ok _ => match checkAlignLock cs with
          | .error e => .error e
          | .ok _ => (k active).map (supersedeLog p i active dsts)

/-- The translations that arrive for lanes and addresses, with the state their walks leave (08 R199). -/
def walkLanes (p : Place) (acc : AccKind) : List (Nat × DWord) → State → State × List (Nat × DWord × Xlat)
  | [], s => (s, [])
  | lv :: ls, s => match translate s (coreTlbs p.t.core) p.gr.ctx lv.2.toNat acc with
    | .ok (s, x) => ((walkLanes p acc ls s).1, (lv.1, lv.2, x) :: (walkLanes p acc ls s).2)
    | .error _ => walkLanes p acc ls s

/-- P-COMPRESS, then the RANGELOCK of a locked surface, over the lanes whose translation has arrived, before
any performs (15 R387). -/
def checkArrived (s : State) (p : Place) (acc : AccKind) (writes : Bool) (ls : List (Nat × DWord)) : Except Stop Unit :=
  let xs := (walkLanes p acc ls s).2
  match xs.find? fun q => writes && q.2.2.cmp with
  | some q => .error (.pin pinCompress q.2.1)
  | none =>
    let bad := xs.filter fun q => s.surfLocked p.gr.ctx q.2.2.surf
    match bad with
    | [] => .ok ()
    | q :: _ => .error (.trap .rangelock 0 (maskOf (bad.map (·.1))) q.2.1)

/-- An access that its translations stop takes the stop in the state that the walks leave (08 R199). -/
def afterArrived (s : State) (p : Place) (i : Issue) (acc : AccKind) (writes : Bool) (ls : List (Nat × DWord))
    (k : Unit → Except Stop State) : Except Stop State :=
  match checkArrived s p acc writes ls with
  | .error e => .ok (applyStop (walkLanes p acc ls s).1 p i e)
  | .ok _ => k ()

/-- Two lanes' accesses of n bytes meet: in their addresses, or in the locations that their translations give. -/
def sameSpot (s : State) (p : Place) (acc : AccKind) (n : Nat) (a b : DWord) : Bool :=
  let loc (va : DWord) : Option Nat := match translate s (coreTlbs p.t.core) p.gr.ctx va.toNat acc with
    | .ok (_, x) => some x.loc
    | .error _ => none
  rangesMeet a.toNat n (b.toNat, n) || match loc a, loc b with
    | some x, some y => rangesMeet x n (y, n)
    | _, _ => false

/-- The lanes of `go` that no lower waiting lane of the instruction precedes at their location (11 R276). -/
def laneOrder (same : Nat → Nat → Bool) (ls go : List Nat) : List Nat :=
  let held := ls.filter fun l => !go.contains l
  if held = [] then go else go.filter fun l => !held.any fun k => decide (k < l) && same k l

/-! ## The operand log (06 R168, R169) -/

/-- The entry brings data back, which carries the warp slot's generation (01 R51). -/
def isData : Instr → Bool
  | .ld _ | .ldPoll _ | .ldu _ | .ldr _ | .rld _ | .tld _ | .mmas _ => true
  | _ => false

/-- The entry ends with a return: data, a fence, or the wait of a `sigw`. The others are stores and
read-modify-writes. -/
def isReturn : Instr → Bool
  | .ld _ | .ldPoll _ | .ldu _ | .ldr _ | .rld _ | .tld _ | .mmas _ | .fence _ | .sigw _ => true
  | _ => false

/-- Lanes of an entry that nothing holds back: no page fault, no pin, no older access. -/
def LogEntry.ready (e : LogEntry) (log : Tab LogEntry) (k : Nat) : LaneMask :=
  if e.pinned then 0#32
  else
    let older := log.filter fun ke => ke.1 < k
    maskOf ((lanesOf (e.active &&& ~~~ e.done)).filter fun l =>
      !e.faults.has l && !behindOlder older e.instr (fun l => e.addr.getD l 0#64) l)

/-- A warp loses its allotment: the returns in flight for it still carry its generation (01 R51, R52). -/
def State.strand (s : State) (w : Nat) : State :=
  match s.warps.get? w with
  | none => s
  | some x =>
    let n := (x.log.filter fun ke => isData ke.2.instr && decide (ke.2.ready x.log ke.1 ≠ 0#32)).length
    if n = 0 then s
    else s.modCore (s.warpCore w) fun c => { c with outstandingGens := c.outstandingGens ++ List.replicate n (x.slot, x.gen) }

/-- The index of a new entry: above every entry in use, so that the log stays in program order. -/
def Warp.nextEntry (w : Warp) : Nat := (w.log.getLast?.map (·.1 + 1)).getD 0

/-- The first of the 8 places of the log that is free (06 R168, R174). -/
def Warp.freeSlot (w : Warp) : Nat :=
  ((List.range 8).find? fun k => w.log.all fun ke => ke.2.slot ≠ k).getD 0

/-- The log is full, or an older fence of the lanes is not yet done: the instruction does not issue (06 R160, R168,
15 R398). -/
def checkEntry (p : Place) (i : Issue) (active : LaneMask) : Except Stop Unit :=
  if 8 ≤ p.w.log.length then .error .stall
  else if fencePending isFence p.w active then checkDone p i active
  else .ok ()

/-- What a run over lanes has done: the state, the lanes completed, the faults joined, and a pin. -/
structure LaneRun where
  s : State
  done : LaneMask
  faults : Tab (Nat × Word)
  pin : Option (Nat × DWord)

/-- One lane of a run. -/
def LaneRun.step (r : LaneRun) (p : Place) (d : Option Operand) (active fin : LaneMask) (dead : Tab LaneMask) (l : Nat)
    (va : DWord) (res : LaneRes) : LaneRun :=
  match res with
  | .done s ws => { r with s := writeLane s p d active fin dead l ws, done := r.done ||| fin }
  | .fault s f => { r with s := s, faults := r.faults.put l f }
  | .wait s => { r with s := s }
  | .pin s c => { r with s := s, pin := r.pin.getD (c, va) |> some }

/-- The records of the entries that a run of lanes has taken, written when every lane has attached (08 R206). -/
def LaneRun.emit (r : LaneRun) (ls : List Nat) : LaneRun :=
  if ls.any r.faults.has then { r with s := emitFaults r.s } else r

/-- What is left incomplete after an issue enters the log; a pin stands in that entry; the path moves on. -/
def finishIssue (r : LaneRun) (p : Place) (i : Issue) (ins : Instr) (active : LaneMask) (vals : Nat → LaneVals) : State :=
  let k := p.w.nextEntry
  let r := r.emit (lanesOf active)
  if r.done = active then r.s.retire i
  else
    let all := List.range 32
    let e : LogEntry := ⟨p.w.freeSlot, ins, i.pc, i.path, active, r.done, all.map fun l => (vals l).va,
      all.map fun l => (vals l).b, all.map fun l => (vals l).c, r.faults, r.pin.isSome, [], p.t.core, 0#512⟩
    let s := (r.s.modWarp p.key fun w => { w with log := w.log.put k e }).retire i
    match r.pin with
    | none => s
    | some (c, va) => s.pinWarp p i.path i.pc i.len i.last (p.pinCause c) va (some k)

/-- The issue of a memory instruction of one address per lane. -/
def MemOp.issue (o : MemOp) (ins : Instr) (s : State) (p : Place) (i : Issue) (active : LaneMask) : Except Stop State :=
  let ls := lanesOf (o.lanes active)
  let vals (l : Nat) : LaneVals := o.valsOf s p l
  let off (l : Nat) : Nat := ((regionOf p.gr.regions p.g.num (vals l).va.toNat).map (·.1)).getD 0
  match checkEntry p i active with
  | .error e => .error e
  | .ok _ =>
    if ls.any fun l => s.stashBusy p.gid (off l) o.bytes o.writes then .error .stall
    else
      let go := ls.filter fun l => !behindOlder p.w.log ins (fun l => (vals l).va) l
      let go := laneOrder (fun k l => sameSpot s p o.acc o.bytes (vals k).va (vals l).va) ls go
      afterArrived s p i o.acc o.writes (go.map fun l => (l, (vals l).va)) fun _ => match (if o.fn = .sig then s.takeOut p.t.core p.g.grid (popCount active) else some s) with
        | none => .error .stall
        | some s0 =>
          let s1 := s0.consume p active o.srcs
          let s1 := if o.fn = .load true then s1.demote p.key active else s1
          let s1 := if MemOrdRel o.ord then s1.releaseHome p else s1
          let r := go.foldl (fun (r : LaneRun) l =>
            r.step p o.d active (o.fin active l) [] l (vals l).va (o.lane r.s p l (vals l))) ⟨s1, 0#32, [], none⟩
          .ok (finishIssue r p i ins active vals)

/-- What the checks of an address find for a lane of the instruction. -/
def MemOp.chk (o : MemOp) (s : State) (p : Place) (l : Nat) : AddrChk :=
  let va := (o.valsOf s p l).va
  ⟨l, va, regionOk p.gr p.g.num va.toNat o.bytes o.need, va.toNat % o.bytes = 0,
    s.rangeLocked p.gr.ctx va.toNat o.bytes o.writes⟩

/-- A memory instruction of one address per lane. -/
def runMem (o : MemOp) (ins : Instr) (s : State) : Host.Outcome State Fault Refusal :=
  settle s fun p i => withAddress s p i o.g o.srcs [o.addrSrc] o.dsts o.lanes (o.chk s p) (o.issue ins s p i)

end Sys2Proof.Machine
end

