-- ==== Sys2Proof/Machine/Placer.lean ====
section
/-! DEFINITION. The placer: eligibility and choice (04 R120 to R123), the checks of a record (05 R139,
R144, R147; 07 R181; 09 R229), binding (05 R140), positions and allotment (06 R162 to R164; 01 R28, R29,
R51). -/

namespace Sys2Proof.Machine

/-! ## Reading a context's memory -/

/-- Bytes of a context's memory that the hub reads, in pieces of 8: none when some piece does not translate or is denied;
poisoned bytes read as ones (18 R448). -/
def readVirt (ctx : Nat) : Nat → Nat → State → State × Option (List Byte)
  | _, 0, s => (s, some [])
  | va, k + 1, s => match translate s [] ctx va .load with
    | .error _ => (s, none)
    | .ok (s, x) => match s.readAt ctx x 8 with
      | (s, .denied) => (s, none)
      | (s, .poison) => (readVirt ctx (va + 8) k s).map id fun r => r.map (List.replicate 8 0xFF#8 ++ ·)
      | (s, .bytes bs) => (readVirt ctx (va + 8) k s).map id fun r => r.map (bs ++ ·)

/-- n bits of a context's memory from a virtual address. -/
def readVirtBits (s : State) (ctx va n : Nat) : State × Option Nat :=
  (readVirt ctx va (n / 64) s).map id fun r => r.map natLE

/-! ## Dependences (04 R114, R120) -/

/-- A dependence slot, or all of them: met, unmet with the location of the (first) signal, or a bad address. -/
inductive DepSt | met | unmet (loc : Nat) | bad
  deriving DecidableEq, Repr

/-- One dependence slot: the signal is read with a system-scope acquire (04 R120). -/
def depState (s : State) (ctx : Nat) (lr : BitVec 1024) (k : Nat) : State × DepSt :=
  let a := bits lr (191 + 128 * k) (128 + 128 * k)
  let th := bits lr (255 + 128 * k) (192 + 128 * k)
  if a % 8 ≠ 0 then (s, .bad)
  else match readVirtBits s ctx a 64 with
    | (s, none) => (s, .bad)
    | (s, some v) => (s, if th ≤ v then .met else match translate s [] ctx a .load with
        | .ok (_, x) => .unmet x.loc
        | .error _ => .bad)

/-- All slots in use: a bad address counts first, then the first unmet slot, whose signal is the one watched (04 R120,
R121; log 42). Of a record with NDEP from 5 to 7 the four slots are in use (log 42). -/
def depsState (s : State) (ctx : Nat) (lr : BitVec 1024) : State × DepSt :=
  (List.range (Nat.min 4 (bits lr 38 36))).foldl (fun (a : State × DepSt) k =>
    let (s, d) := depState a.1 ctx lr k
    (s, match a.2, d with
      | .bad, _ | _, .bad => .bad
      | .unmet l, _ => .unmet l
      | .met, d => d)) (s, .met)

/-! ## The checks of R139 -/

/-- The grid a record would make, before it is bound (05 R136, R137). -/
def mkGrid (ctx queue : Nat) (lr : BitVec 1024) (kcb : BitVec 512) (regions : List (BitVec 256))
    (pm : BitVec 256) (bents : List (BitVec 64)) : Grid where
  ctx := ctx
  queue := queue
  seq := lr.extractLsb' 0 32
  lrec := lr
  kcb := kcb
  regions := regions
  portmap := pm
  bents := bents
  cls := 0
  placed := 0
  parent := none
  kids := 0
  counted := []
  poison := 0
  killed := false
  reported := false

/-- Fields of R114, R136 and R137 within their stated values, reserved bits zero, alignments (05 R139). -/
def fieldsOk (g : Grid) : Bool :=
  bits g.kcb 31 0 = 0x424B5A4E && bits g.kcb 247 32 = 0 && bits g.kcb 257 256 = 0 && bits g.kcb 279 277 = 0
    && 1 ≤ g.ver && g.ver ≤ 3 && g.contract ≤ 9 && g.nreg ≤ 16 && g.barn ≤ 32 && g.stash ≤ 256
    && g.aregs ≤ (if g.contract = 7 then 4 else if g.contract = 0 then 0 else 8) && g.tregs ≤ 16
    && g.sregs % 8 = 0 && 8 ≤ g.sregs && g.sregs ≤ 32 && g.vregs % 8 = 0 && 8 ≤ g.vregs && g.vregs ≤ 64
    && g.textb % 128 = 0 && g.textl % 128 = 0 && g.entry % 4 = 0 && g.entry < g.textl
    && bits g.lrec 657 640 = 0 && bits g.lrec 127 39 = 0 && bits g.lrec 35 35 = 0 && bits g.lrec 38 36 ≤ 4
    && 1 ≤ g.gangs && g.csig.toNat % 8 = 0 && g.kcba % 64 = 0 && g.ltab % 128 = 0
    && (g.ltab ≠ 0 || (g.nreg = 0 && g.ports = 0 && g.barn = 0))

/-- Accumulator units of one warp: a long tile takes 4 (01 R29). -/
def accUnits (g : Grid) : Nat := g.aregs * (if g.contract = 7 then 4 else 1)

/-- Per-core limits of one team, and the stash (01 R29, R32; 05 R139). -/
def allotOk (g : Grid) : Bool :=
  let w := g.warpsN
  w * g.vregs ≤ 1024 && w * g.sregs ≤ 512 && w * g.tregs ≤ 16 && w * accUnits g ≤ 16
    && g.stash * g.teamsN ≤ 1024 && g.stash ≤ (if g.contract = 7 then 240 else 256)

/-- One region entry by itself, and its stash range (05 R142, R144). -/
def regionEntryOk (g : Grid) (r : BitVec 256) : Bool :=
  bits r 89 83 = 0 && bits r 79 64 = 0 && regMode r ≤ 4 && regBase r % 128 = 0 && regExtent r % 128 = 0
    && regExtent r ≠ 0 && 1 ≤ regRows r && regStride r % 128 = 0 && (regRows r = 1 || regExtent r ≤ regStride r)
    && regSoff r % 128 = 0 && regGstep r % 128 = 0 && regSoff r + regRows r * regExtent r ≤ g.window

def rowStart (r : BitVec 256) (gang j : Nat) : Nat := (regBase r + gang * regGstep r + j * regStride r) % 2 ^ 64

/-- Every row of every gang has a canonical range (05 R144). -/
def rowsCanonical (g : Grid) (r : BitVec 256) : Bool :=
  (List.range g.gangs).all fun k => (List.range (regRows r)).all fun j =>
    let a := rowStart r k j
    a + regExtent r ≤ 2 ^ 64 && canonicalVa a && canonicalVa (a + regExtent r - 1)
      && (a < 2 ^ 63) = (a + regExtent r - 1 < 2 ^ 63)

/-- Two row ranges overlap. -/
def overlaps (a n b m : Nat) : Bool := a < b + m && b < a + n

/-- Stash ranges of two regions are disjoint, and their global bytes for every gang (05 R144). -/
def regionsApart (g : Grid) (x y : BitVec 256) : Bool :=
  !overlaps (regSoff x) (regRows x * regExtent x) (regSoff y) (regRows y * regExtent y)
    && (List.range g.gangs).all fun k => (List.range (regRows x)).all fun i => (List.range (regRows y)).all fun j =>
      !overlaps (rowStart x k i) (regExtent x) (rowStart y k j) (regExtent y)

def pairsOk {α : Type} (f : α → α → Bool) : List α → Bool
  | [] => true
  | x :: xs => xs.all (f x) && pairsOk f xs

/-- Number of components of a port map. -/
def compsN (g : Grid) : Nat := g.gangs / (g.cw * g.ch)

/-- The opposite direction. -/
def oppositeDir : Nat → Nat
  | 0 => 1 | 1 => 0 | 2 => 3 | 3 => 2 | d => d

/-- One valid byte of the port map: its team exists, PORTS has its direction, a core of the component lies
beyond it in some gang, and the opposite direction of every peer is valid (05 R147; log 63); a `qd` byte by 09 R229. -/
def portByteOk (g : Grid) (t d : Nat) : Bool :=
  if d = 4 then g.ch = 1 && g.rows = 1 && compsN g % 2 = 0
  else
    let peers := (List.range (g.cw * g.ch)).filterMap fun n => g.across n t d
    peers ≠ [] && peers.all fun nt => g.portValid nt.2 (oppositeDir d)

/-- The port map (05 R146, R147; 09 R229). -/
def portMapOk (g : Grid) : Bool :=
  g.ports = 0 ||
    (bits g.portmap 255 176 = 0 && 1 ≤ g.cw && g.cw ≤ 8 && 1 ≤ g.ch && g.ch ≤ 8
      && g.gangs % (g.cw * g.ch) = 0 && g.cw * g.cols ≤ 8 && g.ch * g.rows ≤ 8
      && (List.range 20).all fun n =>
        bits g.portmap (8 * n + 6) (8 * n) = 0 &&
          (!g.portmap.getLsbD (8 * n + 7) ||
            (n / 5 < g.teamsN && g.ports / 2 ^ (n % 5) % 2 = 1 && portByteOk g (n / 5) (n % 5))))

/-! Barrier entry fields (07 R180). -/
def beTxb (e : BitVec 64) : Nat := bits e 63 40
def beCg (e : BitVec 64) : Nat := bits e 39 36
def beScope (e : BitVec 64) : Nat := bits e 31 29
def beCount (e : BitVec 64) : Nat := bits e 7 0

/-- Barrier group size; 1 without entries. -/
def Grid.cg (g : Grid) : Nat := match g.bents with
  | [] => 1
  | e :: _ => beCg e

/-- Barrier entries (07 R180, R181). -/
def barsOk (g : Grid) : Bool :=
  g.bents.all fun e =>
    bits e 35 32 = 0 && bits e 28 8 = 0 && 1 ≤ beCg e && beCg e ≤ 8 && beCg e = g.cg && g.gangs % beCg e = 0
      && beCg e * g.teamsN ≤ 8 && (beCg e = 1 || g.cw * g.ch = 1 || g.cw * g.ch = beCg e)
      && beCount e ≤ 128 && beCount e ≤ beCg e * g.teamsN * g.warpsN
      && beScope e ≠ 0 && beScope e ≠ 7 && (beScope e ≠ 1 || g.teamsN = 1) && (3 ≤ beScope e || beCg e = 1)

/-- The kernel control block, launch table and checks of a head record: the grid it makes, or none when
the record fails (05 R139). A launch table that holds nothing must still translate. -/
def readRecord (s : State) (ctx queue : Nat) (lr : BitVec 1024) : State × Option Grid :=
  if bits lr 1023 960 % 64 ≠ 0 then (s, none)
  else match readVirtBits s ctx (bits lr 1023 960) 512 with
  | (s, none) => (s, none)
  | (s, some kcb) =>
    let g0 := mkGrid ctx queue lr (BitVec.ofNat 512 kcb) [] 0#256 []
    if ¬ fieldsOk g0 ∨ ¬ allotOk g0 then (s, none)
    else
      let pm := if g0.ports = 0 then 0 else 256
      let n := 256 * g0.nreg + pm + 64 * g0.barn
      match readVirtBits s ctx g0.ltab (if g0.ltab ≠ 0 ∧ n = 0 then 64 else n) with
      | (s, none) => (s, none)
      | (s, some tab) =>
        let regs := (List.range g0.nreg).map fun i => BitVec.ofNat 256 (tab / 2 ^ (256 * i))
        let map := BitVec.ofNat 256 (if pm = 0 then 0 else tab / 2 ^ (256 * g0.nreg))
        let bents := (List.range g0.barn).map fun i => BitVec.ofNat 64 (tab / 2 ^ (256 * g0.nreg + pm + 64 * i))
        let g := mkGrid ctx queue lr (BitVec.ofNat 512 kcb) regs map bents
        (s, if (regs.all fun r => regionEntryOk g r && rowsCanonical g r) && pairsOk (regionsApart g) regs
            && portMapOk g && barsOk g then some g else none)

/-! ## Binding (05 R140; 02 R78, R90) -/

/-- Classes a contract may bind to, in order; K.INT by cluster pool. -/
def classOrder (contract : Nat) : List Nat :=
  match contract with
  | 0 => [0, 2, 1, 3]
  | 6 => [1, 2, 0]
  | 7 => [2, 0]
  | 8 | 9 => [3, 0]
  | _ => [0, 2]

/-- The clusters of a class's operating-class pool, ascending (10 R256). -/
def poolClusters (s : State) (cls opc : Nat) : List Nat :=
  (List.range 96).filter fun k =>
    dieClass s.fused (k / 8) = cls ∧ ¬ s.dieFailed (k / 8) ∧ (s.cluster k).st = .pooled ∧ (s.cluster k).cls.toNat = opc

def bindClass (s : State) (g : Grid) : Option Nat :=
  (classOrder g.contract).find? fun c =>
    if g.contract = 0 then poolClusters s c g.opClass ≠ [] else classDies s c ≠ []

/-! ## Resources of a core (01 R29, R32) -/

/-- Teams that hold resources on a core. -/
def residents (s : State) (core : Nat) : List (Nat × Team × Grid) :=
  s.teams.filterMap fun kt =>
    if kt.2.core ≠ core then none
    else match s.gangs.get? kt.2.gang with
      | none => none
      | some g => if g.freed then none else (s.grids.get? g.grid.toNat).map fun gr => (kt.1, kt.2, gr)

def sumOf {α : Type} (xs : List α) (f : α → Nat) : Nat := xs.foldl (fun n x => n + f x) 0

/-- The core has room for n more teams of the grid (06 R162). -/
def coreRoom (s : State) (core : Nat) (g : Grid) (n : Nat) : Bool :=
  let rs := residents s core
  let tot := fun (f : Grid → Nat) => sumOf rs (fun r => r.2.1.warps * f r.2.2) + n * (g.warpsN * f g)
  let x32 := g.contract = 7 || rs.any fun r => r.2.2.contract = 7
  tot (fun _ => 1) ≤ 16 && tot Grid.vregs ≤ 1024 && tot Grid.sregs ≤ 512 && tot Grid.tregs ≤ 16
    && tot accUnits ≤ 16 && sumOf rs (fun r => r.2.2.stash) + n * g.stash + (if x32 then 16 else 0) ≤ 256

/-- Barrier slots in use in a cluster (01 R28, 07 R184). -/
def slotsUsed (s : State) (cl : Nat) : List Nat :=
  s.bars.filterMap fun kb => if kb.2.cluster = cl ∧ kb.2.st ≠ .free then kb.2.slot else none

def slotsRoom (s : State) (cl : Nat) (g : Grid) : Bool := (slotsUsed s cl).length + g.barn ≤ 32

/-! ## Positions (06 R162, R163) -/

/-- The cores of a gang at a north-west core, in team order. -/
def gangCores (g : Grid) (die row col : Nat) : List Nat :=
  (List.range g.teamsN).map fun t => coreKey die (row + t / g.cols) (col + t % g.cols)

/-- A position lies in one cluster of the die. -/
def posInCluster (g : Grid) (row col : Nat) : Bool :=
  (g.rows = 1 || row % 2 = 0) && col % 4 + g.cols ≤ 4 && row + g.rows ≤ 8 && col + g.cols ≤ 8

/-- The positions of a cluster in ascending row and column. -/
def clusterPositions (g : Grid) (cl : Nat) : List (Nat × Nat × Nat) :=
  let d := cl / 8
  let r0 := cl % 8 / 2 * 2
  let c0 := cl % 2 * 4
  (List.range 8).filterMap fun k =>
    let r := r0 + k / 4
    let c := c0 + k % 4
    if posInCluster g r c then some (d, r, c) else none

/-- The cores of gangs at the given positions. -/
def coresOf (g : Grid) (ps : List (Nat × Nat × Nat)) : List Nat := ps.flatMap fun p => gangCores g p.1 p.2.1 p.2.2

/-- A position is free beside gangs that take the positions `taken` (06 R162). -/
def posFree (s : State) (g : Grid) (taken : List (Nat × Nat × Nat)) (pos : Nat × Nat × Nat) : Bool :=
  (coresOf g [pos]).all fun k => coreRoom s k g ((coresOf g taken).count k + 1)

/-- All positions are free together. -/
def posAllFree (s : State) (g : Grid) (ps : List (Nat × Nat × Nat)) : Bool :=
  (coresOf g ps).all fun k => coreRoom s k g ((coresOf g ps).count k)

/-! ## Allotment -/

/-- The lowest free warp slots of a core. -/
def freeSlots (s : State) (core n : Nat) : List Nat :=
  let used := s.warps.filterMap fun kw =>
    match s.teams.get? kw.2.team with
    | some t => if t.core = core ∧ (s.gangs.get? t.gang).any (fun g => !g.freed) then some kw.2.slot else none
    | none => none
  ((List.range 16).filter fun k => ¬ used.contains k).take n

/-- The next generation of a slot: values carried by outstanding returns are skipped (01 R52). -/
def nextGen (c : Core) (slot : Nat) : Nat → BitVec 8 → BitVec 8
  | 0, g => g
  | n + 1, g => if c.outstandingGens.contains (slot, g) then nextGen c slot n (g + 1#8) else g

/-- Assigns a new generation to a warp slot (01 R51). -/
def grantGen (s : State) (core slot : Nat) : State × BitVec 8 :=
  let c := s.core core
  let g := nextGen c slot 255 (Sparse.get 0#8 c.gens slot + 1#8)
  (s.modCore core fun c => { c with gens := Sparse.set 0#8 c.gens slot g }, g)

/-- A warp at allotment (01 R33; 05 R138; 06 R166). -/
def freshWarp (g : Grid) (team no slot : Nat) (gen : BitVec 8) : Warp where
  team := team
  no := no
  slot := slot
  gen := gen
  va := g.vregs
  sa := g.sregs
  ta := g.tregs
  aa := g.aregs
  pcv := List.replicate 32 (BitVec.ofNat 32 g.entry)
  exited := 0#32
  demoted := 0#32
  entering := 0xFFFFFFFF#32
  inside := []
  wake := []
  pins := []
  handler := ⟨false, 0#32, 0#32, 0#32, 0#32, 0#32, 0#32, 0#32⟩
  traps := []
  bpExempt := 0#32
  fairTimer := 0
  fairLeft := 0
  fairPath := 0#32
  fairNext := 0#32
  yieldUntil := 0
  tempoSince := none
  v := []
  u := Sparse.set 0#32 (Sparse.set 0#32 [] 0 (loWord g.arg)) 1 (hiWord g.arg)
  p := []
  tiles := []
  accs := []
  laccs := []
  marks := []
  fut := []
  log := []
  fifo := []
  outClosed := []
  resv := []
  svcs := []
  held := []

/-- Allots one team: age ordinal, warp slots, generations (01 R51; 06 R164). -/
def allotTeam (s : State) (g : Grid) (gang pos core : Nat) : State × Nat :=
  let ord := s.placer.nextAge
  let bar := s.placer.nextBar
  let keys := (List.range g.warpsN).map fun w => warpKey ord w
  let s := { s with
    placer := { s.placer with nextAge := ord + 1, nextBar := bar + 1 }
    bars := s.bars.put bar ⟨.armed, false, g.warpsN, 0, [], 0, 0, 0, true, 32, keys, coreCluster core, none, 0, []⟩ }
  let slots := freeSlots s core g.warpsN
  let s := (List.range g.warpsN).foldl (fun (s : State) w =>
    let slot := slots.getD w 0
    let (s, gen) := grantGen s core slot
    { s with warps := s.warps.put (warpKey ord w) (freshWarp g ord w slot gen) }) s
  ({ s with teams := s.teams.put ord ⟨gang, pos, core, g.warpsN, 0#512, bar, false⟩ }, ord)

/-- Allots one gang at a position; its barriers of the group follow (06 R158, R162). -/
def allotGang (s : State) (gid : Word) (g : Grid) (num unit : Nat) (pos : Nat × Nat × Nat) : State × Nat :=
  let id := s.placer.nextGang
  let s := { s with placer := { s.placer with nextGang := id + 1 } }
  let r := (gangCores g pos.1 pos.2.1 pos.2.2).zipIdx.foldl (fun (a : State × List Nat) ck =>
    let (s, t) := allotTeam a.1 g id ck.2 ck.1
    (s, a.2 ++ [t])) (s, [])
  let gang : Gang :=
    ⟨gid, num, .allotted, pos.1, pos.2.1, pos.2.2, r.2, [], unit, r.1.hc, false, false, false, [], [], 0, [], []⟩
  ({ r.1 with gangs := r.1.gangs.put id gang }, id)

/-- Slots of a barrier group, shared by its gangs (07 R181, R183). -/
def allotBars (s : State) (g : Grid) (gangIds : List Nat) : State :=
  let teams := gangIds.flatMap fun i => ((s.gangs.get? i).map (·.teams)).getD []
  let keys := teams.flatMap fun t => (List.range g.warpsN).map fun w => warpKey t w
  let cl := ((teams.head?.bind fun t => s.teams.get? t).map fun t => coreCluster t.core).getD 0
  let r := g.bents.zipIdx.foldl (fun (a : State × List Nat) ek =>
    let s := a.1
    let id := s.placer.nextBar
    let slot := ((List.range 32).filter fun k => ¬ (slotsUsed s cl).contains k).headD 0
    let n := if beCount ek.1 = 0 then keys.length else beCount ek.1
    ({ s with
        placer := { s.placer with nextBar := id + 1 }
        bars := s.bars.put id ⟨.armed, false, n, 0, [], beTxb ek.1, 0, beTxb ek.1, beCount ek.1 = 0, ek.2, keys, cl, some slot, 0, []⟩ },
      a.2 ++ [id])) (s, [])
  gangIds.foldl (fun s i => s.modGang i fun x => { x with bars := r.2 }) r.1

/-- Positions for k more gangs, each its own, the first free ones of those given, in order (06 R162, 07 R182; 23 R486). -/
def firstFree (s : State) (g : Grid) : Nat → List (Nat × Nat × Nat) → List (Nat × Nat × Nat) → Option (List (Nat × Nat × Nat))
  | 0, _, taken => some taken
  | _ + 1, [], _ => none
  | k + 1, pos :: more, taken =>
    if posFree s g taken pos then firstFree s g k more (taken ++ [pos]) else firstFree s g (k + 1) more taken

/-- The gangs of a component at a block's north-west core (05 R147, 06 R163). -/
def compPositions (g : Grid) (die r0 c0 : Nat) : List (Nat × Nat × Nat) :=
  (List.range (g.cw * g.ch)).map fun k => (die, r0 + k / g.cw * g.rows, c0 + k % g.cw * g.cols)

def clusterOfPos (pos : Nat × Nat × Nat) : Nat := coreCluster (coreKey pos.1 pos.2.1 pos.2.2)

/-- The positions of each barrier group in turn. -/
def groupsOf {α : Type} (n : Nat) : Nat → List α → List (List α)
  | 0, _ => []
  | k + 1, xs => if xs = [] then [] else xs.take n :: groupsOf n k (xs.drop n)

/-- Whether a block is free: each gang in one cluster of the pool with room, each barrier group in one cluster, and the
barrier slots its clusters must give (06 R163, 07 R182). -/
def blockFree (s : State) (g : Grid) (pool : List Nat) (ps : List (Nat × Nat × Nat)) : Bool :=
  let heads := (groupsOf g.cg ps.length (ps.map clusterOfPos))
  (ps.all fun p => posInCluster g p.2.1 p.2.2 && pool.contains (clusterOfPos p) && posFree s g [] p)
    && (heads.all fun cs => cs.all fun c => cs.all fun d => c = d)
    && ps.all fun p => (slotsUsed s (clusterOfPos p)).length
        + g.barn * (heads.filter fun cs => cs.head? = some (clusterOfPos p)).length ≤ 32

/-- Uses of `qd` in the port map. -/
def usesQd (g : Grid) : Bool := (List.range 4).any fun t => g.portValid t 4

/-- A component, or a gang with ports of a barrier group of its own, is placed as a block (06 R163). -/
def byBlock (g : Grid) : Bool := usesQd g || decide (1 < g.cw * g.ch) || (decide (g.ports ≠ 0) && decide (g.cg = 1))

/-- Gangs placed in one decision: a component (two with `qd`), a barrier group, or one gang. -/
def unitSize (g : Grid) : Nat :=
  if usesQd g then 2 * (g.cw * g.ch) else if 1 < g.cw * g.ch then g.cw * g.ch else g.cg

/-- Allots the gangs of a block in order. -/
def placeBlock (s : State) (gid : Word) (g : Grid) (unit num : Nat) (ps : List (Nat × Nat × Nat)) : State × List Nat :=
  ps.zipIdx.foldl (fun (a : State × List Nat) pk =>
    let (s, id) := allotGang a.1 gid g (num + pk.2) unit pk.1
    (s, a.2 ++ [id])) (s, [])

/-- Where a block fits first: the lowest die and north-west core in row-major order (06 R163); with `qd`
the even component stands on row 7 and the odd one on row 0 of the next die (09 R228, R229). -/
def findBlock (s : State) (g : Grid) (pool : List Nat) : Option (List (Nat × Nat × Nat)) :=
  (List.range (12 * 64)).findSome? fun k =>
    let d := k / 64
    let r := k % 64 / 8
    let c := k % 8
    if usesQd g then
      match nextDie s d with
      | none => none
      | some d' =>
        let ps := compPositions g d r c ++ compPositions g d' 0 c
        if r = 7 ∧ c + g.cw * g.cols ≤ 8 ∧ blockFree s g pool ps then some ps else none
    else
      let ps := compPositions g d r c
      if r + g.ch * g.rows ≤ 8 ∧ c + g.cw * g.cols ≤ 8 ∧ blockFree s g pool ps then some ps else none

/-- Barrier groups of the gangs just placed. -/
def groupBars (s : State) (g : Grid) : Nat → List Nat → State
  | 0, _ => s
  | k + 1, ids => if ids = [] then s else groupBars (allotBars s g (ids.take g.cg)) g k (ids.drop g.cg)

/-- Where the next unit of a grid fits first (06 R162, R163; 07 R182). -/
def unitPositions (s : State) (g : Grid) : Option (List (Nat × Nat × Nat)) :=
  let pool := poolClusters s g.cls g.opClass
  if byBlock g then findBlock s g pool
  else pool.findSome? fun cl => if slotsRoom s cl g then firstFree s g (unitSize g) (clusterPositions g cl) [] else none

/-- Places the next unit of a grid, or none when nothing fits (05 R141; 06 R162, R163; 07 R182). -/
def placeUnit (s : State) (gid : Word) (g : Grid) : Option State :=
  (unitPositions s g).map fun ps =>
    let r := placeBlock s gid g s.placer.nextGang g.placed ps
    let s := groupBars r.1 g r.2.length r.2
    { (s.modGrid gid fun x => { x with placed := x.placed + ps.length }) with
      placer := { s.placer with nextPlace := s.hc + 8 } }

/-! ## Choosing (04 R122, R123) -/

/-- Effective priority: min(PRIO, CAP) (03 R105, 04 R122). -/
def effPrio (s : State) (ctx prio : Nat) : Nat :=
  match s.ctxs.get? ctx with
  | none => 0
  | some c => Nat.min prio (bits (s.scls.getD c.sclass.toNat 0#32) 31 29)

def ctxActive (s : State) (ctx : Nat) : Bool := (s.ctxs.get? ctx).any fun c => c.st = .active

/-- A candidate of a decision: a head record, or a grid with gangs still to place. -/
structure Cand where
  prio : Nat
  cls : Nat
  since : Nat
  queue : Nat
  grid : Option Word
  deriving DecidableEq, Repr

/-- Order of candidates under R122. Each priority has its round-robin pointer, and a grid with gangs still to place goes
before the heads of its priority and class, in the order of grid identifiers (05 R141; log 42). -/
def candBefore (s : State) (a b : Cand) : Bool :=
  let rr := fun (c : Cand) => (c.cls + 16 - s.placer.rr.getD c.prio 0 % 16) % 16
  a.prio > b.prio || (a.prio = b.prio && (rr a < rr b || (rr a = rr b &&
    (a.grid.isSome && !b.grid.isSome || (a.grid.isSome = b.grid.isSome &&
      (a.since < b.since || (a.since = b.since && a.queue ≤ b.queue)))))))

def insertCand (s : State) (c : Cand) : List Cand → List Cand
  | [] => [c]
  | x :: xs => if candBefore s c x then c :: x :: xs else x :: insertCand s c xs

/-- The head of a queue as a candidate. -/
def headCand (s : State) (n : Nat) (q : Queue) : Cand :=
  ⟨effPrio s q.ctx (bits (recordAt s n q.head) 34 32), s.classOf q.ctx, q.headSince, n, none⟩

/-- The placer may look at the head of a queue: the pending-kick bit is set and the context is Active (04 R113, R120). -/
def headReady (s : State) (q : Queue) : Bool := q.takes s.hc && ctxActive s q.ctx

/-- The record at the head is the child of a killed grid: it fails there (05 R151). -/
def headOrphan (s : State) (n : Nat) (q : Queue) : Bool :=
  q.takes s.hc && (q.parents.get? (bits (recordAt s n q.head) 31 0)).any (·.2)

/-- Every ready head without a watch entry is evaluated: an unmet one gets its watch entry; the first with a bad address
is answered (04 R120, R121). -/
def evalHeads (s : State) : State × Option Nat :=
  s.queues.foldl (fun (a : State × Option Nat) kq =>
    if a.2.isSome || !headReady a.1 kq.2 || kq.2.watch.isSome then a
    else match depsState a.1 kq.2.ctx (recordAt a.1 kq.1 kq.2.head) with
      | (s, .bad) => (s, some kq.1)
      | (s, .unmet l) => (s.modQueue kq.1 fun q => { q with watch := some l }, none)
      | (s, .met) => (s, none)) (s, none)

/-- The eligible heads (04 R120), once evaluated, and the grids whose gangs wait (05 R141), in the order of R122. -/
def candidates (s : State) : List Cand :=
  let heads := s.queues.filterMap fun kq =>
    if headReady s kq.2 && kq.2.watch = none then some (headCand s kq.1 kq.2) else none
  let grids := s.grids.filterMap fun kg =>
    let g := kg.2
    if g.placed < g.gangs ∧ ¬ g.killed ∧ ctxActive s g.ctx then
      some (⟨effPrio s g.ctx g.prio, s.classOf g.ctx, kg.1, g.queue, some (BitVec.ofNat 32 kg.1)⟩ : Cand)
    else none
  (grids ++ heads).foldr (insertCand s) []

/-- A reserved record keeps the cluster pool it needs from records of equal or lower priority; of several reserved
records on a pool the first in the order of R122 is served (04 R123). -/
def reservedAgainst (s : State) (g : Grid) (c : Cand) (reserved : Bool) : Bool :=
  s.queues.any fun kq => kq.2.reserved && kq.2.kick && (c.grid.isSome || kq.1 ≠ c.queue) &&
    match (readRecord s kq.2.ctx kq.1 (recordAt s kq.1 kq.2.head)).2 with
    | none => false
    | some r => bindClass s r = some g.cls && r.opClass = g.opClass &&
        (if reserved then candBefore s (headCand s kq.1 kq.2) c else decide (c.prio ≤ effPrio s r.ctx r.prio))

/-- A serial not in use by a live grid (01 R42). -/
def freshSerial (s : State) : Nat → Nat → Nat
  | 0, n => n
  | k + 1, n => if s.grids.any fun kg => kg.1 % 2 ^ 28 = n then freshSerial s k ((n + 1) % 2 ^ 28) else n

/-- The pointer moves past the class served (04 R122). -/
def served (s : State) (c : Cand) : State :=
  { s with placer := { s.placer with rr := s.placer.rr.put c.prio ((c.cls + 1) % 16) } }

/-- The lines of a kernel's code, page by page from a virtual address: none when a page does not translate. -/
def textLines (s : State) (ctx : Nat) : Nat → Nat → Nat → Option (List Nat)
  | 0, _, _ => some []
  | k + 1, va, n =>
    let m := Nat.min n (4096 - va % 4096)
    match translate s [] ctx va .fetch with
    | .error _ => none
    | .ok (_, x) => (textLines s ctx k (va + m) (n - m)).map fun ls =>
        ((List.range (m / 128)).map fun j => ({ x with off := x.off + 128 * j } : Xlat).line) ++ ls

/-- Every L0 copy of the kernel's code goes (05 R155); where a page's lines are not known, every copy of any code. -/
def dropText (s : State) (ls : Option (List Nat)) : State :=
  { s with cores := s.cores.mapV fun _ c => { c with l0 := c.l0.filter fun e => ls.any fun ls => !ls.contains e.1 } }

/-- The record is consumed: an acquire at `.sy` that includes the copies of its code (05 R155). -/
def consumeText (s : State) (g : Grid) : State :=
  if s.cores.all fun kc => kc.2.l0 = [] then s else dropText s (textLines s g.ctx (g.textl / 4096 + 2) g.textb g.textl)

/-- A head record is placed: its grid comes to be with its first unit, the record leaves the ring, the
phase is set and Uliend journals PLACE (03 R107; 04 R127; 05 R150). -/
def placeHead (s : State) (c : Cand) (g : Grid) (cls : Nat) : Option State :=
  let q := s.queue c.queue
  let parent := (q.parents.get? g.seq.toNat).map (·.1)
  let depth := match parent with
    | none => 0
    | some w => w.toNat / 2 ^ 28 + 1
  let serial := freshSerial s s.grids.length s.placer.nextSerial
  let gid := BitVec.ofNat 32 (depth * 2 ^ 28 + serial)
  let g := { g with cls := cls, parent := parent }
  let s1 := { s with
    grids := s.grids.put gid.toNat g
    placer := { s.placer with nextSerial := (serial + 1) % 2 ^ 28 } }
  (placeUnit s1 gid g).map fun s =>
    let s := consumeText (popHead s c.queue) g
    let s := s.modQueue c.queue fun x => { x with parents := x.parents.del g.seq.toNat }
    let s := if g.phase = 0 then s else s.modCtx g.ctx fun x => { x with phase := BitVec.ofNat 16 g.phase }
    let s := journal s .place c.queue g.seq gid 0#64 0#64
    served { s with disp := { s.disp with uliend := { s.disp.uliend with grids := s.disp.uliend.grids ++ [gid] } } } c

/-- A head is passed over (04 R123). -/
def passOver (s : State) (n : Nat) : State :=
  s.modQueue n fun x => { x with passedSince := some (x.passedSince.getD s.hc) }

/-- Goes down the candidates: the first whose record fails, or that can be placed, ends the decision; one
that cannot is passed over (04 R123). -/
def decide1 (s : State) : List Cand → State
  | [] => s
  | c :: cs =>
    match c.grid with
    | some gid => match s.grids.get? gid.toNat with
      | none => decide1 s cs
      | some g =>
        if reservedAgainst s g c false then decide1 s cs
        else match placeUnit s gid g with
          | some s => served s c
          | none => decide1 s cs
    | none =>
      let q := s.queue c.queue
      match readRecord s q.ctx c.queue (recordAt s c.queue q.head) with
      | (s, none) => failHead s c.queue
      | (s, some g) => match bindClass s g with
        | none => decide1 (passOver s c.queue) cs
        | some cls =>
          if reservedAgainst s { g with cls := cls } c q.reserved then decide1 (passOver s c.queue) cs
          else match placeHead s c g cls with
            | some s => s
            | none => decide1 (passOver s c.queue) cs

/-- PLACER_DECISION (04 R120 to R123). A head that is the child of a killed grid, or whose dependence address is bad,
fails; otherwise the candidates are taken in order. At most one placement every 8 hc; none while placement is stopped. -/
def placerDecision (s : State) : State :=
  if s.placer.stopped then s
  else match s.queues.find? fun kq => headOrphan s kq.1 kq.2 with
    | some kq => failHead s kq.1
    | none => match evalHeads s with
      | (s, some n) => failHead s n
      | (s, none) => if s.hc < s.placer.nextPlace then s else decide1 s (candidates s)

/-- PLACER_SWEEP: every 4,096 hc all waiting heads are evaluated again (04 R121). -/
def placerSweep (s : State) : State :=
  placerDecision { s with lastSweep := s.hc / 4096, queues := s.queues.mapV fun _ q => { q with watch := none } }

/-- RECORD_RESERVED: a head passed over for 65,536 hc becomes reserved (04 R123). They count from the first pass on, through
times in which its queue is Disabled or its context not Active (DESIGN CHOICE, log 42). -/
def recordReserved (q : Nat) (s : State) : State :=
  match (s.queue q).passedSince with
  | none => s
  | some t => if t + 65536 ≤ s.hc then s.modQueue q fun x => { x with reserved := true } else s

end Sys2Proof.Machine
end

