-- ==== Sys2Proof/Machine/Remote.lean ====
section
/-! DEFINITION. Remote stash access: `rst` and `rld` (11 R263, R268, R269; 15 R396, R397). -/

namespace Sys2Proof.Machine

/-- What a target word and offset name: a scratch byte of a gang's window, or the global byte of a region. -/
inductive Target
  | outside
  | scratch (gid off : Nat)
  | region (gid off va mode : Nat)
  deriving DecidableEq, Repr

/-- The first gang number of the unit and its size in gangs (15 R396). -/
def unitOf (p : Place) (unit : Nat) : Nat × Nat :=
  let size := match unit with
    | 0 => 1
    | 1 => p.gr.cw * p.gr.ch
    | _ => p.gr.cg
  (p.g.num / size * size, size)

/-- The target of offset `o` and target word `t` (15 R396, R397; 11 R269). -/
def targetOf (s : State) (p : Place) (o t : Word) : Target :=
  let unit := bits t 15 14
  let gidx := bits t 13 8
  let team := bits t 1 0
  let (first, size) := unitOf p unit
  if unit = 3 ∨ size ≤ gidx ∨ p.gr.teamsN ≤ team ∨ p.gr.teamWin ≤ o.toNat then .outside
  else match s.gangs.find? fun kg => kg.2.grid = p.g.grid && kg.2.num = first + gidx with
    | none => .outside
    | some (gid, _) =>
      let off := team * p.gr.teamWin + o.toNat
      match regionAtStash p.gr.regions (first + gidx) off with
      | some (va, mode) => .region gid off va mode
      | none => .scratch gid off

def scratchRead (s : State) (gid off n : Nat) : Nat :=
  natLE (Sparse.read 0#8 (((s.gangs.get? gid).map (·.scratch)).getD []) off n)
def scratchWrite (s : State) (gid off : Nat) (bs : List Byte) : State :=
  s.modGang gid fun g => { g with scratch := Sparse.fill 0#8 g.scratch off bs }

/-- A scratch byte stands in a poisoned line of the window. -/
def scratchPoisoned (s : State) (gid off : Nat) : Bool := (s.gangs.get? gid).any fun g => g.scratchBad.has (off / 128)

/-- The checks of a target. The address reported is that of the region byte, else the offset. -/
def targetChk (s : State) (p : Place) (lane : Nat) (o : Word) (t : Target) (n : Nat) (need : MemAcc) (write : Bool) : AddrChk :=
  let align : Bool := o.toNat % n = 0
  match t with
  | .outside => ⟨lane, o.setWidth 64, false, align, false⟩
  | .scratch _ _ => ⟨lane, o.setWidth 64, true, align, false⟩
  | .region _ _ va mode =>
    ⟨lane, if align then BitVec.ofNat 64 va else o.setWidth 64, canonicalVa va && regionAdmits mode need, align,
      s.rangeLocked p.gr.ctx va n write⟩

def Target.busy (s : State) (n : Nat) (write : Bool) : Target → Bool
  | .outside => false
  | .scratch gid off => s.stashBusy gid off n write
  | .region gid off _ _ => s.stashBusy gid off n write

/-- The store of one lane. -/
def rstLane (s : State) (p : Place) (ty : Ty) (lane : Nat) (o t : Word) (b : Nat) : LaneRes :=
  match targetOf s p o t with
  | .outside => .wait s
  | .scratch gid off => .done (scratchWrite s gid off (storeBytesOf ty b)) []
  | .region gid off va mode => accessLane s p .store true (BitVec.ofNat 64 va) fun s x =>
      .done (s.writeAt p.gr.ctx (some (p.key, lane)) gid (mode, off / p.gr.teamWin) x (storeBytesOf ty b)) []

/-- The load of one lane. -/
def rldLane (s : State) (p : Place) (ty : Ty) (o t : Word) : LaneRes :=
  match targetOf s p o t with
  | .outside => .wait s
  | .scratch gid off =>
    if scratchPoisoned s gid off then .done (s.poisoned p 1) (poisonWords ty)
    else .done s (extendElem ty (scratchRead s gid off (elemBytes ty)))
  | .region _ _ va _ => accessLane s p .load false (BitVec.ofNat 64 va) fun s x =>
      match s.readAt p.gr.ctx x (elemBytes ty) with
      | (s, .bytes bs) => .done s (extendElem ty (natLE bs))
      | (s, .poison) => .done (s.poisoned p 1) (poisonWords ty)
      | (s, .denied) => .pin s pinAct

/-- The word of one of the sources in a lane, the low word of a pair. -/
def firstWord (vs : List (List Word)) (k : Nat) : Word := (vs.getD k []).headD 0#32

/-- The global address of a lane's target, for the checks of its translation. -/
def Target.global : Target → Option DWord
  | .region _ _ va _ => some (BitVec.ofNat 64 va)
  | _ => none

/-- Two accesses of n bytes meet: at scratch bytes of one window, or in memory (11 R276). -/
def Target.meets (s : State) (p : Place) (acc : AccKind) (n : Nat) : Target → Target → Bool
  | .scratch g a, .scratch h b => decide (g = h) && rangesMeet a n (b, n)
  | .region _ _ a _, .region _ _ b _ => sameSpot s p acc n (BitVec.ofNat 64 a) (BitVec.ofNat 64 b)
  | _, _ => false

/-- What `rst` holds for a lane: offset, value, target word. -/
def rstVals (s : State) (p : Place) (x : RstF) (l : Nat) : LaneVals :=
  let vs := srcVals s p l [] [src1 x.o, srcOf x.ty x.b, src1 x.t]
  ⟨(firstWord vs 0).setWidth 64, BitVec.ofNat 64 (wordsNat (vs.getD 1 [])), (firstWord vs 2).setWidth 64⟩

def rldVals (s : State) (p : Place) (x : RldF) (l : Nat) : LaneVals :=
  let vs := srcVals s p l [] [src1 x.o, src1 x.t]
  ⟨(firstWord vs 0).setWidth 64, 0#64, (firstWord vs 1).setWidth 64⟩

def LaneVals.target (v : LaneVals) (s : State) (p : Place) : Target := targetOf s p (loWord v.va) (loWord v.c)

/-- The issue of `rst` or `rld` for the active lanes. -/
def runTargets (s : State) (p : Place) (i : Issue) (ins : Instr) (active : LaneMask) (srcs : List Src) (n : Nat)
    (write : Bool) (rel : Bool) (d : Option Operand) (vals : Nat → LaneVals) (run : State → Nat → LaneRes) :
    Except Stop State :=
  let ls := lanesOf active
  match checkEntry p i active with
  | .error e => .error e
  | .ok _ =>
    if ls.any fun l => ((vals l).target s p).busy s n write then .error .stall
    else
      let go := ls.filter fun l => !behindOlder p.w.log ins (fun l => (vals l).va) l
      let acc : AccKind := if write then .store else .load
      let go := laneOrder (fun k l => ((vals k).target s p).meets s p acc n ((vals l).target s p)) ls go
      afterArrived s p i acc write
          (go.filterMap fun l => ((vals l).target s p).global.map fun va => (l, va)) fun _ => match (if write then s.takeOut p.t.core p.g.grid (popCount active) else some s) with
        | none => .error .stall
        | some s0 =>
          let s1 := s0.consume p active srcs
          let s1 := if rel then s1.releaseHome p else s1
          let r := go.foldl (fun (r : LaneRun) l =>
            r.step p d active (1#32 <<< l) [] l ((vals l).target s p |>.global.getD (vals l).va) (run r.s l)) ⟨s1, 0#32, [], none⟩
          .ok (finishIssue r p i ins active vals)

/-- `rst` (15 R397): counted in the outstanding counters, once per active lane. -/
def execRst (x : RstF) (s : State) : Host.Outcome State Fault Refusal :=
  settle s fun p i =>
    let srcs := [src1 x.o, srcOf x.ty x.b, src1 x.t]
    let vals := rstVals s p x
    withAddress s p i x.g srcs [src1 x.o, src1 x.t] [] id
      (fun l => targetChk s p l (loWord (vals l).va) ((vals l).target s p) (elemBytes x.ty)
        (.store (x.ord != .plain)) true)
      fun active => runTargets s p i (.rst x) active srcs (elemBytes x.ty) true (MemOrdRel x.ord) none vals
        fun s l => rstLane s p x.ty l (loWord (vals l).va) (loWord (vals l).c) (vals l).b.toNat

/-- `rld` (15 R397). -/
def execRld (x : RldF) (s : State) : Host.Outcome State Fault Refusal :=
  settle s fun p i =>
    let srcs := [src1 x.o, src1 x.t]
    let vals := rldVals s p x
    withAddress s p i x.g srcs srcs [(x.d, x.ty.regs)] id
      (fun l => targetChk s p l (loWord (vals l).va) ((vals l).target s p) (elemBytes x.ty)
        (.load (x.ord != .plain)) false)
      fun active => runTargets s p i (.rld x) active srcs (elemBytes x.ty) false false (some x.d) vals
        fun s l => rldLane s p x.ty (loWord (vals l).va) (loWord (vals l).c)

end Sys2Proof.Machine
end

