-- ==== Sys2Proof/Machine/Float.lean ====
section
/-! DEFINITION. Float arithmetic in F32, BF16 and F16 (14 R366 to R371): the exact value of each form, rounded
once by ENCODE with the NAN saturation mode. -/

namespace Sys2Proof.Machine

def fmtD (t : Ty) : Fmt := (fmtOf t).getD fmtF32

/-- ENCODE of a float result; no event is counted. -/
def fEnc (t : Ty) (mode : RMode) (v : Val) : Nat := ((fmtD t).encode v mode true).1

def faddE (sub : Bool) (mode : RMode) (t : Ty) (a b : Nat) : Nat :=
  let y := (fmtD t).decode b
  fEnc t mode (Val.add mode ((fmtD t).decode a) (if sub then y.neg else y))
def fmulE (mode : RMode) (t : Ty) (a b : Nat) : Nat := fEnc t mode (((fmtD t).decode a).mul ((fmtD t).decode b))
def fdivE (mode : RMode) (t : Ty) (a b : Nat) : Nat := fEnc t mode (((fmtD t).decode a).div ((fmtD t).decode b))
def ffmaE (mode : RMode) (t : Ty) (a b c : Nat) : Nat :=
  fEnc t mode (Val.add mode (((fmtD t).decode a).mul ((fmtD t).decode b)) ((fmtD t).decode c))
def frndE (mode : RMode) (t : Ty) (a : Nat) : Nat := fEnc t mode (((fmtD t).decode a).rint mode)
/-- Two roundings of the product and of the sum (12 R325). -/
def ffmaUnfE (mode : RMode) (t : Ty) (a b c : Nat) : Nat :=
  fEnc t mode (Val.add mode ((fmtD t).decode (fmulE mode t a b)) ((fmtD t).decode c))

/-! ## Forms -/

def fshort (x : Sh3) (f : Ty → Nat → Nat → Nat) (s : State) : Host.Outcome State Fault Refusal :=
  runAlu 0 x.h [srcOf .f32 x.a, srcOf .f32 x.b] x.d 1 (pureFn (map2 .f32 (f .f32))) s
def fbin (x : FBin) (f : RMode → Ty → Nat → Nat → Nat) (s : State) : Host.Outcome State Fault Refusal :=
  runAlu 0 x.h [srcOf x.ty x.a, srcOf x.ty x.b] x.d 1 (pureFn (map2 x.ty (f x.rm x.ty))) s
def ftern (x : FTern) (f : RMode → Ty → Nat → Nat → Nat → Nat) (s : State) : Host.Outcome State Fault Refusal :=
  runAlu 0 x.h [srcOf x.ty x.a, srcOf x.ty x.b, srcOf x.ty x.c] x.d 1 (pureFn (map3 x.ty (f x.rm x.ty))) s
def fun1 (x : FUn) (f : RMode → Ty → Nat → Nat) (s : State) : Host.Outcome State Fault Refusal :=
  runAlu 0 x.h [srcOf x.ty x.a] x.d 1 (pureFn (map1 x.ty (f x.rm x.ty))) s
/-- A one-source function of 14 R369 by its value. -/
def fexact (x : FUn) (f : Val → Val) (s : State) : Host.Outcome State Fault Refusal :=
  fun1 x (fun m t a => fEnc t m (f ((fmtD t).decode a))) s
/-- A transcendental function of 14 R369 by its enclosed value; n is its FN code. -/
def ftrans (x : FUn) (n : Nat) (f : Val → Enclosed) (s : State) : Host.Outcome State Fault Refusal :=
  fun1 x (fun m t a => (fmtD t).encodeIn n a (f ((fmtD t).decode a)) m) s

/-! ## Meanings -/

def execFadd (x : Sh3) (s : State) : Host.Outcome State Fault Refusal := fshort x (faddE false .rne) s
def execFmul (x : Sh3) (s : State) : Host.Outcome State Fault Refusal := fshort x (fmulE .rne) s
def execFaddXm (x : FBin) (s : State) : Host.Outcome State Fault Refusal := fbin x (faddE false) s
def execFsub (x : FBin) (s : State) : Host.Outcome State Fault Refusal := fbin x (faddE true) s
def execFmulXm (x : FBin) (s : State) : Host.Outcome State Fault Refusal := fbin x fmulE s
def execFdiv (x : FBin) (s : State) : Host.Outcome State Fault Refusal := fbin x fdivE s
def execFfma (x : FTern) (s : State) : Host.Outcome State Fault Refusal := ftern x ffmaE s
def execFrnd (x : FUn) (s : State) : Host.Outcome State Fault Refusal := fun1 x frndE s
/-- `fmin` and `fmax` (14 R368). -/
def execFmin (x : Bin) (s : State) : Host.Outcome State Fault Refusal :=
  runAlu 0 x.h [srcOf x.ty x.a, srcOf x.ty x.b] x.d 1 (pureFn (map2 x.ty ((fmtD x.ty).minMax false))) s
def execFmax (x : Bin) (s : State) : Host.Outcome State Fault Refusal :=
  runAlu 0 x.h [srcOf x.ty x.a, srcOf x.ty x.b] x.d 1 (pureFn (map2 x.ty ((fmtD x.ty).minMax true))) s
def execFrcp (x : FUn) (s : State) : Host.Outcome State Fault Refusal := fexact x (Val.div (.num false 1 0)) s
def execFrsq (x : FUn) (s : State) : Host.Outcome State Fault Refusal := fexact x Val.rsqrt s
def execFsqrt (x : FUn) (s : State) : Host.Outcome State Fault Refusal := fexact x Val.sqrt s
def execFex2 (x : FUn) (s : State) : Host.Outcome State Fault Refusal := ftrans x 3 Val.exp2 s
def execFlg2 (x : FUn) (s : State) : Host.Outcome State Fault Refusal := ftrans x 4 Val.log2 s
def execFsin (x : FUn) (s : State) : Host.Outcome State Fault Refusal := ftrans x 5 Val.sin s
def execFcos (x : FUn) (s : State) : Host.Outcome State Fault Refusal := ftrans x 6 Val.cos s
/-- `fcls` (14 R370): the stored bits are classified. -/
def execFcls (x : Un) (s : State) : Host.Outcome State Fault Refusal :=
  runAlu 0 x.h [srcOf x.ty x.a] x.d 1 (pureFn (map1 x.ty (fmtD x.ty).cls)) s

/-- `fcmp` (14 R371): the condition holds in every element. -/
def fcmpLane (c : FCond) (t : Ty) (vs : List (List Word)) : Bool :=
  (List.zip (elemsOf t (vs.getD 0 [])) (elemsOf t (vs.getD 1 []))).all fun ab =>
    fcondHolds c ((fmtD t).decode ab.1) ((fmtD t).decode ab.2)
def execFcmp (x : FCmpF) (s : State) : Host.Outcome State Fault Refusal :=
  runTest x.h [srcOf x.ty x.a, srcOf x.ty x.b] x.pd (fun _ _ vs => fcmpLane x.cond x.ty vs) s

end Sys2Proof.Machine
end

