-- ==== Sys2Proof/Machine/Xfer.lean ====
section
/-! DEFINITION. Conversion descriptors (09 R238, R239), typed tensors in memory (17 R430; 02 R64) and their
conversion (02 R91 to R94), and the fields of engine descriptors (17 R429 to R434). -/

namespace Sys2Proof.Machine

/-- A conversion descriptor with EN = 1. -/
structure Xd where
  el : Bool
  sch : Nat
  rm : RMode
  nan : Bool
  st : Ty
  dt : Ty
  zp : Nat
  rowlen : Nat
  deriving DecidableEq, Repr

/-- The scale handling admits the pair of types (02 R93). Recompute from a Z source is refused, as 09 R239 says of
a port descriptor, where R93's table admits any source (log 61). -/
def schOk (sch : Nat) (st dt : Ty) : Bool :=
  match sch with
  | 0 => !st.isZ
  | 1 => (st.isMx && dt.isMx) || (st.isZ && dt.isZ)
  | 2 => !st.isZ && dt.isMx
  | _ => st.isMx || st.isZ

/-- The rules of 09 R239 on a descriptor with EN = 1. -/
def Xd.ok (x : Xd) : Bool :=
  schOk x.sch x.st x.dt
    && (!x.el || (x.st == .f32 && x.dt == .l16 && x.rm == .rne))
    && (x.sch = 0 || x.rowlen % 32 = 0)
    && (x.zp = 0 || (x.dt.isZ && (x.sch = 0 || x.sch = 3)))

/-- The fields of a descriptor: `none` for a rejected one, `some none` with EN = 0. -/
def parseXd (d : DWord) : Option (Option Xd) :=
  if ¬ d.getLsbD 63 then (if d = 0#64 then some none else none)
  else if bits d 62 59 ≠ 0 ∨ bits d 42 40 ≠ 0 ∨ bits d 15 0 ≠ 0 then none
  else match Ty.ofCode (bits d 52 48), Ty.ofCode (bits d 47 43) with
    | some st, some dt =>
      let x : Xd := ⟨d.getLsbD 58, bits d 57 56, RMode.ofCode (bits d 55 54), d.getLsbD 53, st, dt, bits d 39 32, bits d 31 16⟩
      if x.ok then some (some x) else none
    | _, _ => none

/-! ## Layout (17 R430) -/

/-- The source has scales or zero points: its type is MX or Z and SCH ≠ 0. -/
def Xd.srcScaled (x : Xd) : Bool := x.sch ≠ 0 && (x.st.isMx || x.st.isZ)
/-- The destination has them under carry and recompute (02 R93). -/
def Xd.dstScaled (x : Xd) : Bool := x.sch = 1 || x.sch = 2

/-- Codes of a tensor of n elements: padded to a multiple of 32 with scales. Rows need no padding of their own,
for ROWLEN is then a multiple of 32. -/
def codeCount (scaled : Bool) (n : Nat) : Nat := if scaled then (n + 31) / 32 * 32 else n

/-- Bytes of the codes: whole words. -/
def codeBytes (t : Ty) (scaled : Bool) (n : Nat) : Nat := (codeCount scaled n * t.width + 31) / 32 * 4

def scaleCount (n : Nat) : Nat := (n + 31) / 32

/-- Where the scales start, from the tensor's address on. -/
def scaleOff (t : Ty) (scaled : Bool) (n addr : Nat) : Nat := (addr + codeBytes t scaled n + 127) / 128 * 128 - addr

/-- Bytes from the tensor's address to its end. -/
def tensorLen (t : Ty) (scaled : Bool) (n addr : Nat) : Nat :=
  if n = 0 then 0 else if scaled then scaleOff t scaled n addr + scaleCount n else codeBytes t scaled n

/-! ## Conversion -/

/-- One element decoded into its value and encoded, as every transfer does, within one type too (02 R91, R92). -/
def xferElem (st dt : Ty) (zs zd : Nat) (mode : RMode) (nanMode : Bool) (x : Nat) : Nat × Nat :=
  elemOf dt zd mode nanMode (elemVal st zs x)

/-- Codes and events of each element, and the scale byte, of one block of at most 32 elements with the scale
byte `sc` of its source. Under carry the byte is copied whole; a Z4 element takes its low nibble (log 61). -/
def xferBlock (x : Xd) (es : List Nat) (sc : Nat) : List (Nat × Nat) × Nat :=
  match x.sch with
  | 0 => (es.map fun e => if x.el then expToL16 x.nan e else xferElem x.st x.dt 0 (zpAt x.dt x.zp) x.rm x.nan e, 0)
  | 1 => (es.map fun e => xferElem x.st x.dt (zpAt x.st sc) (zpAt x.dt sc) x.rm x.nan e, sc)
  | 2 =>
    let vs := es.map fun e => if x.st.isMx then mxVal x.st sc e else elemVal x.st 0 e
    let q := mxQuant x.dt x.rm x.nan vs
    let evs := if q.1 = 255 then vs.map fun _ => 0
      else vs.map fun v => (mxElem x.dt x.rm x.nan (v.scale (127 - (q.1 : Int)))).2
    (q.2.1.zip evs, q.1)
  | _ => (es.map fun e => elemOf x.dt (zpAt x.dt x.zp) x.rm x.nan
      (if x.st.isMx then mxVal x.st sc e else elemVal x.st (zpAt x.st sc) e), 0)
where
  /-- A zero point of a type: the low nibble for Z4. -/
  zpAt (t : Ty) (b : Nat) : Nat := if t = .z4 then b % 16 else b

/-- The elements of a tensor in blocks of 32; k bounds their number. -/
def xferBlocks (x : Xd) : Nat → List Nat → List Nat → List (List (Nat × Nat) × Nat)
  | 0, _, _ => []
  | k + 1, es, scs =>
    if es = [] then [] else xferBlock x (es.take 32) (scs.headD 0) :: xferBlocks x k (es.drop 32) (scs.drop 1)

/-- A converted tensor: codes with their events, and scale bytes. -/
def xfer (x : Xd) (es scs : List Nat) : List (Nat × Nat) × List Nat :=
  let bs := xferBlocks x (scaleCount es.length) es scs
  (bs.flatMap (·.1), bs.map (·.2))

/-- The bytes of n codes, with zero codes behind them. -/
def codesLE (t : Ty) (scaled : Bool) (cs : List Nat) : List Byte :=
  bytesLE (codeBytes t scaled cs.length) (joinElems t.width cs)

/-- The first n codes among bytes. -/
def codesOf (t : Ty) (n : Nat) (bs : List Byte) : List Nat := splitElems t.width n (natLE bs)

/-- Sum of the events. -/
def eventsOf (rs : List (Nat × Nat)) : Nat := rs.foldl (fun n r => n + r.2) 0

/-! ## The fields of engine descriptors (17 R429 to R434) -/

def cpSk (d : BitVec 256) : Bool := d.getLsbD 255
def cpDk (d : BitVec 256) : Bool := d.getLsbD 254
def cpHost (d : BitVec 256) : Nat := bits d 253 252
def cpQp (d : BitVec 256) : Nat := bits d 251 246
def egCount (d : BitVec 256) : Nat := bits d 223 192
def egXd (d : BitVec 256) : DWord := d.extractLsb' 128 64
def egDst (d : BitVec 256) : Nat := bits d 127 64
def egSrc (d : BitVec 256) : Nat := bits d 63 0

/-- Bytes of the source and of the destination, from their addresses to their ends. -/
def cpSrcLen (x : Option Xd) (d : BitVec 256) : Nat :=
  match x with
  | none => egCount d
  | some x => tensorLen x.st x.srcScaled (egCount d) (egSrc d)
def cpDstLen (x : Option Xd) (d : BitVec 256) : Nat :=
  match x with
  | none => egCount d
  | some x => tensorLen x.dt x.dstScaled (egCount d) (egDst d)

/-- Bytes that an operation writes at its destination: codes and scales. -/
def cpBytes (x : Option Xd) (d : BitVec 256) : Nat :=
  match x with
  | none => egCount d
  | some x => codeBytes x.dt x.dstScaled (egCount d) + (if x.dstScaled then scaleCount (egCount d) else 0)

def gsCk (d : BitVec 256) : Bool := d.getLsbD 254
def gsSize (d : BitVec 256) : Nat := 2 ^ bits d 235 232
def gsStride (d : BitVec 256) : Nat := bits d 191 160
def gsIoff (d : BitVec 256) : Nat := bits d 159 128

def clOpc (d : BitVec 256) : Nat := bits d 255 252
def clGroup (d : BitVec 256) : Nat := bits d 251 248
def clRoot (d : BitVec 256) : Nat := bits d 247 238

/-- The conversion of a descriptor that has passed its checks. -/
def EngOp.xd (o : EngOp) : Option Xd := (parseXd (egXd o.desc)).getD none

/-- The shard's element type. -/
def clTy (x : Option Xd) : Ty := (x.map (·.st)).getD .i32

/-- Full destination bytes of an operation that stops early. -/
def EngOp.bytes (o : EngOp) (s : State) : Nat :=
  match o.kind with
  | .copy => cpBytes o.xd o.desc
  | .gath | .scat => egCount o.desc * gsSize o.desc
  | .cmpr => 128 * egCount o.desc
  | .coll =>
    let n := ((s.groups.get? (clGroup o.desc)).map (·.members.length)).getD 1
    codeBytes (clTy o.xd) false (egCount o.desc * if clOpc o.desc = 0 then n else 1)

end Sys2Proof.Machine
end

