-- ==== Sys2Proof/Machine/EngineWork.lean ====
section
/-! DEFINITION. The work of an engine operation (17 R424 to R434): the bytes it reads, the writes it makes with the
saturation events of each, how far it gets, what a stopped one leaves (11 R292), and how it resolves. An operation reads
and writes everything at its completion (log 5). -/

namespace Sys2Proof.Machine

/-! ## Accesses (17 R426; 18 R448) -/

/-- How the accesses of an operation end: all are made; a line pins it; a line faults; or it waits for something. -/
inductive EngEnd
  | done
  | pin (cause : Nat) (va : DWord)
  | page (va : Nat) (acc : AccKind) (kl : Nat × Nat)
  | wait
  deriving DecidableEq, Repr

/-- What accesses have brought as far as they got, and how they ended. -/
structure EngRun (α : Type) where
  s : State
  x : α
  stop : EngEnd

/-- The second part goes on from what the first has brought; where the first stopped, nothing of the second is done. -/
def EngRun.andThen {α β : Type} (r : EngRun α) (f : State → α → EngRun β) : EngRun β :=
  let q := f r.s r.x
  if r.stop = .done then q else ⟨r.s, q.x, r.stop⟩

/-- An operation with its grid and gang number. -/
structure EngAt where
  o : EngOp
  gr : Grid
  num : Nat

/-- The grid and gang of an operation. -/
def State.engAt (s : State) (o : EngOp) : Option EngAt :=
  match s.grids.get? o.grid.toNat, s.gangs.get? o.gang with
  | some gr, some g => some ⟨o, gr, g.num⟩
  | _, _ => none

/-- Where a byte of an engine access stands: a scratch byte of the gang window, or a global address. -/
inductive EngByte
  | scratch (off : Nat)
  | mem (va : Nat)

def EngAt.byteAt (a : EngAt) (stash : Bool) (addr : Nat) : EngByte :=
  if stash then match regionAtStash a.gr.regions a.num addr with
    | some (va, _) => .mem va
    | none => .scratch addr
  else .mem (addr % 2 ^ 64)

/-- The TLBs of the engine: the die's for the copy engine; the hub's engines walk. -/
def EngOp.tlbs (o : EngOp) : List (Nat × Nat) :=
  match o.kind with
  | .coll | .cmpr => []
  | _ => dieTlbs o.die

/-- The translation of an access that the regions admit. -/
def EngAt.xlat (a : EngAt) (s : State) (va n : Nat) (write : Bool) : EngRun (Option Xlat) :=
  let acc : AccKind := if write then .store else .load
  if ¬ regionOk a.gr a.num va n (if write then .store false else .load false) then ⟨s, none, .pin pinRegion (BitVec.ofNat 64 va)⟩
  else match translate s a.o.tlbs a.o.ctx va acc with
    | .ok (s, x) => ⟨s, some x, .done⟩
    | .error kl => ⟨s, none, .page va acc kl⟩

/-- A read of n bytes in one line, and whether it met poison. -/
def EngAt.readPiece (a : EngAt) (s : State) (stash : Bool) (addr n : Nat) : EngRun (List Byte × Bool) :=
  match a.byteAt stash addr with
  | .scratch off =>
    if scratchPoisoned s a.o.gang off then ⟨s, (List.replicate n 0xFF#8, true), .done⟩
    else ⟨s, (bytesLE n (scratchRead s a.o.gang off n), false), .done⟩
  | .mem va =>
    let r := a.xlat s va n false
    match r.x with
    | none => ⟨r.s, ([], false), r.stop⟩
    | some x => match r.s.readAt a.o.ctx x n with
      | (s, .bytes bs) => ⟨s, (bs, false), .done⟩
      | (s, .poison) => ⟨s, (List.replicate n 0xFF#8, true), .done⟩
      | (s, .denied) => ⟨s, ([], false), .pin pinAct (BitVec.ofNat 64 va)⟩

/-- A read of n bytes, line by line, as far as it gets; k bounds the number of lines. -/
def EngAt.readLines (a : EngAt) (stash : Bool) : Nat → State → Nat → Nat → EngRun (List Byte × Bool)
  | 0, s, _, _ => ⟨s, ([], false), .done⟩
  | k + 1, s, addr, n =>
    if n = 0 then ⟨s, ([], false), .done⟩
    else
      let m := Nat.min n (128 - addr % 128)
      let r := a.readPiece s stash addr m
      if r.stop = .done then
        let q := a.readLines stash k r.s (addr + m) (n - m)
        ⟨q.s, (r.x.1 ++ q.x.1, r.x.2 || q.x.2), q.stop⟩
      else r

def EngAt.read (a : EngAt) (s : State) (stash : Bool) (addr n : Nat) : EngRun (List Byte × Bool) :=
  a.readLines stash (n / 128 + 2) s addr n

/-- Where an operation writes: scratch bytes; memory through a translation; a data line of a surface; a 4-bit code of it,
number n, that goes with the data line `line`; host memory. A page that names a class gives it to its surface's lines (08 R198). -/
inductive EngTo
  | scratch (off : Nat)
  | mem (x : Xlat)
  | surf (loc : Nat) (scl : Option Nat)
  | code (loc n c line : Nat) (scl : Option Nat)
  | host (va : Nat)
  deriving DecidableEq, Repr

/-- The checks of a destination of n bytes, line by line, before anything is written. -/
def EngAt.dstLines (a : EngAt) (stash : Bool) : Nat → State → Nat → Nat → EngRun (List (EngTo × Nat))
  | 0, s, _, _ => ⟨s, [], .done⟩
  | k + 1, s, addr, n =>
    if n = 0 then ⟨s, [], .done⟩
    else
      let m := Nat.min n (128 - addr % 128)
      let rest (s : State) (d : EngTo) : EngRun (List (EngTo × Nat)) :=
        let q := a.dstLines stash k s (addr + m) (n - m)
        ⟨q.s, (d, m) :: q.x, q.stop⟩
      match a.byteAt stash addr with
      | .scratch off => rest s (.scratch off)
      | .mem va =>
        let r := a.xlat s va m true
        match r.x with
        | none => ⟨r.s, [], r.stop⟩
        | some x =>
          if x.cmp && a.o.kind ≠ .cmpr then ⟨r.s, [], .pin pinCompress (BitVec.ofNat 64 va)⟩ else rest r.s (.mem x)

def EngAt.dst (a : EngAt) (s : State) (stash : Bool) (addr n : Nat) : EngRun (List (EngTo × Nat)) :=
  a.dstLines stash (n / 128 + 2) s addr n

/-! ## Writes -/

/-- An element of a write: its first byte in the write, its saturation events, its number in the tensor, and whether it
was the T2 code 0b10. -/
structure ElemEv where (byte ev idx : Nat) (bad : Bool) deriving DecidableEq, Repr

/-- A write within one line, with the elements whose codes begin in it. -/
structure EngWrite where
  dest : EngTo
  bs : List Byte
  evs : List ElemEv
  deriving DecidableEq, Repr

/-- What an operation has to write, in order, and whether it has read poison. -/
structure Work where
  ws : List EngWrite
  poison : Bool

/-- Bytes cut to the pieces of a destination, with the elements that begin in each; pieces without all their bytes are
left out. -/
def cutWrites : List (EngTo × Nat) → List Byte → List ElemEv → List EngWrite
  | [], _, _ => []
  | d :: ds, bs, evs =>
    if bs.length < d.2 then []
    else ⟨d.1, bs.take d.2, evs.filter fun e => e.byte < d.2⟩ :: cutWrites ds (bs.drop d.2)
      ((evs.filter fun e => d.2 ≤ e.byte).map fun e => { e with byte := e.byte - d.2 })

/-- A line marked poisoned. -/
def State.markLine (s : State) (loc : Nat) (poison : Bool) : State :=
  if poison then { s with poisonLines := s.poisonLines.put (lineOf loc) () } else s

/-- The mark of a window line after a store of n bytes into it. -/
def markScratch (off n : Nat) (poison : Bool) (t : Tab Unit) : Tab Unit :=
  if poison then t.put (off / 128) () else if n = 128 then t.del (off / 128) else t

/-- A 4-bit code of a metadata byte replaced. -/
def putCode (b : Byte) (k c : Nat) : Byte :=
  if k % 2 = 0 then BitVec.ofNat 8 (b.toNat / 16 * 16 + c) else BitVec.ofNat 8 (b.toNat % 16 + 16 * c)

/-- A write of the compressor, which passes no mark of R213 on: a whole line clears one. The line read through aperture 3
changes (08 R209, R213). -/
def State.surfWrite (s : State) (o : EngOp) (loc : Nat) (scl : Option Nat) (bs : List Byte) (line : Nat) : State :=
  let t := s.storeLoc loc bs none ⟨o.ctx, scl.getD (s.classOf o.ctx)⟩
  { t with
    spoiled := if bs.length = 128 then t.spoiled.del (lineOf loc) else s.spoiled
    warps := t.warps.mapV (dropResv (ap3Line line) none) }

/-- Data leaves the package. -/
def State.send (s : State) (x : Sent) : State := { s with host := { s.host with sent := s.host.sent ++ [x] } }

/-- One piece is written; the flag says that a write could not be routed (09 R232). -/
def putPiece (o : EngOp) (poison : Bool) (r : State × Bool) (d : EngTo) (bs : List Byte) : State × Bool :=
  match d with
  | .scratch off =>
    ((scratchWrite r.1 o.gang off bs).modGang o.gang fun g =>
      { g with scratchBad := markScratch off bs.length poison g.scratchBad }, r.2)
  | .mem x =>
    if r.1.unreachable x.pkg then (r.1.unrouted o.ctx, true)
    else ((r.1.storeLoc x.loc bs none (x.filler r.1 o.ctx)).markLine x.loc poison, r.2)
  | .surf loc scl => ((r.1.surfWrite o loc scl bs (lineOf loc)).markLine loc poison, r.2)
  | .code loc n c line scl => (r.1.surfWrite o loc scl [putCode ((r.1.memRead loc 1).headD 0#8) n c] line, r.2)
  | .host va => (r.1.send (.rdmaWrite (cpQp o.desc) (BitVec.ofNat 64 va) bs), r.2)

/-- The destination j bytes further in its line. -/
def EngTo.at_ (d : EngTo) (j : Nat) : EngTo :=
  match d with
  | .scratch off => .scratch (off + j)
  | .mem x => .mem { x with off := x.off + j }
  | .surf loc scl => .surf (loc + j) scl
  | .code loc n c line scl => .code loc n c line scl
  | .host va => .host (va + j)

/-- A number for each byte that an operation may write. -/
def EngTo.key (gang : Nat) : EngTo → Nat
  | .scratch off => 8 * (gang * 2 ^ 64 + off)
  | .mem x => 8 * x.loc + 1
  | .surf loc _ => 8 * loc + 1
  | .code loc n _ _ _ => 8 * loc + 2 + n % 2
  | .host va => 8 * va + 4

/-- Whether a stopped operation has written a byte: a free choice (11 R292). -/
def pickByte (fresh : Nat) (o : EngOp) (d : EngTo) (j : Nat) : Bool :=
  Config.freeBool (fresh * 2 ^ 160 + (d.at_ j).key o.gang)

/-- The part of a write that a stopped operation has made, and the elements in it. A code is written only behind the whole
of its data line (08 R215). -/
def EngWrite.part (w : EngWrite) (fresh : Nat) (o : EngOp) (poison : Bool) (s : State) : State × List ElemEv :=
  let js := (List.range w.bs.length).filter (pickByte fresh o w.dest)
  let evs := w.evs.filter fun e => js.contains e.byte
  match w.dest with
  | .code _ _ _ line scl =>
    if pickByte fresh o w.dest 0 && (List.range 128).all fun j => pickByte fresh o (.surf (128 * line) scl) j then
      ((putPiece o poison (s, false) w.dest w.bs).1, [])
    else (s, [])
  | .mem x =>
    if js = [] then (s, []) else if s.unreachable x.pkg then (s.unrouted o.ctx, evs)
    else (js.foldl (fun s j => (putPiece o poison (s, false) (w.dest.at_ j) [w.bs.getD j 0#8]).1) s, evs)
  | _ => (js.foldl (fun s j => (putPiece o poison (s, false) (w.dest.at_ j) [w.bs.getD j 0#8]).1) s, evs)

/-! ## Events (02 R73, R95; 09 R240; 17 R427) -/

/-- The die link that carries link j's traffic: j, or the first after it that is Up or Degraded (09 R227). -/
def State.dieLink (s : State) (d j : Nat) : Nat :=
  (((List.range 8).map fun i => (j + i) % 8).find? fun l => linkWorks (s.link (d * 8 + l))).getD j

/-- The die link of the line of an address: its home stack's, or the one that stands in for it (09 R227, R238). -/
def EngAt.linkOf (a : EngAt) (s : State) (va : Nat) (acc : AccKind) : Nat :=
  s.dieLink a.o.die <| match peek s a.o.tlbs a.o.ctx (va % 2 ^ 64) acc with
  | some x => homeStack (x.loc % 2 ^ 39)
  | none => 0

/-- Saturation events of a conversion, each with its element's index, reach the counters of the issuing die's links (09
R238, R240). -/
def countLinks (a : EngAt) (s : State) (sk : Bool) (x : Xd) (evs : List ElemEv) : State :=
  evs.foldl (fun s e =>
    if e.ev = 0 then s
    else
      let va := if sk then egDst a.o.desc + e.idx * x.dt.width / 8 else egSrc a.o.desc + e.idx * x.st.width / 8
      s.modLink (a.o.die * 8 + a.linkOf s va (if sk then .store else .load)) fun l =>
        if sk then { l with cvsati := l.cvsati + BitVec.ofNat 32 e.ev }
        else { l with cvsato := l.cvsato + BitVec.ofNat 32 e.ev }) s

/-- T2 elements 0b10 that an engine reads count on the issuing core (02 R73). -/
def countT2 (s : State) (core : Nat) (t : Ty) (es : List Nat) : State :=
  s.count core { Counts.none with t2inv := if t = .t2 then t2Bad es else 0 }

/-- The collective engine's saturation events reach COLLSAT (17 R427). -/
def State.countColl (s : State) (n : Nat) : State :=
  { s with counters := { s.counters with collsat := s.counters.collsat + BitVec.ofNat 32 n } }

def evSum (evs : List ElemEv) : Nat := sumOf evs (·.ev)

/-- The events of the elements that an operation has converted reach its engine's counters. -/
def EngAt.count (a : EngAt) (s : State) (evs : List ElemEv) : State :=
  match a.o.kind, a.o.xd with
  | .copy, some x => (countLinks a s (cpSk a.o.desc) x evs).count a.o.core
      { Counts.none with t2inv := (evs.filter (·.bad)).length }
  | .coll, some _ => s.countColl (evSum evs)
  | _, _ => s

/-- The whole work: its writes in order, and its events; the flag says that a write could not be routed. -/
def EngAt.writeAll (a : EngAt) (s : State) (w : Work) : State × Bool :=
  w.ws.foldl (fun r x => putPiece a.o w.poison r x.dest x.bs) (a.count s (w.ws.flatMap (·.evs)), false)

/-- A free part of the work, with the events of the elements in it (11 R292; 17 R427, R428). -/
def EngAt.writePart (a : EngAt) (s : State) (w : Work) : State × Nat :=
  let r := w.ws.foldl (fun (r : State × List ElemEv) x =>
    let q := x.part s.fresh a.o w.poison r.1
    (q.1, r.2 ++ q.2)) (s.tick, [])
  (a.count r.1 r.2, evSum r.2)

/-! ## `copy` (17 R429, R430) -/

/-- Elements and scale bytes of a typed tensor as far as they can be read, with the flag of poison. -/
def EngAt.readTensor (a : EngAt) (s : State) (stash : Bool) (t : Ty) (scaled : Bool) (addr n : Nat) :
    EngRun (List Nat × List Nat × Bool) :=
  (a.read s stash addr (codeBytes t scaled n)).andThen fun s r =>
    let k := Nat.min n (r.1.length * 8 / t.width)
    if scaled then
      let q := a.read s stash (addr + scaleOff t scaled n addr) (scaleCount n)
      ⟨q.s, (codesOf t (Nat.min k (32 * q.x.1.length)) r.1, q.x.1.map (·.toNat), r.2 || q.x.2), q.stop⟩
    else ⟨s, (codesOf t k r.1, [], r.2), .done⟩

/-- Lines of host memory. -/
def hostPieces (va : Nat) : Nat → Nat → List (EngTo × Nat)
  | 0, _ => []
  | k + 1, n => if n = 0 then [] else
      let m := Nat.min n (128 - va % 128)
      (.host va, m) :: hostPieces (va + m) k (n - m)

/-- A copy of bytes. Bytes of host memory are free values (log 8). -/
def copyBytes (s : State) (a : EngAt) : EngRun Work :=
  let d := a.o.desc
  let n := egCount d
  let src : EngRun (List Byte × Bool) :=
    if cpHost d = 1 then ⟨s.tick, (s.freeBytes n, false), .done⟩ else a.read s (cpSk d) (egSrc d) n
  src.andThen fun s r =>
    let q : EngRun (List (EngTo × Nat)) :=
      if cpHost d = 2 then ⟨s, hostPieces (egDst d) (n / 128 + 2) r.1.length, .done⟩
      else a.dst s (cpDk d) (egDst d) r.1.length
    ⟨q.s, ⟨cutWrites q.x r.1 [], r.2⟩, q.stop⟩

/-- Elements at their bytes, from the codes with their events. -/
def elemEvs (t : Ty) (cs : List (Nat × Nat)) (bad : Nat → Bool) : List ElemEv :=
  cs.zipIdx.map fun ci => ⟨ci.2 * t.width / 8, ci.1.2, ci.2, bad ci.2⟩

/-- A copy with conversion. What can be converted of a tensor that is read in part ends, with scales, at a whole block. -/
def copyTyped (s : State) (a : EngAt) (x : Xd) : EngRun Work :=
  let d := a.o.desc
  let n := egCount d
  (a.readTensor s (cpSk d) x.st x.srcScaled (egSrc d) n).andThen fun s r =>
    let m := if x.dstScaled ∧ r.1.length < n then r.1.length / 32 * 32 else r.1.length
    let y := xfer x (r.1.take m) r.2.1
    let cs := codesLE x.dt x.dstScaled (y.1.map (·.1))
    let cs := if m = n then cs else cs.take (m * x.dt.width / 8)
    let ds := a.dst s (cpDk d) (egDst d) cs.length
    let es := a.dst ds.s (cpDk d) (egDst d + scaleOff x.dt x.dstScaled n (egDst d)) (if x.dstScaled then y.2.length else 0)
    ⟨es.s, ⟨cutWrites ds.x cs (elemEvs x.dt y.1 fun i => decide (x.st = .t2) && decide (r.1.getD i 0 = 2))
        ++ cutWrites es.x (y.2.map (BitVec.ofNat 8)) [], r.2.2⟩, if ds.stop = .done then es.stop else ds.stop⟩

/-! ## `gath` and `scat` (17 R431) -/

def gsEntry (d : BitVec 256) (i : Nat) : Nat := egSrc d + i * gsStride d

/-- Entries of a table, in order. -/
def EngAt.readEntries (a : EngAt) (n : Nat) : List Nat → State → EngRun (List Byte × Bool)
  | [], s => ⟨s, ([], false), .done⟩
  | i :: is, s =>
    let r := a.read s false (gsEntry a.o.desc i) n
    if r.stop = .done then
      let q := a.readEntries n is r.s
      ⟨q.s, (r.x.1 ++ q.x.1, r.x.2 || q.x.2), q.stop⟩
    else r

def EngAt.dstEntries (a : EngAt) (n : Nat) : List Nat → State → EngRun (List (EngTo × Nat))
  | [], s => ⟨s, [], .done⟩
  | i :: is, s =>
    let r := a.dst s false (gsEntry a.o.desc i) n
    if r.stop = .done then
      let q := a.dstEntries n is r.s
      ⟨q.s, r.x ++ q.x, q.stop⟩
    else r

def gathWork (s : State) (a : EngAt) : EngRun Work :=
  let d := a.o.desc
  (a.readEntries (gsSize d) a.o.idx s).andThen fun s r =>
    let q := a.dst s (gsCk d) (egDst d) r.1.length
    ⟨q.s, ⟨cutWrites q.x r.1 [], r.2 || a.o.poison⟩, q.stop⟩

/-- Entries are written in ascending i, so the highest of duplicates stays. -/
def scatWork (s : State) (a : EngAt) : EngRun Work :=
  let d := a.o.desc
  (a.read s (gsCk d) (egDst d) (a.o.idx.length * gsSize d)).andThen fun s r =>
    let q := a.dstEntries (gsSize d) a.o.idx s
    ⟨q.s, ⟨cutWrites q.x r.1 [], r.2 || a.o.poison⟩, q.stop⟩

/-! ## `cmpr` (17 R434; 08 R214, R215) -/

/-- The two writes of a line of a surface: its data, then its code. -/
def surfWrites (s : State) (r : BitVec 512) (scl : Option Nat) (n : Nat) (bs : List Byte) : List EngWrite :=
  let q := compressLine (granBytes (bits r 343 339)) bs
  let loc := surfBase s r 511 448 + 128 * n
  [⟨.surf loc scl, q.2, []⟩, ⟨.code (surfBase s r 447 384 + n / 2) n q.1 (lineOf loc) scl, [0#8], []⟩]

def cmprWork (s : State) (a : EngAt) : EngRun Work :=
  let d := a.o.desc
  (a.read s false (egSrc d) (128 * egCount d)).andThen fun s r =>
    let q := a.dst s false (egDst d) (r.1.length / 128 * 128)
    ⟨q.s, ⟨q.x.zipIdx.flatMap fun di => match di.1.1 with
      | .mem y => surfWrites s y.srec y.scl (a.o.seq + di.2) ((r.1.drop (128 * di.2)).take 128)
      | _ => [], r.2⟩, q.stop⟩

/-! ## `coll` (17 R432, R433) -/

/-- Rank of this package in a group. -/
def CollGroup.rank (g : CollGroup) (pkg : Nat) : Nat := g.members.findIdx (· = pkg)

/-- The member sends its shard: every member but, under BCAST, only the root. -/
def clSends (d : BitVec 256) (rank : Nat) : Bool := clOpc d ≠ 1 || clRoot d = rank

/-- The peers toward which a member sends credit grants or data. -/
def clPeers (d : BitVec 256) (g : CollGroup) (pkg : Nat) : List Nat :=
  if clSends d (g.rank pkg) then g.members.filter (· ≠ pkg) else [g.members.getD (clRoot d) pkg].filter (· ≠ pkg)

/-- The shard on the wire, and the events of its quantisation: codes, then scale bytes. -/
def clWire (x : Option Xd) (es scs : List Nat) : List Byte × Nat :=
  match x with
  | none => (codesLE .i32 false es, 0)
  | some x =>
    let y := xfer x es scs
    (codesLE x.dt true (y.1.map (·.1)) ++ y.2.map (BitVec.ofNat 8), eventsOf y.1)

/-- Bytes of a shard of n elements on the wire. -/
def clWireLen (x : Option Xd) (n : Nat) : Nat :=
  match x with
  | none => codeBytes .i32 false n
  | some x => codeBytes x.dt true n + scaleCount n

/-- v_r: the shard after the wire, and the events of its expansion. -/
def clExpand (x : Option Xd) (n : Nat) (bs : List Byte) : List (Nat × Nat) :=
  match x with
  | none => (codesOf .i32 n bs).map fun e => (e, 0)
  | some x =>
    let scs := (bs.drop (codeBytes x.dt true n)).map (·.toNat)
    (codesOf x.dt n bs).zipIdx.map fun ei => elemOf x.st 0 x.rm x.nan (mxVal x.dt (scs.getD (ei.2 / 32) 0) ei.1)

/-- One step of ALLREDUCE, and the events of the element's expansions. -/
def clAdd (t : Ty) (a b : Nat × Nat) : Nat × Nat :=
  (if t = .f32 then faddE false .rne .f32 a.1 b.1 else (a.1 + b.1) % 2 ^ 32, a.2 + b.2)

/-- The elements that DADDR receives from the shards of all ranks, or of the root alone. -/
def clResult (opc : Nat) (t : Ty) (vs : List (List (Nat × Nat))) : List (Nat × Nat) :=
  match opc with
  | 2 => match vs with
    | v :: rest => rest.foldl (List.zipWith (clAdd t)) v
    | [] => []
  | _ => vs.flatten

/-- The ranks whose shards DADDR needs. -/
def clNeeds (d : BitVec 256) (g : CollGroup) : List Nat := if clOpc d = 1 then [clRoot d] else List.range g.members.length

/-- The receive buffer, as far as the shards at hand reach; an ALLREDUCE needs them all. -/
def collWork (s : State) (a : EngAt) : EngRun Work :=
  let o := a.o
  let d := o.desc
  match s.groups.get? (clGroup d) with
  | none => ⟨s, ⟨[], false⟩, .wait⟩
  | some g =>
    let whole : Bool := (clNeeds d g).all o.data.has
    let at_ := if clOpc d = 2 ∧ ¬ whole then [] else (clNeeds d g).takeWhile o.data.has
    let t := clTy o.xd
    let es := clResult (clOpc d) t (at_.map fun r => clExpand o.xd (egCount d) (o.data.getD r []))
    let cs := codesLE t false (es.map (·.1))
    let cs := if whole then cs else cs.take (es.length * t.width / 8)
    let q := a.dst s false (egDst d) cs.length
    ⟨if whole then q.s else s, ⟨cutWrites q.x cs (elemEvs t es fun _ => false), o.poison⟩, if whole then q.stop else .wait⟩

/-! ## The work of an operation, and what a stopped one leaves -/

def opWork (s : State) (a : EngAt) : EngRun Work :=
  match a.o.kind with
  | .copy => match a.o.xd with
    | none => copyBytes s a
    | some x => copyTyped s a x
  | .gath => gathWork s a
  | .scat => scatWork s a
  | .cmpr => cmprWork s a
  | .coll => collWork s a

/-- A started operation that stops has written a free part of its work; with its events (11 R292; 17 R427, R428). One
that is pinned has stopped before. -/
def stopPart (s : State) (o : EngOp) : State × Nat :=
  if ¬ o.started ∨ o.pinned ≠ none ∨ o.released then (s, o.ev)
  else match s.engAt o with
    | none => (s, o.ev)
    | some a =>
      let r := opWork s a
      let u := a.writePart r.s r.x
      (u.1, o.ev + u.2)

/-! ## Resolution (17 R426, R427; 07 R188) -/

/-- An operation resolves: its ranges and its count go, and the bytes of a started one reach its barrier. -/
def resolveOp (s : State) (k : Nat) (o : EngOp) (status ev bytes : Nat) : State :=
  let s := resolveFut ({ s with ops := s.ops.del k }.ackOut o.core o.grid 1) o.warp o.fut (statusWord status ev)
  if o.started && o.bar ≠ 0 then barrierBytes s (o.bar - 1) o.core bytes else s

/-- An operation is pinned as a master (17 R426; 18 R451). -/
def pinOp (s : State) (k : Nat) (o : EngOp) (cause : Nat) (va : DWord) : State :=
  let id := s.placer.nextPin
  let who := (s.place? o.warp).map fun p => (p.g.num, p.t.pos, p.w.no)
  let (g, t, w) := who.getD (0, 0, 0)
  (s.addPin ⟨id, .engine k, cause, o.ctx, o.grid, g, t, w, 0#32, va, false⟩).modOp k
    fun o => { o with pinned := some (id, va) }

/-- A page fault of an engine joins the fault table; none when it is full. -/
def engFault (s : State) (o : EngOp) (va : Nat) (acc : AccKind) (kl : Nat × Nat) : Option (State × Nat × Word) :=
  (joinFault s o.die o.ctx (BitVec.ofNat 64 va) acc kl.1 kl.2 o.grid).map fun sf => (emitFaults sf.1, o.die, sf.2)

/-- An operation that a line pins, holds or makes wait. -/
def EngEnd.settle (e : EngEnd) (s : State) (k : Nat) (o : EngOp) : State :=
  match e with
  | .pin c va => pinOp s k o c va
  | .page va acc kl => match engFault s o va acc kl with
    | some (s, f) => s.modOp k fun o => { o with fault := some f }
    | none => s
  | _ => s

/-- Status of an operation whose writes were all routed, or not (09 R232). -/
def routedSt (lost : Bool) : Nat := if lost then stUnroute else stOk

/-- A member that sends its shard keeps it for the peers that have not yet granted credit (17 R432, R433). -/
def keepShard (s : State) (o : EngOp) : State :=
  match o.kind, s.groups.get? (clGroup o.desc) with
  | .coll, some g =>
    let me := g.rank s.fused.pkg
    let left := (List.range g.members.length).filter fun r => r ≠ me && !o.grants.any fun x => x.rank = r
    match o.data.get? me with
    | some bs => if left = [] ∨ ¬ clSends o.desc me then s
        else { s with groups := s.groups.put (clGroup o.desc) { g with kept := g.kept ++ [⟨o.seq, o.desc, bs, left⟩] } }
    | none => s
  | _, _ => s

/-- The work is done, or ends at a line that stops it; what stands before a pin is written in part. -/
def opFinish (s : State) (k : Nat) (a : EngAt) : State :=
  let r := opWork s a
  match r.stop with
  | .done =>
    let w := a.writeAll r.s r.x
    resolveOp (keepShard w.1 a.o) k a.o (routedSt w.2) (a.o.ev + evSum (r.x.ws.flatMap (·.evs))) (a.o.bytes s)
  | .pin c va =>
    let u := a.writePart r.s r.x
    pinOp (u.1.modOp k fun o => { o with ev := o.ev + u.2 }) k a.o c va
  | e => e.settle r.s k a.o

end Sys2Proof.Machine
end

