-- ==== Sys2Proof/Machine/Control.lean ====
section
/-! DEFINITION. Control transfer, exit, yield, votes and predicates (13 R351 to R361), traps and returns
(17 R441, R442) and hints (17 R446). -/

namespace Sys2Proof.Machine

/-- Active lanes transfer to their targets; the others continue after the clause (13 R352). -/
def Warp.transfer (w : Warp) (i : Issue) (active : LaneMask) (target : Nat → Word) : Warp :=
  let w := w.stepOver (i.path &&& ~~~ active) i.pc i.len i.last
  (lanesOf active).foldl (fun w l => w.jump (maskOf [l]) (target l)) w

/-- `br` (13 R353). -/
def execBr (x : BrF) (s : State) : Host.Outcome State Fault Refusal :=
  settle s fun p i => withOperands s p i x.g [] [] fun active =>
    .ok (s.modWarp p.key fun w => w.transfer i active fun _ => i.pc + x.disp)

/-- `call` (13 R353): each active lane of d receives the offset of the word after the clause. -/
def execCall (x : CallF) (s : State) : Host.Outcome State Fault Refusal :=
  settle s fun p i => withOperands s p i x.g [] [(x.d, 1)] fun active =>
    let s := s.writeOp p active x.d fun _ => [i.pc + BitVec.ofNat 32 i.len]
    .ok (s.modWarp p.key fun w => w.transfer i active fun _ => i.pc + x.disp)

/-- The lanes whose target is misaligned (13 R354). -/
def badTargets (s : State) (p : Place) (lanes : LaneMask) (a : Src) : LaneMask :=
  maskOf ((lanesOf lanes).filter fun l => match srcVals s p l [] [a] with
    | [[t]] => t.toNat % 4 ≠ 0
    | _ => false)

def laneTarget (s : State) (p : Place) (a : Src) (l : Nat) : Word := ((srcVals s p l [] [a]).headD []).headD 0#32

/-- ALIGN of the lanes whose target is known, ahead of a PORTDEAD of the others (06 R176). -/
def alignBeforeDead (s : State) (p : Place) (active : LaneMask) (a : Src) : Except Stop Unit :=
  match a.o with
  | .port _ => match checkDead p active [a] [] with
    | .error _ =>
      let bad := badTargets s p active a
      if bad = 0#32 then .ok ()
      else .error (.trap .align 0 bad ((laneTarget s p a (lowLane bad)).setWidth 64))
    | .ok _ => .ok ()
  | _ => .ok ()

/-- `brx` and `ret` (13 R354). -/
def indirect (x : RetF) (s : State) : Host.Outcome State Fault Refusal :=
  settle s fun p i =>
    let a := src1 x.a
    let early : Except Stop Unit := match checkRegs p i [(a.o, 1)] with
      | .error _ => .ok ()
      | .ok _ => match checkBound p [a.o] with
        | .error _ => .ok ()
        | .ok _ => alignBeforeDead s p (activeOf p i x.g) a
    match early with
    | .error e => .error e
    | .ok _ => withOperands s p i x.g [a] [] fun active =>
      let bad := badTargets s p active a
      if bad = 0#32 then
        .ok ((s.consume p active [a]).modWarp p.key fun w => w.transfer i active (laneTarget s p a))
      else .error (.trap .align 0 bad ((laneTarget s p a (lowLane bad)).setWidth 64))

def execBrx (x : RetF) (s : State) : Host.Outcome State Fault Refusal := indirect x s
def execRet (x : RetF) (s : State) : Host.Outcome State Fault Refusal := indirect x s

/-! ## Exit (13 R355) -/

/-- A retired gang begins to write its write-back lines home: each counts in an outstanding slot, for which it waits
(05 R145, R148; log 63). -/
def writeHome (s : State) (k : Nat) : State :=
  match s.gangs.get? k with
  | none => s
  | some g =>
    if g.wbOut ≠ 0 ∨ g.wb = [] then s
    else match s.takeOut g.core g.grid g.wb.length with
      | none => s
      | some s => s.modGang k fun x => { x with wbOut := g.wb.length }

/-- The warps of a team have all exited, its loops have resolved and its matrix steps have ended (log 17). -/
def teamDone (s : State) (t : Nat) (tm : Team) : Bool :=
  let ws := s.warps.filter fun kw => kw.2.team = t
  !tm.retired && (ws.all fun kw => kw.2.exited = 0xFFFFFFFF#32)
    && !(s.mloops.any fun km => ws.any fun kw => kw.1 = km.2.warp)
    && !((s.core tm.core).mq.any fun m => ws.any fun kw => kw.1 = m.warp)

/-- The team has no dirty on-touch line (11 R264). -/
def teamClean (s : State) (tm : Team) : Bool :=
  (s.gangs.get? tm.gang).all fun g => g.dirty.all fun l => l.2.2 ≠ tm.pos

/-- A team that is done, and whose on-touch lines are clean, retires; when it is the gang's last team, the gang retires
(06 R158; 11 R264; 16 R418) and its eviction mark lapses (18 R492). Counter slots at zero without a resident team are freed (05 R148). -/
def retireTeam (s : State) (t : Nat) : State :=
  match s.teams.get? t with
  | none => s
  | some tm =>
    if ¬ teamDone s t tm ∨ ¬ teamClean s tm then s
    else
      let s := s.modTeam t fun x => { x with retired := true }
      let s := s.modCore tm.core fun c => { c with
        out := c.out.filter fun gc => decide (gc.2 ≠ 0) || s.residentOn tm.core gc.1 }
      match s.gangs.get? tm.gang with
      | none => s
      | some g =>
        if g.teams.all fun k => ((s.teams.get? k).map (·.retired)).getD true then
          writeHome (s.modGang tm.gang fun x => { x with st := .retired, mark := false, evicting := false }) tm.gang
        else s

/-- The barriers a warp belongs to. -/
def Place.bars (p : Place) : List Nat := p.t.bar :: p.g.bars

/-- What the exit of a warp's last lane sets off: its barriers hear of it 2 cc later, its wait for tempi
ends, its team may retire (07 R190, 10 R247, 06 R158). -/
def lastExit (s : State) (p : Place) : State :=
  match s.warps.get? p.key with
  | none => s
  | some w =>
    if w.exited = 0xFFFFFFFF#32 then
      let s := { s with exits := s.exits ++ p.bars.map fun b => (⟨s.coreCc p.t.core + 2, b, p.key⟩ : ExitMsg) }
      retireTeam (s.dropWait p.key p.t.core) p.w.team
    else s

/-- A warp that has become Blocked ends its tempo wait and its yield (10 R247, 13 R356). -/
def State.endYield (s : State) (w : Nat) : State :=
  match s.warps.get? w with
  | some x => if x.st = .blocked then (s.dropWait w (s.warpCore w)).modWarp w fun x => { x with yieldUntil := 0 } else s
  | none => s

/-- Lanes exit. -/
def Warp.exitLanes (w : Warp) (m : LaneMask) : Warp :=
  let w := w.setPcs m 0xFFFFFFFF#32
  { w with
    exited := w.exited ||| m
    entering := w.entering &&& ~~~ m
    inside := w.inside.filter fun lw => ¬ m.getLsbD lw.1
    bpExempt := w.bpExempt &&& ~~~ m
    resv := w.resv.filter fun lr => ¬ m.getLsbD lr.1 }

/-- `exit`: lanes with an incomplete operand-log entry wait first, with kind PAGE where a page fault holds the entry
(13 R355; 08 R208; log 43). -/
def execExit (x : Gd) (s : State) : Host.Outcome State Fault Refusal :=
  settle s fun p i => withOperands s p i x.g [] [] fun active =>
    match checkDone p i active with
    | .error e => .error e
    | .ok _ =>
      let s := s.modWarp p.key fun w => (w.stepOver (i.path &&& ~~~ active) i.pc i.len i.last).exitLanes active
      let s := (lanesOf active).foldl (fun s l => s.closeLane p allPorts l 2) s
      .ok ((lastExit s p).endYield p.key)

/-! ## Yield and hints (13 R356, 17 R446) -/

/-- The warp defers to others for n cc. -/
def State.defer (s : State) (p : Place) (n : Nat) : State :=
  s.modWarp p.key fun w => { w with yieldUntil := Nat.max w.yieldUntil (s.coreCc p.t.core + n) }

def execYield (x : Gd) (s : State) : Host.Outcome State Fault Refusal :=
  settle s fun p i => withOperands s p i x.g [] [] fun _ => .ok ((s.defer p 64).retire i)

/-- The line of `.text` behind that of a PC enters L0; one that cannot be fetched does not, and no fault is taken. -/
def prefetchText (s : State) (p : Place) (pc : Word) : State :=
  let next : Word := BitVec.ofNat 32 (pc.toNat / 128 * 128 + 128)
  if p.gr.textl ≤ pc.toNat / 128 * 128 + 128 ∨ ¬ canonicalVa (codeVa p next) then s
  else match codeLine s p next with
  | .ok r => r.1
  | .error _ => s

/-- `hint`: k = 0 defers for 16 cc, k = 1 prefetches the next line of `.text` into L0 (17 R446); no other has an effect.
The guard selects nothing. -/
def execHint (x : HintF) (s : State) : Host.Outcome State Fault Refusal :=
  settle s fun p i =>
    .ok ((if x.k = 0 then s.defer p 16 else if x.k = 1 then prefetchText s p i.pc else s).retire i)

/-- `nop`: its guard is ignored (13 R357). -/
def execNop (_x : Gd) (s : State) : Host.Outcome State Fault Refusal :=
  settle s fun _ i => .ok (s.retire i)

/-! ## Votes (13 R358) and `getpc` (13 R359) -/

def voteTo (g : Guard) (pd : Fin 8) (srcs : List Src) (f : Place → LaneMask → State → Bool) (s : State) :
    Host.Outcome State Fault Refusal :=
  settle s fun p i => withOperands s p i g srcs [] fun active =>
    let m : LaneMask := if f p active s then active else 0#32
    .ok (((s.consume p active srcs).modWarp p.key fun w => w.writeP pd active m).retire i)

def execVoteOr (x : VoteP) (s : State) : Host.Outcome State Fault Refusal :=
  voteTo x.g x.pd [] (fun p m _ => decide (p.w.getP x.ps &&& m ≠ 0#32)) s
def execVoteAnd (x : VoteP) (s : State) : Host.Outcome State Fault Refusal :=
  voteTo x.g x.pd [] (fun p m _ => decide (p.w.getP x.ps &&& m = m)) s
def execVoteSame (x : VoteS) (s : State) : Host.Outcome State Fault Refusal :=
  voteTo x.g x.pd [src1 x.a] (fun p m s =>
    (lanesOf m).all fun l => srcVals s p l [] [src1 x.a] = srcVals s p (lowLane m) [] [src1 x.a]) s

/-- A word the same for every active lane. -/
def wordTo (g : Guard) (d : Operand) (f : Place → Issue → LaneMask → Word) (s : State) :
    Host.Outcome State Fault Refusal :=
  settle s fun p i => withOperands s p i g [] [(d, 1)] fun active =>
    .ok ((s.writeOp p active d fun _ => [f p i active]).retire i)

def execVoteMask (x : VoteM) (s : State) : Host.Outcome State Fault Refusal :=
  wordTo x.g x.d (fun p _ m => p.w.getP x.ps &&& m) s
def execGetpc (x : GDst) (s : State) : Host.Outcome State Fault Refusal := wordTo x.g x.d (fun _ i _ => i.pc) s

/-! ## Predicates (13 R351) -/

def execPand (x : P3) (s : State) : Host.Outcome State Fault Refusal :=
  runTest x.h [] x.pd (fun p l _ => (p.w.getP x.pa).getLsbD l && (p.w.getP x.pb).getLsbD l) s
def execPor (x : P3) (s : State) : Host.Outcome State Fault Refusal :=
  runTest x.h [] x.pd (fun p l _ => (p.w.getP x.pa).getLsbD l || (p.w.getP x.pb).getLsbD l) s
def execPxor (x : P3) (s : State) : Host.Outcome State Fault Refusal :=
  runTest x.h [] x.pd (fun p l _ => (p.w.getP x.pa).getLsbD l != (p.w.getP x.pb).getLsbD l) s
def execPnot (x : P2) (s : State) : Host.Outcome State Fault Refusal :=
  runTest x.h [] x.pd (fun p l _ => !(p.w.getP x.pa).getLsbD l) s
/-- `pmov` to a predicate: bit i of lane i's word. -/
def execPmovToPred (x : PToF) (s : State) : Host.Outcome State Fault Refusal :=
  runTest x.h [src1 x.a] x.pd (fun _ l vs => ((vs.getD 0 []).headD 0#32).getLsbD l) s
/-- `pmov` from a predicate and `pcnt` read every bit of it, also of lanes outside the path. -/
def execPmovFromPred (x : PFromF) (s : State) : Host.Outcome State Fault Refusal :=
  runAlu 0 x.h [] x.d 1 (fun p _ _ => ([p.w.getP x.pa], Counts.none)) s
def execPcnt (x : PFromF) (s : State) : Host.Outcome State Fault Refusal :=
  runAlu 0 x.h [] x.d 1 (fun p _ _ => ([BitVec.ofNat 32 (popCount (p.w.getP x.pa))], Counts.none)) s

/-! ## Traps and returns -/

/-- `trap` (17 R441): USER in every active lane, with the immediate as its value. -/
def execTrap (x : TrapF) (s : State) : Host.Outcome State Fault Refusal :=
  settle s fun p i => withOperands s p i x.g [] [] fun active =>
    .error (.trap .user 0 active (x.imm.setWidth 64))

/-- `rte` (17 R442): ILLEGAL outside handler mode. -/
def execRte (x : Gd) (s : State) : Host.Outcome State Fault Refusal :=
  settle s fun p i =>
    if ¬ p.w.handler.on then .error (.trap .illegal 0 i.path 0#64)
    else withOperands s p i x.g [] [] fun active =>
      .ok (s.modWarp p.key fun w => returnFromTrap (w.stepOver (i.path &&& ~~~ active) i.pc i.len i.last))

end Sys2Proof.Machine
end

