-- ==== Sys2Proof/Machine/Mx.lean ====
section
/-! DEFINITION. The arithmetic of the numeric contracts (02 R78 to R90) and the shapes of matrix steps
(16 R405 to R407). -/

namespace Sys2Proof.Machine

/-- M, N, K, window bytes of A and B, time in cc at the native class, price (16 R406). -/
structure Shape where (m n k wa wb time price : Nat)
  deriving DecidableEq, Repr

def isMx8 (t : Ty) : Bool := t == .e4m3 || t == .e5m2 || t == .mxi8

/-- The shape of a pairing under a contract with a stream code; `none` where the pairing is not listed. -/
def shapeOf (contract : Nat) (a b : Ty) (code : Nat) : Option Shape :=
  match contract with
  | 1 => if (a == .bf16 && b == .bf16) || (a == .f16 && b == .f16) then some ⟨64, 64, 16, 32, 32, 8, 8⟩ else none
  | 2 => if isMx8 a && isMx8 b then some ⟨64, 64, 32, 32, 32, 8, 8⟩ else none
  | 3 =>
    if a == .e2m1 && b == .e2m1 then some ⟨64, 64, 64, 32, 32, 8, 8⟩
    else if a == .e2m1 && isMx8 b then some ⟨64, 64, 32, 16, 32, 8, 8⟩ else none
  | 4 => if a == .e4m3 && b == .e4m3 then some ⟨64, 64, 32, 32, 32, 8, 8⟩ else none
  | 5 =>
    if a == .z8 && b == .z8 then some ⟨64, 64, 32, 32, 32, 8, 8⟩
    else if a == .z4 && b == .z4 then some ⟨64, 64, 64, 32, 32, 8, 8⟩
    else if a == .z4 && b == .z8 then some ⟨64, 64, 32, 16, 32, 8, 8⟩
    else if a == .z8 && b == .z4 then some ⟨64, 64, 32, 32, 16, 8, 8⟩ else none
  | 6 => if a == .l16 && b == .l16 then some ⟨64, 64, 16, 32, 32, 8, 8⟩ else none
  | 7 => if a.isFloat && b.isFloat then
      some ⟨32, 32, 16, if a == .f32 then 64 else 32, if b == .f32 then 64 else 32, 8, 12⟩ else none
  | 8 => if a == .t2 && b == .i8 then some ⟨64, 64, 64, 16, 64, 4, 6⟩ else none
  | 9 =>
    if ¬ (a == .i8 && b == .i8) ∨ (1 ≤ code ∧ code ≤ 5) then none
    else some ⟨64, 64, 32, 32, 32, if code = 0 then 8 else 4 * 2 ^ (code + 1 - 7), 6⟩
  | _ => none

/-- The inverse of the rate at which a die class runs a contract (02 R90): 0 M, 1 L, 2 X, 3 T. -/
def slowdown (contract cls code : Nat) : Nat :=
  match contract, cls with
  | 6, 2 => 16 | 6, 0 => 32
  | 7, 0 => 24
  | 8, 0 => 4
  | 9, 0 => if code = 0 then 4 else 64
  | 3, 2 => 16
  | 1, 2 => 8 | 2, 2 => 8 | 4, 2 => 8 | 5, 2 => 8
  | _, _ => 1

/-- The type of an accumulator entry (02 R78); `none` under K.INT. -/
def entryTy (contract : Nat) : Option Ty :=
  match contract with
  | 1 | 2 | 3 | 4 | 7 => some .f32
  | 5 | 8 | 9 => some .i32
  | 6 => some .l16
  | _ => none

/-- Blocks a step holds: two when K is 64 under a contract of blocks (16 R411 BPS). -/
def blocksPer (sh : Shape) : Nat := if sh.k = 64 then 2 else 1

/-! ## Exact sums -/

def Val.isInf (neg : Bool) : Val → Bool
  | .inf n => n == neg
  | _ => false

/-- The exact sum of products: NaN, or an infinity, as 02 R80; an exact zero is +0. -/
def sumVals (vs : List Val) : Val :=
  if vs.any Val.isNan || (vs.any (Val.isInf false) && vs.any (Val.isInf true)) then .nan
  else if vs.any (Val.isInf false) then .inf false
  else if vs.any (Val.isInf true) then .inf true
  else
    let q : Int := vs.foldl (fun q v => match v with | .num _ _ e => min q e | _ => q) 0
    let t : Int := vs.foldl (fun t v => match v with | .num n m e => t + scaled n m e q | _ => t) 0
    .num (decide (t < 0)) t.natAbs q

/-- RNE into F32. -/
def toF32 (v : Val) : Nat := (fmtF32.encode v .rne true).1

/-- RNE(acc + g) (02 R80). -/
def f32Add (acc : Nat) (g : Nat) : Nat := toF32 (Val.add .rne (fmtF32.decode acc) (fmtF32.decode g))

/-- One term of a step: its k within the step, the positions of its A and B elements and their codes. -/
structure Term where (k ka kb a b : Nat)
  deriving DecidableEq, Repr

/-- The blocks of 32 k that the terms of a step reach. -/
def termBlocks (ts : List Term) : Nat := ts.foldl (fun n t => Nat.max n (t.k / 32 + 1)) 0

/-- I32 addition, wrapping, and whether it wrapped (02 R83). -/
def wrapAdd (acc : Nat × Nat) (t : Int) : Nat × Nat :=
  let r := intOf .i32 acc.1 + t
  (wrapTo 32 r, acc.2 + (if r < -(2 ^ 31) ∨ (2 ^ 31 : Int) ≤ r then 1 else 0))

/-- One entry of a short accumulator after a step (16 R407), and the events of the entry. `sa` and `sb` give the
scale or zero point of the entry's row and column for a block; `key` is the stream key. Under the block contracts a
special operand makes its block's term NaN (02 R81; log 61). -/
def entryStep (contract : Nat) (a b : Ty) (code key i j : Nat) (sa sb : Nat → Nat) (ts : List Term) (acc : Nat) :
    Nat × Counts :=
  let prod (t : Term) : Val := Val.mul (elemVal a 0 t.a) (elemVal b 0 t.b)
  let noEv (n : Nat) : Nat × Counts := (n, Counts.none)
  let zw (r : Nat × Nat) : Nat × Counts := (r.1, { Counts.none with zwrap := r.2 })
  match contract with
  | 1 => noEv (f32Add acc (toF32 (sumVals (ts.map prod))))
  | 2 | 3 =>
    let block (k : Nat) : Val :=
      let us := ts.filter fun t => t.k / 32 = k
      if sa k = 255 ∨ sb k = 255 ∨ us.any (fun t => isSpecial (elemVal a 0 t.a) || isSpecial (elemVal b 0 t.b)) then .nan
      else (sumVals (us.map prod)).scale ((sa k : Int) + sb k - 254)
    noEv ((List.range (termBlocks ts)).foldl (fun acc k => f32Add acc (toF32 (block k))) acc)
  | 5 => zw (ts.foldl (fun r t =>
      wrapAdd r (((t.a : Int) - sa (t.k / 32)) * ((t.b : Int) - sb (t.k / 32)))) (acc, 0))
  | 6 =>
    let r := ts.foldl (fun (r : Nat × Nat) t =>
      let m := lMulDiv .l16 false false t.a t.b
      let s := lAdd .l16 false false r.1 m.1
      (s.1, r.2 + m.2 + s.2)) (acc % 2 ^ 16, 0)
    (r.1, { Counts.none with lsat := r.2 })
  | 8 => zw (ts.foldl (fun r t => wrapAdd r (t2Val t.a * intOf .i8 t.b)) (acc, 0))
  | 9 => zw (ts.foldl (fun r t =>
      let x := intOf .i8 t.a
      let y := intOf .i8 t.b
      wrapAdd r (if code = 0 then x * y else streamMul (code + 1) key i t.ka j t.kb x y)) (acc, 0))
  | _ => noEv acc

/-- The exact partial of a K.FS8 step in units of 2^-18, `none` when a NaN element takes part (02 R82). -/
def fs8Part (ts : List Term) : Option Int :=
  match sumVals (ts.map fun t => Val.mul (fmtE4m3.decode t.a) (fmtE4m3.decode t.b)) with
  | .num n m e => some (scaled n m e (-18))
  | _ => none

/-- Promotion of a K.FS8 block: t = RNE(s × sa × sb), then the addition (02 R82). -/
def fs8Promote (part : Int) (nan : Bool) (sa sb : Nat) (acc : Nat) : Nat :=
  let s : Val := if nan then .nan else .num (decide (part < 0)) part.natAbs (-18)
  f32Add acc (toF32 (Val.mul s (Val.mul (fmtF32.decode sa) (fmtF32.decode sb))))

/-- One long entry after a step (02 R85). -/
def longStep (a b : Ty) (ts : List Term) (e : LongEntry) : LongEntry :=
  let ps := ts.map fun t => Val.mul (elemVal a 0 t.a) (elemVal b 0 t.b)
  let sum : Int := ps.foldl (fun t v => match v with | .num n m x => t + scaled n m x (-298) | _ => t) 0
  let r := e.n.toInt + sum
  let above : Bool := decide ((2 ^ 639 : Int) ≤ r)
  let under : Bool := decide (r < -(2 ^ 639 : Int))
  { n := if above || under then e.n else BitVec.ofInt 640 r
    nan := e.nan || ps.any Val.isNan
    pinf := e.pinf || ps.any (Val.isInf false) || above
    ninf := e.ninf || ps.any (Val.isInf true) || under }

/-- The value of a long entry at read-out (02 R86). -/
def longVal (e : LongEntry) : Val :=
  if e.nan || (e.pinf && e.ninf) then .nan
  else if e.pinf then .inf false
  else if e.ninf then .inf true
  else .num (decide (e.n.toInt < 0)) e.n.toInt.natAbs (-298)

/-- A long entry set from an F32 word (16 R421). -/
def longOf (x : Nat) : LongEntry :=
  match fmtF32.decode x with
  | .num n m e => { LongEntry.zero with n := BitVec.ofInt 640 (scaled n m e (-298)) }
  | .inf neg => { LongEntry.zero with pinf := !neg, ninf := neg }
  | _ => { LongEntry.zero with nan := true }

/-! ## Fragments (16 R405, R415) -/

/-- The elements of width w of bytes. -/
def byteElems (w : Nat) (bs : List Byte) : List Nat := splitElems w (bs.length * 8 / w) (natLE bs)

/-- Window s, taken modulo 64 / W, of a 64-byte row. -/
def windowOf (wb s : Nat) (row : List Byte) : List Byte := (row.drop (s % (64 / wb) * wb)).take wb

/-- Terms of dense fragments in ascending k; `pa` and `pb` are the positions of element 0 in the tile rows. -/
def denseTerms (pa pb : Nat) (as bs : List Nat) : List Term :=
  (as.zip bs).zipIdx.map fun ab => ⟨ab.2, pa + ab.2, pb + ab.2, ab.1.1, ab.1.2⟩

/-- The zero of a matrix operand type. -/
def zeroCode (t : Ty) : Nat := if t = .l16 then 0x4000 else 0

/-- Terms of a 2-of-4 fragment row with metadata `md` (its bits from K_d × i on): by dense k, and within one k by
kept element; a k without a kept element has a zero. -/
def sparseTerms (kd md zc : Nat) (as bs : List Nat) : List Term :=
  let kept := as.zipIdx.map fun ae => (4 * (ae.2 / 2) + md / 2 ^ (2 * ae.2) % 4, ae.1)
  (List.range kd).flatMap fun k =>
    let b := bs.getD k 0
    match kept.filter fun ka => ka.1 = k with
    | [] => [⟨k, k, k, zc, b⟩]
    | xs => xs.map fun ka => ⟨k, k, k, ka.2, b⟩

end Sys2Proof.Machine
end

