-- ==== Sys2Proof/Machine/Tile.lean ====
section
/-! DEFINITION. Tile loads and stores, transposes, accumulator moves, read-outs and the team scale binding
(16 R413, R414, R419 to R422), and the scoreboard of tiles and accumulators (16 R408). -/

namespace Sys2Proof.Machine

/-! ## Checks of tiles and accumulators (01 R30; 16 R408, R418) -/

/-- REGNUM of tiles and accumulators, for the whole path. -/
def checkTA (p : Place) (i : Issue) (ts as : List Nat) : Except Stop Unit :=
  if ts.all (· < p.w.ta) && as.all (· < p.w.aa) then .ok () else .error (.trap .regnum 0 i.path 0#64)

/-- Tiles that a step of the instruction reads. -/
def stepTiles : Instr → List Nat
  | .mma x => [x.ta.val, x.tb.val]
  | .mmas x => [x.ta.val, x.tb.val]
  | .mmsp x => [x.ta.val, x.tb.val]
  | _ => []

/-- A write to a tile that an unstarted step of the warp still has to read. -/
def stepReads (s : State) (p : Place) (writes : List Nat) : Bool :=
  (s.core p.t.core).mq.any fun m => decide (m.warp = p.key) && decide (m.ends = none)
    && (stepTiles m.instr).any writes.contains

/-- Tiles that an entry of the operand log will write, and those it still reads. -/
def logTiles : Instr → List Nat × List Nat
  | .tld x => ([x.t.val], [])
  | .tst x => ([], [x.t.val])
  | _ => ([], [])

/-- Tiles free to be read and written: a reader of the tile of an incomplete load, and a writer of that of an incomplete
store, wait, with kind PAGE on a page fault; an unstarted step is a stall. A writer of the tile of a load retires
past it (06 R168). -/
def checkTiles (s : State) (p : Place) (i : Issue) (reads writes : List Nat) : Except Stop Unit :=
  match p.w.log.filter fun ke =>
      let t := logTiles ke.2.instr
      (reads.any t.1.contains && decide (ke.2.open &&& ~~~ ke.2.dead.getD 0 0#32 ≠ 0#32)) || writes.any t.2.contains with
  | ke :: es => match (ke :: es).find? fun je => (pageHeld p.w.log).contains je.1 with
    | some je => .error (.block (allLanes i.path (.page je.1)))
    | none => .error .stall
  | [] => if stepReads s p writes then .error .stall else .ok ()

/-- The loads older than a writer of their tiles no longer write the rows of its lanes (06 R168). -/
def supersedeTiles (p : Place) (i : Issue) (rows : LaneMask) (writes : List Nat) (t : State) : State :=
  if p.w.log.all fun ke => !(logTiles ke.2.instr).1.any writes.contains then t
  else t.modWarp p.key fun w =>
    if w.pc (lowLane i.path) = i.pc ∨ (w.handler.on ∧ ¬ p.w.handler.on) then w
    else { w with log := w.log.mapV fun k e =>
      if p.w.log.has k && (logTiles e.instr).1.any writes.contains then
        { e with dead := e.dead.put 0 (e.dead.getD 0 0#32 ||| rows) } else e }

/-- The accumulator belongs to a loop that has not resolved. -/
def loopLocked (s : State) (p : Place) (a : Nat) : Bool :=
  s.mloops.any fun km => decide (km.2.warp = p.key) && decide (km.2.acc = a)

/-- Accumulators free of loops and of unfinished steps; a step whose scales wait on a page fault blocks with
kind PAGE (16 R412). -/
def checkAccs (s : State) (p : Place) (i : Issue) (as : List Nat) : Except Stop Unit :=
  if as.any (loopLocked s p) then .error .stall
  else match (s.core p.t.core).mq.find? fun m => decide (m.warp = p.key) && as.contains m.acc with
    | none => .ok ()
    | some m => match m.entry with
      | some k => if (p.w.log.get? k).any (fun e => e.faults ≠ []) then .error (.block (allLanes i.path (.page k)))
          else .error .stall
      | none => .error .stall

/-- The frame of a tile or accumulator instruction: REGNUM, sources, then the scoreboard. Of the tiles it writes, the
first 128 × `rows` bytes are written. -/
def withTileRows (rows : Nat) (s : State) (p : Place) (i : Issue) (g : Guard) (srcs : List Src)
    (reads writes accs : List Nat) (k : LaneMask → Except Stop State) : Except Stop State :=
  match checkTA p i (reads ++ writes) accs with
  | .error e => .error e
  | .ok _ => withOperands s p i g srcs [] fun active =>
    match checkTiles s p i reads writes with
    | .error e => .error e
    | .ok _ => match checkAccs s p i accs with
      | .error e => .error e
      | .ok _ => (k active).map (supersedeTiles p i (BitVec.ofNat 32 (2 ^ rows - 1)) writes)

/-- The frame of an instruction that writes whole tiles. -/
def withTiles (s : State) (p : Place) (i : Issue) (g : Guard) (srcs : List Src) (reads writes accs : List Nat)
    (k : LaneMask → Except Stop State) : Except Stop State := withTileRows 32 s p i g srcs reads writes accs k

/-- A cause of the whole path that comes before REGNUM. -/
def guardIll (ok : Bool) (i : Issue) (k : Except Stop State) : Except Stop State :=
  if ok then k else .error (.trap .illegal 0 i.path 0#64)

/-- The entry type of the contract; under K.INT every accumulator reference raises REGNUM (01 R30). -/
def withEntry (p : Place) (i : Issue) (k : Ty → Except Stop State) : Except Stop State :=
  match entryTy p.gr.contract with
  | some t => k t
  | none => .error (.trap .regnum 0 i.path 0#64)

/-! ## Tile loads and stores (16 R419) -/

/-- The poison pattern of an element of any type: the canonical NaN of a float type that has one, else ones. -/
def poisonElem (t : Ty) : Nat := ((fmtOf t).bind (·.nan)).getD (2 ^ t.width - 1)

/-- 64 bytes filled with the poison pattern. -/
def poisonRow (t : Ty) : List Byte := bytesLE 64 (joinElems t.width (List.replicate (512 / t.width) (poisonElem t)))

/-- One row of a tile load. -/
def rowOf (t : Ty) : Got → List Byte
  | .bytes bs => bs
  | _ => poisonRow t

/-- Both rows of one lane: translated first, then read and, unless superseded, written to the tile. -/
def tldLane (s : State) (p : Place) (x : TldF) (l : Nat) (va : DWord) (dead : Bool) : LaneRes :=
  accessLane s p .load false va fun s x0 => accessLane s p .load false (va + 64#64) fun s x1 =>
    let (s, g0) := s.readAt p.gr.ctx x0 64
    let (s, g1) := s.readAt p.gr.ctx x1 64
    if g0 = .denied ∨ g1 = .denied then .pin s pinAct
    else
      let s := if g0 = .poison ∨ g1 = .poison then s.poisoned p 1 else s
      .done (if dead then s else s.modWarp p.key fun w => w.tileWrite x.t.val (128 * l) (rowOf x.ty g0 ++ rowOf x.ty g1)) []

def tstLane (s : State) (p : Place) (x : TldF) (l : Nat) (va : DWord) : LaneRes :=
  let rows := ((s.warps.get? p.key).map fun w => w.tileRead x.t.val (128 * l) 128).getD []
  let s := s.readMarks p ((List.range 32).map fun k => markT x.t.val (32 * l + k))
  accessLane s p .store true va fun s x0 => accessLane s p .store true (va + 64#64) fun s x1 =>
    let put (s : State) (va : DWord) (y : Xlat) (bs : List Byte) : State :=
      s.writeAt p.gr.ctx (some (p.key, l)) p.gid (p.spotOf va.toNat) y bs
    if lineOf x0.loc = lineOf x1.loc ∧ x1.loc = x0.loc + 64 then .done (put s va x0 rows) []
    else .done (put (put s va x0 (rows.take 64)) (va + 64#64) x1 (rows.drop 64)) []

def tileVals (s : State) (p : Place) (x : TldF) (l : Nat) : LaneVals :=
  ⟨memAddr ((srcVals s p l [] [srcPair x.x]).getD 0 []) x.off, 0#64, 0#64⟩

def tileChk (s : State) (p : Place) (x : TldF) (write : Bool) (l : Nat) : AddrChk :=
  let va := (tileVals s p x l).va
  ⟨l, va, regionOk p.gr p.g.num va.toNat 128 (if write then .store false else .load false), va.toNat % 64 = 0,
    s.rangeLocked p.gr.ctx va.toNat 128 write⟩

/-- Issue of a tile load or store. -/
def tileIssue (s : State) (p : Place) (i : Issue) (ins : Instr) (x : TldF) (write : Bool)
    (run : State → Nat → DWord → LaneRes) (active : LaneMask) : Except Stop State :=
  let vals (l : Nat) : LaneVals := tileVals s p x l
  let ls := lanesOf active
  let off (l : Nat) : Nat := ((regionOf p.gr.regions p.g.num (vals l).va.toNat).map (·.1)).getD 0
  match checkTiles s p i (if write then [x.t.val] else []) (if write then [] else [x.t.val]) with
  | .error e => .error e
  | .ok _ => match checkEntry p i active with
  | .error e => .error e
  | .ok _ =>
    if ls.any fun l => s.stashBusy p.gid (off l) 128 write then .error .stall
    else
      let go := ls.filter fun l => !behindOlder p.w.log ins (fun l => (vals l).va) l
      let acc : AccKind := if write then .store else .load
      let go := laneOrder (fun k l => sameSpot s p acc 128 (vals k).va (vals l).va) ls go
      afterArrived s p i acc write (go.flatMap fun l => [(l, (vals l).va), (l, (vals l).va + 64#64)]) fun _ =>
        let s1 := s.consume p active [srcPair x.x]
        let r := go.foldl (fun (r : LaneRun) l =>
          r.step p none active (1#32 <<< l) [] l (vals l).va (run r.s l (vals l).va)) ⟨s1, 0#32, [], none⟩
        .ok (supersedeTiles p i active (if write then [] else [x.t.val]) (finishIssue r p i ins active vals))

def execTld (x : TldF) (s : State) : Host.Outcome State Fault Refusal :=
  settle s fun p i => match checkTA p i [x.t.val] [] with
    | .error e => .error e
    | .ok _ => withAddress s p i x.g [srcPair x.x] [srcPair x.x] [] id (tileChk s p x false)
        (tileIssue s p i (.tld x) x false fun s l va => tldLane s p x l va false)

def execTst (x : TldF) (s : State) : Host.Outcome State Fault Refusal :=
  settle s fun p i => match checkTA p i [x.t.val] [] with
    | .error e => .error e
    | .ok _ => withAddress s p i x.g [srcPair x.x] [srcPair x.x] [] id (tileChk s p x true)
        (tileIssue s p i (.tst x) x true fun s l va => tstLane s p x l va)

/-! ## `ttr` (16 R420) -/

/-- The source row and element of element (r, c) of the transposed tile. -/
def ttrFrom (e r c : Nat) : Nat × Nat :=
  if e < 64 then (r / e * e + c, r % e) else (c % 64, c / 64 * 64 + r)

def transposed (w : Nat) (tile : List Byte) : List Byte :=
  let e := 512 / w
  let rows := (List.range 64).map fun r => byteElems w ((tile.drop (64 * r)).take 64)
  (List.range 64).flatMap fun r => bytesLE 64 (joinElems w ((List.range e).map fun c =>
    let (sr, sc) := ttrFrom e r c
    (rows.getD sr []).getD sc 0))

/-- The elements of a tile and of an accumulator that a reader of the whole of it reads (18 R448). -/
def tileKeys (t : Nat) : List Nat := (List.range 1024).map (markT t)
def accKeys (a : Nat) : List Nat := (List.range 4096).map (markA a)

def execTtr (x : TtrF) (s : State) : Host.Outcome State Fault Refusal :=
  settle s fun p i => withTiles s p i x.g [] [x.a.val] [x.d.val] [] fun _ =>
    .ok (((s.readMarks p (tileKeys x.a.val)).modWarp p.key fun w => w.tileWrite x.d.val 0 (transposed x.ty.width (w.tileRead x.a.val 0 4096))).retire i)

/-! ## Accumulator moves (16 R421) -/

/-- The accumulator's entries replaced by those of another. -/
def Warp.copyAcc (w : Warp) (long : Bool) (d a : Nat) : Warp :=
  if long then w.laccFill d (Sparse.read LongEntry.zero w.laccs (1024 * a) 1024)
  else w.accFill d (Sparse.read 0#32 w.accs (4096 * a) 4096)

def execAmov (x : AmovF) (s : State) : Host.Outcome State Fault Refusal :=
  settle s fun p i => withTiles s p i x.g [] [] [] [x.d.val, x.a.val] fun _ =>
    .ok (((s.readMarks p (accKeys x.a.val)).modWarp p.key fun w => w.copyAcc p.gr.longAcc x.d.val x.a.val).retire i)

/-- The word of the lowest active lane. -/
def lowWord (s : State) (p : Place) (active : LaneMask) (x : Src) : Word :=
  ((srcVals s p (lowLane active) [] [x]).headD []).headD 0#32

def execAset (x : AsetF) (s : State) : Host.Outcome State Fault Refusal :=
  settle s fun p i => withEntry p i fun et => guardIll (et = x.ty) i
    (withTiles s p i x.g [srcOf x.ty x.v] [] [] [x.d.val] fun active =>
      let v := lowWord s p active (srcOf x.ty x.v)
      .ok (((s.consume p active [srcOf x.ty x.v]).modWarp p.key fun w =>
        if p.gr.longAcc then w.laccFill x.d.val (List.replicate 1024 (longOf v.toNat))
        else w.accFill x.d.val (List.replicate 4096 v)).retire i))

def execAzero (x : AzeroF) (s : State) : Host.Outcome State Fault Refusal :=
  settle s fun p i => withTiles s p i x.g [] [] [] [x.d.val] fun _ =>
    .ok ((s.modWarp p.key fun w =>
      if p.gr.longAcc then w.laccFill x.d.val (List.replicate 1024 LongEntry.zero)
      else w.accFill x.d.val (List.replicate 4096 (if p.gr.contract = 6 then 0x4000#32 else 0#32))).retire i)

/-! ## Read-out (16 R422) -/

/-- One entry read out in a type: code and events. Under K.L16 bits [31:16] are not read (02 R84). -/
def ardElem (et t : Ty) (mode : RMode) (e : Word) : Nat × Nat :=
  convElem et t 0 0 mode (t.isFloat || t == .e5m2) (e.toNat % 2 ^ et.width)

/-- Tiles that a read-out takes. -/
def ardTiles (long : Bool) (t : Ty) : Nat := if long then 1 else Nat.max 1 (4096 * t.width / 32768)

/-- A long entry read out in a type: one rounding to F32, whose word is then encoded to the type (02 R86; 16 R422). -/
def ardLong (t : Ty) (mode : RMode) (e : LongEntry) : Nat × Nat :=
  let f := fmtF32.encode (longVal e) mode true
  let r := elemOf t 0 mode true (fmtF32.decode f.1)
  (r.1, f.2 + r.2)

/-- The kernel admits the type and the tile group of an `ard` (16 R422). -/
def ardOk (long : Bool) (x : ArdF) : Bool := (!long || x.ty.isFloat) && x.t.val % Nat.min (ardTiles long x.ty) 8 = 0

def execArd (x : ArdF) (s : State) : Host.Outcome State Fault Refusal :=
  settle s fun p i =>
    let long := p.gr.longAcc
    guardIll (ardOk long x) i (withEntry p i fun et =>
      withTileRows (Nat.min 32 ((if long then 1 else 4) * x.ty.width)) s p i x.g [] []
          ((List.range (ardTiles long x.ty)).map (x.t.val + ·)) [x.a.val] fun _ =>
        let es : List (Nat × Nat) :=
          if long then (Sparse.read LongEntry.zero p.w.laccs (1024 * x.a.val) 1024).map (ardLong x.ty x.rm)
          else (Sparse.read 0#32 p.w.accs (4096 * x.a.val) 4096).map (ardElem et x.ty x.rm)
        let bs := bytesLE (es.length * x.ty.width / 8) (joinElems x.ty.width (es.map (·.1)))
        .ok ((((s.readMarks p (accKeys x.a.val)).count p.t.core { Counts.none with cvsat := (es.map (·.2)).foldl (· + ·) 0 }).modWarp p.key fun w =>
          w.tileWrite x.t.val 0 bs).retire i))

/-! ## Team scale binding (16 R413, R414) -/

/-- Replaces bits [lo+w−1:lo]. -/
def putBits {n : Nat} (x : BitVec n) (lo w v : Nat) : BitVec n :=
  BitVec.ofNat n (x.toNat - x.toNat / 2 ^ lo % 2 ^ w * 2 ^ lo + v % 2 ^ w * 2 ^ lo)

/-- Base, shift and BC bit of one operand. -/
def bindScale (isB : Bool) (base : Nat) (v : Word) (b : BitVec 512) : BitVec 512 :=
  if isB then putBits (putBits (putBits b 384 64 base) 8 6 (bits v 5 0)) 15 1 (bits v 6 6)
  else putBits (putBits (putBits b 448 64 base) 0 6 (bits v 5 0)) 14 1 (bits v 6 6)

def execScb (x : ScbF) (s : State) : Host.Outcome State Fault Refusal :=
  settle s fun p i =>
    let srcs := [srcPair x.x, src1 x.v]
    withOperands s p i x.g srcs [] fun active =>
      let vs := srcVals s p (lowLane active) [] srcs
      .ok (((s.consume p active srcs).modTeam p.w.team fun t =>
        { t with scb := bindScale x.isB (wordsNat (vs.getD 0 [])) ((vs.getD 1 []).headD 0#32) t.scb }).retire i)

/-- `scinv`: every scale read of the model returns the current value (log 7). -/
def execScinv (x : Gd) (s : State) : Host.Outcome State Fault Refusal :=
  settle s fun p i => withOperands s p i x.g [] [] fun _ => .ok (s.retire i)

end Sys2Proof.Machine
end

