-- ==== Sys2Proof/Machine/Matrix.lean ====
section
/-! DEFINITION. Matrix steps and loops (16 R405 to R418), the slew limiter (10 R250 to R252), and their events. -/

namespace Sys2Proof.Machine

/-! ## Scales (16 R411, R412) -/

/-- Byte size of a scale and its poison pattern. -/
def scaleSize (contract : Nat) : Nat := if contract = 4 then 4 else 1
def scalePoison (contract : Nat) : Nat := if contract = 4 then 0x7FC00000 else 0xFF

/-- Address of the scale of row x for scale index q, of operand A or B. -/
def scaleAddr (scb : BitVec 512) (isB : Bool) (contract x q : Nat) : Nat :=
  let base := if isB then bits scb 447 384 else bits scb 511 448
  let sh := if isB then bits scb 13 8 else bits scb 5 0
  let bc := if isB then scb.getLsbD 15 else scb.getLsbD 14
  (base + (if bc then 0 else x * 2 ^ sh % 2 ^ 64) + q * scaleSize contract) % 2 ^ 64

/-- How a run of plain loads ends. -/
inductive Loads
  | ok (s : State) (bs : List Byte) (poison : Bool)
  | region (va : DWord)
  | locked (va : DWord)
  | fault (s : State) (f : Nat × Word)
  | full
  | denied (s : State)

/-- The bytes of one piece that lies in one line: an engine's lock on its range or surface refuses it (08 R215; 11 R290),
and bytes of the window that an engine writes make it wait (11 R291). -/
def loadPiece (s : State) (p : Place) (va n : Nat) : Loads :=
  if ¬ regionOk p.gr p.g.num va n (.load false) then .region (BitVec.ofNat 64 va)
  else if s.rangeLocked p.gr.ctx va n false then .locked (BitVec.ofNat 64 va)
  else if s.windowBusy p va n false then .full
  else match translate s (coreTlbs p.t.core) p.gr.ctx va .load with
  | .error (k, l) => match joinFault s (coreDie p.t.core) p.gr.ctx (BitVec.ofNat 64 va) .load k l p.g.grid with
    | some (s, f) => .fault (emitFaults s) (coreDie p.t.core, f)
    | none => .full
  | .ok (s, x) =>
    if s.surfLocked p.gr.ctx x.surf then .locked (BitVec.ofNat 64 va)
    else match s.readAt p.gr.ctx x n with
    | (s, .bytes bs) => .ok s bs false
    | (s, .poison) => .ok s (List.replicate n 0xFF#8) true
    | (s, .denied) => .denied s

/-- n bytes, line by line; `k` bounds the number of lines. -/
def loadSpan (s : State) (p : Place) (va n : Nat) : Nat → Loads
  | 0 => .ok s [] false
  | k + 1 =>
    if n = 0 then .ok s [] false
    else
      let m := Nat.min n (128 - va % 128)
      match loadPiece s p va m with
      | .ok s bs ps => (match loadSpan s p ((va + m) % 2 ^ 64) (n - m) k with
        | .ok s rest ps' => .ok s (bs ++ rest) (ps || ps')
        | e => e)
      | e => e

/-- A list of spans: the bytes of each, and how many were poisoned. -/
inductive Spans
  | ok (s : State) (rows : List (List Byte)) (poisoned : List Bool)
  | region (va : DWord)
  | locked (va : DWord)
  | fault (s : State) (f : Nat × Word)
  | full
  | denied (s : State)

def loadSpans (p : Place) (n : Nat) : List Nat → State → Spans
  | [], s => .ok s [] []
  | va :: vas, s => match loadSpan s p va n (n / 128 + 2) with
    | .ok s bs ps => (match loadSpans p n vas s with
      | .ok s rows pss => .ok s (bs :: rows) (ps :: pss)
      | e => e)
    | .region va => .region va
    | .locked va => .locked va
    | .fault s f => .fault s f
    | .full => .full
    | .denied s => .denied s

/-- Scale values of spans: a poisoned one reads as the pattern, and each counts. -/
def scaleVals (contract : Nat) (rows : List (List Byte)) (ps : List Bool) : List Nat :=
  (rows.zip ps).map fun rp => if rp.2 then scalePoison contract else natLE rp.1

def countTrue (ps : List Bool) : Nat := (ps.filter id).length

/-- The scale addresses of a step: 64 for each scale index, of A, then of B. -/
def scaleAddrs (scb : BitVec 512) (isB : Bool) (contract : Nat) (qs : List Nat) : List Nat :=
  qs.flatMap fun q => (List.range 64).map fun x => scaleAddr scb isB contract x q

/-! ## Admission (16 R410, R411, R415, R416, R423) -/

/-- Contracts of `mma` and `mloop`, of the scaled forms, and of the sparse forms. -/
def denseOk (c : Nat) : Bool := 1 ≤ c && c ≤ 9 && c ≠ 4
def scaledOk (c : Nat) : Bool := c = 2 || c = 3 || c = 5
def sparseOk (c : Nat) : Bool := c = 1 || c = 2 || c = 3 || c = 5 || c = 6 || c = 8

/-- ILLEGAL of a form, a pairing, or an operand that does not suit the shape, then RESV of a stream code outside K.SC (06
R176; 16 R423). -/
def withShapeFor (good : Shape → Bool) (p : Place) (i : Issue) (ok : Bool) (a b : Ty) (code : Nat)
    (k : Shape → Except Stop State) : Except Stop State :=
  match (if ok then shapeOf p.gr.contract a b code else none) with
  | none => .error (.trap .illegal 0 i.path 0#64)
  | some sh =>
    if ¬ good sh then .error (.trap .illegal 0 i.path 0#64)
    else if p.gr.contract ≠ 9 ∧ code ≠ 0 then .error (.trap .resv 0 i.path 0#64) else k sh

def withShape (p : Place) (i : Issue) (ok : Bool) (a b : Ty) (code : Nat) (k : Shape → Except Stop State) : Except Stop State :=
  withShapeFor (fun _ => true) p i ok a b code k

/-- Inserts a step behind those that drew earlier, or in the same cc for an older warp (16 R408). A step that is no longer
the first of the order does not wait for a grant (10 R251). -/
def insertStep (m : MStep) : List MStep → List MStep
  | [] => [m]
  | x :: xs => if m.drawn < x.drawn ∨ (m.drawn = x.drawn ∧ m.warp < x.warp ∧ x.ends = none) then
      m :: { x with waits := none } :: xs
      else x :: insertStep m xs

/-- The first step of the order begins to wait for a grant once the array is free and its scales are present (10 R251). -/
def markWaiting (cc : Nat) : List MStep → List MStep
  | [] => []
  | m :: ms => if m.ends = none ∧ m.entry = none ∧ m.waits = none then { m with waits := some cc } :: ms else m :: ms

def State.queueStep (s : State) (core : Nat) (m : MStep) : State :=
  s.modCore core fun c => { c with mq := markWaiting (s.coreCc core) (insertStep m c.mq) }

/-- Steps leave a core with their warps; the step that is first now begins to wait for a grant (10 R251). -/
def Core.dropSteps (cc : Nat) (ws : List Nat) (c : Core) : Core :=
  if c.mq.any fun m => ws.contains m.warp then { c with mq := markWaiting cc (c.mq.filter fun m => !ws.contains m.warp) } else c

def State.dropSteps (s : State) (ws : List Nat) : State :=
  if s.cores.any fun kc => kc.2.mq ≠ [] then { s with cores := s.cores.mapV fun k c => c.dropSteps (s.coreCc k) ws } else s

/-- The scoreboard of a single step, and then its draw: until the step before it on its accumulator has ended it stalls,
drawing nothing (10 R246, R249; 16 R408; 23 R487). -/
def stepBoard (s : State) (p : Place) (i : Issue) (tiles : List Nat) (acc : Nat) : Except Stop Unit :=
  match checkTiles s p i tiles [] with
  | .error e => .error e
  | .ok _ => checkAccs s p i [acc]

/-- The time of a step of a sparse form: half that of the dense one on this die, at least 4 cc (16 R406, R415). -/
def sparseTime (sh : Shape) (slow : Nat) : Nat := Nat.max 4 (sh.time * slow / 2)

/-- The frame of a single matrix step. -/
def withStepAfter (board : Except Stop Unit) (s : State) (p : Place) (i : Issue) (g : Guard) (srcs : List Src) (tiles : List Nat)
    (acc price : Nat) (k : State → LaneMask → Except Stop State) : Except Stop State :=
  match checkTA p i tiles [acc] with
  | .error e => .error e
  | .ok _ => withPriceAfter board s p i g srcs [] price k

def withStep (s : State) (p : Place) (i : Issue) (g : Guard) (srcs : List Src) (tiles : List Nat) (acc price : Nat)
    (k : State → LaneMask → Except Stop State) : Except Stop State :=
  withStepAfter (stepBoard s p i tiles acc) s p i g srcs tiles acc price k

def singleStep (s : State) (p : Place) (ins : Instr) (acc time : Nat) : MStep where
  warp := p.key
  acc := acc
  instr := ins
  src := .single
  sw := 0#32
  mdata := 0
  scaleA := []
  scaleB := []
  entry := none
  drawn := s.coreCc p.t.core
  time := time
  waits := none
  rowsA := []
  rowsB := []
  ends := none

/-- `mma` (16 R410). -/
def execMma (x : MmaF) (s : State) : Host.Outcome State Fault Refusal :=
  settle s fun p i => withShape p i (denseOk p.gr.contract) x.aty x.bty x.code.val fun sh =>
    withStep s p i x.g [src1 x.sw] [x.ta.val, x.tb.val] x.acc.val sh.price fun s active =>
      let m := singleStep s p (.mma x) x.acc.val (sh.time * slowdown p.gr.contract p.gr.cls x.code.val)
      .ok (((s.consume p active [src1 x.sw]).queueStep p.t.core { m with sw := lowWord s p active (src1 x.sw) }).retire i)

/-- `mmsp` (16 R415): the metadata group is read at issue, in every lane. -/
def execMmsp (x : MmspF) (s : State) : Host.Outcome State Fault Refusal :=
  settle s fun p i => withShapeFor (fun sh => x.m.aligned (sh.k / 16)) p i (sparseOk p.gr.contract) x.aty x.bty x.code.val fun sh =>
    let n := sh.k / 16
    let src : Src := ⟨x.m, n, []⟩
    let board : Except Stop Unit := match checkLog p i 0xFFFFFFFF#32 [(x.m, n)] [] with
      | .error e => .error e
      | .ok _ => stepBoard s p i [x.ta.val, x.tb.val] x.acc.val
    withStepAfter board s p i x.g [src] [x.ta.val, x.tb.val] x.acc.val 6 fun s _ =>
      let md := wordsNat ((List.range n).flatMap fun g => (List.range 32).map fun l =>
        match x.m with | .v r => p.w.getV (r.val + g) l | _ => 0#32)
      let m := singleStep s p (.mmsp x) x.acc.val (sparseTime sh (slowdown p.gr.contract p.gr.cls x.code.val))
      .ok (((s.consume p 0xFFFFFFFF#32 [src]).queueStep p.t.core { m with mdata := md }).retire i)

/-- The scale addresses of an `mmas`: 64 of each operand for each window and block. -/
def mmasAddrs (gr : Grid) (scb : BitVec 512) (sh : Shape) : List Nat :=
  let qs := List.range (2 * blocksPer sh)
  scaleAddrs scb false gr.contract qs ++ scaleAddrs scb true gr.contract qs

/-- Reads the 128 scales of each window and block of an `mmas`, by the binding it was issued with (16 R414). -/
def mmasScales (s : State) (p : Place) (scb : BitVec 512) (sh : Shape) : Spans × Nat :=
  (loadSpans p (scaleSize p.gr.contract) (mmasAddrs p.gr scb sh) s, 64 * (2 * blocksPer sh))

/-- The causes that an `mmas` raises as soon as it is chosen, whatever its pool holds (10 R246): regions and range locks of
its scales; and, where no scoreboard holds it back, what its reads meet. -/
def mmasEarly (s : State) (p : Place) (i : Issue) (x : MmasF) (sh : Shape) (active : LaneMask) : Except Stop Unit :=
  let n := scaleSize p.gr.contract
  let vas := mmasAddrs p.gr p.t.scb sh
  if active = 0#32 then .ok ()
  else match checkTA p i [x.ta.val, x.tb.val] [x.acc.val], vas.find? fun va => !regionOk p.gr p.g.num va n (.load false),
      vas.find? fun va => s.rangeLocked p.gr.ctx va n false with
  | .error _, _, _ => .ok ()
  | .ok _, some va, _ => .error (.pin pinRegion (BitVec.ofNat 64 va))
  | .ok _, none, some va => .error (.trap .rangelock 0 active (BitVec.ofNat 64 va))
  | .ok _, none, none => match stepBoard s p i [x.ta.val, x.tb.val] x.acc.val, checkEntry p i active, checkDone p i active with
    | .ok _, .ok _, .ok _ => (match (mmasScales s p p.t.scb sh).1 with
      | .locked va => .error (.trap .rangelock 0 active va)
      | .denied _ => .error (.pin pinAct 0#64)
      | _ => .ok ())
    | _, _, _ => .ok ()

/-- `mmas` (16 R411, R412): its scale reads are plain loads of the warp, held by an operand-log entry while a
page fault keeps them back; they come behind the lanes' earlier accesses (11 R280). -/
def execMmas (x : MmasF) (s : State) : Host.Outcome State Fault Refusal :=
  settle s fun p i => withShape p i (scaledOk p.gr.contract) x.aty x.bty x.code.val fun sh =>
    match mmasEarly s p i x sh (activeOf p i x.g) with
    | .error e => .error e
    | .ok _ => withStep s p i x.g [] [x.ta.val, x.tb.val] x.acc.val 16 fun s active =>
      let m := singleStep s p (.mmas x) x.acc.val (2 * sh.time * slowdown p.gr.contract p.gr.cls 0)
      match checkEntry p i active, checkDone p i active with
      | .error e, _ => .error e
      | .ok _, .error e => .error e
      | .ok _, .ok _ => match (mmasScales s p p.t.scb sh).1 with
        | .ok s rows ps =>
          let vs := scaleVals p.gr.contract rows ps
          let n := (mmasScales s p p.t.scb sh).2
          .ok (((s.poisoned p (countTrue ps)).queueStep p.t.core
            { m with scaleA := vs.take n, scaleB := vs.drop n }).retire i)
        | .region va => .error (.pin pinRegion va)
        | .locked va => .error (.trap .rangelock 0 active va)
        | .full => .error .stall
        | .denied _ => .error (.pin pinAct 0#64)
        | .fault s f =>
          let k := p.w.nextEntry
          let e : LogEntry := ⟨p.w.freeSlot, .mmas x, i.pc, i.path, active, 0#32, [], [], [], [(0, f)], false, [], p.t.core, p.t.scb⟩
          .ok (((s.modWarp p.key fun w => { w with log := w.log.put k e }).queueStep p.t.core
            { m with entry := some k }).retire i)

/-- The matrix queue with the scales of the step of a log entry filled in. -/
def fillScales (key k : Nat) (sa sb : List Nat) (q : List MStep) : List MStep :=
  q.map fun m => if m.warp = key ∧ m.entry = some k then { m with entry := none, scaleA := sa, scaleB := sb } else m

/-- An `mmas` entry whose fault has been served reads its scales again; with all of them present its step may
start (16 R412). -/
def mmasResume (s : State) (p : Place) (k : Nat) (e : LogEntry) (x : MmasF) : State :=
  match shapeOf p.gr.contract x.aty x.bty x.code.val with
  | none => s
  | some sh =>
    if e.faults ≠ [] ∨ e.pinned then s
    else match (mmasScales s p e.scb sh).1 with
      | .ok s rows ps =>
        let vs := scaleVals p.gr.contract rows ps
        let n := (mmasScales s p e.scb sh).2
        ((s.poisoned p (countTrue ps)).modCore p.t.core fun c =>
          { c with mq := markWaiting (s.coreCc p.t.core) (fillScales p.key k (vs.take n) (vs.drop n) c.mq) }).modWarp p.key fun w => w.dropEntry k
      | .fault s f => s.modWarp p.key fun w => { w with log := w.log.put k { e with faults := [(0, f)] } }
      | .denied s => (s.modWarp p.key fun w => { w with log := w.log.put k { e with pinned := true } }).pinWarp p
          e.path e.pc 8 false (p.pinCause pinAct) 0#64 (some k)
      | _ => s

/-! ## The step on its accumulator -/

/-- Types, stream code and sparsity of a step's instruction. -/
structure StepOf where (a b : Ty) (code : Nat) (sparse scaled : Bool)

def stepOf : Instr → Option StepOf
  | .mma x => some ⟨x.aty, x.bty, x.code.val, false, false⟩
  | .mmas x => some ⟨x.aty, x.bty, 0, false, true⟩
  | .mmsp x => some ⟨x.aty, x.bty, x.code.val, true, false⟩
  | .mloop x => some ⟨x.aty, x.bty, x.code.val, false, false⟩
  | .mloopS x => some ⟨x.aty, x.bty, x.code.val, false, true⟩
  | .mloopSp x => some ⟨x.aty, x.bty, x.code.val, true, false⟩
  | _ => none

/-- Fragment rows of A and B for one window, with the positions of their elements 0 (16 R405, R407). -/
structure Frag where (as bs : List (List Nat)) (pa pb : Nat)

/-- The windows (A, B) of a step's instruction. -/
def stepWindows (m : MStep) : List (Nat × Nat) :=
  match m.instr with
  | .mma _ => [(bits m.sw 2 0, bits m.sw 5 3)]
  | .mmas _ => [(0, 0), (1, 1)]
  | .mmsp x => [(x.sel.val % 4, x.sel.val / 4)]
  | _ => []

/-- The A window bytes of a form. -/
def waOf (sh : Shape) (o : StepOf) : Nat := if o.sparse then sh.wa / 2 else sh.wa

/-- A fragment of full tile rows: a window of every row, or under K.X32 the first W bytes of rows 32s to
32s + 31. -/
def tileFrag (long : Bool) (w wb s : Nat) (rows : List (List Byte)) : List (List Nat) :=
  if long then ((rows.drop (32 * (s % 2))).take 32).map fun r => byteElems w (r.take wb)
  else rows.map fun r => byteElems w (windowOf wb s r)

/-- The fragments of a started step. -/
def stepFrags (gr : Grid) (sh : Shape) (o : StepOf) (m : MStep) : List Frag :=
  match m.src with
  | .ply _ => [⟨m.rowsA.map (byteElems o.a.width), m.rowsB.map (byteElems o.b.width), 0, 0⟩]
  | .single => (stepWindows m).map fun ab =>
    let wa := waOf sh o
    ⟨tileFrag gr.longAcc o.a.width wa ab.1 m.rowsA, tileFrag gr.longAcc o.b.width sh.wb ab.2 m.rowsB,
      ab.1 % (64 / wa) * (wa * 8 / o.a.width), ab.2 % (64 / sh.wb) * (sh.wb * 8 / o.b.width)⟩

/-- Terms of entry (i, j). -/
def entryTerms (sh : Shape) (o : StepOf) (md : Nat) (f : Frag) (i j : Nat) : List Term :=
  if o.sparse then sparseTerms sh.k (md / 2 ^ (sh.k * i)) (zeroCode o.a) (f.as.getD i []) (f.bs.getD j [])
  else denseTerms f.pa f.pb (f.as.getD i []) (f.bs.getD j [])

/-- Scale or zero point of a row for block b of the n-th fragment: code 0x7F, and zero point 0, without scales. -/
def scaleAt (contract : Nat) (sh : Shape) (scales : List Nat) (n row b : Nat) : Nat :=
  if scales = [] then (if contract = 5 then 0 else 0x7F)
  else scales.getD (64 * (n * blocksPer sh + b) + row) 0

/-- The zero point of a Z4 operand is the low nibble (16 R411). -/
def scaleFor (contract : Nat) (t : Ty) (sh : Shape) (scales : List Nat) (n row b : Nat) : Nat :=
  let v := scaleAt contract sh scales n row b
  if t = .z4 then v % 16 else v

/-- T2 elements with code 0b10 among the elements an A fragment reads (02 R73). -/
def fragBad (t : Ty) (f : Frag) : Nat := if t = .t2 then (f.as.map t2Bad).foldl (· + ·) 0 else 0

/-- One fragment applied to a short accumulator. -/
def applyShort (gr : Grid) (sh : Shape) (o : StepOf) (m : MStep) (acc : List Word) (n : Nat) (f : Frag) : List Word × Counts :=
  let es := acc.zipIdx.map fun we =>
    let i := we.2 / 64
    let j := we.2 % 64
    entryStep gr.contract o.a o.b o.code gr.sckey i j (scaleFor gr.contract o.a sh m.scaleA n i)
      (scaleFor gr.contract o.b sh m.scaleB n j) (entryTerms sh o m.mdata f i j) we.1.toNat
  (es.map fun e => BitVec.ofNat 32 e.1,
    es.foldl (fun c e => c.add e.2) { Counts.none with t2inv := fragBad o.a f })

/-- The effect of a finished step on its accumulator, and its events. -/
def applyStep (gr : Grid) (sh : Shape) (o : StepOf) (m : MStep) (w : Warp) : Warp × Counts :=
  let fs := stepFrags gr sh o m
  if gr.longAcc then
    let old := Sparse.read LongEntry.zero w.laccs (1024 * m.acc) 1024
    let new := fs.foldl (fun es f => es.zipIdx.map fun ee =>
      longStep o.a o.b (entryTerms sh o m.mdata f (ee.2 / 32) (ee.2 % 32)) ee.1) old
    (w.laccFill m.acc new, Counts.none)
  else
    let old := Sparse.read 0#32 w.accs (4096 * m.acc) 4096
    let r := fs.zipIdx.foldl (fun (r : List Word × Counts) fn =>
      let a := applyShort gr sh o m r.1 fn.2 fn.1
      (a.1, r.2.add a.2)) (old, Counts.none)
    (w.accFill m.acc r.1, r.2)

/-! ## Loops (16 R416 to R418) -/

/-! Parameters (16 R416). -/
def plStrb (x : BitVec 256) : Nat := bits x 255 240
def plStra (x : BitVec 256) : Nat := bits x 239 224
def plIncb (x : BitVec 256) : Int := (x.extractLsb' 192 32).toInt
def plInca (x : BitVec 256) : Int := (x.extractLsb' 160 32).toInt
def plPlies (x : BitVec 256) : Nat := bits x 143 128
def plBaddr (x : BitVec 256) : Nat := bits x 127 64
def plAaddr (x : BitVec 256) : Nat := bits x 63 0

/-- Row r of ply p. -/
def rowAddr (base : Nat) (inc : Int) (str p r : Nat) : Nat := (((base : Int) + p * inc + r * str) % (2 ^ 64 : Int)).toNat

/-- The bounding range of the rows of all plies. -/
def rowsRange (base : Nat) (inc : Int) (str plies rows wb : Nat) : Nat × Nat :=
  let last : Int := ((plies : Int) - 1) * inc
  let lo : Int := base + min 0 last
  let hi : Int := base + max 0 last + (rows - 1) * str + wb
  (lo.toNat, (hi - lo).toNat)

/-- Ranges a loop registers. -/
def loopRanges (sh : Shape) (o : StepOf) (params : BitVec 256) (mp : DWord) : List (Nat × Nat) :=
  let n := plPlies params
  [rowsRange (plAaddr params) (plInca params) (plStra params) n sh.m (waOf sh o),
   rowsRange (plBaddr params) (plIncb params) (plStrb params) n sh.n sh.wb]
    ++ (if o.sparse then [(mp.toNat, n * 8 * sh.k)] else [])

/-- The registers of a parameter group. -/
def groupSrc (grp : Fin 4) : Src := ⟨.s ⟨8 * grp.val, by omega⟩, 8, []⟩
def futDst (f : Fin 8) : Operand × Nat := (.s ⟨24 + f.val, by omega⟩, 1)

/-- A future is set empty with its producer (01 R46). -/
def State.startFut (s : State) (w : Nat) (f : Fin 8) (q : Producer) : State :=
  s.modWarp w fun x => { x with fut := x.fut.put f.val q }

/-- ALIGN of a loop's parameters, which every active lane raises, before FUTDEAD (06 R176). It reports the first misaligned
address; where only a stride or an increment is misaligned, %tval is a free value (log 31). -/
def loopChk (s : State) (params : BitVec 256) (mpv : DWord) (lane : Nat) : AddrChk :=
  let addrs := [plAaddr params, plBaddr params, mpv.toNat]
  let steps := [plStra params, plStrb params, (plInca params % 4).toNat, (plIncb params % 4).toNat]
  ⟨lane, ((addrs.find? fun a => a % 4 ≠ 0).map (BitVec.ofNat 64)).getD
    (pairOf (Config.freeWord s.fresh) (Config.freeWord (s.fresh + 1))), true, (addrs ++ steps).all fun a => a % 4 = 0, false⟩

/-- The shared meaning of the loop forms: checks, then a sequencer, or a resolution at once. The accesses that the warp's
lanes made before must have performed, so that the plies observe them (16 R418). -/
def runLoop (ins : Instr) (g : Guard) (f : Fin 8) (grp : Fin 4) (acc : Fin 8) (o : StepOf) (take : Nat → Bool)
    (mp : Option Pair) (s : State) : Host.Outcome State Fault Refusal :=
  settle s fun p i => withShape p i (take p.gr.contract) o.a o.b o.code fun sh =>
    let srcs := groupSrc grp :: mp.toList.map srcPair
    match checkRegs p i (srcRegs srcs ++ [futDst f]) with
    | .error e => .error e
    | .ok _ => match checkTA p i [] [acc.val] with
      | .error e => .error e
      | .ok _ =>
        let vals (l : Nat) : BitVec 256 × DWord :=
          let vs := srcVals s p l [] srcs
          (BitVec.ofNat 256 (wordsNat (vs.getD 0 [])), BitVec.ofNat 64 (wordsNat (vs.getD 1 [])))
        withAddress s p i g srcs srcs [futDst f] id (fun l => loopChk s (vals l).1 (vals l).2 l) fun active =>
          let (params, mpv) := vals (lowLane active)
          match checkDone p i 0xFFFFFFFF#32, checkAccs s p i [acc.val] with
          | .error e, _ => .error e
          | .ok _, .error e => .error e
          | .ok _, .ok _ =>
            let done (st : Nat) : State := (resolveFut (s.consume p active srcs) p.key f (statusWord st 0)).retire i
            if p.gr.contract = 4 ∧ plPlies params % 4 ≠ 0 then .ok (done stBadloop)
            else if plPlies params = 0 then .ok (done stOk)
            else if 4 ≤ (s.mloops.filter fun km => km.2.core = p.t.core).length
                ∨ 1024 < s.rangeEntries + (loopRanges sh o params mpv).length then .error .stall
            else
              let k := s.placer.nextOp
              let m : Mloop := ⟨p.t.core, p.key, p.gr.ctx, acc.val, loopRanges sh o params mpv, ins, i.pc, f, params, mpv,
                p.t.scb, 0, 0, [], [], false, none⟩
              let s := (s.consume p active srcs).startFut p.key f (.mloop k)
              .ok ({ s with mloops := s.mloops.put k m, placer := { s.placer with nextOp := k + 1 } }.retire i)

def execMloop (x : MloopF) (s : State) : Host.Outcome State Fault Refusal :=
  runLoop (.mloop x) x.g x.f x.grp x.acc ⟨x.aty, x.bty, x.code.val, false, false⟩ denseOk none s
def execMloopS (x : MloopF) (s : State) : Host.Outcome State Fault Refusal :=
  runLoop (.mloopS x) x.g x.f x.grp x.acc ⟨x.aty, x.bty, x.code.val, false, true⟩ (fun c => scaledOk c || c = 4) none s
def execMloopSp (x : MloopSpF) (s : State) : Host.Outcome State Fault Refusal :=
  runLoop (.mloopSp x) x.g x.f x.grp x.acc ⟨x.aty, x.bty, x.code.val, true, false⟩ sparseOk (some x.mp) s

/-- A loop resolves with its status and the plies completed; its warp's team may then retire (16 R417, R418). -/
def endLoop (s : State) (k : Nat) (m : Mloop) (st : Nat) : State :=
  let s := resolveFut { s with mloops := s.mloops.del k } m.warp m.fut (statusWord st m.ply)
  match s.warps.get? m.warp with
  | some w => retireTeam s w.team
  | none => s

/-- The price of a ply: that of the step it repeats (10 R245). -/
def plyPrice (sh : Shape) (o : StepOf) : Nat := if o.sparse then 6 else sh.price

/-- What a ply reads: its rows, metadata and scales. What an engine holds locked makes it wait (`full`; log 31). -/
inductive PlyReads
  | ok (s : State) (rowsA rowsB : List (List Byte)) (md : Nat) (sa sb : List Nat)
  | region (va : DWord)
  | fault (s : State) (f : Nat × Word)
  | full
  | denied (s : State)

/-- A row as the step sees it: the poison pattern in every element where its line is poisoned. -/
def plyRow (t : Ty) (rp : List Byte × Bool) : List Byte :=
  if rp.2 then bytesLE rp.1.length (joinElems t.width (List.replicate (rp.1.length * 8 / t.width) (poisonElem t))) else rp.1

/-- Bytes cut at the lines they lie in; k bounds the number of lines. -/
def linePieces (va n : Nat) : Nat → List (Nat × Nat)
  | 0 => []
  | k + 1 => if n = 0 then [] else
      let m := Nat.min n (128 - va % 128)
      (va, m) :: linePieces ((va + m) % 2 ^ 64) (n - m) k

/-- The spans that ply n reads: the rows of A and of B, the metadata, the scales of A, then those of B (16 R417). -/
def plySpans (contract : Nat) (sh : Shape) (o : StepOf) (m : Mloop) : List (Nat × List Nat) :=
  let x := m.params
  let qs := if contract = 4 then [m.drawn / 4] else (List.range (blocksPer sh)).map (m.drawn * blocksPer sh + ·)
  let scales (isB : Bool) : List Nat := if o.scaled then scaleAddrs m.scb isB contract qs else []
  [(waOf sh o, (List.range sh.m).map (rowAddr (plAaddr x) (plInca x) (plStra x) m.drawn)),
   (sh.wb, (List.range sh.n).map (rowAddr (plBaddr x) (plIncb x) (plStrb x) m.drawn)),
   (8 * sh.k, if o.sparse then [(m.mp.toNat + m.drawn * 8 * sh.k) % 2 ^ 64] else []),
   (scaleSize contract, scales false), (scaleSize contract, scales true)]

/-- The first byte of a ply's reads that no region admits: all of them are checked before any is read (16 R418). -/
def plyOutside (p : Place) (spans : List (Nat × List Nat)) : Option Nat :=
  ((spans.flatMap fun na => na.2.flatMap fun va => linePieces va na.1 (na.1 / 128 + 2)).find? fun an =>
    !regionOk p.gr p.g.num an.1 an.2 (.load false)).map (·.1)

/-- The reads of a ply's spans, one group after the other. -/
def loadGroups (p : Place) : List (Nat × List Nat) → State → Except PlyReads (State × List (List (List Byte) × List Bool))
  | [], s => .ok (s, [])
  | g :: gs, s => match loadSpans p g.1 g.2 s with
    | .ok s rows ps => (match loadGroups p gs s with
      | .ok (s, rest) => .ok (s, (rows, ps) :: rest)
      | .error e => .error e)
    | .region va => .error (.region va)
    | .locked _ | .full => .error .full
    | .fault s f => .error (.fault s f)
    | .denied s => .error (.denied s)

def plyReads (s : State) (p : Place) (sh : Shape) (o : StepOf) (m : Mloop) : PlyReads :=
  let c := p.gr.contract
  let spans := plySpans c sh o m
  match plyOutside p spans with
  | some va => .region (BitVec.ofNat 64 va)
  | none => match loadGroups p spans s with
    | .error e => e
    | .ok (s, gs) =>
      let rows (k : Nat) : List (List Byte) := (gs.getD k ([], [])).1
      let bad (k : Nat) : List Bool := (gs.getD k ([], [])).2
      .ok (s.poisoned p (countTrue (gs.flatMap (·.2)))) (((rows 0).zip (bad 0)).map (plyRow o.a))
        (((rows 1).zip (bad 1)).map (plyRow o.b)) (natLE ((rows 2).headD [])) (scaleVals c (rows 3) (bad 3))
        (scaleVals c (rows 4) (bad 4))

/-- A drawn ply of the loop that has not ended: the next one draws in the cc in which it ends (10 R249; 16 R417). -/
def plyWaits (s : State) (k : Nat) (m : Mloop) : Bool := (s.core m.core).mq.any fun x => decide (x.src = .ply k)

/-- MLOOP_PLY (16 R417, R418): the sequencer checks and reads the rows of the next ply, draws its price, and
queues its step. A row outside the regions ends the loop and pins the warp; a page fault holds the ply. -/
def mloopPly (core k : Nat) (s : State) : State :=
  match s.mloops.get? k with
  | none => s
  | some m => match s.place? m.warp, stepOf m.instr with
    | some p, some o => match shapeOf p.gr.contract o.a o.b o.code with
      | none => s
      | some sh =>
        if m.core ≠ core then s
        else if m.cancelled ∧ m.drawn = m.ply then endLoop s k m stCancelled
        else if m.cancelled ∨ m.fault ≠ none ∨ plPlies m.params ≤ m.drawn ∨ plyWaits s k m then s
        else match plyReads s p sh o m with
          | .region va =>
            if m.drawn ≠ m.ply then s
            else (endLoop s k m stRegion).pinWarp p 0#32 m.pc 8 false (p.pinCause pinRegion) va none
          | .denied s => (endLoop s k m stRegion).pinWarp p 0#32 m.pc 8 false (p.pinCause pinAct) 0#64 none
          | .full => s
          | .fault s f => { s with mloops := s.mloops.put k { m with fault := some f } }
          | .ok t ra rb md sa sb => match drawPrice t p.t.core p.key (plyPrice sh o) with
            | none => s.failDraw p.key p.t.core
            | some s =>
              let slow := slowdown p.gr.contract p.gr.cls o.code
              let time := if o.sparse then sparseTime sh slow else sh.time * slow
              let st : MStep := { singleStep s p m.instr m.acc time with
                src := .ply k, mdata := md, scaleA := sa, scaleB := sb, rowsA := ra, rowsB := rb }
              { s with mloops := s.mloops.put k { m with drawn := m.drawn + 1 } }.queueStep p.t.core st
    | _, _ => s

/-- How many elements of an accumulator are poisoned and not yet read: a step that adds to it reads them (18 R448). -/
def markedAcc (w : Warp) (a : Nat) : Nat := (w.marks.keys.filter (accKeys a).contains).length

/-- The effect of a K.FS8 ply: its partial sums, promoted after the fourth ply of a block (02 R82). -/
def fs8Ply (s : State) (p : Place) (sh : Shape) (o : StepOf) (x : MStep) (k : Nat) (m : Mloop) : State :=
  match stepFrags p.gr sh o x with
  | f :: _ =>
    let parts := (List.range 4096).map fun e => fs8Part (entryTerms sh o 0 f (e / 64) (e % 64))
    let sums := parts.zipIdx.map fun pe => Sparse.get 0 m.part pe.2 + pe.1.getD 0
    let nans := parts.zipIdx.map fun pe => Sparse.get false m.nans pe.2 || pe.1.isNone
    if m.ply % 4 = 3 then
      let s := (s.poisoned p (markedAcc p.w x.acc)).modWarp x.warp fun w =>
        w.accFill x.acc ((List.range 4096).map fun e => BitVec.ofNat 32 (fs8Promote (sums.getD e 0) (nans.getD e false)
          (x.scaleA.getD (e / 64) 0) (x.scaleB.getD (e % 64) 0) (w.accGet x.acc (e / 64) (e % 64)).toNat))
      { s with mloops := s.mloops.put k { m with part := [], nans := [] } }
    else { s with mloops := s.mloops.put k { m with part := Sparse.fill 0 [] 0 sums, nans := Sparse.fill false [] 0 nans } }
  | [] => s

/-- A ply has ended: the count advances, and the loop resolves: a cancelled one with status 2, also after its last ply (16
R418). -/
def plyEnds (s : State) (k : Nat) : State :=
  match s.mloops.get? k with
  | none => s
  | some m =>
    let m := { m with ply := m.ply + 1 }
    let s := { s with mloops := s.mloops.put k m }
    if m.cancelled ∧ m.drawn = m.ply then endLoop s k m stCancelled
    else if plPlies m.params ≤ m.ply then endLoop s k m stOk
    else s

/-! ## The array (16 R408; 10 R250 to R252) -/

/-- The rows a step reads when it starts: its whole tiles; a ply has its rows. -/
def readRows (w : Warp) (m : MStep) : MStep :=
  match m.src with
  | .ply _ => m
  | .single =>
    let rows (t : Nat) : List (List Byte) := (List.range 64).map fun r => w.tileRead t (64 * r) 64
    { m with rowsA := rows ((stepTiles m.instr).getD 0 0), rowsB := rows ((stepTiles m.instr).getD 1 0) }

/-- The tile elements a step reads: the first read of a poisoned one counts (18 R448). -/
def tileMarks (m : MStep) : List Nat :=
  match m.src with
  | .ply _ => []
  | .single => (stepTiles m.instr).flatMap tileKeys

/-- The next slew boundary at or after a cc. -/
def boundaryAt (cc : Nat) : Nat := (cc + 3) / 4 * 4

/-- The first step of a core's start order starts: it reads its tiles and holds the array. -/
def startStep (s : State) (core : Nat) : State :=
  match (s.core core).mq with
  | m :: rest => match s.place? m.warp with
    | some p =>
      let m := { readRows p.w m with ends := some (boundaryAt (s.coreCc core + m.time)) }
      (s.modCore core fun c => { c with mq := m :: rest }).readMarks p (tileMarks m)
    | none => s
  | [] => s

/-- The effect of a finished step. -/
def finishStep (s : State) (m : MStep) : State :=
  match s.place? m.warp, stepOf m.instr with
  | some p, some o => match shapeOf p.gr.contract o.a o.b o.code with
    | none => s
    | some sh =>
      let s := match m.src, p.gr.contract with
        | .ply k, 4 => (match s.mloops.get? k with
          | some l => fs8Ply s p sh o m k l
          | none => s)
        | _, _ =>
          let r := applyStep p.gr sh o m p.w
          ((s.poisoned p (markedAcc p.w m.acc)).modWarp m.warp fun _ => r.1).count p.t.core r.2
      match m.src with
      | .ply k => plyEnds s k
      | .single => match s.warps.get? m.warp with
        | some w => if w.exited = 0xFFFFFFFF#32 then retireTeam s w.team else s
        | none => s
  | _, _ => s

/-- MATRIX_STEP_ENDS: the running step of a core writes its accumulator once its time is over, and leaves the array
(16 R408). -/
def matrixStepEnds (core : Nat) (s : State) : State :=
  match (s.core core).mq with
  | m :: _ => match m.ends with
    | some e =>
      if s.coreCc core < e then s
      else finishStep (s.modCore core fun c => { c with
        mq := markWaiting (s.coreCc core) (c.mq.drop 1), ended := some (m.warp, m.acc, e) }) m
    | none => s
  | [] => s

/-- The step a core waits to start: the first of its order, unstarted, its scales present. -/
def waitingStep (s : State) (core : Nat) : Option MStep :=
  match (s.core core).mq with
  | m :: _ => if m.ends = none ∧ m.entry = none then some m else none
  | [] => none

/-- The first step of a core's order is a continuation: a step of the warp and accumulator whose step ended at this
boundary, the first of those numbered `last` and above (10 R251; 16 R408). -/
def continues (s : State) (last core : Nat) : Bool :=
  match waitingStep s core, (s.core core).ended with
  | some x, some (w, a, e) => decide (x.warp = w) && decide (x.acc = a) && decide (last ≤ e / 4)
  | _, _ => false

def runningStep (s : State) (core : Nat) : Bool :=
  match (s.core core).mq with
  | m :: _ => m.ends.isSome
  | [] => false

/-- Cores in the order in which they take grants: by the cc in which the step began to wait, then by the warp's age
(10 R251). -/
def grantBefore (a b : Nat × MStep) : Bool :=
  let since (x : Nat × MStep) : Nat := x.2.waits.getD x.2.drawn
  since a < since b || (since a = since b && a.2.warp < b.2.warp)
def insertGrant (a : Nat × MStep) : List (Nat × MStep) → List (Nat × MStep)
  | [] => [a]
  | b :: bs => if grantBefore a b then a :: b :: bs else b :: insertGrant a bs

/-- SLEW_BOUNDARY (10 R250 to R252): at a cc that is a multiple of 4, behind the draws of that cc, finished steps have ended and their
continuations start, g further starts are granted, the fillers are counted, and the level is set. -/
def slewBoundary (die cl : Nat) (s : State) : State :=
  let k := die * 8 + cl
  if s.clusterCc k % 4 ≠ 0 ∨ s.clusterCc k / 4 < (s.cluster k).lastSlew then s
  else
    let cores := clusterCores k
    let s := cores.foldl (fun s c => matrixStepEnds c s) s
    let s := (cores.filter (continues s (s.cluster k).lastSlew)).foldl startStep s
    let prev := (s.cluster k).level
    let c := (cores.filter (runningStep s)).length
    let waits := (cores.filterMap fun n => (waitingStep s n).map fun m => (n, m)).foldl (fun l a => insertGrant a l) []
    let g := Nat.min waits.length (Nat.min (prev + 2 - c) (8 - c))
    let f := prev - 1 - (c + g)
    let s := ((waits.take g).map (·.1)).foldl startStep s
    s.modCluster k fun x => { x with
      level := c + g + f
      reserve := x.reserve - f
      filled := x.filled + f
      lastSlew := x.cc s.hc / 4 + 1 }

def execMloopPly (core seqId : Nat) (s : State) : Host.Outcome State Fault Refusal := .next (mloopPly core seqId s)
def execMatrixStepEnds (core : Nat) (s : State) : Host.Outcome State Fault Refusal := .next (matrixStepEnds core s)
def execSlewBoundary (die cluster : Nat) (s : State) : Host.Outcome State Fault Refusal := .next (slewBoundary die cluster s)

end Sys2Proof.Machine
end

