-- ==== Sys2Proof/Machine/Gangs.lean ====
section
/-! DEFINITION. Gangs and grids in motion: allotment, stage-in, eviction, restore, retirement (06 R158,
R170 to R174; 07 R191, R192), completion and killing of grids (05 R149, R151), and a context that has
drained (03 R100). -/

namespace Sys2Proof.Machine

/-- The warp keys of a gang. -/
def gangWarps (s : State) (g : Gang) : List Nat :=
  g.teams.flatMap fun t => (List.range (((s.teams.get? t).map (·.warps)).getD 0)).map fun w => warpKey t w

def unitGangs (s : State) (unit : Nat) : List (Nat × Gang) := s.gangs.filter fun kg => kg.2.unit = unit

/-- Warps of every gang of a unit. -/
def unitWarps (s : State) (unit : Nat) : List Nat := (unitGangs s unit).flatMap fun kg => gangWarps s kg.2

def State.setGangs (s : State) (ids : List Nat) (f : Gang → Gang) : State := ids.foldl (fun s k => s.modGang k f) s

def gridOf (s : State) (g : Gang) : Option Grid := s.grids.get? g.grid.toNat

/-! ## Allotment and stage-in -/

/-- ALLOTMENT_COMPLETE: Staged with a stage-in region, Running without (06 R158). -/
def allotmentComplete (k : Nat) (s : State) : State :=
  match s.gangs.get? k with
  | none => s
  | some g => match gridOf s g with
    | none => s
    | some gr =>
      if g.st ≠ .allotted then s
      else s.modGang k fun x => { x with st := if gr.regions.any fun r => regMode r = 0 then .staged else .running }

/-- STAGE_IN_COMPLETES: the gang starts Running (05 R145, 06 R158). Its lines are coherent copies (11 R265,
log 7). -/
def stageInCompletes (k : Nat) (s : State) : State :=
  if (s.gangs.get? k).any fun g => g.st = .staged then s.modGang k fun x => { x with st := .running } else s

/-! ## Eviction (06 R170, R171) -/

/-- Every warp of every team of the unit stands at a blocking point; gangs of it that have retired count no more
(06 R170; 07 R189). -/
def evictable (s : State) (unit : Nat) : Bool :=
  let gs := unitGangs s unit
  gs.all (fun kg => kg.2.st = .running || kg.2.st = .retired) && gs.any (fun kg => kg.2.st = .running)
    && gs.all fun kg => kg.2.st = .retired || (gangWarps s kg.2).all fun k => (s.warps.get? k).all Warp.atBlock

def unitPrio (s : State) (unit : Nat) : Nat :=
  match unitGangs s unit with
  | kg :: _ => match gridOf s kg.2 with
    | some gr => effPrio s gr.ctx gr.prio
    | none => 0
  | [] => 0

def unitPlacedAt (s : State) (unit : Nat) : Nat := ((unitGangs s unit).map fun kg => kg.2.placedAt).foldl Nat.max 0

/-- The barriers of a gang: its teams', and its group's. -/
def gangBars (s : State) (g : Gang) : List Nat := g.bars ++ g.teams.filterMap fun t => (s.teams.get? t).map (·.bar)

/-- The state without the resources of the units named. -/
def without (s : State) (out : Nat → Bool) : State :=
  let bars := s.gangs.flatMap fun kg => if out kg.2.unit then gangBars s kg.2 else []
  { s with
    gangs := s.gangs.mapV fun _ g => if out g.unit then { g with freed := true } else g
    bars := s.bars.mapV fun k b => if bars.contains k then { b with slot := none } else b }

/-- The units of those named that hold resources a unit needs at the given positions: teams on a core without room, or
barrier slots of a cluster without room. -/
def blockers (s : State) (g : Grid) (out : Nat → Bool) (ps : List (Nat × Nat × Nat)) : List Nat :=
  let cores := (coresOf g ps).filter fun k => !coreRoom s k g ((coresOf g ps).count k)
  let cls := (ps.map clusterOfPos).filter fun c =>
    32 < (slotsUsed s c).length + g.barn * ((ps.filter fun p => clusterOfPos p = c).length / g.cg)
  ((s.gangs.filter fun kg => out kg.2.unit && !kg.2.freed &&
      ((kg.2.teams.any fun t => (s.teams.get? t).any fun t => cores.contains t.core)
        || (kg.2.bars ≠ [] && cls.contains (clusterOfPos (kg.2.die, kg.2.row, kg.2.col))))).map fun kg => kg.2.unit).eraseDups

/-- The units at the target position of a reserved record: the first that is free once the units of lower effective
priority are gone, and of those the ones that hold resources it needs (06 R170; log 63). -/
def targetUnits (s : State) (g : Grid) (prio : Nat) : List Nat :=
  let low := fun u => decide (unitPrio s u < prio)
  ((unitPositions (without s low) g).map (blockers s g low)).getD []

/-- Whether a reserved record gives a reason to evict the unit (06 R170). -/
def wantedByReserved (s : State) (unit : Nat) : Bool :=
  s.queues.any fun kq => kq.2.reserved && kq.2.kick &&
    match (readRecord s kq.2.ctx kq.1 (recordAt s kq.1 kq.2.head)).2 with
    | none => false
    | some g => match bindClass s g with
      | none => false
      | some cls => (targetUnits s { g with cls := cls } (effPrio s g.ctx g.prio)).contains unit

/-- The reasons of 06 R170: context Quiescing, evict gang, a reserved record, a Draining cluster. -/
def evictReason (s : State) (unit : Nat) : Bool :=
  (unitGangs s unit).any (fun kg =>
    kg.2.mark
      || (gridOf s kg.2).any (fun gr => (s.ctxs.get? gr.ctx).any fun c => c.st = .quiescing)
      || kg.2.teams.any fun t => (s.teams.get? t).any fun t => (s.cluster (coreCluster t.core)).st = .draining)
    || wantedByReserved s unit

/-- The gangs of a unit in a state. -/
def unitIn (s : State) (unit : Nat) (st : GangSt) : List (Nat × Gang) := (unitGangs s unit).filter fun kg => kg.2.st = st

/-- Bytes of the images of a unit's Running gangs. -/
def unitImage (s : State) (unit : Nat) : Nat :=
  sumOf (unitIn s unit .running) fun kg => ((gridOf s kg.2).map imageSize).getD 0

/-- Bytes in use in the save pool. -/
def SavePool.used (x : SavePool) : Nat := sumOf x.saved fun ki => ki.2.len

/-- Bytes that the units whose eviction has started will take there. -/
def evictingImage (s : State) : Nat :=
  sumOf (s.gangs.filter fun kg => kg.2.evicting) fun kg => ((gridOf s kg.2).map imageSize).getD 0

/-- Eviction may start: evictable, a reason, room in the save pool beside the units that are on their way there (06
R170). -/
def mayEvict (s : State) (unit : Nat) : Bool :=
  evictable s unit && evictReason s unit && s.pool.used + evictingImage s + unitImage s unit ≤ s.pool.len.toNat
    && !(unitGangs s unit).any fun kg => kg.2.evicting

/-- Among the units that may be evicted, the lowest effective priority, then the most recently placed
(06 R170). A unit whose image has no room is not among them, so that the next one goes (DESIGN CHOICE, log 5). -/
def evictFirst (s : State) (unit : Nat) : Bool :=
  mayEvict s unit && s.gangs.all fun kg =>
    let u := kg.2.unit
    u = unit || !mayEvict s u || unitPrio s unit < unitPrio s u
      || (unitPrio s unit = unitPrio s u && unitPlacedAt s u ≤ unitPlacedAt s unit)

/-- GANG_EVICTION_START: the unit's cores stop issuing its warps (06 R171 step 1). -/
def gangEvictionStart (k : Nat) (s : State) : State :=
  match s.gangs.get? k with
  | none => s
  | some g =>
    if evictFirst s g.unit then s.setGangs ((unitIn s g.unit .running).map (·.1)) fun x => { x with evicting := true } else s

/-- Nothing of the unit is still in flight: accesses that write memory, engine operations on its windows, loops, matrix
steps with their operands, arrivals, exits and port entries (06 R171; 16 R418; 17 R428). -/
def unitDrained (s : State) (unit : Nat) : Bool :=
  let ws := unitWarps s unit
  let ids := (unitGangs s unit).map (·.1)
  (ws.all fun k => (s.warps.get? k).all fun w => w.log.all fun ke => isReturn ke.2.instr || decide (ke.2.ready w.log ke.1 = 0#32))
    && (s.ops.all fun ko => !ids.contains ko.2.gang || (ko.2.srd = none && ko.2.swr = none))
    && (s.mloops.all fun km => !ws.contains km.2.warp)
    && (s.cores.all fun kc => kc.2.mq.all fun m => !ws.contains m.warp || m.entry.isSome)
    && (s.arrivals.all fun a => !ws.contains a.warp) && (s.exits.all fun a => !ws.contains a.warp)
    && s.flight.all fun m => !ws.contains m.warp

/-- A warp as its image keeps it: reservations and tempo waits are lost, waiting lanes leave their fault
entries (08 R208; 10 R247; 11 R288). -/
def Warp.saved (w : Warp) : Warp :=
  { w with
    resv := []
    tempoSince := none
    log := w.log.mapV fun _ e => { e with faults := [] }
    held := [] }

/-- The fault entries that a warp's accesses and fetches have joined, once for each (08 R206). -/
def Warp.joined (w : Warp) : List (Nat × Word) :=
  (w.log.flatMap fun ke => ke.2.faults.map (·.2))
    ++ ((w.wake.filterMap fun lw => match lw.2 with
      | .fetch a d f => some (a, d, f)
      | _ => none).eraseDups.map fun x => x.2)
    ++ w.held.map (·.2)

def joinedOf (s : State) (ws : List Nat) : List (Nat × Word) :=
  ws.flatMap fun w => ((s.warps.get? w).map Warp.joined).getD []

/-- GANG_EVICTION_COMPLETE: the generations are closed, lines written back, the images of the unit's gangs written to the
save pool, and the resources freed (06 R171; 07 R184). Matrix steps that still read their scales leave with their log
entries. -/
def gangEvictionComplete (k : Nat) (s : State) : State :=
  match s.gangs.get? k with
  | none => s
  | some g =>
    if ¬ g.evicting ∨ ¬ unitDrained s g.unit then s
    else
      let gs := unitIn s g.unit .running
      let ids := gs.map (·.1)
      let ws := gs.flatMap fun kg => gangWarps s kg.2
      let bars := gs.flatMap fun kg => gangBars s kg.2
      let s := ws.foldl (fun s w => (s.dropWait w (s.warpCore w)).strand w) (s.leaveFaults (joinedOf s ws))
      let s := s.setGangs ids fun x =>
        { x with st := .evicted, evicting := false, mark := false, freed := true, dirty := [], wb := [] }
      let s := { s.dropSteps ws with
        warps := s.warps.mapV fun i w => if ws.contains i then w.saved else w
        bars := s.bars.mapV fun i b => if bars.contains i then { b with st := .saved, slot := none } else b }
      (ids.foldl (fun s i => s.writeImage i) s).dropZeroSlots

/-! ## Restore (06 R172; 07 R192) -/

/-- Sets a gang down on new cores: positions, warp slots and generations (06 R172). -/
def reseat (s : State) (k : Nat) (g : Gang) (gr : Grid) (pos : Nat × Nat × Nat) : State :=
  let s := (g.teams.zip (gangCores gr pos.1 pos.2.1 pos.2.2)).foldl (fun (s : State) tc =>
    let slots := freeSlots s tc.2 gr.warpsN
    let s := s.modTeam tc.1 fun t => { t with core := tc.2 }
    let s := (s.teams.get? tc.1).elim s fun t => s.modBar t.bar fun b => { b with cluster := coreCluster tc.2 }
    (List.range gr.warpsN).foldl (fun (s : State) w =>
      let slot := slots.getD w 0
      let (s, gen) := grantGen s tc.2 slot
      s.modWarp (warpKey tc.1 w) fun x => { x with slot := slot, gen := gen }) s) s
  s.modGang k fun x => { x with st := .restored, freed := false, die := pos.1, row := pos.2.1, col := pos.2.2, placedAt := s.hc }

/-- New physical slots for the barriers of a unit in their cluster (07 R192). -/
def reslot (s : State) (ids : List Nat) : State :=
  ids.foldl (fun (s : State) i => match s.gangs.get? i with
    | none => s
    | some g =>
      let cl := clusterOfPos (g.die, g.row, g.col)
      g.bars.foldl (fun (s : State) b =>
        if (s.bars.get? b).any fun b => b.slot = none then
          let slot := ((List.range 32).filter fun k => ¬ (slotsUsed s cl).contains k).headD 0
          s.modBar b fun b => { b with slot := some slot, cluster := cl }
        else s) s) s

/-- Where a gang of the unit stands when the first stands at `pos`: as far from it as before, or, on the other die of a
`qd` pair, on its own row (09 R228). -/
def shifted (s : State) (g0 g : Gang) (pos : Nat × Nat × Nat) : Option (Nat × Nat × Nat) :=
  let (d, r, c) := pos
  if g.die = g0.die then
    if g0.row ≤ r + g.row ∧ g0.col ≤ c + g.col then some (d, r + g.row - g0.row, c + g.col - g0.col) else none
  else if g0.col ≤ c + g.col then (nextDie s d).map fun d' => (d', g.row, c + g.col - g0.col)
  else none

/-- Where the first gang of a unit may stand, in the order of R162, or of R163 for a component; with `qd` on its own row. -/
def restoreSpots (gr : Grid) (g0 : Gang) (pool : List Nat) : List (Nat × Nat × Nat) :=
  if usesQd gr then (List.range 96).map fun k => (k / 8, g0.row, k % 8)
  else if byBlock gr then (List.range (12 * 64)).map fun k => (k / 64, k % 64 / 8, k % 8)
  else pool.flatMap (clusterPositions gr)

/-- Gangs may stand at these positions: each in one cluster of the pool, with room on the cores and in the barrier slots,
and each barrier group in one cluster. -/
def unitFits (s : State) (gr : Grid) (pool : List Nat) (gs : List (Nat × Gang)) (ps : List (Nat × Nat × Nat)) : Bool :=
  let groups := (gs.map fun kg => kg.2.bars).eraseDups
  let cls (bs : List Nat) : List Nat := ((gs.zip ps).filter fun gp => gp.1.2.bars = bs).map fun gp => clusterOfPos gp.2
  (ps.all fun p => posInCluster gr p.2.1 p.2.2 && pool.contains (clusterOfPos p)) && posAllFree s gr ps
    && (gr.barn = 0 || groups.all fun bs => (cls bs).all fun c => some c = (cls bs).head? &&
      decide ((slotsUsed s c).length + gr.barn * (groups.filter fun b => (cls b).contains c).length ≤ 32))

/-- Positions for the evicted gangs of a unit with the same relative places, in the pool of the bound class (06 R172). -/
def restorePositions (s : State) (gr : Grid) (gs : List (Nat × Gang)) : Option (List (Nat × Nat × Nat)) :=
  let pool := poolClusters s gr.cls gr.opClass
  match gs with
  | [] => none
  | g0 :: _ => (restoreSpots gr g0.2 pool).findSome? fun pos =>
    let ps := gs.filterMap fun kg => shifted s g0.2 kg.2 pos
    if ps.length = gs.length ∧ unitFits s gr pool gs ps then some ps else none

/-- RESTORE_BEGINS: an Evicted unit of an Active context is placed again where it fits; what a reserved record keeps
stays kept, and the restore is a placement, of which the placer makes at most one every 8 hc (04 R123; 06 R172). -/
def restoreBegins (k : Nat) (s : State) : State :=
  match s.gangs.get? k with
  | none => s
  | some g => match gridOf s g with
    | none => s
    | some gr =>
      let gs := unitIn s g.unit .evicted
      let c : Cand := ⟨effPrio s gr.ctx gr.prio, s.classOf gr.ctx, 0, gr.queue, some g.grid⟩
      if g.st ≠ .evicted ∨ ¬ ctxActive s gr.ctx ∨ s.placer.stopped ∨ s.hc < s.placer.nextPlace ∨ reservedAgainst s gr c false then s
      else match restorePositions s gr gs with
        | none => s
        | some ps =>
          let s := (gs.zip ps).foldl (fun s gp => reseat s gp.1.1 gp.1.2 gr gp.2) s
          let s := reslot s (gs.map (·.1))
          { s with placer := { s.placer with nextPlace := s.hc + 8 } }

/-- Wake conditions that a restored path tests afresh by executing again; `svc` and `bsync` keep waiting
(06 R172). -/
def Warp.retest (w : Warp) : Warp :=
  { w with wake := w.wake.filter fun lw => match lw.2 with
      | .bsync _ _ => true
      | .svc => true
      | _ => false }

/-- A restored path finds its place by search (12 R302). -/
def Warp.searching (w : Warp) : Warp := { w with entering := 0#32, inside := [] }

/-- The matrix steps of a restored warp's `mmas` entries, whose scales are read again (06 R172; 16 R412). -/
def requeueSteps (s : State) (k : Nat) : State :=
  match s.place? k with
  | none => s
  | some p => p.w.log.foldl (fun (s : State) ke => match ke.2.instr with
    | .mmas x => match shapeOf p.gr.contract x.aty x.bty x.code.val with
      | none => s
      | some sh => s.queueStep p.t.core { singleStep s p (.mmas x) x.acc.val (2 * sh.time * slowdown p.gr.contract p.gr.cls 0)
          with entry := some ke.1 }
    | _ => s) s

/-- IMAGE_IS_LOADED: the unit runs again; wake conditions and barriers are tested (06 R172; 07 R192). -/
def imageIsLoaded (k : Nat) (s : State) : State :=
  match s.gangs.get? k with
  | none => s
  | some g =>
    if g.st ≠ .restored then s
    else
      let gs := unitIn s g.unit .restored
      let ids := gs.map (·.1)
      let ws := gs.flatMap fun kg => gangWarps s kg.2
      let s := s.setGangs ids fun x => { x with st := .running }
      let s := { s with
        warps := s.warps.mapV fun i w => if ws.contains i then w.retest.searching else w
        pool := { s.pool with saved := s.pool.saved.filter fun ki => !ids.contains ki.1 } }
      let s := ws.foldl requeueSteps s
      (gs.flatMap fun kg => gangBars s kg.2).foldl (fun s b =>
        phaseTest (s.modBar b fun b => { b with st := if b.st = .saved then .armed else b.st }) b) s

/-! ## Retirement -/

/-- Frees a gang's barriers: its teams', and the group's once no gang of the group is left (07 R184). -/
def freeBars (s : State) (g : Gang) : State :=
  let s := g.teams.foldl (fun s t => match s.teams.get? t with
    | none => s
    | some t => s.modBar t.bar fun b => { b with st := .free, slot := none }) s
  let shared := s.gangs.any fun kg => kg.2.bars = g.bars && kg.2.grid = g.grid && kg.2.num ≠ g.num && kg.2.st ≠ .retired
  if shared then s else g.bars.foldl (fun s b => s.modBar b fun b => { b with st := .free, slot := none }) s

/-- RETIRE_WRITEBACK_COMPLETE: the write-back lines are home and acknowledged, and the resources are freed
(05 R145, R148; 06 R158). Lines that found no room in the counters try again first. -/
def retireWritebackComplete (k : Nat) (s : State) : State :=
  match s.gangs.get? k with
  | none => s
  | some g =>
    if g.st ≠ .retired ∨ g.freed then s
    else if g.wbOut = 0 ∧ g.wb ≠ [] then writeHome s k
    else
      let s := s.modGang k fun x => { x with dirty := [], wb := [], wbOut := 0, freed := true }
      freeBars (if g.wbOut = 0 then s else s.ackOut g.core g.grid g.wbOut) g

/-- The outstanding counter slots of a grid are zero (05 R149). -/
def outZero (s : State) (grid : Word) : Bool := s.cores.all fun kc => kc.2.out.all fun gc => gc.1 ≠ grid || gc.2 = 0

def gangsOf (s : State) (grid : Word) : List (Nat × Gang) := s.gangs.filter fun kg => kg.2.grid = grid

/-- The conditions of completion (05 R149). -/
def gridDone (s : State) (id : Word) (g : Grid) : Bool :=
  g.placed = g.gangs && ((gangsOf s id).all fun kg => kg.2.st = .retired && kg.2.freed) && outZero s id
    && g.kids = 0 && s.errs.pins.all fun q => q.grid ≠ id

/-- The hold buffer has room for one more report (04 R128, R129). -/
def reportRoom (s : State) : Bool := !s.disp.castling || s.disp.fifo.length < 4096

/-- A grid leaves the package: its report enters the FIFO and its objects go. -/
def reportGrid (s : State) (id : Word) (g : Grid) : State :=
  let ids := (gangsOf s id).map (·.1)
  let teams := (gangsOf s id).flatMap fun kg => kg.2.teams
  let keep := fun (t : Nat) => !teams.contains t
  { s with
    disp := { s.disp with fifo := s.disp.fifo ++
      [⟨id, g.ctx, g.queue, g.seq, g.csig, g.cval, g.parent, g.killed, g.poison⟩] }
    grids := s.grids.del id.toNat
    gangs := s.gangs.filter fun kg => !ids.contains kg.1
    warps := s.warps.filter fun kw => keep kw.2.team
    bars := s.bars.filter fun kb => kb.2.st ≠ .free
    teams := s.teams.filter fun kt => keep kt.1
    flight := s.flight.filter fun m => keep (m.warp / 16)
    arrivals := s.arrivals.filter fun m => keep (m.warp / 16)
    exits := s.exits.filter fun m => keep (m.warp / 16) }

/-- GRID_COMPLETES: the grid is reported with status OK (05 R149). -/
def gridCompletes (id : Word) (s : State) : State :=
  match s.grids.get? id.toNat with
  | none => s
  | some g => if !g.killed && gridDone s id g && reportRoom s then reportGrid s id g else s

/-! ## Killing (05 R151; 17 R428; 18 R452) -/

/-- Engine operations of a killed gang are discarded, those started with a part of their work written; nothing of them
reaches a barrier (07 R188; 17 R428). -/
def dropOps (s : State) (p : EngOp → Bool) : State :=
  (s.ops.filter fun ko => p ko.2).foldl (fun (s : State) ko =>
    let s := (stopPart s ko.2).1.leaveFaults ko.2.fault.toList
    { s with ops := s.ops.del ko.1 }) s

/-- A killed gang: its state is Retired, its operations and loops stop, and lanes that have not performed never perform
(06 R158; 15 R404). Its resources are freed at once, or behind the write-back of its lines (05 R145). -/
def killGang (s : State) (k : Nat) : State :=
  match s.gangs.get? k with
  | none => s
  | some g =>
    let ws := gangWarps s g
    let s := dropOps s fun o => o.gang = k
    let loops := s.mloops.filterMap fun km => if ws.contains km.2.warp then km.2.fault else none
    let s := ws.foldl (fun s w => (s.dropWait w (s.warpCore w)).strand w) (s.leaveFaults (joinedOf s ws ++ loops))
    let s := s.modGang k fun x => { x with st := .retired, freed := decide (g.wb = []), evicting := false, mark := false, dirty := [] }
    let s := g.teams.foldl (fun s t => s.modTeam t fun x => { x with retired := true }) s
    let s := { s.dropSteps ws with
      mloops := s.mloops.filter fun km => !ws.contains km.2.warp
      arrivals := s.arrivals.filter fun a => !ws.contains a.warp
      exits := s.exits.filter fun a => !ws.contains a.warp
      svcRing := s.svcRing.filter fun r => !ws.contains r.warp
      pool := { s.pool with saved := s.pool.saved.del k }
      warps := s.warps.mapV fun i w => if ws.contains i then
          { w with exited := 0xFFFFFFFF#32, wake := [], pins := [], log := [], svcs := [], resv := [], traps := [], held := [] } else w }
    (if g.wb = [] then freeBars s g else writeHome s k).dropZeroSlots

/-- One grid: its gangs are killed, what gangs that have retired have left on the engines is discarded (17 R428), its pins
are freed, its child records marked to fail at their heads. -/
def killOne (s : State) (id : Word) : State :=
  match s.grids.get? id.toNat with
  | none => s
  | some g =>
    if g.killed then s
    else
      let s := (gangsOf s id).foldl (fun s kg => if kg.2.st = .retired then s else killGang s kg.1) s
      let s := dropOps s fun o => o.grid = id
      let s := writePins { s with errs := { s.errs with pins := s.errs.pins.filter fun q => q.grid ≠ id } }
      let s := s.modGrid id fun x => { x with killed := true }
      { s with queues := s.queues.mapV fun _ q =>
          { q with parents := q.parents.mapV fun _ gb => if gb.1 = id then (id, true) else gb } }

/-- A grid and every descendant that has been placed (05 R151). -/
def killTree (s : State) : Nat → List Word → State
  | 0, _ => s
  | n + 1, ids =>
    let kids := s.grids.filterMap fun kg => match kg.2.parent with
      | some g => if ids.contains g then some (BitVec.ofNat 32 kg.1) else none
      | none => none
    let s := ids.foldl killOne s
    if kids = [] then s else killTree s n kids

def killGridNow (s : State) (id : Word) : State := killTree s 10 [id]

/-- GRID_KILLED_REPORT: no gang resident or evicted and every counter slot zero (05 R151). -/
def gridKilledReport (id : Word) (s : State) : State :=
  match s.grids.get? id.toNat with
  | none => s
  | some g =>
    if g.killed && ((gangsOf s id).all fun kg => kg.2.st = .retired && kg.2.freed) && outZero s id && reportRoom s then
      reportGrid s id g
    else s

/-! ## A context that has drained (03 R100) -/

/-- QUIESCE_COMPLETES: no resident gang, no engine operation, every outstanding counter of its grids zero
(03 R100). -/
def quiesceCompletes (ctx : Nat) (s : State) : State :=
  match s.ctxs.get? ctx with
  | none => s
  | some c =>
    let resident := s.gangs.any fun kg => (gridOf s kg.2).any fun gr => gr.ctx = ctx && !kg.2.freed
    let out := s.grids.all fun kg => kg.2.ctx ≠ ctx || outZero s (BitVec.ofNat 32 kg.1)
    if c.st = .quiescing ∧ ¬ resident ∧ out ∧ s.ops.all (fun ko => ko.2.ctx ≠ ctx) then
      s.modCtx ctx fun c => { c with st := .suspended }
    else s

/-- ONTOUCH_WRITEBACK: a dirty on-touch line is written home by 1,024 cc after it became dirty (11 R267); teams that only
waited for their lines retire (11 R264). -/
def ontouchWriteback (k line : Nat) (s : State) : State :=
  let s := s.modGang k fun g => { g with
    dirty := if (g.dirty.get? line).any fun l => l.1 + 1024 ≤ s.coreCc g.core then g.dirty.del line else g.dirty }
  (((s.gangs.get? k).map (·.teams)).getD []).foldl retireTeam s

/-- RESERVATION_EXPIRES: 512 cc after the `ldr` (11 R288). -/
def reservationExpires (w lane : Nat) (s : State) : State :=
  match s.warps.get? w with
  | none => s
  | some x => match x.resv.get? lane with
    | none => s
    | some r =>
      if r.cc + 512 ≤ s.coreCc (s.warpCore w) then s.modWarp w fun x => { x with resv := x.resv.del lane } else s

/-- Operations of a grid that a core's counts still stand for: its engine operations, the lanes of `sig` and `rst` not yet
performed, also of warps that have been evicted from it, and write-back lines on their way (05 R148). -/
def opsOut (s : State) (core : Nat) (grid : Word) : Nat :=
  let lanes (w : Warp) : Nat := sumOf w.log fun ke => match ke.2.instr with
    | .sig _ | .rst _ => if ke.2.core = core then popCount (ke.2.active &&& ~~~ ke.2.done) else 0
    | _ => 0
  (s.ops.filter fun ko => ko.2.core = core ∧ ko.2.grid = grid).length
    + (sumOf s.warps fun kw => if (s.place? kw.1).any fun p => p.g.grid = grid then lanes kw.2 else 0)
    + sumOf s.gangs fun kg => if kg.2.core = core ∧ kg.2.grid = grid then kg.2.wbOut else 0

/-- OUTSTANDING_ACK: one operation of the grid on the core is acknowledged (05 R148). -/
def outstandingAck (core : Nat) (grid : Word) (s : State) : State :=
  if (s.core core).out.any fun gc => gc.1 = grid && opsOut s core grid < gc.2 then s.ackOut core grid 1 else s

end Sys2Proof.Machine
end

