-- ==== Sys2Proof/Machine/Auto.lean ====
section
/-! DEFINITION. What moves next when nothing is laid on the agenda (log 5): the events that the machine owes
itself, owedEvents first and periodic ones at each round, then one issue of every core that has a path and ends a
compute cycle, then the placer, then one hub cycle. Only the choice of the next agent stands here; what an event does stands with the event. -/

namespace Sys2Proof.Machine

def warpEvents (s : State) (k : Nat) (w : Warp) : List Instr :=
  let core := s.warpCore k
  (if 4096 ≤ w.fairTimer then [.fairnessTimerExpires k] else [])
    ++ (if w.fairPath ≠ 0#32 then [.fairnessPathEnds k] else [])
    ++ (if w.yieldUntil ≠ 0 then [.yieldEnds k] else [])
    ++ (if w.tempoSince ≠ none then [.warpBecomesCritical k] else [])
    ++ w.resv.keys.map (fun l => .reservationExpires k l)
    ++ (if (s.place? k).any fun p => p.g.st = .running then
          w.log.keys.flatMap fun e => [.memoryReturn core w.slot w.gen.toNat e, .storePerformed k e]
        else [])

/-- Whether an engine operation goes on now: free (log 5), but not put off while no path can issue, nor past the next
multiple of 1,024 hc. -/
def enginesGoOn (s : State) : Bool :=
  Config.freeBool s.fresh || decide (s.hc % 1024 = 0)
    || (s.teams.map fun kt => kt.2.core).all fun c => decide (firstChoices s.refresh c = [])

/-- The clusters whose pools and arrays the model holds. -/
def tempoClusters (s : State) : List Nat := (s.cores.keys.map coreCluster ++ s.clusters.keys).eraseDups

/-- The last hub cycle of a cluster's compute cycle (10 R255). -/
def endsCc (s : State) (k : Nat) : Bool := s.clusterCc k < (s.cluster k).cc (s.hc + 1)

/-- The slew boundaries of this hub cycle, behind the draws of their cc (10 R250; 23 R487). -/
def slewTurns (s : State) : List Turn :=
  ((tempoClusters s).filter fun k => endsCc s k && decide (s.clusterCc k % 4 = 0) && decide ((s.cluster k).lastSlew ≤ s.clusterCc k / 4)).map
    fun k => .event (.slewBoundary (k / 8) (k % 8))

/-- A reading of the ring: free values (10 R241, R258, R259; log 8). -/
def freeReading (n : Nat) : RevReading :=
  ⟨Config.freeNat n, (List.range 12).map fun d => (Config.freeNat (n + 1 + d) : Int)⟩

/-- Events that the state owes, most urgent first; the ones with no effect now are passed over. At a barrier a group is
evicted before warps exit, before they arrive, before bytes arrive (07 R185). -/
def owedEvents (s : State) : List Instr :=
  (if s.power.lastRev < s.hc / 256 then [.revolution (freeReading s.fresh)] else [])
    ++ ((tempoClusters s).filter fun k => (s.cluster k).lastRefill < s.clusterCc k / 16).map (fun k => .poolRefill (k / 8) (k % 8))
    ++ s.flight.map (fun m => .portDelivery m.warp m.p m.lane)
    ++ (if s.disp.fifo ≠ [] then [.completionDelivery] else [])
    ++ (if s.disp.castling then [.standbyTakeover] else [])
    ++ (if 4096 ≤ s.disp.sinceCkpt then [.journalCheckpoint] else [])
    ++ s.warps.flatMap (fun kw => warpEvents s kw.1 kw.2)
    ++ s.cores.flatMap (fun kc => kc.2.outstandingGens.map fun sg => .memoryReturn kc.1 sg.1 sg.2.toNat 0)
    ++ s.gangs.keys.map (fun k => .gangEvictionComplete k)
    ++ s.exits.map (fun m => .exitReachesBarrier m.bar m.warp)
    ++ s.arrivals.map (fun a => .barrierArrival a.bar)
    ++ (s.bars.filter fun kb => kb.2.st = .released).map (fun kb => .releaseEnds kb.1)
    ++ s.cores.keys.map (fun c => .matrixStepEnds c)
    ++ s.mloops.map (fun km => .mloopPly km.2.core km.1)
    ++ s.ops.keys.map (fun k => .engineOpStarts k)
    ++ (if s.ops = [] then [] else if enginesGoOn s then s.ops.keys.map (fun k => .engineOpCompletes k) else [])
    ++ s.cores.flatMap (fun kc => (kc.2.out.filter fun gc => opsOut s kc.1 gc.1 < gc.2).map
        fun gc => .outstandingAck kc.1 gc.1)
    ++ (s.gangs.filter fun kg => kg.2.teams.any fun t => (s.teams.get? t).any fun tm => teamDone s t tm && teamClean s tm).map
        (fun kg => .ontouchWriteback kg.1 0)
    ++ s.gangs.keys.flatMap (fun k => [.allotmentComplete k, .stageInCompletes k, .imageIsLoaded k,
        .retireWritebackComplete k])
    ++ s.grids.keys.flatMap (fun k => [.gridKilledReport (BitVec.ofNat 32 k), .gridCompletes (BitVec.ofNat 32 k)])
    ++ s.ctxs.keys.map (fun k => .quiesceCompletes k)
    ++ s.clusters.keys.flatMap (fun k => [.droopRationingEnds (k / 8) (k % 8), .rampEnds (k / 8) (k % 8),
        .quiescePoint (k / 8) (k % 8)])
    ++ s.queues.keys.map (fun q => .recordReserved q)

/-- The periodic events due at this hub cycle (04 R121; 11 R267; 15 R401). -/
def periodic (s : State) : List Turn :=
  (if s.lastSweep < s.hc / 4096 then [.event .placerSweep] else [])
    ++ s.gangs.flatMap (fun kg => kg.2.dirty.filterMap fun lc =>
        if lc.2.1 + 1024 ≤ s.coreCc kg.2.core then some (.event (.ontouchWriteback kg.1 lc.1))
        else none)
    ++ s.warps.flatMap fun kw =>
        let k := coreCluster (s.warpCore kw.1)
        let m := maskOf (kw.2.wake.filterMap fun lw => match lw.2 with | .signal _ => some lw.1 | _ => none)
        if m = 0#32 ∨ ¬ endsCc s k ∨ s.clusterCc k % 4096 ≠ 0 then [] else [.event (.sigwRetest kw.1 m)]

/-- What the placer does behind the issues of its cycle, so that a record that enters a queue in it comes first (04 R113);
an eviction starts behind the blocks and wakes of the cycle (06 R161). -/
def placerTurns (s : State) : List Turn :=
  .event .placerDecision
    :: (s.gangs.filter fun kg => kg.2.st = .evicted).map (fun kg => .event (.restoreBegins kg.1))
    ++ (s.gangs.filter fun kg => kg.2.st = .running).map (fun kg => .event (.gangEvictionStart kg.1))

/-- The cores that have a path to issue and whose compute cycle ends with this hub cycle (06 R165, 10 R255). -/
def busyCores (s : State) : List Nat :=
  ((s.teams.map fun kt => kt.2.core).eraseDups).filter fun c =>
    endsCc s (coreCluster c) && decide (firstChoices s c ≠ [])

/-- One round: the periodic events, the issues of the cores whose compute cycle ends, the placer, the slew boundaries of that
cycle, and one hub cycle. -/
def round (s : State) : List Turn :=
  periodic s ++ (busyCores s.refresh).map .issue ++ placerTurns s ++ slewTurns s ++ [.elapse 1]

end Sys2Proof.Machine
end

