-- ==== Sys2Proof/Machine/HubEvents.lean ====
section
/-! DEFINITION. Pager replies (08 R207, R491), links (09 R217, R218, R227, R232 to R235), errors (18 R447
to R450) and resets (18 R453). -/

namespace Sys2Proof.Machine

/-! ## Walks and the pager -/

/-- WALK_COMPLETES: a walk for an access fills the TLBs and sets A or D, or ends in a page fault (08 R199,
R205). -/
def walkCompletes (die core ctx : Nat) (va : DWord) (acc : AccKind) (s : State) : State :=
  if ¬ canonicalVa va.toNat then s
  else match walk s (if core < 768 then coreTlbs core else dieTlbs die) ctx va.toNat acc with
  | .ok (s, _) => s
  | .error (k, l) => match joinFault s die ctx va acc k l 0#32 with
    | some (s, _) => emitFaults s
    | none => s

/-- Lanes that wait on a fault record, in the operand log or for a fetch, go on (08 R207). -/
def Warp.faultServed (die : Nat) (fnum : Word) (w : Warp) : Warp :=
  { w with
    log := w.log.mapV fun _ e => { e with faults := e.faults.filter fun lf => lf.2 ≠ (die, fnum) }
    wake := w.wake.filter fun lw => match lw.2 with
      | .fetch _ d f => ¬ (d = die ∧ f = fnum)
      | _ => true }

/-- What the pager has written to FREPLY: the die, HOLD and the fault number (08 R207). -/
def freplyWord (die : Nat) (hold : Bool) (fnum : Word) : DWord :=
  BitVec.ofNat 64 (die % 16 * 2 ^ 36 + (if hold then 2 ^ 32 else 0) + fnum.toNat)

/-- FREPLY_RETRY: the entry is freed and every access that joined it walks again; a reply that names no pending entry
only stands in the register (08 R207). With both service cores failed nothing answers (18 R447). -/
def freplyRetry (die : Nat) (fnum : Word) (s : State) : State :=
  let k := faultKey die fnum
  if s.errs.svcFailed.all id then s
  else
  let s := { s with paging := { s.paging with freply := freplyWord die false fnum } }
  if ¬ s.paging.faults.has k then s
  else { s with
    paging := { s.paging with faults := s.paging.faults.del k }
    warps := s.warps.mapV fun _ w => w.faultServed die fnum
    ops := s.ops.mapV fun _ o => if o.fault = some (die, fnum) then { o with fault := none } else o
    mloops := s.mloops.mapV fun _ m => if m.fault = some (die, fnum) then { m with fault := none } else m }

/-- FREPLY_HOLD: the entry and its accesses wait on (08 R207). -/
def freplyHold (die : Nat) (fnum : Word) (s : State) : State :=
  if s.errs.svcFailed.all id then s
  else { s with paging := { s.paging with freply := freplyWord die true fnum } }

/-- FRING_HEAD_WRITE: slots are freed and held records are written; a HEAD outside HEAD to TAIL is ignored
(08 R491). -/
def fringHeadWrite (head : BitVec 13) (s : State) : State :=
  let p := s.paging
  if (head.toNat + 8192 - p.head.toNat) % 8192 ≤ (p.tail.toNat + 8192 - p.head.toNat) % 8192 then
    emitFaults { s with paging := { p with head := head } }
  else s

/-! ## Links (09 R216 to R218, R221, R227) -/

def linkCode : Link → Nat
  | .die d j => d * 8 + j
  | .pod p => 96 + p
  | .endpoint k => 128 + k
  | .host => 136

/-- The links that exist (09 R216). -/
def linkValid : Link → Bool
  | .die d j => d < 12 && j < 8
  | .pod p => p < 32
  | .endpoint k => k < 8
  | .host => true

/-- Full width: 8 modules, 4 lanes, 8 lanes. -/
def linkFull (l : Link) : Nat := (LinkS.reset (linkCode l)).width

/-- Widths a link may have (09 R218). -/
def widthOk (l : Link) (w : Nat) : Bool :=
  match l with
  | .die _ _ => 1 ≤ w && w ≤ 8
  | .host => w = 8
  | _ => w = 1 || w = 2 || w = 4

/-- The width below a width: one x64 module fewer, x4 to x2 to x1, none for the host port (09 R218). -/
def nextWidth (l : Link) (w : Nat) : Nat :=
  match l with
  | .die _ _ => w - 1
  | .host => 0
  | _ => w / 2

/-- Breaks the `qd` links that a die link carries (09 R221). -/
def breakQd (s : State) (link : Nat) : State :=
  s.warps.keys.foldl (fun s k => match s.place? k with
    | none => s
    | some p =>
      if p.bound .qd && (qdLinks s p.t.core).contains link then
        (List.range 32).foldl (fun s l => s.closeLane p [.qd] l 3) s
      else s) s

/-- An engine operation fails with its engine: a started one has written a part of its work, its future can no longer
resolve, and it still adds its full destination count to its barrier (01 R48; 07 R188; 17 R428). -/
def failOp (s : State) (k : Nat) (o : EngOp) : State :=
  let n := o.bytes s
  let s := (stopPart s o).1
  let s := killFut ({ s with ops := s.ops.del k }.ackOut o.core o.grid 1) o.warp o.fut 2
  if o.started && o.bar ≠ 0 then barrierBytes s (o.bar - 1) o.core n else s

/-- The operations of a die's copy engine that have not pinned. -/
def failOps (s : State) (d : Nat) : State :=
  s.ops.foldl (fun s ko =>
    if ko.2.die = d ∧ ko.2.kind ≠ .coll ∧ ko.2.kind ≠ .cmpr ∧ ko.2.pinned = none ∧ ¬ ko.2.released then failOp s ko.1 ko.2
    else s) s

/-- DIE_MARKED_FAILED: every grid with a gang resident on the die is killed (09 R227); an operation that an evicted gang
has left on the die's copy engine fails (01 R48). -/
def dieMarkedFailed (s : State) (d : Nat) : State :=
  let hit := (s.gangs.filterMap fun kg => if kg.2.die = d ∧ ¬ kg.2.freed then some kg.2.grid else none).eraseDups
  let s := s.modDie d fun x => { x with failed := true }
  failOps (hit.foldl (fun s g =>
    let ctx := ((s.grids.get? g.toNat).map (·.ctx)).getD 64
    (killGridNow s g).raiseCtx ctx) s) d

/-- A link is Down: `qd` bindings on it break, and a die whose eight links are Down is failed (09 R221,
R227). -/
def linkDown (s : State) (l : Link) : State :=
  let s := s.modLink (linkCode l) fun x => { x with st := .down, width := 0 }
  match l with
  | .die d j =>
    let s := breakQd s (d * 8 + j)
    if (List.range 8).all (fun j => (s.link (d * 8 + j)).st = .down) && !s.dieFailed d then dieMarkedFailed s d else s
  | _ => s

/-- TRAINING_SUCCEEDS: Up at full width, Degraded below it (09 R217). -/
def trainingSucceeds (l : Link) (width : Nat) (s : State) : State :=
  if linkValid l ∧ (s.link (linkCode l)).st = .training ∧ widthOk l width then
    s.modLink (linkCode l) fun x => { x with st := if width = linkFull l then .up else .degraded, width := width }
  else s

/-- TRAINING_FAILS (09 R217). -/
def trainingFails (l : Link) (s : State) : State :=
  if linkValid l ∧ (s.link (linkCode l)).st = .training then linkDown s l else s

/-- WIDTH_IS_LOST: fewer modules or lanes than the link's width still work, and the link takes one step, to Degraded at
its next width or to Down when none is left; a link that has lost more takes the next step at its next such event (09 R217,
R218). -/
def widthIsLost (l : Link) (width : Nat) (s : State) : State :=
  let x := s.link (linkCode l)
  if linkValid l ∧ linkWorks x ∧ width < x.width then
    let n := nextWidth l x.width
    if n = 0 then linkDown s l else s.modLink (linkCode l) fun x => { x with st := .degraded, width := n }
  else s

/-- LINK_IS_LOST (09 R217, R227). -/
def linkIsLost (l : Link) (s : State) : State :=
  if linkValid l ∧ linkWorks (s.link (linkCode l)) then linkDown s l else s

/-- The reset link command: Reset, and Training at once unless held (09 R217). -/
def resetLinkNow (s : State) (l : Link) (hold : Bool) : State :=
  let x := s.link (linkCode l)
  if x.st = .training then s
  else s.modLink (linkCode l) fun x => { x with st := if hold then .reset else .training, width := 0, hold := hold }

/-! ## Requests from outside (09 R232 to R235; 11 R295 to R298) -/

/-- POD_REQUEST: a request that arrives through a pod port carries a physical address of this package and
is served at its home agents, without translation (09 R232): a load and a read-modify-write answer with the bytes read; on a
poisoned line a read-modify-write writes nothing (15 R392). Nothing arrives without a working pod port (09 R217). -/
def podRequest (pa : Nat) (op : PodOp) (s : State) : State :=
  if ¬ s.podUp ∨ pa / 2 ^ 42 ≠ s.fused.pkg ∨ 2 ^ 39 ≤ pa % 2 ^ 40 then s
  else
    let loc := physLoc pa
    let rmw (n : Nat) (f : Nat → Option Nat) : State :=
      let old := s.sentBytes loc n
      if s.linePoisoned loc then s.send (.pod old)
      else (match f (natLE old) with
        | some x => storeAll s loc (bytesLE n x)
        | none => s).send (.pod old)
    match op with
    | .load n => s.send (.pod (s.sentBytes loc n))
    | .store bs => storeAll s loc bs
    | .rmw f t b => rmw (t.width / 8) fun old => some (rmwEval f t old b)
    | .cas t b c => rmw (t.width / 8) fun old => if old = b then some c else none
    | .sig v =>
      if s.linePoisoned loc then s
      else hitWatch (storeAll s loc (bytesLE 8 (s.memWord loc + v).toNat)) loc

/-- An access-control entry grants a requester and local granule index (09 R234). -/
def actGrants (e : DWord) (pkg k : Nat) : Bool :=
  e.getLsbD 63 && (e.getLsbD 62 || bits e 61 52 = pkg) && bits e 23 0 ≤ k && k ≤ bits e 47 24

/-- A stack-endpoint read is granted (09 R234). -/
def actOk (s : State) (stack pkg k : Nat) : Bool :=
  (List.range 256).any fun i => actGrants (Sparse.get 0#64 s.acts (stack * 256 + i)) pkg k

/-- ENDPOINT_READ: a remote read through aperture 2 is checked against the stack's table and served from
HBM, all ones where the line is poisoned; a denied one returns nothing (09 R233, R234; 18 R448). -/
def endpointRead (pkg stack off size : Nat) (s : State) : State :=
  if 8 ≤ stack ∨ ¬ linkWorks (s.link (128 + stack)) ∨ 128 < off % 128 + size then s
  else
    let c := canonOff 2 (stack * 2 ^ 36 + off % 2 ^ 36)
    let loc := locOf s.fused.pkg c
    if actOk s stack pkg (granuleK c) then
      s.send (.endpoint pkg (if s.linePoisoned loc then List.replicate size 0xFF#8 else hbmRead s loc size))
    else s

/-- The host port serves RDMA: it works, and boot has not ended in Rejected (09 R217; 18 R453). -/
def State.hostServes (s : State) : Bool := linkWorks (s.link 136) && decide (s.boot ≠ .rejected)

/-- RDMA_WRITE: data of a queue pair is performed at the home agents in message order (11 R298). -/
def rdmaWrite (qp pa : Nat) (data : List Byte) (s : State) : State :=
  if 64 ≤ qp ∨ ¬ s.hostServes then s
  else storeAll s (physLoc pa) data

/-- RDMA_READ: coherent values (11 R298). -/
def rdmaRead (qp pa size : Nat) (s : State) : State :=
  if 64 ≤ qp ∨ ¬ s.hostServes then s else s.send (.rdmaReply qp (s.sentBytes (physLoc pa) size))

/-- ECN_MARKED_PACKET: the sending queue pair slows (09 R235). -/
def ecnMarkedPacket (qp : Nat) (s : State) : State :=
  if 64 ≤ qp ∨ ¬ s.hostServes then s else { s with host := { s.host with qpSlow := Sparse.set false s.host.qpSlow qp true } }

/-! ## Errors (18 R447 to R450) -/

/-- The canonical offset of an address. -/
def errOff (addr : DWord) : Nat := canonOff (addr.toNat / 2 ^ 40 % 4) (addr.toNat % 2 ^ 40)

/-- A log entry for an event whose counter now stands at `stamp`, or ELOVF when the log is full (18 R450). -/
def logError (s : State) (chan : Nat) (addr : DWord) (ue : Bool) (stamp : Word) : State :=
  let a := if 44 ≤ chan then 0#64 else
    BitVec.ofNat 64 (addr.toNat / 2 ^ 42 * 2 ^ 42 + errOff addr / 128 * 128)
  if s.errs.log.length < 64 then
    { s with errs := { s.errs with log := s.errs.log ++ [⟨a, chan, ue, stamp⟩] } }
  else { s with counters := { s.counters with elovf := s.counters.elovf + 1#32 } }

/-- A line of HBM belongs to its home stack's channel, and a line in the LLC to that of its slice (08 R210; 18 R447).
Channels 49 and above are reserved. -/
def errChannel (chan : Nat) (addr : DWord) : Bool :=
  if chan < 8 then homeStack (errOff addr) = chan
  else if chan < 32 then llcSlice (errOff addr) = chan - 8
  else chan < 49

/-- CORRECTABLE_ERROR: CEC counts and the event is logged (18 R447, R450). -/
def correctableError (chan : Nat) (addr : DWord) (s : State) : State :=
  if ¬ errChannel chan addr then s
  else
    let n := Sparse.get 0#32 s.errs.cec chan + 1#32
    logError { s with errs := { s.errs with cec := Sparse.set 0#32 s.errs.cec chan n } } chan addr false n

def poisonLine (s : State) (addr : DWord) : State :=
  { s with poisonLines := s.poisonLines.put (lineOf (physLoc addr.toNat)) () }

/-- A register, tile or accumulator element becomes the all-ones word; a long entry sets its NaN flag
(18 R448). -/
def poisonItem (s : State) (addr : DWord) : ErrItem → State
  | .line => poisonLine s addr
  | .vreg w r l => s.modWarp w fun x =>
      if r < x.va ∧ l < 32 then { x.setV r l 0xFFFFFFFF#32 with marks := x.marks.put (markV r l) () } else x
  | .ureg w r => s.modWarp w fun x =>
      if r < x.sa then { x.setU r 0xFFFFFFFF#32 with marks := x.marks.put (markU r) () } else x
  | .tile w t k => s.modWarp w fun x =>
      if t < x.ta ∧ k < 1024 then
        { x.tileWrite t (4 * k) [0xFF#8, 0xFF#8, 0xFF#8, 0xFF#8] with marks := x.marks.put (markT t k) () } else x
  | .acc w a e => match s.place? w with
    | none => s
    | some p => s.modWarp w fun x =>
        if a < x.aa then
          if p.gr.longAcc then
            let le := x.laccGet a (e / 32 % 32) (e % 32)
            { x with laccs := Sparse.set LongEntry.zero x.laccs (1024 * a + e % 1024) { le with nan := true },
                     marks := x.marks.put (markA a (e % 1024)) () }
          else { x with accs := Sparse.set 0#32 x.accs (4096 * a + e % 4096) 0xFFFFFFFF#32,
                        marks := x.marks.put (markA a (e % 4096)) () }
        else x
  | .scratch g l => match s.gangs.get? g with
    | none => s
    | some x => match s.grids.get? x.grid.toNat with
      | none => s
      | some gr => if 128 * l < gr.window then s.modGang g fun x => { x with scratchBad := x.scratchBad.put l () } else s
  | .journal j => { s with disp := { s.disp with
      journal := s.disp.journal.map fun x => if x.jseq = j then { x with bad := true } else x } }

/-- The item stands on a compute die: any line may stand in its caches. -/
def itemOnDie (s : State) (d : Nat) : ErrItem → Bool
  | .line => true
  | .vreg w _ _ | .ureg w _ | .tile w _ _ | .acc w _ _ => (s.place? w).any fun p => coreDie p.t.core = d
  | .scratch g _ => (s.gangs.get? g).any fun x => x.die = d
  | .journal _ => false

/-- UNCORRECTABLE_ERROR: UEC counts, the event is logged, and the item is poisoned or its processor fails
(18 R447, R448; 04 R128, R131). -/
def uncorrectableError (chan : Nat) (addr : DWord) (item : ErrItem) (s : State) : State :=
  if ¬ errChannel chan addr then s
  else
    let n := Sparse.get 0#32 s.errs.uec chan + 1#32
    let s := logError { s with errs := { s.errs with uec := Sparse.set 0#32 s.errs.uec chan n } } chan addr true n
    if chan < 8 then poisonLine s addr
    else if chan < 32 then (match item with
      | .journal j => poisonItem s addr (.journal j)
      | _ => poisonLine s addr)
    else if chan < 44 then (if itemOnDie s (chan - 32) item then poisonItem s addr item else s)
    else if chan < 46 then dispatchFails s (chan - 44)
    else if chan < 48 then { s with errs := { s.errs with svcFailed := s.errs.svcFailed.set (chan - 46) true } }
    else { s with
      errs := { s.errs with hubFatal := true, events := s.errs.events ++ [(1, 48)] }
      placer := { s.placer with stopped := true } }

/-- COLD_RESET: every die is reset and bring-up runs (18 R453). -/
def coldReset (s : State) : State := State.afterReset s.fused

end Sys2Proof.Machine
end

