-- ==== Sys2Proof/Machine/Edwick.lean ====
section
/-! DEFINITION. The special registers of a core (17 R444) and the Edwick management commands (03 R108; 04
R111 to R119; 09 R230 to R237; 10 R255, R258; 18 R451 to R456, R492). -/

namespace Sys2Proof.Machine

/-! ## Specials (17 R444; 10 R258) -/

/-- A special that belongs to a core. The monitors are measurements: free values (log 8), but for the
droop count. -/
def coreSpecial (s : State) (core n : Nat) : Word :=
  let c := s.core core
  let cl := s.cluster (coreCluster core)
  match n with
  | 0x010 => c.stale
  | 0x011 => c.lsat
  | 0x012 => c.t2inv
  | 0x013 => c.zwrap
  | 0x014 => c.cvsat
  | 0x015 => c.barmis
  | 0x016 => c.qdrop
  | 0x017 => c.bgwait
  | 0x018 => c.lad.getD 0 0#32
  | 0x019 => c.lad.getD 1 0#32
  | 0x01A => c.lad.getD 2 0#32
  | 0x01B => c.lad.getD 3 0#32
  | 0x01C => c.poison
  | 0x01D => BitVec.ofNat 32 (s.coreCc core / 2 ^ 32)
  | 0x020 => (Config.freeWord s.fresh) &&& 0xFFFF#32
  | 0x021 => ((Config.freeWord s.fresh) &&& 0xFFFF#32) ||| (cl.droops.setWidth 32 <<< 16)
  | 0x022 => Config.freeWord s.fresh
  | 0x040 => c.ladsel
  | 0x041 => c.bp.getD 0 0#32
  | 0x042 => c.bp.getD 1 0#32
  | 0x043 => c.bp.getD 2 0#32
  | 0x044 => c.bp.getD 3 0#32
  | _ => 0#32

def isMonitor (n : Nat) : Bool := n = 0x020 || n = 0x021 || n = 0x022

/-! ## Commands and replies (09 R236, R237) -/

def edOk : Nat := 0
def edBadState : Nat := 1
def edBadDesc : Nat := 2
def edNoSlot : Nat := 3
def edNoSpace : Nat := 4
def edFull : Nat := 5
def edBadCmd : Nat := 6

/-- A command on its frame: its code and its operand bytes (09 R236, R237). -/
structure Cmd where (code oplen : Nat) deriving DecidableEq, Repr

/-- The operand bytes of each command code: its operands in the order the spec names them, each in whole 64-bit words
(03 R108; 09 R237; 18 R455, R456; log 63). Of *write collective group* at least one member. -/
def cmdOplen : Nat → Option (Nat → Bool)
  | 0x01 => some (· = 40)
  | 0x02 | 0x03 | 0x04 | 0x06 | 0x07 => some (· = 8)
  | 0x05 => some (· = 136)
  | 0x10 => some (· = 64)
  | 0x11 | 0x12 | 0x13 | 0x14 | 0x17 => some (· = 8)
  | 0x15 | 0x16 | 0x18 | 0x19 | 0x20 => some (· = 16)
  | 0x30 => some (· = 24)
  | 0x40 | 0x42 => some (· = 24)
  | 0x41 | 0x43 => some (· = 16)
  | 0x50 | 0x60 | 0x64 | 0x79 | 0x7F => some (· = 0)
  | 0x51 | 0x67 => some (· = 24)
  | 0x52 => some fun n => 24 ≤ n
  | 0x61 | 0x70 => some (· = 16)
  | 0x62 | 0x63 | 0x71 => some (· = 8)
  | 0x65 | 0x66 | 0x78 => some (· = 32)
  | _ => none

/-- The 16-byte header of a reply: the request's, with STATUS set (09 R236). -/
def EdwReply.header (r : EdwReply) : BitVec 128 :=
  BitVec.ofNat 128 (r.oplen * 2 ^ 96 + r.tag.toNat * 2 ^ 48 + r.status * 2 ^ 40 + r.cmd * 2 ^ 32 + 2 ^ 16 + 0x4557)

/-- The reply to a command is sent and kept for a repeated TAG. -/
def State.reply (s : State) (e : Edw) (c : Cmd) (status : Nat) (result : List DWord) : State :=
  let r : EdwReply := ⟨e.src, e.tag, c.code, c.oplen, status, result⟩
  { s with host := { s.host with last := s.host.last.put e.src r, replies := s.host.replies ++ [r] } }

/-- The management allow list holds up to 8 addresses (09 R236). -/
def State.allowed (s : State) (src : Nat) : Bool := (s.fused.allow.take 8).contains src

/-- A command from an address of the allow list executes once per TAG; a repeated TAG gets the previous
reply again; another source's frame is dropped (09 R236, R237). In boot state Rejected only *query boot
status* and *attest* answer (18 R453), and nothing arrives while the host port is not working (09 R217). -/
def edwick (e : Edw) (c : Cmd) (boot : Bool) (f : State → State × Nat × List DWord) (s : State) : State :=
  if ¬ linkWorks (s.link 136) then s
  else if ¬ s.allowed e.src then
    { s with counters := { s.counters with edwbad := s.counters.edwbad + 1#32 } }
  else if s.boot = .rejected ∧ ¬ boot then s
  else
    let run : State := let r := f s; r.1.reply e c r.2.1 r.2.2
    match s.host.last.get? e.src with
    | some r => if r.tag = e.tag then { s with host := { s.host with replies := s.host.replies ++ [r] } } else run
    | none => run

def dw (n : Nat) : DWord := BitVec.ofNat 64 n
def st1 (s : State) (code : Nat) : State × Nat × List DWord := (s, code, [])

/-- EDWICK_FRAME_DROPPED: a frame that fails a check of its source, MAGIC, VER, reserved bits or OPLEN is
dropped and counted (09 R236). -/
def edwickFrameDropped (src : Nat) (frame : BitVec 128) (bytes : Nat) (s : State) : State :=
  let n := bits frame 127 96
  let ok := s.allowed src && bits frame 15 0 = 0x4557 && bits frame 31 16 = 1
    && bits frame 95 64 = 0 && n ≤ 4096 && n % 8 = 0 && bytes = 16 + n
  if ok ∨ ¬ linkWorks (s.link 136) then s else { s with counters := { s.counters with edwbad := s.counters.edwbad + 1#32 } }

/-! ## Queues (04 R111 to R119) -/

def queueStCode : QueueSt → Nat
  | .free => 0 | .disabled => 1 | .enabled => 2

/-- The rules of a queue descriptor (04 R111). -/
def queueDescOk (s : State) (d : BitVec 256) : Bool :=
  let rn := bits d 47 44
  bits d 127 48 = 0 && bits d 41 38 = 0 && bits d 43 42 ≠ 3 && 4 ≤ rn && rn ≤ 12
    && bits d 191 180 = 0 && bits d 191 128 % (128 * 2 ^ rn) = 0 && s.ctxs.has (bits d 37 32)

def journalCfg (s : State) (n code : Nat) : State := journal s .qcfg n 0#32 0#32 0#64 (dw code)

def createQueue (e : Edw) (num : Nat) (desc : BitVec 256) (s : State) : State :=
  edwick e ⟨0x01, 40⟩ false (fun s =>
    if 1024 ≤ num then st1 s edBadDesc
    else if (s.queue num).st ≠ .free then st1 s edBadState
    else if ¬ queueDescOk s desc then st1 s edBadDesc
    else
      let s := s.modQueue num fun q => { q with
        st := .disabled, desc := desc, nextSeq := desc.extractLsb' 0 32, head := 0, tail := 0
        headSince := s.hc, passedSince := none, reserved := false, parents := [], watch := none, offAt := none }
      let s := (journalCfg s num 1).setTail num 0
      st1 (s.modQueue num fun q => { q with born := if s.disp.up then some (s.disp.nextJseq - 1) else none }) edOk) s

def enableQueue (e : Edw) (num : Nat) (s : State) : State :=
  edwick e ⟨0x02, 8⟩ false (fun s =>
    if 1024 ≤ num then st1 s edBadDesc
    else if (s.queue num).st ≠ .disabled then st1 s edBadState
    else st1 (journalCfg (s.modQueue num fun q => { q with st := .enabled, offAt := none, watch := none }) num 2) edOk) s

def disableQueue (e : Edw) (num : Nat) (s : State) : State :=
  edwick e ⟨0x03, 8⟩ false (fun s =>
    if 1024 ≤ num then st1 s edBadDesc
    else if (s.queue num).st ≠ .enabled then st1 s edBadState
    else st1 (journalCfg (s.modQueue num fun q => { q with st := .disabled, offAt := some s.hc }) num 3) edOk) s

def freeQueue (e : Edw) (num : Nat) (s : State) : State :=
  edwick e ⟨0x04, 8⟩ false (fun s =>
    if 1024 ≤ num then st1 s edBadDesc
    else if (s.queue num).st = .free then st1 s edBadState
    else st1 (journalCfg (freeQueueNow s num) num 4) edOk) s

/-- *Enqueue record* (04 R118). -/
def enqueueRecord (e : Edw) (num : Nat) (lr : BitVec 1024) (s : State) : State :=
  edwick e ⟨0x05, 136⟩ false (fun s =>
    let q := s.queue num
    if 1024 ≤ num then st1 s edBadDesc
    else if q.st ≠ .enabled then st1 s edBadState
    else if q.src ≠ 2 then st1 s edBadDesc
    else if q.full then st1 s edFull
    else st1 (enqueue s num lr) edOk) s

/-- *Query queue*: state, head, tail, NEXTSEQ and the counters (04 R119). -/
def queryQueue (e : Edw) (num : Nat) (s : State) : State :=
  edwick e ⟨0x06, 8⟩ false (fun s =>
    let q := s.queue num
    if 1024 ≤ num then st1 s edBadDesc
    else (s, edOk, [dw (queueStCode q.st), dw (q.head % 2 ^ q.ringn), dw (q.tail % 2 ^ q.ringn), dw q.nextSeq.toNat,
      dw q.qoff.toNat, dw q.qcred.toNat, dw q.qdup.toNat, dw q.qgap.toNat, dw q.qfull.toNat, dw q.qbad.toNat,
      dw s.counters.ontbad.toNat])) s

def setOntiaUdpPort (e : Edw) (port : BitVec 16) (s : State) : State :=
  edwick e ⟨0x07, 8⟩ false (fun s => st1 { s with host := { s.host with udpPort := port } } edOk) s

/-! ## Contexts (03 R96 to R109) -/

def ctxStCode : CtxSt → Nat
  | .created => 0 | .active => 1 | .quiescing => 2 | .suspended => 3 | .destroyed => 4

/-- The rules of a context descriptor (03 R97). -/
def ctxDescOk (d : BitVec 512) : Bool :=
  bits d 511 468 = 0 && bits d 439 384 = 0 && bits d 127 0 = 0
    && bits d 383 320 % 32 = 0 && canonicalVa (bits d 383 320)
    && bits d 319 256 % 64 = 0 && canonicalVa (bits d 319 256)
    && bits d 255 192 % 8 = 0 && canonicalVa (bits d 255 192)
    && bits d 191 180 = 0 && bits d 139 128 = 0

/-- *Create context*: the lowest free number. One destroyed in this hub cycle is not free in it, so that the destroy
suppresses every other event of the cycle for it (03 R101; DESIGN CHOICE, log 5). -/
def createContext (e : Edw) (desc : BitVec 512) (s : State) : State :=
  edwick e ⟨0x10, 64⟩ false (fun s =>
    match (List.range 64).find? fun k => ¬ s.ctxs.has k ∧ s.freedAt.get? k ≠ some s.hc with
    | none => st1 s edNoSlot
    | some k =>
      if ¬ ctxDescOk desc then st1 s edBadDesc
      else ({ s with ctxs := s.ctxs.put k ⟨.created, desc, desc.extractLsb' 464 4, 0#16, false, []⟩ }, edOk, [dw k])) s

/-- The rules of a schedule entry (03 R106). -/
def schedEntryOk (x : BitVec 256) : Bool :=
  bits x 191 128 ≠ 0 && bits x 191 128 % 128 = 0 && bits x 255 192 % 128 = 0 && bits x 127 112 ≤ bits x 111 96
    && bits x 95 0 = 0

/-- *Activate context* loads the residency schedule and sets the phase to 0 (03 R106, R107). -/
def activateContext (e : Edw) (num : Nat) (s : State) : State :=
  edwick e ⟨0x11, 8⟩ false (fun s =>
    match s.ctxs.get? num with
    | none => st1 s edBadState
    | some c =>
      let n := bits c.desc 463 452
      let used := sumOf s.ctxs fun kc => kc.2.sched.length
      if c.st ≠ .created then st1 s edBadState
      else if 16384 < used + n then st1 s edNoSpace
      else match readVirtBits s num (bits c.desc 383 320) (256 * n) with
        | (s, none) => st1 s edBadDesc
        | (s, some t) =>
          let xs := (List.range n).map fun i => BitVec.ofNat 256 (t / 2 ^ (256 * i))
          if xs.all schedEntryOk then
            st1 (s.modCtx num fun c => { c with st := .active, phase := 0#16, sched := xs }) edOk
          else st1 s edBadDesc) s

/-- A command that moves a context from one state to another (03 R99). -/
def ctxMove (e : Edw) (code num : Nat) (old new : CtxSt) (s : State) : State :=
  edwick e ⟨code, 8⟩ false (fun s =>
    if (s.ctxs.get? num).any fun c => c.st = old then st1 (s.modCtx num fun c => { c with st := new }) edOk
    else st1 s edBadState) s

def quiesceContext (e : Edw) (num : Nat) (s : State) : State := ctxMove e 0x12 num .active .quiescing s
def resumeContext (e : Edw) (num : Nat) (s : State) : State := ctxMove e 0x13 num .suspended .active s

/-- The teardown of a context (03 R102): gangs killed, engine operations cancelled, queues freed, its dirty
lines home, translations invalidated, schedule tags lost; then the number is free, from the next hub cycle on (03 R101). -/
def teardown (s : State) (num : Nat) : State :=
  let gs := s.grids.filterMap fun kg => if kg.2.ctx = num then some (BitVec.ofNat 32 kg.1) else none
  let s := gs.foldl killGridNow s
  let s := dropOps s fun o => o.ctx = num
  let s := s.queues.keys.foldl (fun s k =>
    if (s.queue k).st ≠ .free ∧ (s.queue k).ctx = num then freeQueueNow s k else s) s
  { s with
    hbmOld := s.hbmOld.filter fun kb => !(s.llc.get? kb.1).any fun x => x.ctx = num
    llc := s.llc.mapV fun _ x => if x.ctx = num then { x with ctx := 64, tag := none } else x
    paging := { s.paging with tlb := s.paging.tlb.filter fun t => t.ctx ≠ num }
    ctxs := s.ctxs.del num
    freedAt := s.freedAt.put num s.hc }

def destroyContext (e : Edw) (num : Nat) (s : State) : State :=
  edwick e ⟨0x14, 8⟩ false (fun s => if s.ctxs.has num then st1 (teardown s num) edOk else st1 s edBadState) s

def setServiceClass (e : Edw) (num : Nat) (cls : BitVec 4) (s : State) : State :=
  edwick e ⟨0x15, 16⟩ false (fun s =>
    if s.ctxs.has num then st1 (s.modCtx num fun c => { c with sclass := cls }) edOk else st1 s edBadState) s

def setPhase (e : Edw) (num : Nat) (phase : BitVec 16) (s : State) : State :=
  edwick e ⟨0x16, 16⟩ false (fun s =>
    if (s.ctxs.get? num).any fun c => c.st = .active ∨ c.st = .suspended then
      st1 (s.modCtx num fun c => { c with phase := phase }) edOk
    else st1 s edBadState) s

/-- CTXERR (03 R109). -/
def ctxErr (s : State) (num : Nat) (c : Ctx) : Nat := (if c.evt then 2 ^ 31 else 0) + s.pinsOf num

/-- *Query context*: state, phase, class and CTXERR; it changes nothing and does not fail (03 R108, R109).
A free number reads as Destroyed. -/
def queryContext (e : Edw) (num : Nat) (s : State) : State :=
  edwick e ⟨0x17, 8⟩ false (fun s => match s.ctxs.get? num with
    | none => (s, edOk, [dw (ctxStCode .destroyed), 0#64, 0#64, 0#64])
    | some c => (s, edOk, [dw (ctxStCode c.st), dw c.phase.toNat, dw c.sclass.toNat, dw (ctxErr s num c)])) s

/-- SCLSn: reserved bits read as zero, a QUOTA above 16,384 as 16,384 (03 R103; 00 R12). -/
def sclsValue (v : Word) : Word :=
  let q := Nat.min (bits v 15 0) 16384
  (v &&& 0xE0FF0000#32) ||| BitVec.ofNat 32 q

def writeServiceClass (e : Edw) (cls : BitVec 4) (val : Word) (s : State) : State :=
  edwick e ⟨0x18, 16⟩ false (fun s => st1 { s with scls := s.scls.set cls.toNat (sclsValue val) } edOk) s

/-- *Clear context error*: EVT is W1C, PINS is read-only (03 R109). -/
def clearContextError (e : Edw) (num : Nat) (val : Word) (s : State) : State :=
  edwick e ⟨0x19, 16⟩ false (fun s =>
    if s.ctxs.has num then
      st1 (if val.getLsbD 31 then s.modCtx num fun c => { c with evt := false } else s) edOk
    else st1 s edBadState) s

/-! ## Gangs, grids, pins (18 R451, R452, R492) -/

/-- *Evict gang* (18 R492): the named gang carries the mark for its unit, so that the mark lapses with it. -/
def evictGang (e : Edw) (grid : Word) (gang : Nat) (s : State) : State :=
  edwick e ⟨0x20, 16⟩ false (fun s => match s.grids.get? grid.toNat with
    | none => st1 s edBadDesc
    | some g =>
      if g.gangs ≤ gang then st1 s edBadDesc
      else match s.gangs.find? fun kg => kg.2.grid = grid ∧ kg.2.num = gang with
        | none => st1 s edBadState
        | some kg =>
          if kg.2.st ≠ .running then st1 s edBadState
          else st1 (s.modGang kg.1 fun x => { x with mark := true }) edOk) s

def killGrid (e : Edw) (grid : Word) (s : State) : State :=
  edwick e ⟨0x62, 8⟩ false (fun s =>
    if s.grids.has grid.toNat then st1 (killGridNow s grid) edOk else st1 s edBadDesc) s

/-- A pin record (18 R451): a master pinned with P-ACT is a remote requester (log 18). -/
def pinRecord (q : Pin) : BitVec 256 :=
  let kind := if q.cause = pinAct then 2 else match q.master with | .warp _ => 0 | .engine _ => 1
  BitVec.ofNat 256 (q.pc.toNat * 2 ^ 224 + q.grid.toNat * 2 ^ 192 + q.gang % 2 ^ 24 * 2 ^ 168 + q.team * 2 ^ 166
    + q.warp * 2 ^ 162 + kind * 2 ^ 160 + q.cause * 2 ^ 157 + q.ctx * 2 ^ 128 + q.addr.toNat * 2 ^ 64 + q.id % 2 ^ 64)

def dwords (n : Nat) (x : Nat) : List DWord := (List.range n).map fun i => dw (x / 2 ^ (64 * i))

def queryPins (e : Edw) (s : State) : State :=
  edwick e ⟨0x60, 0⟩ false (fun s =>
    (s, edOk, (s.errs.pins.filter (·.written)).flatMap fun q => dwords 4 (pinRecord q).toNat)) s

/-- The record goes, and held records are written (18 R451, R452). -/
def dropPin (s : State) (q : Pin) : State :=
  writePins { s with errs := { s.errs with pins := s.errs.pins.filter fun x => x.id ≠ q.id } }

/-- A pinned engine operation resolves with REGION when its pin is released (17 R426). The resolution
itself stands with the engines: the operation is marked. -/
def releaseOp (s : State) (op : Nat) : State := s.modOp op fun o => { o with pinned := none, released := true }

/-- Release of a warp's pin: Retry leaves its lanes at the instruction, and those of a log entry to be
reissued; Skip moves the path past it, its incomplete lanes retiring without effect (18 R452). -/
def releaseWarp (skip : Bool) (id : Nat) (w : Warp) : Warp :=
  match w.pins.find? fun x => x.id = id with
  | none => w
  | some x =>
    let w := { w with pins := w.pins.filter fun y => y.id ≠ id }
    match x.entry with
    | some k =>
      if skip then w.dropEntry k
      else { w with log := w.log.modify k fun e => { e with pinned := false } }
    | none =>
      if skip then
        let w := w.stepOver x.lanes x.pc x.len false
        { w with inside := w.inside.filter fun lw => ¬ x.lanes.getLsbD lw.1
                 entering := w.entering &&& ~~~ x.lanes }
      else w

/-- *Release pin*: BADSTATE for a PINID that does not exist (18 R452). -/
def releasePin (skip : Bool) (e : Edw) (pinid : DWord) (s : State) : State :=
  edwick e ⟨0x61, 16⟩ false (fun s => match s.errs.pins.find? fun q => q.id = pinid.toNat with
    | none => st1 s edBadState
    | some q =>
      let s := dropPin s q
      match q.master with
      | .warp w => st1 ((s.modWarp w (releaseWarp skip q.id)).imageOfWarp w) edOk
      | .engine op => st1 (releaseOp s op) edOk) s

def releasePinRetry (e : Edw) (pinid : DWord) (s : State) : State := releasePin false e pinid s
def releasePinSkip (e : Edw) (pinid : DWord) (s : State) : State := releasePin true e pinid s

/-! ## Translation, links, power -/

/-- *Invalidate translations* (08 R203): every TLB entry that overlaps the range is discarded; a length of
0 means the whole context. -/
def invalidateTranslations (e : Edw) (ctx : Nat) (base len : DWord) (s : State) : State :=
  edwick e ⟨0x30, 24⟩ false (fun s =>
    let keep := fun (t : TlbEnt) => decide (t.ctx ≠ ctx) || (decide (len ≠ 0#64) &&
      !overlaps (t.vpage * 2 ^ t.size) (2 ^ t.size) base.toNat len.toNat)
    st1 { s with paging := { s.paging with tlb := s.paging.tlb.filter keep } } edOk) s

/-- *Write stack ACT*: reserved bits [51:48] read as zero (09 R234; 00 R12). -/
def writeStackAct (e : Edw) (stack idx : Nat) (entry : DWord) (s : State) : State :=
  edwick e ⟨0x40, 24⟩ false (fun s =>
    if 8 ≤ stack ∨ 256 ≤ idx then st1 s edBadDesc
    else st1 { s with acts := Sparse.set 0#64 s.acts (stack * 256 + idx) (entry &&& 0xFFF0FFFFFFFFFFFF#64) } edOk) s

/-- *Write route entry*: reserved bits [63:33] read as zero (09 R230; 00 R12). -/
def writeRouteEntry (e : Edw) (pkg : Nat) (entry : DWord) (s : State) : State :=
  edwick e ⟨0x41, 16⟩ false (fun s =>
    if 1024 ≤ pkg then st1 s edBadDesc
    else st1 { s with routes := Sparse.set 0#64 s.routes pkg (entry &&& 0x1FFFFFFFF#64) } edOk) s

def resetLink (e : Edw) (l : Link) (hold : Bool) (s : State) : State :=
  edwick e ⟨0x42, 24⟩ false (fun s => if linkValid l then st1 (resetLinkNow s l hold) edOk else st1 s edBadDesc) s

def linkStCode : LinkSt → Nat
  | .reset => 0 | .training => 1 | .up => 2 | .degraded => 3 | .down => 4

def queryLink (e : Edw) (l : Link) (s : State) : State :=
  edwick e ⟨0x43, 16⟩ false (fun s =>
    let x := s.link (linkCode l)
    if linkValid l then
      (s, edOk, [dw (linkStCode x.st), dw x.width, dw x.cvsati.toNat, dw x.cvsato.toNat])
    else st1 s edBadDesc) s

/-- *Query power*: the quota and the hub's counters, then the monitors of every cluster (10 R243, R257,
R258; 17 R427), each a reading of its own. -/
def queryPower (e : Edw) (s : State) : State :=
  edwick e ⟨0x50, 0⟩ false (fun s =>
    let c := s.counters
    let mons := (List.range 288).map fun j =>
      dw (coreSpecial { s with fresh := s.fresh + j } ((clusterCores (j / 3)).headD 0) (0x020 + j % 3)).toNat
    ({ s with fresh := s.fresh + 288 }, edOk, [dw s.power.q, dw c.pwrflr.toNat, dw c.pwrcoal.toNat, dw c.collsat.toNat, dw c.cmprsat.toNat,
      dw c.unroute.toNat] ++ mons)) s

def setClusterClass (e : Edw) (die cluster : Nat) (cls : BitVec 2) (s : State) : State :=
  edwick e ⟨0x51, 24⟩ false (fun s =>
    if 12 ≤ die ∨ 8 ≤ cluster then st1 s edBadDesc else st1 (setTarget s (die * 8 + cluster) cls) edOk) s

/-- *Write collective group*: a context and n member packages in rank order (17 R432). -/
def writeCollectiveGroup (e : Edw) (group ctx : Nat) (members : List Nat) (s : State) : State :=
  edwick e ⟨0x52, 16 + 8 * members.length⟩ false (fun s =>
    if 16 ≤ group ∨ members.length = 0 ∨ 1024 < members.length then st1 s edBadDesc
    else st1 { s with groups := s.groups.put group ⟨ctx, members, 0, [], []⟩ } edOk) s

/-! ## Errors, signals, specials (18 R447 to R456) -/

def errEntry (x : ErrEnt) : Nat :=
  x.addr.toNat % 2 ^ 52 * 2 ^ 76 + x.chan * 2 ^ 64 + (if x.ue then 2 ^ 63 else 0) + x.stamp.toNat

def readErrorLog (e : Edw) (clear : Bool) (s : State) : State :=
  edwick e ⟨0x63, 8⟩ false (fun s =>
    (if clear then { s with errs := { s.errs with log := [] } } else s, edOk,
      s.errs.log.flatMap fun x => dwords 2 (errEntry x))) s

def queryErrorCounters (e : Edw) (s : State) : State :=
  edwick e ⟨0x64, 0⟩ false (fun s =>
    (s, edOk, ((List.range 49).map fun k => dw (Sparse.get 0#32 s.errs.cec k).toNat)
      ++ (List.range 49).map fun k => dw (Sparse.get 0#32 s.errs.uec k).toNat)) s

/-- *Write signal* (18 R456): a release at `.sy` at the signal's point of coherence; the placer's watch entries are
evaluated again, and `sigw` waiters on the line test again. A poisoned signal is written only by mode 0, whose write is partial and leaves the mark
(18 R448); mode 1 reads it and writes nothing (15 R392). A write that cannot be routed is discarded (09 R232). A mode other
than 0 and 1 returns BADDESC. -/
def writeSignal (mode : Nat) (e : Edw) (ctx : Nat) (va val : DWord) (s : State) : State :=
  edwick e ⟨0x65, 32⟩ false (fun s =>
    if ¬ s.ctxs.has ctx then st1 s edBadState
    else if 2 ≤ mode ∨ va.toNat % 8 ≠ 0 ∨ ¬ canonicalVa va.toNat then st1 s edBadDesc
    else match translate s [] ctx va.toNat .atomic with
      | .error _ => st1 s edBadDesc
      | .ok (s, x) =>
        if mode = 1 && s.linePoisoned x.loc then st1 s edOk
        else
          let v := if mode = 1 then s.memWord x.loc + val else val
          if s.unreachable x.pkg then st1 (s.unrouted ctx) edOk
          else st1 (hitWatch (s.storeLoc x.loc (bytesLE 8 v.toNat) none (x.filler s ctx)) x.loc) edOk) s

def writeSignalSet (e : Edw) (mode ctx : Nat) (va val : DWord) (s : State) : State := writeSignal mode e ctx va val s
def writeSignalAdd (e : Edw) (ctx : Nat) (va val : DWord) (s : State) : State := writeSignal 1 e ctx va val s

/-- One core's `%ladsel` or breakpoint special. -/
def setSpecial (n : Nat) (val : Word) (c : Core) : Core :=
  if n = 0x040 then { c with ladsel := val } else { c with bp := c.bp.set (n - 0x041) (val &&& 0xFFFFFFFD#32) }

/-- *Write special*: `%ladsel` and `%bp0` to `%bp3`; core 64 names every core of the die (18 R456). -/
def writeSpecial (e : Edw) (die core : Nat) (n : BitVec 12) (val : Word) (s : State) : State :=
  edwick e ⟨0x66, 32⟩ false (fun s =>
    if 12 ≤ die ∨ 64 < core ∨ n.toNat < 0x040 ∨ 0x044 < n.toNat then st1 s edBadDesc
    else
      let ks := if core = 64 then (List.range 64).map fun k => die * 64 + k else [die * 64 + core]
      st1 (ks.foldl (fun s k => s.modCore k (setSpecial n.toNat val)) s) edOk) s

/-- *Read special*: any special of 17 R444; the handler specials return 0. `%ctx` and `%scls` belong to no
core: free values within their bounds (log 8). -/
def readSpecial (e : Edw) (die core : Nat) (n : BitVec 12) (s : State) : State :=
  edwick e ⟨0x67, 24⟩ false (fun s =>
    let k := n.toNat
    if 12 ≤ die ∨ 64 ≤ core ∨ ¬ specialListed k then st1 s edBadDesc
    else if k = 0x048 then (s.tick, edOk, [dw ((Config.freeWord s.fresh).toNat % 64)])
    else if k = 0x049 then (s.tick, edOk, [dw ((Config.freeWord s.fresh).toNat % 16)])
    else (if isMonitor k then s.tick else s, edOk, [dw (coreSpecial s (die * 64 + core) k).toNat])) s

def setSavePool (e : Edw) (base len : DWord) (s : State) : State :=
  edwick e ⟨0x70, 16⟩ false (fun s => st1 { s with pool := { s.pool with base := base, len := len } } edOk) s

/-- *Set fault ring* sets HEAD and TAIL to 0 (08 R491). -/
def setFaultRing (e : Edw) (base : DWord) (s : State) : State :=
  edwick e ⟨0x71, 8⟩ false (fun s =>
    st1 (emitFaults { s with paging := { s.paging with ringBase := base, head := 0#13, tail := 0#13 } }) edOk) s

def bootCode : Boot → Nat
  | .ready => 0 | .rejected => 1 | .failed => 2

def failedMask (s : State) : Nat :=
  ((List.range 12).map fun d => if s.dieFailed d then 2 ^ d else 0).foldl (· + ·) 0

/-- Bytes 0 to 2,055 of the attestation report (18 R454): the nonce, the digests, versions, mask, boot state and part, and
the identity key. -/
def attestBody (s : State) (nonce : List Byte) : List Byte :=
  (List.range 32).map (fun i => nonce.getD i 0#8) ++ (List.range 64).map Config.digestByte
    ++ bytesLE 2 s.fused.fwVersion.toNat ++ bytesLE 2 s.fused.rollback.toNat ++ bytesLE 2 (failedMask s)
    ++ [BitVec.ofNat 8 (bootCode s.boot), if s.fused.partB then 1#8 else 0#8] ++ (List.range 1952).map Config.keyByte

/-- The report (18 R454): the body and the signature over it. -/
def attestReport (s : State) (nonce : List Byte) : List Byte :=
  let body := attestBody s nonce
  body ++ (List.range 3309).map (Config.signByte body)

/-- Bytes as 64-bit result words, the last padded with zeros. -/
def packWords : Nat → List Byte → List DWord
  | 0, _ => []
  | n + 1, bs => if bs = [] then [] else dw (natLE (bs.take 8)) :: packWords n (bs.drop 8)

def attest (e : Edw) (nonce : List Byte) (s : State) : State :=
  edwick e ⟨0x78, 32⟩ true (fun s =>
    if nonce.length ≠ 32 then st1 s edBadCmd else (s, edOk, packWords 671 (attestReport s nonce))) s

def queryBootStatus (e : Edw) (s : State) : State := edwick e ⟨0x79, 0⟩ true (fun s => (s, edOk, [dw (bootCode s.boot)])) s

/-- *Warm reset*: everything but the fused values is discarded (18 R453). -/
def warmReset (e : Edw) (s : State) : State := edwick e ⟨0x7F, 0⟩ false (fun s => st1 (State.afterReset s.fused) edOk) s

/-- UNKNOWN_CMD: an accepted frame whose CMD is unknown, or whose OPLEN does not suit its command, is
answered with BADCMD (09 R237). -/
def unknownCmd (e : Edw) (cmd : FrameCmd) (s : State) : State :=
  if (cmdOplen cmd.code.toNat).any (· cmd.oplen) then s else edwick e ⟨cmd.code.toNat, cmd.oplen⟩ false (fun s => st1 s edBadCmd) s

end Sys2Proof.Machine
end

