-- ==== Sys2Proof/Machine/Arms.lean ====
section
/-! DEFINITION. The arms of the events and management commands: each always answers a next state, that of
the event's own function in Barrier, Tempo, Queue, Placer, Gangs, HubEvents and Edwick; an event that does not
apply has no effect (00 R17). -/

namespace Sys2Proof.Machine

def execReservationExpires (warp lane : Nat) (s : State) : Host.Outcome State Fault Refusal :=
  .next (reservationExpires warp lane s)

def execOutstandingAck (core : Nat) (grid : Word) (s : State) : Host.Outcome State Fault Refusal :=
  .next (outstandingAck core grid s)

def execOntouchWriteback (gang line : Nat) (s : State) : Host.Outcome State Fault Refusal :=
  .next (ontouchWriteback gang line s)

def execWalkCompletes (die core ctx : Nat) (va : DWord) (acc : AccKind) (s : State) : Host.Outcome State Fault Refusal :=
  .next (walkCompletes die core ctx va acc s)

def execFreplyRetry (die : Nat) (fnum : Word) (s : State) : Host.Outcome State Fault Refusal :=
  .next (freplyRetry die fnum s)

def execFreplyHold (die : Nat) (fnum : Word) (s : State) : Host.Outcome State Fault Refusal :=
  .next (freplyHold die fnum s)

def execFringHeadWrite (head : BitVec 13) (s : State) : Host.Outcome State Fault Refusal :=
  .next (fringHeadWrite head s)

def execWarpBecomesCritical (warp : Nat) (s : State) : Host.Outcome State Fault Refusal :=
  .next (warpBecomesCritical warp s)

def execPoolRefill (die cluster : Nat) (s : State) : Host.Outcome State Fault Refusal :=
  .next (poolRefill die cluster s)

def execRevolution (r : RevReading) (s : State) : Host.Outcome State Fault Refusal :=
  .next (revolution r s)

def execDroopAlarm (die cluster : Nat) (s : State) : Host.Outcome State Fault Refusal :=
  .next (droopAlarm die cluster s)

def execDroopRationingEnds (die cluster : Nat) (s : State) : Host.Outcome State Fault Refusal :=
  .next (droopRationingEnds die cluster s)

def execQuiescePoint (die cluster : Nat) (s : State) : Host.Outcome State Fault Refusal :=
  .next (quiescePoint die cluster s)

def execRampEnds (die cluster : Nat) (s : State) : Host.Outcome State Fault Refusal :=
  .next (rampEnds die cluster s)

def execBarrierArrival (bar : Nat) (s : State) : Host.Outcome State Fault Refusal :=
  .next (barrierArrival bar s)

def execReleaseEnds (bar : Nat) (s : State) : Host.Outcome State Fault Refusal :=
  .next (releaseEnds bar s)

def execExitReachesBarrier (bar warp : Nat) (s : State) : Host.Outcome State Fault Refusal :=
  .next (exitReachesBarrier bar warp s)

def execOntiaDatagram (pseudo : List Nat) (h : UdpHeader) (payload : List Byte) (s : State) :
    Host.Outcome State Fault Refusal :=
  .next (ontiaDatagram pseudo h payload s)

def execPlacerDecision (s : State) : Host.Outcome State Fault Refusal :=
  .next (placerDecision s)

def execPlacerSweep (s : State) : Host.Outcome State Fault Refusal :=
  .next (placerSweep s)

def execRecordReserved (queue : Nat) (s : State) : Host.Outcome State Fault Refusal :=
  .next (recordReserved queue s)

def execAllotmentComplete (gang : Nat) (s : State) : Host.Outcome State Fault Refusal :=
  .next (allotmentComplete gang s)

def execStageInCompletes (gang : Nat) (s : State) : Host.Outcome State Fault Refusal :=
  .next (stageInCompletes gang s)

def execGangEvictionStart (gang : Nat) (s : State) : Host.Outcome State Fault Refusal :=
  .next (gangEvictionStart gang s)

def execGangEvictionComplete (gang : Nat) (s : State) : Host.Outcome State Fault Refusal :=
  .next (gangEvictionComplete gang s)

def execRestoreBegins (gang : Nat) (s : State) : Host.Outcome State Fault Refusal :=
  .next (restoreBegins gang s)

def execImageIsLoaded (gang : Nat) (s : State) : Host.Outcome State Fault Refusal :=
  .next (imageIsLoaded gang s)

def execRetireWritebackComplete (gang : Nat) (s : State) : Host.Outcome State Fault Refusal :=
  .next (retireWritebackComplete gang s)

def execGridCompletes (grid : Word) (s : State) : Host.Outcome State Fault Refusal :=
  .next (gridCompletes grid s)

def execGridKilledReport (grid : Word) (s : State) : Host.Outcome State Fault Refusal :=
  .next (gridKilledReport grid s)

def execCompletionDelivery (s : State) : Host.Outcome State Fault Refusal :=
  .next (completionDelivery s)

def execJournalCheckpoint (s : State) : Host.Outcome State Fault Refusal :=
  .next (journalCheckpoint s)

def execQuiesceCompletes (ctx : Nat) (s : State) : Host.Outcome State Fault Refusal :=
  .next (quiesceCompletes ctx s)

def execStandbyTakeover (s : State) : Host.Outcome State Fault Refusal :=
  .next (standbyTakeover s)

def execCorrectableError (chan : Nat) (addr : DWord) (s : State) : Host.Outcome State Fault Refusal :=
  .next (correctableError chan addr s)

def execUncorrectableError (chan : Nat) (addr : DWord) (item : ErrItem) (s : State) : Host.Outcome State Fault Refusal :=
  .next (uncorrectableError chan addr item s)

def execTrainingSucceeds (l : Link) (width : Nat) (s : State) : Host.Outcome State Fault Refusal :=
  .next (trainingSucceeds l width s)

def execTrainingFails (l : Link) (s : State) : Host.Outcome State Fault Refusal :=
  .next (trainingFails l s)

def execWidthIsLost (l : Link) (width : Nat) (s : State) : Host.Outcome State Fault Refusal :=
  .next (widthIsLost l width s)

def execLinkIsLost (l : Link) (s : State) : Host.Outcome State Fault Refusal :=
  .next (linkIsLost l s)

def execPodRequest (pa : Nat) (op : PodOp) (s : State) : Host.Outcome State Fault Refusal :=
  .next (podRequest pa op s)

def execEndpointRead (reqPkg stack off size : Nat) (s : State) : Host.Outcome State Fault Refusal :=
  .next (endpointRead reqPkg stack off size s)

def execRdmaWrite (qp pa : Nat) (data : List Byte) (s : State) : Host.Outcome State Fault Refusal :=
  .next (rdmaWrite qp pa data s)

def execRdmaRead (qp pa size : Nat) (s : State) : Host.Outcome State Fault Refusal :=
  .next (rdmaRead qp pa size s)

def execEdwickFrameDropped (src : Nat) (frame : BitVec 128) (bytes : Nat) (s : State) : Host.Outcome State Fault Refusal :=
  .next (edwickFrameDropped src frame bytes s)

def execColdReset (s : State) : Host.Outcome State Fault Refusal :=
  .next (coldReset s)

def execCreateQueue (e : Edw) (num : Nat) (desc : BitVec 256) (s : State) : Host.Outcome State Fault Refusal :=
  .next (createQueue e num desc s)

def execEnableQueue (e : Edw) (num : Nat) (s : State) : Host.Outcome State Fault Refusal :=
  .next (enableQueue e num s)

def execDisableQueue (e : Edw) (num : Nat) (s : State) : Host.Outcome State Fault Refusal :=
  .next (disableQueue e num s)

def execFreeQueue (e : Edw) (num : Nat) (s : State) : Host.Outcome State Fault Refusal :=
  .next (freeQueue e num s)

def execEnqueueRecord (e : Edw) (num : Nat) (lr : BitVec 1024) (s : State) : Host.Outcome State Fault Refusal :=
  .next (enqueueRecord e num lr s)

def execQueryQueue (e : Edw) (num : Nat) (s : State) : Host.Outcome State Fault Refusal :=
  .next (queryQueue e num s)

def execSetOntiaUdpPort (e : Edw) (port : BitVec 16) (s : State) : Host.Outcome State Fault Refusal :=
  .next (setOntiaUdpPort e port s)

def execCreateContext (e : Edw) (desc : BitVec 512) (s : State) : Host.Outcome State Fault Refusal :=
  .next (createContext e desc s)

def execActivateContext (e : Edw) (num : Nat) (s : State) : Host.Outcome State Fault Refusal :=
  .next (activateContext e num s)

def execQuiesceContext (e : Edw) (num : Nat) (s : State) : Host.Outcome State Fault Refusal :=
  .next (quiesceContext e num s)

def execResumeContext (e : Edw) (num : Nat) (s : State) : Host.Outcome State Fault Refusal :=
  .next (resumeContext e num s)

def execDestroyContext (e : Edw) (num : Nat) (s : State) : Host.Outcome State Fault Refusal :=
  .next (destroyContext e num s)

def execSetServiceClass (e : Edw) (num : Nat) (cls : BitVec 4) (s : State) : Host.Outcome State Fault Refusal :=
  .next (setServiceClass e num cls s)

def execSetPhase (e : Edw) (num : Nat) (phase : BitVec 16) (s : State) : Host.Outcome State Fault Refusal :=
  .next (setPhase e num phase s)

def execQueryContext (e : Edw) (num : Nat) (s : State) : Host.Outcome State Fault Refusal :=
  .next (queryContext e num s)

def execWriteServiceClass (e : Edw) (cls : BitVec 4) (val : Word) (s : State) : Host.Outcome State Fault Refusal :=
  .next (writeServiceClass e cls val s)

def execClearContextError (e : Edw) (num : Nat) (val : Word) (s : State) : Host.Outcome State Fault Refusal :=
  .next (clearContextError e num val s)

def execEvictGang (e : Edw) (grid : Word) (gang : Nat) (s : State) : Host.Outcome State Fault Refusal :=
  .next (evictGang e grid gang s)

def execInvalidateTranslations (e : Edw) (ctx : Nat) (base len : DWord) (s : State) : Host.Outcome State Fault Refusal :=
  .next (invalidateTranslations e ctx base len s)

def execWriteStackAct (e : Edw) (stack idx : Nat) (entry : DWord) (s : State) : Host.Outcome State Fault Refusal :=
  .next (writeStackAct e stack idx entry s)

def execWriteRouteEntry (e : Edw) (pkg : Nat) (entry : DWord) (s : State) : Host.Outcome State Fault Refusal :=
  .next (writeRouteEntry e pkg entry s)

def execResetLink (e : Edw) (l : Link) (hold : Bool) (s : State) : Host.Outcome State Fault Refusal :=
  .next (resetLink e l hold s)

def execQueryLink (e : Edw) (l : Link) (s : State) : Host.Outcome State Fault Refusal :=
  .next (queryLink e l s)

def execQueryPower (e : Edw) (s : State) : Host.Outcome State Fault Refusal :=
  .next (queryPower e s)

def execSetClusterClass (e : Edw) (die cluster : Nat) (cls : BitVec 2) (s : State) : Host.Outcome State Fault Refusal :=
  .next (setClusterClass e die cluster cls s)

def execWriteCollectiveGroup (e : Edw) (group ctx : Nat) (members : List Nat) (s : State) : Host.Outcome State Fault Refusal :=
  .next (writeCollectiveGroup e group ctx members s)

def execQueryPins (e : Edw) (s : State) : Host.Outcome State Fault Refusal :=
  .next (queryPins e s)

def execReleasePinRetry (e : Edw) (pinid : DWord) (s : State) : Host.Outcome State Fault Refusal :=
  .next (releasePinRetry e pinid s)

def execReleasePinSkip (e : Edw) (pinid : DWord) (s : State) : Host.Outcome State Fault Refusal :=
  .next (releasePinSkip e pinid s)

def execKillGrid (e : Edw) (grid : Word) (s : State) : Host.Outcome State Fault Refusal :=
  .next (killGrid e grid s)

def execReadErrorLog (e : Edw) (clear : Bool) (s : State) : Host.Outcome State Fault Refusal :=
  .next (readErrorLog e clear s)

def execQueryErrorCounters (e : Edw) (s : State) : Host.Outcome State Fault Refusal :=
  .next (queryErrorCounters e s)

def execWriteSignalSet (e : Edw) (mode ctx : Nat) (va val : DWord) (s : State) : Host.Outcome State Fault Refusal :=
  .next (writeSignalSet e mode ctx va val s)

def execWriteSignalAdd (e : Edw) (ctx : Nat) (va val : DWord) (s : State) : Host.Outcome State Fault Refusal :=
  .next (writeSignalAdd e ctx va val s)

def execWriteSpecial (e : Edw) (die core : Nat) (n : BitVec 12) (val : Word) (s : State) : Host.Outcome State Fault Refusal :=
  .next (writeSpecial e die core n val s)

def execReadSpecial (e : Edw) (die core : Nat) (n : BitVec 12) (s : State) : Host.Outcome State Fault Refusal :=
  .next (readSpecial e die core n s)

def execSetSavePool (e : Edw) (base len : DWord) (s : State) : Host.Outcome State Fault Refusal :=
  .next (setSavePool e base len s)

def execSetFaultRing (e : Edw) (base : DWord) (s : State) : Host.Outcome State Fault Refusal :=
  .next (setFaultRing e base s)

def execAttest (e : Edw) (nonce : List Byte) (s : State) : Host.Outcome State Fault Refusal :=
  .next (attest e nonce s)

def execQueryBootStatus (e : Edw) (s : State) : Host.Outcome State Fault Refusal :=
  .next (queryBootStatus e s)

def execWarmReset (e : Edw) (s : State) : Host.Outcome State Fault Refusal :=
  .next (warmReset e s)

def execUnknownCmd (e : Edw) (cmd : FrameCmd) (s : State) : Host.Outcome State Fault Refusal :=
  .next (unknownCmd e cmd s)

def execEcnMarkedPacket (qp : Nat) (s : State) : Host.Outcome State Fault Refusal :=
  .next (ecnMarkedPacket qp s)

end Sys2Proof.Machine
end

