-- ==== Sys2Proof/Machine/Convert.lean ====
section
/-! DEFINITION. Conversions (14 R377 to R383): element-wise, blocks across the lanes of a path, ternary packing.
Saturation events add to `%cvsat` and T2 elements 0b10 that are read to `%t2inv`. -/

namespace Sys2Proof.Machine

/-! ## Element-wise (14 R379) -/

/-- A zero point for a type: the low nibble for Z4. -/
def zpOf (t : Ty) (b : Nat) : Nat := if t = .z4 then b % 16 else b % 256

/-- The n elements of a lane converted. -/
def cvtLane (x : CvtF) (vs : List (List Word)) : List Word × Counts :=
  let n := cvtCount x.sty x.dty
  let es := splitElems x.sty.width n (wordsNat (vs.getD 0 []))
  let b := wordsNat (vs.getD 1 [])
  let rs := es.map fun e =>
    if x.el then expToL16 x.nan e
    else convElem x.sty x.dty (zpOf x.sty b) (zpOf x.dty (b / 256)) x.rm x.nan e
  (natWords (cvtRegs n x.dty) (joinElems x.dty.width (rs.map (·.1))),
    ⟨0, if x.sty = .t2 then t2Bad es else 0, 0, (rs.map (·.2)).foldl (· + ·) 0⟩)

/-- `cvt` (14 R379). A constant b is the plain 32-bit word k, so the source zero point k and the destination zero point 0: the
spec names no type for it (DESIGN CHOICE, log 22). -/
def execCvt (x : CvtF) (s : State) : Host.Outcome State Fault Refusal :=
  let n := cvtCount x.sty x.dty
  runAlu 0 x.h (⟨x.a, cvtRegs n x.sty, srcT x.sty x.a⟩ :: x.b.toList.map src1) x.d (cvtRegs n x.dty)
    (fun _ _ vs => cvtLane x vs) s

/-! ## Across lanes -/

/-- The next state of a cross-lane instruction (14 R364): f sees the active lanes and the source words of
every lane, and gives the words of every lane and the events. -/
def crossResult (s : State) (p : Place) (i : Issue) (srcs : List Src) (d : Operand)
    (f : LaneMask → (Nat → List (List Word)) → (Nat → List Word) × Counts) (active : LaneMask) : State :=
  let r := f active fun l => srcVals s p l [] srcs
  (((s.consume p active srcs).count p.t.core r.2).writeOp p active d r.1).retire i

def runCross (g : Guard) (srcs : List Src) (d : Operand) (nd : Nat)
    (f : LaneMask → (Nat → List (List Word)) → (Nat → List Word) × Counts) (s : State) :
    Host.Outcome State Fault Refusal :=
  settle s fun p i => withOperands s p i g srcs [(d, nd)] fun active => .ok (crossResult s p i srcs d f active)

/-- The words of the first source in a lane as a number. -/
def firstNat (vs : List (List Word)) : Nat := wordsNat (vs.getD 0 [])

/-- `mxq` (14 R380): one block for each element position, over the active lanes. -/
def mxqBlock (x : ConvF) (active : LaneMask) (vals : Nat → List (List Word)) : (Nat → List Word) × Counts :=
  let ls := lanesOf active
  let blocks := (List.range (perLane x.sty)).map fun e =>
    mxQuant x.dty x.rm x.nan (ls.map fun l =>
      elemVal x.sty 0 ((splitElems x.sty.width (perLane x.sty) (firstNat (vals l))).getD e 0))
  (fun l =>
    let k := ls.findIdx (· = l)
    let n := blocks.zipIdx.foldl (fun (n : Nat) be =>
      n + be.1.2.1.getD k 0 * 2 ^ (8 * be.2) + be.1.1 * 2 ^ (8 * (2 + be.2))) 0
    [BitVec.ofNat 32 n], ⟨0, 0, 0, (blocks.map fun b => b.2.2).foldl (· + ·) 0⟩)

def execMxq (x : ConvF) (s : State) : Host.Outcome State Fault Refusal :=
  runCross x.h.g [srcOf x.sty x.a] x.d 1 (mxqBlock x) s

/-- `mxdq` (14 R381). A constant stands in every element of the source type (14 R362). -/
def mxdqLane (x : ConvF) (vs : List (List Word)) : List Word × Counts :=
  let a := firstNat vs
  let rs := (List.range (perLane x.dty)).map fun e =>
    let code := a / 2 ^ (8 * e) % (if x.sty = .e2m1 then 16 else 256)
    elemOf x.dty 0 x.rm x.nan (mxVal x.sty (a / 2 ^ (8 * (2 + e)) % 256) code)
  (packElems x.dty (rs.map (·.1)), ⟨0, 0, 0, (rs.map (·.2)).foldl (· + ·) 0⟩)

def execMxdq (x : ConvF) (s : State) : Host.Outcome State Fault Refusal :=
  runAlu 0 x.h [srcOf x.sty x.a] x.d 1 (fun _ _ vs => mxdqLane x vs) s

/-- The largest code of a Z type. -/
def zMax (t : Ty) : Int := if t = .z4 then 15 else 255

/-- `zq` (14 R382). -/
def zqBlock (x : ConvF) (active : LaneMask) (vals : Nat → List (List Word)) : (Nat → List Word) × Counts :=
  let ls := lanesOf active
  let v (l : Nat) : Val := elemVal x.sty 0 (firstNat (vals l))
  let r (l : Nat) : Int × Nat := satRound x.rm 0 0 (-(2 ^ 31)) (2 ^ 31 - 1) (v l)
  let present := ls.filter fun l => !(v l).isNan
  let vmin := ((present.map fun l => (r l).1).min?).getD 0
  let z := satTo 0 (zMax x.dty) (-vmin)
  let q (l : Nat) : Int := if (v l).isNan then z else (r l).1 + z
  let ev (l : Nat) : Nat :=
    if (v l).isNan then 1 else (r l).2 + (if q l < 0 ∨ zMax x.dty < q l then 1 else 0)
  (fun l => [BitVec.ofNat 32 ((satTo 0 (zMax x.dty) (q l)).toNat + z.toNat * 2 ^ 16)],
    ⟨0, 0, 0, (ls.map ev).foldl (· + ·) 0⟩)

def execZq (x : ConvF) (s : State) : Host.Outcome State Fault Refusal :=
  runCross x.h.g [srcOf x.sty x.a] x.d 1 (zqBlock x) s

/-- `zdq` (14 R382); a constant as in `mxdq`. -/
def zdqLane (x : ConvF) (vs : List (List Word)) : List Word :=
  let a := firstNat vs
  [BitVec.ofNat 32 (elemOf x.dty 0 x.rm x.nan (Val.ofInt ((zpOf x.sty a : Int) - zpOf x.sty (a / 2 ^ 16)))).1]

def execZdq (x : ConvF) (s : State) : Host.Outcome State Fault Refusal :=
  runAlu 0 x.h [srcOf x.sty x.a] x.d 1 (pureFn (zdqLane x)) s

/-- `tpk` (14 R383): the codes of 16 lanes in one word. -/
def tpkBlock (x : ConvF) (active : LaneMask) (vals : Nat → List (List Word)) : (Nat → List Word) × Counts :=
  let code (l : Nat) : Nat × Nat := elemOf .t2 0 x.rm x.nan (elemVal x.sty 0 (firstNat (vals l)))
  (fun l =>
    let base := 16 * (l / 16)
    [BitVec.ofNat 32 (joinElems 2 ((List.range 16).map fun j =>
      if active.getLsbD (base + j) then (code (base + j)).1 else 0))],
    ⟨0, 0, 0, ((lanesOf active).map fun l => (code l).2).foldl (· + ·) 0⟩)

def execTpk (x : ConvF) (s : State) : Host.Outcome State Fault Refusal :=
  runCross x.h.g [srcOf x.sty x.a] x.d 1 (tpkBlock x) s

/-- `tunp` (14 R383). -/
def tunpLane (x : ConvF) (lane : Nat) (vs : List (List Word)) : List Word × Counts :=
  let e := firstNat vs / 2 ^ (2 * (lane % 16)) % 4
  ([BitVec.ofNat 32 (elemOf x.dty 0 x.rm x.nan (elemVal .t2 0 e)).1], ⟨0, t2Bad [e], 0, 0⟩)

def execTunp (x : ConvF) (s : State) : Host.Outcome State Fault Refusal :=
  runAlu 0 x.h [srcOf .t2 x.a] x.d 1 (fun _ l vs => tunpLane x l vs) s

end Sys2Proof.Machine
end

