-- ==== Sys2Proof/Machine/Maint.lean ====
section
/-! DEFINITION. Fences (15 R398), stash and instruction-side maintenance (15 R399), `sigw` (15 R401), and the
inspection and closing of ports (15 R402, R403). -/

namespace Sys2Proof.Machine

/-! ## Fences -/

/-- Lanes with an incomplete access in an older entry. -/
def openLanes (log : Tab LogEntry) : LaneMask := log.foldl (fun m ke => m ||| (ke.2.active &&& ~~~ ke.2.done)) 0#32

/-- `fence`: done when every older access of its lanes has performed; until then it stands in the operand log
and holds back younger memory instructions of its lanes. -/
def execFence (x : FenceF) (s : State) : Host.Outcome State Fault Refusal :=
  settle s fun p i => withOperands s p i x.g [] [] fun active =>
    match checkEntry p i active with
    | .error e => .error e
    | .ok _ =>
      let wait := active &&& openLanes p.w.log
      let s := if MemOrdRel x.ord then s.releaseHome p else s
      .ok (finishIssue ⟨s, active &&& ~~~ wait, [], none⟩ p i (.fence x) active fun _ => ⟨0#64, 0#64, 0#64⟩)

/-! ## Maintenance -/

/-- The virtual line addresses of a range (15 R399). -/
def rangeLines (va n : Nat) : List Nat :=
  if n = 0 then [] else (List.range ((va + n - 1) / 128 - va / 128 + 1)).map fun k => (va / 128 + k) * 128 % 2 ^ 64

/-- Where a translation of the context leads, with any permissions. -/
def reach (s : State) (p : Place) (va : Nat) : Option Xlat :=
  match s.ctxs.get? p.gr.ctx with
  | none => none
  | some c =>
    if ¬ canonicalVa va then none
    else match tlbLookup s (coreTlbs p.t.core) p.gr.ctx va with
    | some e => some (leafXlat e.pte e.size va e.srec)
    | none => match walkFrom s c va with
      | .leaf pte size _ _ => some (leafXlat pte size va 0#512)
      | .fault _ _ => none

/-- The location of that line. -/
def reachLine (s : State) (p : Place) (va : Nat) : Option Nat := (reach s p va).map fun x => lineOf x.loc

/-- The range of each active lane, in ascending lane order. -/
def maintRanges (s : State) (p : Place) (x : MaintF) (active : LaneMask) : List (Nat × Nat) :=
  (lanesOf active).map fun l =>
    let vs := srcVals s p l [] [srcPair x.x, src1 x.n]
    (wordsNat (vs.getD 0 []), wordsNat (vs.getD 1 []))

def runMaint (x : MaintF) (stall : State → Place → List (Nat × Nat) → Bool)
    (f : State → Place → Nat → Nat → State) (s : State) : Host.Outcome State Fault Refusal :=
  settle s fun p i => withOperands s p i x.g [srcPair x.x, src1 x.n] [] fun active =>
    let rs := maintRanges s p x active
    match checkEntry p i active, checkDone p i active with
    | .error e, _ => .error e
    | .ok _, .error e => .error e
    | .ok _, .ok _ =>
      if stall s p rs then .error .stall
      else
        let s1 := s.consume p active [srcPair x.x, src1 x.n]
        .ok ((rs.foldl (fun s r => (rangeLines r.1 r.2).foldl (fun s va => f s p va (r.1 + r.2)) s) s1).retire i)

/-- Every dirty copy of a line in the package goes to its point of coherence (15 R399). -/
def cleanLine (s : State) (line : Nat) : State :=
  { s with gangs := s.gangs.mapV fun _ g => g.cleaned line }

/-- `sfl`: every dirty copy is written to its point of coherence, and at `.sy` to HBM (11 R297). -/
def execSfl (x : MaintF) (s : State) : Host.Outcome State Fault Refusal :=
  runMaint x (fun _ _ _ => false) (fun s p va _ => match reachLine s p va with
    | none => s
    | some line =>
      let s := cleanLine s line
      if x.sc = .sy then { s with hbmOld := s.hbmOld.del line } else s) s

/-- `sinv`: the region lines leave the issuing gang's stash, dirty ones written home first; it waits for
engine operations on those window bytes (11 R291). -/
def execSinv (x : MaintF) (s : State) : Host.Outcome State Fault Refusal :=
  runMaint x
    (fun s p rs => rs.any fun r => (rangeLines r.1 r.2).any fun va =>
      (regionOf p.gr.regions p.g.num va).any fun om => s.stashBusy p.gid om.1 128 true)
    (fun s p va _ => match regionOf p.gr.regions p.g.num va, reachLine s p va with
      | some _, some line => s.modGang p.gid fun g => g.cleaned line
      | _, _ => s) s

/-- `spf`: changes no value; at `.pk` and `.sy` the region lines enter the LLC, in the class of the page (08 R198). -/
def execSpf (x : MaintF) (s : State) : Host.Outcome State Fault Refusal :=
  runMaint x (fun _ _ _ => false) (fun s p va _ => match regionOf p.gr.regions p.g.num va, reach s p va with
    | some _, some y => if x.sc = .pk ∨ x.sc = .sy then s.readLine p.gr.ctx y else s
    | _, _ => s) s

/-- The cores whose L0 a scope of `icinv` names (15 R399). -/
def Place.inScope (p : Place) (s : State) (sc : Scope) (core : Nat) : Bool :=
  match sc with
  | .wp | .tm | .gg => p.g.teams.any fun t => (s.teams.get? t).any fun t => t.core = core
  | .cl => coreCluster core = coreCluster p.t.core
  | .di => coreDie core = coreDie p.t.core
  | .pk | .sy => true

/-- Copies of a line leave the L0s of the cores (11 R271). -/
def State.dropCode (s : State) (cores : Nat → Bool) (line : Nat) : State :=
  { s with cores := s.cores.mapV fun k c => if cores k then { c with l0 := c.l0.filter fun x => x.1 ≠ line ∧ x.1 ≠ ap3Line line } else c }

/-- `icinv`: L0 copies are dropped. -/
def execIcinv (x : MaintF) (s : State) : Host.Outcome State Fault Refusal :=
  runMaint x (fun _ _ _ => false) (fun s p va _ => match reachLine s p va with
    | some line => s.dropCode (p.inScope s x.sc) line
    | none => s) s

/-! ## `sigw` -/

/-- The entry in which a blocked `sigw` at this place holds a lane's values. -/
def sigwHeld (p : Place) (i : Issue) (x : SigF) (l : Nat) : Option LogEntry :=
  (p.w.log.find? fun ke => decide (ke.2.instr = .sigw x) && decide (ke.2.pc = i.pc)
    && ke.2.active.getLsbD l && !ke.2.done.getLsbD l).map (·.2)

def sigwVals (s : State) (p : Place) (i : Issue) (x : SigF) (l : Nat) : LaneVals :=
  match sigwHeld p i x l with
  | some e => ⟨e.addr.getD l 0#64, e.b.getD l 0#64, 0#64⟩
  | none => (sigOp x).valsOf s p l

/-- A lane's test: the signal, whether it was poisoned, or a fault. -/
inductive SigTest
  | read (v : DWord) (poisoned : Bool)
  | fault (f : Nat × Word)
  | wait
  | denied
  deriving DecidableEq, Repr

def sigTest (s : State) (p : Place) (va : DWord) : State × SigTest :=
  match translate s (coreTlbs p.t.core) p.gr.ctx va.toNat .load with
  | .error (k, l) => match joinFault s (coreDie p.t.core) p.gr.ctx va .load k l p.g.grid with
    | some (s, f) => (s, .fault (coreDie p.t.core, f))
    | none => (s, .wait)
  | .ok (s, x) =>
    if s.surfLocked p.gr.ctx x.surf || s.windowBusy p va.toNat 8 false then (s, .wait)
    else match s.readAt p.gr.ctx x 8 with
    | (s, .bytes bs) => (s, .read (BitVec.ofNat 64 (natLE bs)) false)
    | (s, .poison) => (s, .read 0xFFFFFFFFFFFFFFFF#64 true)
    | (s, .denied) => (s, .denied)

/-- The lanes' tests, threaded through the state. -/
def sigTests (p : Place) (vals : Nat → LaneVals) : List Nat → State → State × List (Nat × SigTest)
  | [], s => (s, [])
  | l :: ls, s =>
    let (s, t) := sigTest s p (vals l).va
    let (s, ts) := sigTests p vals ls s
    (s, (l, t) :: ts)

/-- Drops the entries a `sigw` at this place holds for its lanes. -/
def Warp.dropSigw (w : Warp) (i : Issue) (x : SigF) (m : LaneMask) : Warp :=
  { w with log := w.log.filter fun ke =>
      !(decide (ke.2.instr = .sigw x) && decide (ke.2.pc = i.pc) && decide (ke.2.active &&& m ≠ 0#32)) }

/-- `sigw` with the values of every active lane at hand: completes when every lane's signal has reached its
value; else its path blocks, with kind PAGE on a page fault and kind SIGNAL otherwise, and its values stay in the
operand log. -/
def sigwTest (x : SigF) (s : State) (p : Place) (i : Issue) (active : LaneMask) : Except Stop State :=
  let vals (l : Nat) : LaneVals := sigwVals s p i x l
  let fresh := maskOf ((lanesOf active).filter fun l => (sigwHeld p i x l).isNone)
  let others := p.w.log.filter fun ke =>
    !(decide (ke.2.instr = .sigw x) && decide (ke.2.pc = i.pc) && decide (ke.2.active &&& active ≠ 0#32))
  match checkEntry { p with w := { p.w with log := others } } i active with
  | .error e => .error e
  | .ok _ => afterArrived s p i .load false ((lanesOf active).map fun l => (l, (vals l).va)) fun _ =>
    match others.filter fun ke => (lanesOf active).any fun l => ke.2.holds (.sigw x) (vals l).va l with
    | ke :: es => match (ke :: es).find? fun je => (pageHeld p.w.log).contains je.1 with
      | some je => .error (.block (allLanes i.path (.page je.1)))
      | none => .error .stall
    | [] =>
      let (s1, ts) := sigTests p vals (lanesOf active) s
      let poisoned := (ts.filter fun lt => match lt.2 with | .read _ b => b | _ => false).length
      let faults : Tab (Nat × Word) := ts.filterMap fun lt => match lt.2 with | .fault f => some (lt.1, f) | _ => none
      let failing := (ts.filter fun lt => match lt.2 with
        | .read v _ => decide (v.toNat < (vals lt.1).b.toNat)
        | _ => false).map (·.1)
      let waits : Bool := ts.any fun lt => lt.2 = .wait
      if waits then .error .stall
      else
        let s2 := (s1.consume p fresh (sigOp x).srcs).modWarp p.key fun w => w.dropSigw i x active
        let k := ((others.getLast?).map (·.1 + 1)).getD 0
        let all := List.range 32
        let e : LogEntry := ⟨({ p.w with log := others } : Warp).freeSlot, .sigw x, i.pc, i.path, active, 0#32, all.map fun l => (vals l).va,
          all.map fun l => (vals l).b, all.map fun _ => 0#64, faults, false, [], p.t.core, 0#512⟩
        let held : State := s2.modWarp p.key fun w => { w with log := w.log.put k e }
        match ts.find? fun lt => lt.2 = .denied with
        | some lt => .ok (held.pinWarp p i.path i.pc i.len i.last (p.pinCause pinAct) (vals lt.1).va none)
        | none =>
          if faults ≠ [] then .ok ((emitFaults held).blockLanes p.key p.t.core (allLanes i.path (.page k)))
          else match failing with
          | [] => .ok ((s2.poisoned p poisoned).retire i)
          | l :: _ => .ok (held.blockLanes p.key p.t.core (allLanes i.path (.signal (vals l).va)))

/-- `sigw` (15 R401). A lane whose values are held is not checked or read again. -/
def execSigw (x : SigF) (s : State) : Host.Outcome State Fault Refusal :=
  settle s fun p i =>
    let o := sigOp x
    let active := activeOf p i x.g
    let fresh := maskOf ((lanesOf active).filter fun l => (sigwHeld p i x l).isNone)
    let chk (l : Nat) : AddrChk :=
      let va := (o.valsOf s p l).va
      ⟨l, va, regionOk p.gr p.g.num va.toNat 8 (.load true), va.toNat % 8 = 0, s.rangeLocked p.gr.ctx va.toNat 8 false⟩
    if active ≠ 0#32 ∧ fresh = 0#32 then sigwTest x s p i active
    else withAddress s p i x.g o.srcs [o.addrSrc] [] (fun m => m &&& fresh) chk (sigwTest x s p i)

/-! ## Ports -/

/-- The word of `qstat` for a lane (15 R402): ROOM is the depth less the entries queued and in flight. -/
def qstatWord (s : State) (p : Place) (q : Port) (l : Nat) : Word :=
  if ¬ p.bound q then 0#32
  else
    let f := p.w.getFifo q l
    let closed := (Sparse.get 0#32 p.w.outClosed q.code).getLsbD l
    let (gone, load) := match s.peer p q l with
      | some (w, pq, pl) => (s.peerGone w pl, s.fifoLoad w pq pl)
      | none => (true, 0)
    let ostate := if closed then 1 else if gone then 2 else 0
    BitVec.ofNat 32 (2 ^ 15 + ostate * 2 ^ 10 + f.st * 2 ^ 8 + (portDepth q - load) * 2 ^ 4 + f.q.length)

/-- The port instructions are of the memory class: they do not issue past a pending fence of their lanes (15 R398). -/
def behindFence (p : Place) (active : LaneMask) (k : Except Stop State) : Except Stop State :=
  if fencePending isFence p.w active then .error .stall else k

/-- `qstat` never pins: what it would push on an unbound port goes nowhere (15 R387, R402). -/
def execQstat (x : PortDF) (s : State) : Host.Outcome State Fault Refusal :=
  settle s fun p i =>
    let dsts := match checkBound p [x.d] with
      | .ok _ => [(x.d, 1)]
      | .error _ => []
    withOperands s p i x.g [] dsts fun active => behindFence p active
      (.ok ((s.writeOp p active x.d fun l => [qstatWord s p x.q l]).retire i))

/-- `qclose` closes the active lanes' outbound links of q, behind every entry pushed before; links closed
already stay as they are (09 R221). -/
def execQclose (x : PortF) (s : State) : Host.Outcome State Fault Refusal :=
  settle s fun p i => withOperands s p i x.g [] [] fun active =>
    if ¬ p.bound x.q then .error (.pin pinPort 0#64)
    else behindFence p active <|
      let was := Sparse.get 0#32 p.w.outClosed x.q.code
      let s := (lanesOf (active &&& ~~~ was)).foldl (fun s l => s.closeLane p [x.q] l 1) s
      .ok ((s.modWarp p.key fun w =>
        { w with outClosed := Sparse.set 0#32 w.outClosed x.q.code (was ||| active) }).retire i)

/-- `qpeek`: the oldest entry of each lane, not popped. -/
def execQpeek (x : PortDF) (s : State) : Host.Outcome State Fault Refusal :=
  settle s fun p i => match checkRegs p i [(x.d, 1)] with
    | .error e => .error e
    | .ok _ =>
      let active := activeOf p i x.g
      if active = 0#32 then .ok (s.retire i)
      else match checkBound p [.port x.q, x.d] with
      | .error e => .error e
      | .ok _ => match checkWaits s p i active [⟨.port x.q, 1, []⟩] [(x.d, 1)] with
        | .error e => .error e
        | .ok _ => behindFence p active (.ok (supersedeLog p i active [(x.d, 1)]
            ((s.writeOp p active x.d fun l => [((p.w.getFifo x.q l).q.headD 0#32)]).retire i)))

end Sys2Proof.Machine
end

