-- ==== Sys2Proof/Machine/System.lean ====
section
/-! DEFINITION. Futures (17 R435, R436), child launches (17 R438, R439), service calls (17 R440), special
registers (17 R443, R444) and `tokq` (17 R445). -/

namespace Sys2Proof.Machine

/-! ## Futures -/

def futSrc (f : Fin 8) : Src := ⟨(futDst f).1, 1, []⟩

/-- `fwait` reads its future and writes nothing. -/
def execFwait (x : FutF) (s : State) : Host.Outcome State Fault Refusal :=
  settle s fun p i => withOperands s p i x.g [futSrc x.f] [] fun active =>
    .ok ((s.consume p active [futSrc x.f]).retire i)

/-- A future is full, or its producer is gone. -/
def futSettled (w : Warp) (f : Fin 8) : Bool :=
  match w.fut.get? f.val with
  | none | some (.gone _) => true
  | _ => false

/-- `ftest` never blocks or traps, but for a register beyond the allotment. -/
def execFtest (x : FtestF) (s : State) : Host.Outcome State Fault Refusal :=
  settle s fun p i => match checkRegs p i [futDst x.f] with
    | .error e => .error e
    | .ok _ => withOperands s p i x.g [] [] fun active =>
      .ok ((s.modWarp p.key fun w =>
        w.writeP x.pd active (if futSettled p.w x.f then active else 0#32)).retire i)

/-- Cancellation of the operation that will resolve a future (17 R436): a queued engine operation is discarded
and its count returned; a started one, or a loop, is marked to stop; a pinned one, a launch and a full future are
not affected. -/
def cancelFut (s : State) (w : Nat) (f : Fin 8) : State :=
  match (s.warps.get? w).bind fun x => x.fut.get? f.val with
  | some (.engine k) => (match s.ops.get? k with
    | some o =>
      if o.pinned.isSome || o.released then s
      else if o.started then s.modOp k fun o => { o with cancelled := some (o.cancelled.getD s.hc) }
      else killFut ({ s with ops := s.ops.del k }.ackOut o.core o.grid 1) w f 3
    | none => s)
  | some (.mloop k) => { s with mloops := s.mloops.modify k fun m => { m with cancelled := true } }
  | _ => s

def execFcancel (x : FutF) (s : State) : Host.Outcome State Fault Refusal :=
  settle s fun p i => match checkRegs p i [futDst x.f] with
    | .error e => .error e
    | .ok _ => withOperands s p i x.g [] [] fun _ => .ok ((cancelFut s p.key x.f).retire i)

/-! ## Child launches -/

/-- Depth of a grid, from its identifier (05 R150). -/
def gridDepth (grid : Word) : Nat := bits grid 31 28

/-- The status with which a launch resolves at once, tested in the order DEPTH, QUEUE, FULL (17 R439). -/
def launchStatus (s : State) (p : Place) (n : Nat) : Option Nat :=
  let q := s.queue n
  if 9 ≤ gridDepth p.g.grid then some stDepth
  else if q.st ≠ .enabled ∨ q.src ≠ 1 ∨ q.ctx ≠ p.gr.ctx then some stQueue
  else if q.full then some stFull
  else none

/-- A child record enters its queue: the launching grid waits for the child, and the future for its end. -/
def launchChild (s : State) (p : Place) (f : Fin 8) (n : Nat) (r : BitVec 1024) : State :=
  let seq := (s.queue n).nextSeq
  let s := (enqueue s n r).modQueue n fun q => { q with parents := q.parents.put seq.toNat (p.g.grid, false) }
  (s.modGrid p.g.grid fun g => { g with kids := g.kids + 1 }).startFut p.key f (.launch n seq)

/-- `launch`: its address is the first pair of the group; the record is read as a plain load. -/
def execLaunch (x : LaunchF) (s : State) : Host.Outcome State Fault Refusal :=
  settle s fun p i => guardIll (p.w.no = 0) i <|
    let addr : Src := ⟨(groupSrc x.grp).o, 2, []⟩
    let srcs := [addr, src1 x.q]
    let va (l : Nat) : Nat := wordsNat ((srcVals s p l [] srcs).getD 0 [])
    let chk (l : Nat) : AddrChk :=
      ⟨l, BitVec.ofNat 64 (va l), regionOk p.gr p.g.num (va l) 128 (.load false), va l % 128 = 0,
        s.rangeLocked p.gr.ctx (va l) 128 false⟩
    withAddress s p i x.g srcs [addr] [futDst x.f] (fun m => maskOf [lowLane m]) chk fun active =>
      let n := bits (((srcVals s p (lowLane active) [] srcs).getD 1 []).headD 0#32) 9 0
      match checkDone p i active with
      | .error e => .error e
      | .ok _ =>
        let used (s : State) : State := (s.consume p active srcs).releaseHome p
        match launchStatus s p n with
        | some st => .ok ((resolveFut (used s) p.key x.f (statusWord st 0)).retire i)
        | none => match loadPiece s p (va (lowLane active)) 128 with
          | .ok t bs ps =>
            .ok ((launchChild ((used t).poisoned p (if ps then 1 else 0)) p x.f n (BitVec.ofNat 1024 (natLE bs))).retire i)
          | .region a => .error (.pin pinRegion a)
          | .locked a => .error (.trap .rangelock 0 (maskOf [lowLane active]) a)
          | .fault t f => .ok (t.blockLanes p.key p.t.core
              (allLanes i.path (.fetch (BitVec.ofNat 64 (va (lowLane active))) f.1 f.2)))
          | .full => .error .stall
          | .denied _ => .error (.pin pinAct (BitVec.ofNat 64 (va (lowLane active))))

/-! ## Service calls -/

/-- The 160 bytes of a service record, as words: the request word of an inactive lane is zero. -/
def svcWords (p : Place) (s : State) (n : Nat) (active : LaneMask) (req : Nat → Word) : List Word :=
  [BitVec.ofNat 32 n, active, BitVec.ofNat 32 p.gr.ctx, p.g.grid,
    (specialVal s p 0 .die <<< 16) ||| specialVal s p 0 .core,
    (specialVal s p 0 .team <<< 8) ||| specialVal s p 0 .warp, 0#32, 0#32]
    ++ (List.range 32).map fun l => if active.getLsbD l then req l else 0#32

/-- `svc`: the record joins the ring and the path, past the instruction, blocks with kind SIGNAL; the hub answers
services 0x800 and above at once. -/
def execSvc (x : SvcF) (s : State) : Host.Outcome State Fault Refusal :=
  settle s fun p i => withOperands s p i x.g [src1 x.a] [(x.d, 1)] fun active =>
    let req (l : Nat) : Word := ((srcVals s p l [] [src1 x.a]).headD []).headD 0#32
    let n := x.n.toNat
    if 0x800 ≤ n then
      .ok (((s.consume p active [src1 x.a]).writeOp p active x.d fun _ => [0xFFFFFFFF#32]).retire i)
    else if 256 ≤ s.svcRing.length then .error .stall
    else
      let ws := svcWords p s n active req
      let r : SvcRec := ⟨p.key, n, active, p.gr.ctx, p.g.grid, ws.getD 4 0#32, ws.getD 5 0#32, ws⟩
      let t := (s.consume p active [src1 x.a]).modWarp p.key fun w => { w with svcs := w.svcs ++ [⟨i.path, active, x.d⟩] }
      .ok (({ t with svcRing := t.svcRing ++ [r] }.retire i).blockLanes p.key p.t.core (allLanes i.path .svc))

/-! ## Special registers -/

/-- The handler specials, 0x000 to 0x006. -/
def handlerSpecial (h : Handler) (n : Nat) : Word :=
  match n with
  | 0 => h.cause
  | 1 => h.epc
  | 2 => h.tpath
  | 3 => h.tmask
  | 4 => h.tlane
  | 5 => h.tval
  | _ => h.tvalh

def setHandlerSpecial (n : Nat) (v : Word) (h : Handler) : Handler :=
  match n with
  | 0 => { h with cause := v &&& 0xFFFF#32 }
  | 1 => { h with epc := v &&& 0xFFFFFFFC#32 }
  | 2 => { h with tpath := v }
  | 3 => { h with tmask := v }
  | 4 => { h with tlane := v }
  | 5 => { h with tval := v }
  | _ => { h with tvalh := v }

/-- The service class of a context. -/
def classWord (s : State) (ctx : Nat) : Word := ((s.ctxs.get? ctx).map fun c => c.sclass.setWidth 32).getD 0#32

/-- What `csrr` reads. -/
def specialWord (s : State) (p : Place) (n : Nat) : Word :=
  if n < 7 then handlerSpecial p.w.handler n
  else if n = 0x048 then BitVec.ofNat 32 p.gr.ctx
  else if n = 0x049 then classWord s p.gr.ctx
  else coreSpecial s p.t.core n

/-- `csrr`: one value for every active lane; a monitor is a measurement, a free value each time (log 8). -/
def execCsrr (x : CsrrF) (s : State) : Host.Outcome State Fault Refusal :=
  settle s fun p i => guardIll (specialListed x.n.toNat) i <|
    withOperands s p i x.g [] [(x.d, 1)] fun active =>
      let v := specialWord s p x.n.toNat
      let s := if isMonitor x.n.toNat then s.tick else s
      .ok ((s.writeOp p active x.d fun _ => [v]).retire i)

/-- `csrw` is admitted for the handler specials in handler mode; any other pins the warp with P-PRIV. -/
def execCsrw (x : CsrwF) (s : State) : Host.Outcome State Fault Refusal :=
  settle s fun p i => guardIll (specialListed x.n.toNat) i <|
    if ¬ (p.w.handler.on ∧ x.n.toNat < 7) then
      match checkRegs p i [(x.a, 1)] with
      | .error e => .error e
      | .ok _ => if activeOf p i x.g = 0#32 then .ok (s.retire i) else .error (.pin pinPriv 0#64)
    else withOperands s p i x.g [src1 x.a] [] fun active =>
      let v := lowWord s p active (src1 x.a)
      .ok (((s.consume p active [src1 x.a]).modWarp p.key fun w =>
        { w with handler := setHandlerSpecial x.n.toNat v w.handler }).retire i |>.endYield p.key)

/-! ## Tempi -/

/-- The word of `tokq`: the core's state before the draws of the cycle (17 R445). -/
def tokqWord (s : State) (p : Place) : Word :=
  let c := s.core p.t.core
  let c := match c.before with
    | some b => { c with pool := b.1, critical := b.2 }
    | none => c
  BitVec.ofNat 32 (s.power.q * 2 ^ 24 + (s.cluster (coreCluster p.t.core)).reserve * 2 ^ 16 + c.critical.length * 2 ^ 11
    + (if c.critical.contains p.key then 2 ^ 7 else 0) + c.pool)

def execTokq (x : GDst) (s : State) : Host.Outcome State Fault Refusal :=
  wordTo x.g x.d (fun p _ _ => tokqWord s p) s

end Sys2Proof.Machine
end

