-- ==== Sys2Proof/Machine/Engines.lean ====
section
/-! DEFINITION. Engine operations (17 R424 to R436): how they start and complete, the pairing of collectives, and
their issue. -/

namespace Sys2Proof.Machine

/-! ## Collectives (17 R432, R433) -/

/-- A member's shard goes to peers; one that no working port reaches stops the operation, if it is still there (17 R433). -/
def clSendTo (s : State) (k : Option (Nat × EngOp)) (g : CollGroup) (ctx group seq : Nat) (ranks : List Nat) (bs : List Byte) :
    State :=
  let pkgs := ranks.map fun r => g.members.getD r 0
  if pkgs.any fun q => s.unreachable q then match k with
    | some (k, o) => let u := stopPart (s.raiseCtx ctx) o
        resolveOp u.1 k o stUnroute u.2 (o.bytes s)
    | none => s.raiseCtx ctx
  else pkgs.foldl (fun s q => s.send (.shard q group seq bs)) s

/-- A paired member reads and converts its shard, sends it to the peers that have granted credit, and from then on is
started. -/
def clReadShard (s : State) (k : Nat) (o : EngOp) (g : CollGroup) (a : EngAt) : State :=
  let d := o.desc
  let rank := g.rank s.fused.pkg
  if ¬ clSends d rank ∨ o.data.has rank then s
  else
    let r := a.readTensor s false (clTy o.xd) (o.xd.any (·.srcScaled)) (egSrc d) (egCount d)
    if r.stop ≠ .done then r.stop.settle r.s k o
    else
      let w := clWire o.xd r.x.1 r.x.2.1
      let s := (countT2 r.s o.core (if o.xd = none then .i32 else clTy o.xd) r.x.1).countColl w.2
      let o := { o with started := true, data := o.data.put rank w.1, ev := o.ev + w.2, poison := o.poison || r.x.2.2 }
      clSendTo (s.modOp k fun _ => o) (some (k, o)) g o.ctx (clGroup d) o.seq (o.grants.map (·.rank)) w.1

/-- The operation is paired: the use of its group is judged, its peers must be routable, and its grants go out, also where
the members disagree. -/
def clPair (s : State) (k : Nat) (o : EngOp) : State :=
  match s.groups.get? (clGroup o.desc) with
  | none => resolveOp s k o stBaddesc 0 0
  | some g =>
    if ¬ o.numbered then resolveOp s k o stBaddesc 0 0
    else
      let peers := clPeers o.desc g s.fused.pkg
      if peers.any fun q => s.unreachable q then resolveOp (s.raiseCtx o.ctx) k o stUnroute 0 0
      else (peers.foldl (fun s q => s.send (.grant q o.seq o.desc)) s).modOp k fun o => { o with status := 1 }

/-! ## Start and completion -/

/-- The first line that an operation reads. -/
def firstRead (s : State) (a : EngAt) : EngEnd :=
  let d := a.o.desc
  let line (stash : Bool) (n : Nat) : EngEnd := (a.readPiece s stash (egSrc d) (Nat.min n (128 - egSrc d % 128))).stop
  match a.o.kind with
  | .copy => if cpHost d = 1 then .done else line (cpSk d) (cpSrcLen a.o.xd d)
  | .cmpr => if egCount d = 0 then .done else line false 128
  | _ => .done

/-- The surface checks of R434: the surface's index, the number of the first line, or none for a BADDESC. -/
def surfCheck (s : State) (d : BitVec 256) (y : Xlat) : Option (Nat × Nat) :=
  let base := surfBase s y.srec 511 448
  let n0 := (y.loc - base) / 128
  if y.surf = 0 ∨ ¬ y.srec.getLsbD 0 ∨ y.loc < base ∨ bits y.srec 383 352 < n0 + egCount d then none else some (y.surf, n0)

/-- A compression whose surface was not at hand when it was issued is checked now (17 R426, R434); its status says that its
barrier index is outside the allotment. -/
def cmprLate (s : State) (k : Nat) (o : EngOp) : State :=
  match translate s o.tlbs o.ctx (egDst o.desc) .store with
  | .error kl => EngEnd.settle (.page (egDst o.desc) .store kl) s k o
  | .ok (s, y) => match surfCheck s o.desc y with
    | none => resolveOp s k o stBaddesc 0 0
    | some (i, n0) =>
      if o.status = stBarrier then resolveOp s k o stBarrier 0 0 else s.modOp k fun o => { o with surf := i, seq := n0 }

/-- ENGINE_OP_STARTS (17 R425, R432): the operation is started once it can read its first line. A copy from the host asks
for its data. From here on a free part of its work stands, should it be stopped before its end (11 R292; 17 R428). -/
def engineOpStarts (k : Nat) (s : State) : State :=
  match s.ops.get? k with
  | none => s
  | some o =>
    if o.pinned ≠ none ∨ o.released ∨ o.cancelled ≠ none ∨ o.fault ≠ none then s
    else if o.kind = .coll then
      if o.status = 0 then clPair s k o
      else match s.groups.get? (clGroup o.desc), s.engAt o with
        | some g, some a => if o.differs then s else clReadShard s k o g a
        | _, _ => s
    else if o.started then s
    else if o.kind = .cmpr ∧ o.surf = 0 then cmprLate s k o
    else match s.engAt o with
      | none => s
      | some a =>
        let s := if o.kind = .copy ∧ cpHost o.desc = 1 ∧ linkWorks (s.link 136) then
          s.send (.rdmaRead (cpQp o.desc) (BitVec.ofNat 64 (egSrc o.desc)) (egCount o.desc)) else s
        match firstRead s a with
        | .done => s.modOp k fun o => { o with started := true }
        | e => e.settle s k o

/-- ENGINE_OP_COMPLETES (17 R426, R427, R436): a released pin resolves with REGION, a stopped operation with
CANCELLED unless it completes in the hub cycle of its `fcancel`, members in disagreement with BADDESC; otherwise the work is done. -/
def engineOpCompletes (k : Nat) (s : State) : State :=
  match s.ops.get? k with
  | none => s
  | some o =>
    if o.released then resolveOp s k o stRegion o.ev (o.bytes s)
    else if o.pinned ≠ none then s
    else if o.differs ∧ o.status = 1 then
      let u := stopPart s o
      resolveOp u.1 k o stBaddesc u.2 (o.bytes s)
    else if ¬ o.started then s
    else if o.cancelled.any (· < s.hc) then
      let u := stopPart s o
      resolveOp u.1 k o stCancelled u.2 (o.bytes s)
    else if o.fault ≠ none then s
    else if o.kind = .copy ∧ cpHost o.desc ≠ 0 ∧ ¬ linkWorks (s.link 136) then s
    else if o.kind ≠ .coll ∧ o.kind ≠ .cmpr ∧ s.dieCut o.die then s
    else match s.engAt o with
      | none => s
      | some a => opFinish s k a

/-- Whether a grant agrees with a descriptor. -/
def grantAgrees (d : BitVec 256) (r : Grant) : Bool :=
  r.opc = clOpc d && r.count = egCount d && r.xd = egXd d && r.root = clRoot d

/-- The operation of this package that is the k-th issue on a group. -/
def clFind (s : State) (group seq : Nat) : Option (Nat × EngOp) :=
  s.ops.find? fun ko => decide (ko.2.kind = .coll) && ko.2.numbered && decide (clGroup ko.2.desc = group)
    && decide (ko.2.seq = seq)

/-- An operation takes a grant in: one that differs makes the members resolve with BADDESC. -/
def EngOp.takeGrant (o : EngOp) (r : Grant) : EngOp :=
  { o with grants := o.grants ++ [r], differs := o.differs || !grantAgrees o.desc r }

/-- A grant for an issue that has resolved: the shard that was kept for the peer goes to it. -/
def lateGrant (s : State) (g : CollGroup) (r : Grant) : State :=
  match g.kept.find? fun x => x.seq = r.seq && x.ranks.contains r.rank with
  | none => s
  | some x =>
    let kept := (g.kept.map fun y => if y.seq = r.seq then { y with ranks := y.ranks.filter (· ≠ r.rank) } else y).filter
      fun y => decide (y.ranks ≠ [])
    let s := { s with groups := s.groups.put r.group { g with kept := kept } }
    if grantAgrees x.desc r then clSendTo s none g g.ctx r.group r.seq [r.rank] x.data else s

/-- COLL_CREDIT_GRANT (17 R432): a peer has issued its matching `coll`; the member's shard, once read, goes to it. -/
def collCreditGrant (r : Grant) (s : State) : State :=
  match s.groups.get? r.group with
  | none => s
  | some g =>
    if ¬ s.podUp ∨ g.members.length ≤ r.rank ∨ r.rank = g.rank s.fused.pkg then s
    else match clFind s r.group r.seq with
      | none =>
        if r.seq < g.issued then lateGrant s g r
        else if g.early.contains r then s
        else { s with groups := s.groups.put r.group { g with early := g.early ++ [r] } }
      | some (k, o) =>
        if o.grants.any fun x => x.rank = r.rank then s
        else
          let s := s.modOp k fun o => o.takeGrant r
          match o.data.get? (g.rank s.fused.pkg) with
          | some bs => if grantAgrees o.desc r then clSendTo s (some (k, o.takeGrant r)) g o.ctx r.group r.seq [r.rank] bs else s
          | none => s

/-- COLL_DATA_ARRIVES (17 R433): a rank's shard, as long as the descriptor says. -/
def collDataArrives (group rank seq : Nat) (data : List Byte) (s : State) : State :=
  match s.groups.get? group, clFind s group seq with
  | some g, some (k, o) =>
    if ¬ s.podUp ∨ o.status ≠ 1 ∨ o.differs ∨ rank = g.rank s.fused.pkg ∨ ¬ (clNeeds o.desc g).contains rank ∨ o.data.has rank
        ∨ data.length ≠ clWireLen o.xd (egCount o.desc) then s
    else s.modOp k fun o => { o with
      data := o.data.put rank data
      started := o.started || !clSends o.desc (g.rank s.fused.pkg) }
  | _, _ => s

/-! ## Issue (17 R424 to R426) -/

/-- What the checks of a descriptor give: a status at once, an operation that may stop at its first access, or an access
that holds the issue up. -/
inductive EngCheck
  | now (status : Nat)
  | held (s : State) (o : EngOp) (va : Nat) (acc : AccKind) (kl : Nat × Nat)
  | go (s : State) (o : EngOp) (stop : EngEnd)

/-- An operation as it is issued. -/
def newOp (kind : EngKind) (p : Place) (x : EngF) (bar : Nat) (d : BitVec 256) : EngOp where
  kind := kind
  desc := d
  scope := x.sc
  bar := bar
  warp := p.key
  gang := p.gid
  grid := p.g.grid
  ctx := p.gr.ctx
  die := coreDie p.t.core
  core := p.t.core
  fut := x.f
  started := false
  cancelled := none
  pinned := none
  released := false
  fault := none
  rd := none
  wr := none
  srd := none
  swr := none
  idx := []
  surf := 0
  seq := 0
  grants := []
  data := []
  status := 0
  numbered := false
  differs := false
  ev := 0
  poison := false

/-- The engine that serves a kind, and how many operations it holds: one copy engine per die, the hub's collective
and compressor engines. -/
def engineFull (s : State) (o : EngOp) : Bool :=
  match o.kind with
  | .coll => 16 ≤ (s.ops.filter fun ko => ko.2.kind = .coll).length
  | .cmpr => 16 ≤ (s.ops.filter fun ko => ko.2.kind = .cmpr).length
  | _ => 64 ≤ (s.ops.filter fun ko => ko.2.kind ≠ .coll ∧ ko.2.kind ≠ .cmpr ∧ ko.2.die = o.die).length

def optCount {α : Type} (x : Option α) : Nat := if x.isSome then 1 else 0

/-- A range, if it has bytes. -/
def rangeIf (use : Bool) (a n : Nat) : Option (Nat × Nat) := if use && n ≠ 0 then some (a, n) else none

/-- The barrier an operation names: 0 for none, `none` for an index outside the allotment (07 R189). -/
def engBar (p : Place) (x : EngF) : Option Nat :=
  if x.bar.val = 63 then some 0 else (p.bar x.bar.val).map (· + 1)

/-- The numbering of an issue on its group, with the grants that came before it (17 R432). -/
def clNumber (s : State) (o : EngOp) : State × EngOp :=
  match s.groups.get? (clGroup o.desc) with
  | none => (s, o)
  | some g =>
    if g.ctx ≠ o.ctx ∨ ¬ g.members.contains s.fused.pkg then (s, o)
    else
      let mine := g.early.filter fun r => r.seq = g.issued
      let g1 : CollGroup := { g with issued := g.issued + 1, early := g.early.filter fun r => r.seq ≠ g.issued }
      ({ s with groups := s.groups.put (clGroup o.desc) g1 }, mine.foldl EngOp.takeGrant { o with seq := g.issued, numbered := true })

/-- An operation enters its engine. -/
def enterOp (s : State) (p : Place) (x : EngF) (o : EngOp) (stop : EngEnd) : State :=
  let k := s.placer.nextOp
  let (s, o) := if o.kind = .coll then clNumber s o else (s, o)
  stop.settle (({ s with ops := s.ops.put k o, placer := { s.placer with nextOp := k + 1 } }).startFut p.key x.f (.engine k)) k o

/-- The page fault that holds up the issue of a path, while its record is pending (17 R426, R431). -/
def Warp.heldBy (w : Warp) (path : LaneMask) : Option (Nat × Word) := (w.held.find? fun h => h.1 = path).map (·.2)
def Warp.setHeld (w : Warp) (path : LaneMask) (f : Option (Nat × Word)) : Warp :=
  { w with held := f.toList.map (fun f => (path, f)) ++ w.held.filter fun h => decide (h.1 &&& path = 0#32) }

/-- The shared issue: waits, the release, the checks of the descriptor, the counts and tables, the future. -/
def runEng (x : EngF) (check : State → Place → BitVec 256 → EngCheck) (s : State) : Host.Outcome State Fault Refusal :=
  settle s fun p i => withOperands s p i x.g [groupSrc x.grp] [futDst x.f] fun active =>
    match checkDone p i active with
    | .error e => .error e
    | .ok _ =>
      let d : BitVec 256 := BitVec.ofNat 256 (wordsNat ((srcVals s p (lowLane active) [] [groupSrc x.grp]).getD 0 []))
      let issued (t : State) : State := (t.consume p active [groupSrc x.grp]).releaseHome p
      if (p.w.heldBy i.path).any fun f => s.paging.faults.has (faultKey f.1 f.2) then .error .stall
      else match check s p d with
      | .now st => .ok ((resolveFut (issued s) p.key x.f (statusWord st 0)).retire i)
      | .held t o va acc kl => (match engFault t o va acc kl with
        | some (t, f) => .ok ((t.modWarp p.key fun w => w.setHeld i.path (some f)).giveBack)
        | none => .error .stall)
      | .go t o stop =>
        if engineFull t o ∨ 1024 < t.rangeEntries + optCount o.rd + optCount o.wr
            ∨ 16 < t.stashEntries p.t.core + optCount o.srd + optCount o.swr then .error .stall
        else match t.takeOut p.t.core p.g.grid 1 with
          | none => .error .stall
          | some t => .ok ((enterOp (issued (t.modWarp p.key fun w => if w.held = [] then w else w.setHeld i.path none)) p x o stop).retire i)

/-- BARRIER is the last check of a descriptor. -/
def withBar (p : Place) (x : EngF) (k : Nat → EngCheck) : EngCheck :=
  match engBar p x with
  | none => .now stBarrier
  | some b => k b

/-- The checks of `copy` (17 R426, R429, R430). -/
def copyCheck (x : EngF) (s : State) (p : Place) (d : BitVec 256) : EngCheck :=
  let host := cpHost d
  if host = 3 ∨ bits d 245 224 ≠ 0 ∨ (host = 1 ∧ cpSk d) ∨ (host = 2 ∧ cpDk d) then .now stBaddesc
  else match parseXd (egXd d) with
  | none => .now stBadconv
  | some xd =>
    if xd.isSome ∧ (host ≠ 0 ∨ (cpSk d ∧ cpDk d)) then .now stBadconv
    else
      let sl := cpSrcLen xd d
      let dl := cpDstLen xd d
      if egSrc d % 4 ≠ 0 ∨ egDst d % 4 ≠ 0 ∨ (xd = none ∧ egCount d % 4 ≠ 0)
          ∨ (cpSk d ∧ p.gr.window < egSrc d + sl) ∨ (cpDk d ∧ p.gr.window < egDst d + dl) then .now stBaddesc
      else if egCount d = 0 then .now stOk
      else withBar p x fun b => .go s { newOp .copy p x b d with
        rd := rangeIf (host ≠ 1 && !cpSk d) (egSrc d) sl
        wr := rangeIf (host ≠ 2 && !cpDk d) (egDst d) dl
        srd := rangeIf (cpSk d) (egSrc d) sl
        swr := rangeIf (cpDk d) (egDst d) dl } .done

def minOf (xs : List Nat) : Nat := (xs.min?).getD 0
def maxOf (xs : List Nat) : Nat := (xs.max?).getD 0

/-- The bounding range of the entries that a list of indices names. -/
def gsRange (d : BitVec 256) (idx : List Nat) : Option (Nat × Nat) :=
  rangeIf (idx ≠ []) (gsEntry d (minOf idx)) (gsEntry d (maxOf idx) - gsEntry d (minOf idx) + gsSize d)

/-- The checks of `gath` and `scat` (17 R426, R431): the index list is read at issue, which starts the operation (17
R425); a page fault in it holds the issue up. -/
def gsCheck (scat : Bool) (x : EngF) (s : State) (p : Place) (d : BitVec 256) : EngCheck :=
  let e := bits d 235 232
  let n := egCount d
  if d.getLsbD 255 ∨ bits d 253 236 ≠ 0 ∨ bits d 231 224 ≠ 0 ∨ e < 2 ∨ 12 < e then .now stBaddesc
  else if 4096 < n ∨ gsStride d % 4 ≠ 0 ∨ gsIoff d % 4 ≠ 0 ∨ egSrc d % 4 ≠ 0 ∨ p.gr.window < gsIoff d + 4 * n
      ∨ (gsCk d ∧ p.gr.window < egDst d + n * gsSize d) then .now stBaddesc
  else withBar p x fun b =>
    let o := newOp (if scat then .scat else .gath) p x b d
    let r := (EngAt.mk o p.gr p.g.num).read s true (gsIoff d) (4 * n)
    match r.stop with
    | .page va acc kl => .held r.s o va acc kl
    | .done =>
      let idx := codesOf .n32 n r.x.1
      let bytes := n * gsSize d
      let table := gsRange d idx
      let cont := rangeIf (!gsCk d) (egDst d) bytes
      let stash := rangeIf (gsCk d) (egDst d) bytes
      .go r.s { o with
        started := decide (n ≠ 0)
        idx := idx
        poison := r.x.2
        rd := if scat then cont else table
        wr := if scat then table else cont
        srd := if scat then stash else none
        swr := if scat then none else stash } .done
    | e => .go r.s o e

/-- The checks of `coll` (17 R426, R433). -/
def collCheck (x : EngF) (s : State) (p : Place) (d : BitVec 256) : EngCheck :=
  let opc := clOpc d
  let members := ((s.groups.get? (clGroup d)).map (·.members)).getD [s.fused.pkg]
  if 2 < opc ∨ bits d 237 224 ≠ 0 ∨ (opc ≠ 1 ∧ clRoot d ≠ 0) ∨ (opc = 1 ∧ s.groups.has (clGroup d) ∧ members.length ≤ clRoot d) then
    .now stBaddesc
  else match parseXd (egXd d) with
  | none => .now stBadconv
  | some xd =>
    let t := clTy xd
    if xd.any (fun y => y.sch ≠ 2) ∨ (opc = 2 ∧ t ≠ .f32 ∧ t ≠ .i32) then .now stBadconv
    else if egSrc d % 4 ≠ 0 ∨ egDst d % 4 ≠ 0 then .now stBaddesc
    else withBar p x fun b =>
      let n := egCount d
      .go s { newOp .coll p x b d with
        rd := rangeIf true (egSrc d) (tensorLen t (xd.any (·.srcScaled)) n (egSrc d))
        wr := rangeIf true (egDst d) (codeBytes t false (n * if opc = 0 then members.length else 1)) } .done

/-- The checks of `cmpr` (17 R426, R434). A page fault on DADDR holds the operation, whose surface is checked behind it. -/
def cmprCheck (x : EngF) (s : State) (p : Place) (d : BitVec 256) : EngCheck :=
  if bits d 255 224 ≠ 0 ∨ bits d 191 128 ≠ 0 ∨ egSrc d % 128 ≠ 0 ∨ egDst d % 128 ≠ 0 then .now stBaddesc
  else
    let n := 128 * egCount d
    let o := { newOp .cmpr p x ((engBar p x).getD 0) d with rd := rangeIf true (egSrc d) n, wr := rangeIf true (egDst d) n }
    if ¬ canonicalVa (egDst d) then withBar p x fun _ => .go s o (.pin pinRegion (BitVec.ofNat 64 (egDst d)))
    else match translate s o.tlbs o.ctx (egDst d) .store with
    | .error kl => .go s { o with status := if engBar p x = none then stBarrier else 0 } (.page (egDst d) .store kl)
    | .ok (t, y) => match surfCheck t d y with
      | none => .now stBaddesc
      | some (i, n0) => withBar p x fun _ => .go t { o with surf := i, seq := n0 } .done

def execCopy (x : EngF) (s : State) : Host.Outcome State Fault Refusal := runEng x (copyCheck x) s
def execGath (x : EngF) (s : State) : Host.Outcome State Fault Refusal := runEng x (gsCheck false x) s
def execScat (x : EngF) (s : State) : Host.Outcome State Fault Refusal := runEng x (gsCheck true x) s
def execColl (x : EngF) (s : State) : Host.Outcome State Fault Refusal := runEng x (collCheck x) s
def execCmpr (x : EngF) (s : State) : Host.Outcome State Fault Refusal := runEng x (cmprCheck x) s

def execEngineOpStarts (op : Nat) (s : State) : Host.Outcome State Fault Refusal := .next (engineOpStarts op s)
def execEngineOpCompletes (op : Nat) (s : State) : Host.Outcome State Fault Refusal := .next (engineOpCompletes op s)
def execCollCreditGrant (r : Grant) (s : State) : Host.Outcome State Fault Refusal := .next (collCreditGrant r s)
def execCollDataArrives (group rank seq : Nat) (data : List Byte) (s : State) : Host.Outcome State Fault Refusal :=
  .next (collDataArrives group rank seq data s)

end Sys2Proof.Machine
end

