-- ==== Sys2Proof/Machine/IntAlu.lean ====
section
/-! DEFINITION. Integer arithmetic, logic, shifts, moves and comparisons (13 R334 to R350). -/

namespace Sys2Proof.Machine

/-! ## Element results (13 R338 to R342) -/

def addE (sat : Bool) (t : Ty) (a b : Nat) : Nat := elemResult t sat (intOf t a + intOf t b)
def subE (sat : Bool) (t : Ty) (a b : Nat) : Nat := elemResult t sat (intOf t a - intOf t b)
def mulE (sat : Bool) (t : Ty) (a b : Nat) : Nat := elemResult t sat (intOf t a * intOf t b)
/-- The upper half of the exact product. -/
def mulhE (t : Ty) (a b : Nat) : Nat := elemResult t false (intOf t a * intOf t b / 2 ^ t.width)
def divE (sat : Bool) (t : Ty) (a b : Nat) : Nat := elemResult t sat (quotOf t (intOf t a) (intOf t b))
def remE (t : Ty) (a b : Nat) : Nat := elemResult t false (remOf (intOf t a) (intOf t b))
def minE (t : Ty) (a b : Nat) : Nat := if intOf t b < intOf t a then b else a
def maxE (t : Ty) (a b : Nat) : Nat := if intOf t a < intOf t b then b else a
def andE (a b : Nat) : Nat := a &&& b
def orE (a b : Nat) : Nat := a ||| b
def xorE (a b : Nat) : Nat := a ^^^ b
/-- NOT within the element. -/
def notE (t : Ty) (a : Nat) : Nat := 2 ^ t.width - 1 - a % 2 ^ t.width
def andnE (t : Ty) (a b : Nat) : Nat := a &&& notE t b
/-- The shifts of 13 R340: c is the unsigned element of b. -/
def shlE (t : Ty) (a c : Nat) : Nat := if c < t.width then a * 2 ^ c % 2 ^ t.width else 0
def shrE (t : Ty) (a c : Nat) : Nat := if c < t.width then a / 2 ^ c else 0
def sraE (t : Ty) (a c : Nat) : Nat :=
  let x : Int := if 2 ^ (t.width - 1) ≤ a then (a : Int) - 2 ^ t.width else a
  wrapTo t.width (x / 2 ^ (if c < t.width then c else t.width))
def rolE (t : Ty) (a c : Nat) : Nat :=
  let r := c % t.width
  a * 2 ^ r % 2 ^ t.width + a / 2 ^ (t.width - r)

def absE (sat : Bool) (t : Ty) (a : Nat) : Nat := elemResult t sat (intOf t a).natAbs
def negE (sat : Bool) (t : Ty) (a : Nat) : Nat := elemResult t sat (-(intOf t a))
def clzE (t : Ty) (a : Nat) : Nat := if a = 0 then t.width else t.width - 1 - Nat.log2 a
def ctzE (t : Ty) (a : Nat) : Nat := ((List.range t.width).find? fun k => a.testBit k).getD t.width
def popcE (t : Ty) (a : Nat) : Nat := ((List.range t.width).filter fun k => a.testBit k).length
def brevE (t : Ty) (a : Nat) : Nat :=
  (List.range t.width).foldl (fun n j => if a.testBit j then n + 2 ^ (t.width - 1 - j) else n) 0
def madE (sat : Bool) (t : Ty) (a b c : Nat) : Nat := elemResult t sat (intOf t a * intOf t b + intOf t c)

/-! ## Forms -/

/-- A short form: I32 (12 R315). -/
def short2 (x : Sh3) (f : Ty → Nat → Nat → Nat) (s : State) : Host.Outcome State Fault Refusal :=
  runAlu 0 x.h [srcOf .i32 x.a, srcOf .i32 x.b] x.d 1 (pureFn (map2 .i32 (f .i32))) s

/-- An XI form: I32 with the immediate as second source in every lane. -/
def immForm (x : ImmF) (f : Ty → Nat → Nat → Nat) (s : State) : Host.Outcome State Fault Refusal :=
  runAlu 0 x.h [srcOf .i32 x.a] x.d 1 (pureFn (map1 .i32 fun a => f .i32 a x.imm.toNat)) s

def bin (x : Bin) (f : Ty → Nat → Nat → Nat) (s : State) : Host.Outcome State Fault Refusal :=
  runAlu 0 x.h [srcOf x.ty x.a, srcOf x.ty x.b] x.d x.ty.regs (pureFn (map2 x.ty (f x.ty))) s

def un (x : Un) (f : Ty → Nat → Nat) (s : State) : Host.Outcome State Fault Refusal :=
  runAlu 0 x.h [srcOf x.ty x.a] x.d x.ty.regs (pureFn (map1 x.ty (f x.ty))) s

def tern (x : Tern) (f : Ty → Nat → Nat → Nat → Nat) (s : State) : Host.Outcome State Fault Refusal :=
  runAlu 0 x.h [srcOf x.ty x.a, srcOf x.ty x.b, srcOf x.ty x.c] x.d x.ty.regs (pureFn (map3 x.ty (f x.ty))) s

/-! ## Meanings -/

def execAdd (x : Sh3) (s : State) : Host.Outcome State Fault Refusal := short2 x (addE false) s
def execSub (x : Sh3) (s : State) : Host.Outcome State Fault Refusal := short2 x (subE false) s
def execAnd (x : Sh3) (s : State) : Host.Outcome State Fault Refusal := short2 x (fun _ => andE) s
def execOr (x : Sh3) (s : State) : Host.Outcome State Fault Refusal := short2 x (fun _ => orE) s
def execXor (x : Sh3) (s : State) : Host.Outcome State Fault Refusal := short2 x (fun _ => xorE) s
def execShl (x : Sh3) (s : State) : Host.Outcome State Fault Refusal := short2 x shlE s
def execShr (x : Sh3) (s : State) : Host.Outcome State Fault Refusal := short2 x shrE s
def execSra (x : Sh3) (s : State) : Host.Outcome State Fault Refusal := short2 x sraE s
def execAddImm (x : ImmF) (s : State) : Host.Outcome State Fault Refusal := immForm x (addE false) s
def execAndImm (x : ImmF) (s : State) : Host.Outcome State Fault Refusal := immForm x (fun _ => andE) s
def execOrImm (x : ImmF) (s : State) : Host.Outcome State Fault Refusal := immForm x (fun _ => orE) s
def execXorImm (x : ImmF) (s : State) : Host.Outcome State Fault Refusal := immForm x (fun _ => xorE) s
def execAddXm (x : Bin) (s : State) : Host.Outcome State Fault Refusal := bin x (addE false) s
def execSubXm (x : Bin) (s : State) : Host.Outcome State Fault Refusal := bin x (subE false) s
def execMul (x : Bin) (s : State) : Host.Outcome State Fault Refusal := bin x (mulE false) s
def execMulh (x : Bin) (s : State) : Host.Outcome State Fault Refusal := bin x mulhE s
def execDiv (x : Bin) (s : State) : Host.Outcome State Fault Refusal := bin x (divE false) s
def execRem (x : Bin) (s : State) : Host.Outcome State Fault Refusal := bin x remE s
def execMin (x : Bin) (s : State) : Host.Outcome State Fault Refusal := bin x minE s
def execMax (x : Bin) (s : State) : Host.Outcome State Fault Refusal := bin x maxE s
def execAndXm (x : Bin) (s : State) : Host.Outcome State Fault Refusal := bin x (fun _ => andE) s
def execOrXm (x : Bin) (s : State) : Host.Outcome State Fault Refusal := bin x (fun _ => orE) s
def execXorXm (x : Bin) (s : State) : Host.Outcome State Fault Refusal := bin x (fun _ => xorE) s
def execAndn (x : Bin) (s : State) : Host.Outcome State Fault Refusal := bin x andnE s
def execShlXm (x : Bin) (s : State) : Host.Outcome State Fault Refusal := bin x shlE s
def execShrXm (x : Bin) (s : State) : Host.Outcome State Fault Refusal := bin x shrE s
def execSraXm (x : Bin) (s : State) : Host.Outcome State Fault Refusal := bin x sraE s
def execRol (x : Bin) (s : State) : Host.Outcome State Fault Refusal := bin x rolE s
def execAddSat (x : Bin) (s : State) : Host.Outcome State Fault Refusal := bin x (addE true) s
def execSubSat (x : Bin) (s : State) : Host.Outcome State Fault Refusal := bin x (subE true) s
def execMulSat (x : Bin) (s : State) : Host.Outcome State Fault Refusal := bin x (mulE true) s
def execDivSat (x : Bin) (s : State) : Host.Outcome State Fault Refusal := bin x (divE true) s
def execAbs (x : Un) (s : State) : Host.Outcome State Fault Refusal := un x (absE false) s
def execNeg (x : Un) (s : State) : Host.Outcome State Fault Refusal := un x (negE false) s
def execNot (x : Un) (s : State) : Host.Outcome State Fault Refusal := un x notE s
def execClz (x : Un) (s : State) : Host.Outcome State Fault Refusal := un x clzE s
def execCtz (x : Un) (s : State) : Host.Outcome State Fault Refusal := un x ctzE s
def execPopc (x : Un) (s : State) : Host.Outcome State Fault Refusal := un x popcE s
def execBrev (x : Un) (s : State) : Host.Outcome State Fault Refusal := un x brevE s
def execAbsSat (x : Un) (s : State) : Host.Outcome State Fault Refusal := un x (absE true) s
def execNegSat (x : Un) (s : State) : Host.Outcome State Fault Refusal := un x (negE true) s
def execMad (x : Tern) (s : State) : Host.Outcome State Fault Refusal := tern x (madE false) s
def execMadSat (x : Tern) (s : State) : Host.Outcome State Fault Refusal := tern x (madE true) s

/-- The words of the first source. -/
def same (vs : List (List Word)) : List Word := vs.getD 0 []

/-- `mov` (13 R348): the short form moves one word, the XM form a word or a pair. -/
def execMov (x : Sh2) (s : State) : Host.Outcome State Fault Refusal :=
  runAlu 0 x.h [srcOf .i32 x.a] x.d 1 (pureFn same) s
def execMovXm (x : Un) (s : State) : Host.Outcome State Fault Refusal :=
  runAlu 0 x.h [srcOf x.ty x.a] x.d x.ty.regs (pureFn same) s

/-- `movi` (13 R349). -/
def execMovi (x : MoviF) (s : State) : Host.Outcome State Fault Refusal :=
  runAlu 0 x.h [] x.d 1 (pureFn fun _ => [x.imm]) s

/-- Sums and carry of `addc` in one lane (13 R344): each element takes the carry-in, the carry-outs are ORed. -/
def addcLane (t : Ty) (cin : Bool) (vs : List (List Word)) : List Word × Bool :=
  let sums := List.zipWith (fun a b => a + b + (if cin then 1 else 0)) (elemsOf t (vs.getD 0 []))
    (elemsOf t (vs.getD 1 []))
  (packElems t sums, sums.any (carryOut t.width))

/-- `addc` (13 R344). With U = 1 the carry-in is the lowest active lane's bit (01 R38; log 23). -/
def execAddc (x : AddcF) (s : State) : Host.Outcome State Fault Refusal :=
  let srcs := [srcOf x.ty x.a, srcOf x.ty x.b]
  settle s fun p i => withOperands s p i x.h.g srcs [(x.d, x.ty.regs)] fun active =>
    let out (l : Nat) :=
      let l := laneFor x.h active l
      addcLane x.ty ((p.w.getP x.ci).getLsbD l) (srcVals s p l [] srcs)
    let s := (s.consume p (readLanes x.h active) srcs).writeOp p active x.d fun l => (out l).1
    .ok ((s.modWarp p.key fun w => w.writeP x.co active
      (maskOf ((lanesOf active).filter fun l => (out l).2))).retire i)

/-- `bfx` (13 R345): the field, sign-extended for I types. -/
def bfxE (t : Ty) (pos w1 : Nat) (a : Nat) : Nat :=
  let w := w1 + 1
  let f := a / 2 ^ pos % 2 ^ w
  if t.signed ∧ 2 ^ w1 ≤ f then wrapTo t.width ((f : Int) - 2 ^ w) else f
def execBfx (x : BfxF) (s : State) : Host.Outcome State Fault Refusal :=
  runAlu 0 x.h [srcOf x.ty x.a] x.d x.ty.regs (pureFn (map1 x.ty (bfxE x.ty x.pos.val x.wid1.val))) s

/-- `bfi` (13 R345): a with the field replaced by the low bits of b. -/
def bfiE (pos w1 : Nat) (a b : Nat) : Nat :=
  let w := w1 + 1
  a % 2 ^ pos + (b % 2 ^ w) * 2 ^ pos + a / 2 ^ (pos + w) * 2 ^ (pos + w)
def execBfi (x : BfiF) (s : State) : Host.Outcome State Fault Refusal :=
  runAlu 0 x.h [srcOf x.ty x.a, srcOf x.ty x.b] x.d x.ty.regs (pureFn (map2 x.ty (bfiE x.pos.val x.wid1.val))) s

/-- `sel` (13 R346): the whole word or pair of a or of b. -/
def execSel (x : SelF) (s : State) : Host.Outcome State Fault Refusal :=
  runAlu 0 x.h [srcOf x.ty x.a, srcOf x.ty x.b] x.d x.ty.regs
    (fun p l vs => (vs.getD (if (p.w.getP x.p).getLsbD l != x.neg then 0 else 1) [], Counts.none)) s

/-- `lea` (13 R347). -/
def leaWords (t : Ty) (sh : Nat) (vs : List (List Word)) : List Word :=
  natWords 2 (wrapTo 64 (wordsNat (vs.getD 0 []) + intOf t (wordsNat (vs.getD 1 [])) * 2 ^ sh))
def execLea (x : LeaF) (s : State) : Host.Outcome State Fault Refusal :=
  runAlu 0 x.h [srcPair x.x, srcOf x.ty x.b] x.d 2 (pureFn (leaWords x.ty x.sh.val)) s

/-- `cmp` (13 R350): the condition holds in every element. -/
def cmpLane (c : Cond) (t : Ty) (vs : List (List Word)) : Bool :=
  (List.zip (elemsOf t (vs.getD 0 [])) (elemsOf t (vs.getD 1 []))).all fun ab =>
    condHolds c (intOf t ab.1) (intOf t ab.2)
def execCmp (x : CmpF) (s : State) : Host.Outcome State Fault Refusal :=
  runTest x.h [srcOf x.ty x.a, srcOf x.ty x.b] x.pd (fun _ _ vs => cmpLane x.cond x.ty vs) s

end Sys2Proof.Machine
end

