-- ==== Sys2Proof/Machine/Lane.lean ====
section
/-! DEFINITION. Lane operations (14 R384, R385): moves of values between lanes, reductions and scans. -/

namespace Sys2Proof.Machine

/-- The words a lane supplies to a shuffle: an inactive lane its current value; a port gives an inactive lane no
popped value, so there the value is free (log 24). -/
def shuffled (s : State) (p : Place) (active : LaneMask) (a : Src) (before : List Src) (dest j : Nat) : List Word :=
  match a.o with
  | .port _ =>
    if active.getLsbD j then ((srcVals s p j before [a]).headD [])
    else (List.range a.n).map fun k => Config.freeWord (s.fresh + 2 * dest + k)
  | _ => (srcVals s p j before [a]).headD []

/-- A shuffle of groups of n registers: `src m b i` is the source lane of lane i, given the active lanes and the
word of b by lane. -/
def shuffle (g : Guard) (n : Nat) (d : Operand) (a b : Src)
    (src : LaneMask → (Nat → Nat) → Nat → Nat) (s : State) : Host.Outcome State Fault Refusal :=
  settle s fun p i => withOperands s p i g [a, b] [(d, n)] fun active =>
    let bw (l : Nat) : Nat := wordsNat ((srcVals s p l [] [a, b]).getD 1 []) % 32
    let t := { s.consume p active [a, b] with fresh := s.fresh + 64 }
    .ok ((t.writeOp p active d fun l => shuffled s p active a [] l (src active bw l)).retire i)

/-- A shuffle by lane number (14 R384). A constant b is the plain integer k whatever the type, which 14 R384 says changes
nothing (DESIGN CHOICE, log 22). -/
def shflForm (x : ShflF) (src : LaneMask → (Nat → Nat) → Nat → Nat) (s : State) : Host.Outcome State Fault Refusal :=
  shuffle x.g 1 x.d (srcOf x.ty x.a) (src1 x.b) src s

def execShflSel (x : ShflF) (s : State) : Host.Outcome State Fault Refusal := shflForm x (fun _ b i => b i) s
def execShflLo (x : ShflF) (s : State) : Host.Outcome State Fault Refusal :=
  shflForm x (fun _ b i => if i < b i then i else i - b i) s
def execShflHi (x : ShflF) (s : State) : Host.Outcome State Fault Refusal :=
  shflForm x (fun _ b i => if 31 < i + b i then i else i + b i) s
def execShflFlip (x : ShflF) (s : State) : Host.Outcome State Fault Refusal := shflForm x (fun _ b i => i ^^^ b i) s
def execBcast (x : ShflF) (s : State) : Host.Outcome State Fault Refusal := shflForm x (fun m b _ => b (lowLane m)) s

/-! ## Reductions (14 R385) -/

def redOp (t : Ty) (op : RedOp) (a b : Nat) : Nat :=
  match op with
  | .add => if t = .f32 then faddE false .rne .f32 a b else elemResult t false (intOf t a + intOf t b)
  | .min => if t = .f32 then fmtF32.minMax false a b else if intOf t b < intOf t a then b else a
  | .max => if t = .f32 then fmtF32.minMax true a b else if intOf t a < intOf t b then b else a
  | .and => a &&& b
  | .or => a ||| b
  | .xor => a ^^^ b

def redIdentity (t : Ty) : RedOp → Nat
  | .add | .or | .xor => 0
  | .min => if t = .f32 then fmtF32.infCode else wrapTo 32 (tyMax t)
  | .max => if t = .f32 then fmtF32.signed true fmtF32.infCode else wrapTo 32 (tyMin t)
  | .and => 2 ^ 32 - 1

/-- The operation folded in ascending order over lanes; `none` for no lane. -/
def foldLanes (t : Ty) (op : RedOp) (v : Nat → Nat) : List Nat → Option Nat
  | [] => none
  | l :: ls => some (ls.foldl (fun acc l => redOp t op acc (v l)) (v l))

def execLred (x : LredF) (s : State) : Host.Outcome State Fault Refusal :=
  runCross x.g [srcOf x.ty x.a] x.d 1 (fun active vals =>
    let r := (foldLanes x.ty x.op (fun l => firstNat (vals l)) (lanesOf active)).getD 0
    (fun _ => [BitVec.ofNat 32 r], Counts.none)) s

def execLscan (x : LscanF) (s : State) : Host.Outcome State Fault Refusal :=
  runCross x.g [srcOf x.ty x.a] x.d 1 (fun active vals =>
    (fun i =>
      let ls := (lanesOf active).filter fun l => if x.excl then decide (l < i) else decide (l ≤ i)
      [BitVec.ofNat 32 ((foldLanes x.ty x.op (fun l => firstNat (vals l)) ls).getD (redIdentity x.ty x.op))],
      Counts.none)) s

end Sys2Proof.Machine
end

