-- ==== Sys2Proof/Machine/LoadStore.lean ====
section
/-! DEFINITION. Loads and stores (15 R390, R391), read-modify-writes (15 R393 to R395), `sig` (15 R400), and the
retired `ld.nc` is in Retired.lean. -/

namespace Sys2Proof.Machine

def execLd (x : LdF) (s : State) : Host.Outcome State Fault Refusal := runMem (ldOp x (.load false) false) (.ld x) s
/-- `ld.poll` demotes its lanes at every execution. -/
def execLdPoll (x : LdF) (s : State) : Host.Outcome State Fault Refusal :=
  runMem (ldOp x (.load true) false) (.ldPoll x) s
/-- `ldu`: one load of the lowest active lane's address. -/
def execLdu (x : LdF) (s : State) : Host.Outcome State Fault Refusal := runMem (ldOp x (.load false) true) (.ldu x) s
def execSt (x : StF) (s : State) : Host.Outcome State Fault Refusal := runMem (stOp x false) (.st x) s
/-- `stu`: one store of the lowest active lane. -/
def execStu (x : StF) (s : State) : Host.Outcome State Fault Refusal := runMem (stOp x true) (.stu x) s

def execAtomAdd (x : AtomF) (s : State) : Host.Outcome State Fault Refusal := runMem (atomOp x (.rmw .add)) (.atomAdd x) s
def execAtomSub (x : AtomF) (s : State) : Host.Outcome State Fault Refusal := runMem (atomOp x (.rmw .sub)) (.atomSub x) s
def execAtomMin (x : AtomF) (s : State) : Host.Outcome State Fault Refusal := runMem (atomOp x (.rmw .min)) (.atomMin x) s
def execAtomMax (x : AtomF) (s : State) : Host.Outcome State Fault Refusal := runMem (atomOp x (.rmw .max)) (.atomMax x) s
def execAtomAnd (x : AtomF) (s : State) : Host.Outcome State Fault Refusal := runMem (atomOp x (.rmw .and)) (.atomAnd x) s
def execAtomOr (x : AtomF) (s : State) : Host.Outcome State Fault Refusal := runMem (atomOp x (.rmw .or)) (.atomOr x) s
def execAtomXor (x : AtomF) (s : State) : Host.Outcome State Fault Refusal := runMem (atomOp x (.rmw .xor)) (.atomXor x) s
def execAtomExch (x : AtomF) (s : State) : Host.Outcome State Fault Refusal := runMem (atomOp x (.rmw .exch)) (.atomExch x) s
/-- `cas`: the lanes that fail are demoted. -/
def execCas (x : CasF) (s : State) : Host.Outcome State Fault Refusal := runMem (casOp x) (.cas x) s
/-- `ldr`: a load that sets the lane's reservation. -/
def execLdr (x : LdF) (s : State) : Host.Outcome State Fault Refusal := runMem (ldOp x .ldr false) (.ldr x) s
def execStc (x : AtomF) (s : State) : Host.Outcome State Fault Refusal := runMem (atomOp x .stc) (.stc x) s
/-- `sig`: signal := signal + V, a release, counted until acknowledged. -/
def execSig (x : SigF) (s : State) : Host.Outcome State Fault Refusal := runMem (sigOp x) (.sig x) s

end Sys2Proof.Machine
end

