-- ==== Sys2Proof/Machine/LogTern.lean ====
section
/-! DEFINITION. Logarithmic operations (14 R372, R373), ternary dot products and stochastic streams
(14 R374 to R376). -/

namespace Sys2Proof.Machine

/-! ## Logarithmic -/

/-- A logarithmic form: elements, and the clamps and flushes counted in `%lsat` (02 R69, R89). -/
def logForm (x : LBin) (f : Ty → Bool → Nat → Nat → Nat × Nat) (s : State) : Host.Outcome State Fault Refusal :=
  runAlu 0 x.h [srcOf x.ty x.a, srcOf x.ty x.b] x.d 1 (fun _ _ vs =>
    let rs := List.zipWith (f x.ty x.nan) (elemsOf x.ty (vs.getD 0 [])) (elemsOf x.ty (vs.getD 1 []))
    (packElems x.ty (rs.map (·.1)), ⟨(rs.map (·.2)).foldl (· + ·) 0, 0, 0, 0⟩)) s

def execLmul (x : LBin) (s : State) : Host.Outcome State Fault Refusal :=
  logForm x (fun t nan => lMulDiv t false nan) s
def execLdiv (x : LBin) (s : State) : Host.Outcome State Fault Refusal :=
  logForm x (fun t nan => lMulDiv t true nan) s
def execLadd (x : LBin) (s : State) : Host.Outcome State Fault Refusal :=
  logForm x (fun t nan => lAdd t false nan) s
def execLsub (x : LBin) (s : State) : Host.Outcome State Fault Refusal :=
  logForm x (fun t nan => lAdd t true nan) s

/-! ## Ternary (14 R374) -/

/-- An I32 sum that leaves the range wraps and counts one (02 R83, R87). -/
def addWrap (s x : Int) : Int × Nat :=
  let y := s + x
  let w : Int := intOf .i32 (wrapTo 32 y)
  (w, if w = y then 0 else 1)

/-- The accumulation of `tdot` in ascending element order: the sum and its wraps. -/
def tdotSum (ws xs : List Nat) (c : Int) : Int × Nat :=
  (List.zip ws xs).foldl (fun (acc : Int × Nat) wx =>
    let r := addWrap acc.1 (t2Val wx.1 * intOf .i8 wx.2)
    (r.1, acc.2 + r.2)) (c, 0)

def tdotLane (vs : List (List Word)) : List Word × Counts :=
  let ws := elemsOf .t2 (vs.getD 0 [])
  let r := tdotSum ws (splitElems 8 16 (wordsNat (vs.getD 1 []))) (intOf .i32 (wordsNat (vs.getD 2 [])))
  ([BitVec.ofInt 32 r.1], ⟨0, t2Bad ws, r.2, 0⟩)

def execTdot (x : TdotF) (s : State) : Host.Outcome State Fault Refusal :=
  runAlu 2 x.h [srcOf .t2 x.a, ⟨x.b, 4, []⟩, srcOf .i32 x.c] x.d 1 (fun _ _ vs => tdotLane vs) s

/-! ## Streams (14 R375, R376) -/

/-- `smul`: the sum of four stochastic products. -/
def smulLane (key n lane : Nat) (vs : List (List Word)) : List Word :=
  let xs := (elemsOf .i8 (vs.getD 0 [])).map (intOf .i8)
  let ys := (elemsOf .i8 (vs.getD 1 [])).map (intOf .i8)
  let r := ((List.zip xs ys).zipIdx).foldl (fun (acc : Int) ae =>
    acc + streamMul n key lane ae.2 lane ae.2 ae.1.1 ae.1.2) 0
  [BitVec.ofInt 32 r]

def execSmul (x : SmulF) (s : State) : Host.Outcome State Fault Refusal :=
  runAlu 2 x.h [srcOf .i8 x.a, srcOf .i8 x.b] x.d 1
    (fun p l vs => (smulLane p.gr.sckey x.n.val l vs, Counts.none)) s

/-- `sgen`: 32 bits of a stream from its start index. -/
def sgenLane (key n lane : Nat) (w : Word) : Word :=
  let i0 := bits w 31 16
  let j := bits w 8 8
  let k := streamMag n (intOf .i8 (bits w 7 0))
  let s0 := lfsrAt (lfsrTaps j) i0 (streamSeed key lane (bits w 10 9) j)
  BitVec.ofNat 32 (go n k (lfsrTaps j) 32 i0 s0)
where
  /-- The bits from index i on; those at 2^n or beyond are 0. -/
  go (n k taps : Nat) : Nat → Nat → Nat → Nat
    | 0, _, _ => 0
    | m + 1, i, s =>
      (if decide (i < 2 ^ n) && streamBit n k s then 1 else 0) + 2 * go n k taps m (i + 1) (lfsrStep taps s)

def execSgen (x : SgenF) (s : State) : Host.Outcome State Fault Refusal :=
  runAlu 1 x.h [srcOf .i8 x.a] x.d 1
    (fun p l vs => ([sgenLane p.gr.sckey x.n.val l ((vs.getD 0 []).headD 0#32)], Counts.none)) s

end Sys2Proof.Machine
end

