-- ==== Sys2Proof/Machine/Retired.lean ====
section
/-! DEFINITION. The instructions that version 3 retires (05 R153, R154; 12 R322 to R325): native or microcoded ones
run, a trapped one raises RETIRED, a removed one ILLEGAL; each attempt is counted once per path. -/

namespace Sys2Proof.Machine

/-- An attempt at a retired instruction counts in `%lad` of its rung, unless `%ladsel` selects another position of
the ladder (05 R154). -/
def State.countLadder (s : State) (core rung pos : Nat) : State :=
  s.modCore core fun c =>
    if c.ladsel = 0#32 ∨ c.ladsel.toNat = pos then { c with lad := c.lad.set rung (c.lad.getD rung 0#32 + 1#32) } else c

/-- A path that executes its instruction counts it. -/
def laddered (rung pos : Nat) (f : State → Place → Issue → Except Stop State) (s : State) :
    Host.Outcome State Fault Refusal :=
  settle s fun p i => match f s p i with
    | .ok t => .ok (t.countLadder p.t.core rung pos)
    | .error e => .error e

/-- A path that a retired instruction traps counts the attempt. -/
def ladderTrap (rung pos : Nat) (c : Cause) (s : State) : Host.Outcome State Fault Refusal :=
  settle s fun p i => .ok ((takeTrap s p i c 0 i.path 0#64).countLadder p.t.core rung pos)

/-- `vote.cnt`, position 1, rung 0. -/
def execVoteCnt (x : VoteM) (s : State) : Host.Outcome State Fault Refusal :=
  laddered 0 1 (fun s p i => withOperands s p i x.g [] [(x.d, 1)] fun active =>
    .ok ((s.writeOp p active x.d fun _ => [BitVec.ofNat 32 (popCount (p.w.getP x.ps &&& active))]).retire i)) s

/-- `ffma.unf`, position 2, rung 1. -/
def execFfmaUnf (x : FTern) (s : State) : Host.Outcome State Fault Refusal :=
  let srcs := [srcOf x.ty x.a, srcOf x.ty x.b, srcOf x.ty x.c]
  laddered 1 2 (fun s p i => withOperands s p i x.h.g srcs [(x.d, 1)] fun active =>
    .ok (aluResult s p i x.h srcs x.d (pureFn (map3 x.ty (ffmaUnfE x.rm x.ty))) active)) s

/-- `shfl.wide`, position 3, rung 1: pairs move between lanes. -/
def execShflWide (x : WideF) (s : State) : Host.Outcome State Fault Refusal :=
  let a : Src := ⟨x.a, 2, srcT .n64 x.a⟩
  laddered 1 3 (fun s p i => withOperands s p i x.g [a, src1 x.b] [(x.d, 2)] fun active =>
    let j (l : Nat) : Nat := wordsNat ((srcVals s p l [] [a, src1 x.b]).getD 1 []) % 32
    let t := { s.consume p active [a, src1 x.b] with fresh := s.fresh + 64 }
    .ok ((t.writeOp p active x.d fun l => shuffled s p active a [] l (j l)).retire i)) s

/-- `ld.nc`, position 4, rung 2. -/
def execLdNc (_x : LdF) (s : State) : Host.Outcome State Fault Refusal := ladderTrap 2 4 .retired s

/-- `mma.tf32`, position 5, rung 3. -/
def execMmaTf32 (_x : Tf32F) (s : State) : Host.Outcome State Fault Refusal := ladderTrap 3 5 .illegal s

end Sys2Proof.Machine
end

