-- ==== Sys2Proof/Machine/Returns.lean ====
section
/-! DEFINITION. What comes back to a warp: accesses of the operand log (01 R51, R52; 06 R168, R169; 11 R274),
port entries (09 R219 to R221), service replies (06 R179), and the periodic test of `sigw` (15 R401). -/

namespace Sys2Proof.Machine

/-! ## The operand log -/

/-- The access of one lane of an entry, from the values that the entry holds. -/
def resumeLane (s : State) (p : Place) (e : LogEntry) (l : Nat) : Option LaneRes :=
  let v : LaneVals := ⟨e.addr.getD l 0#64, e.b.getD l 0#64, e.c.getD l 0#64⟩
  match e.instr with
  | .rst x => some (rstLane s p x.ty l (loWord v.va) (loWord v.c) v.b.toNat)
  | .rld x => some (rldLane s p x.ty (loWord v.va) (loWord v.c))
  | .tld x => some (tldLane s p x l v.va ((e.dead.getD 0 0#32).getLsbD l))
  | .tst x => some (tstLane s p x l v.va)
  | i => (memOpOf i).map fun o => o.lane s p l v

/-- The destination of an entry. -/
def resumeDst : Instr → Option Operand
  | .rld x => some x.d
  | i => (memOpOf i).bind (·.d)

/-- The lanes that complete with lane l, and whether the entry accesses in it: `ldu` and `stu` access in their
lowest active lane alone. -/
def resumeFin (e : LogEntry) (l : Nat) : LaneMask :=
  match memOpOf e.instr with
  | some o => if o.low then (if l = lowLane e.active then e.active else 0#32) else 1#32 <<< l
  | none => 1#32 <<< l

/-- The target that a remote entry holds for a lane. -/
def LogEntry.targetOf (e : LogEntry) (s : State) (p : Place) (l : Nat) : Target :=
  Machine.targetOf s p (loWord (e.addr.getD l 0#64)) (loWord (e.c.getD l 0#64))

/-- Two lanes of an entry meet (11 R276). -/
def entryMeets (s : State) (p : Place) (e : LogEntry) (a b : Nat) : Bool :=
  let spot (acc : AccKind) (n : Nat) : Bool := sameSpot s p acc n (e.addr.getD a 0#64) (e.addr.getD b 0#64)
  match e.instr with
  | .rst x => (e.targetOf s p a).meets s p .store (elemBytes x.ty) (e.targetOf s p b)
  | .rld x => (e.targetOf s p a).meets s p .load (elemBytes x.ty) (e.targetOf s p b)
  | .tst _ => spot .store 128
  | .tld _ => spot .load 128
  | i => (memOpOf i).any fun o => spot o.acc o.bytes

/-- An engine operation holds the bytes of a lane's access (11 R291). -/
def entryBusy (s : State) (p : Place) (e : LogEntry) (l : Nat) : Bool :=
  let va := e.addr.getD l 0#64
  match e.instr with
  | .rst x => (e.targetOf s p l).busy s (elemBytes x.ty) true
  | .rld x => (e.targetOf s p l).busy s (elemBytes x.ty) false
  | .tld _ => s.windowBusy p va.toNat 128 false
  | .tst _ => s.windowBusy p va.toNat 128 true
  | i => (memOpOf i).any fun o => s.windowBusy p va.toNat o.bytes o.writes

/-- The ready lanes of an entry, none of them ahead of a lower lane that waits at its location (11 R276), perform; a
lane may fault again, or pin the warp (06 R169; 18 R452). -/
def resumeEntry (s : State) (p : Place) (k : Nat) (e : LogEntry) : State :=
  let ready := laneOrder (entryMeets s p e) (lanesOf e.open)
    ((lanesOf (e.ready p.w.log k)).filter fun l => decide (resumeFin e l ≠ 0#32) && !entryBusy s p e l)
  if ready = [] then s
  else
    let s := if MemOrdRel (ordOf e.instr) then s.releaseHome p else s
    let r := (ready.foldl (fun (r : LaneRun) l => match resumeLane r.s p e l with
      | some res => r.step p (resumeDst e.instr) e.active (resumeFin e l) e.dead l (e.addr.getD l 0#64) res
      | none => r) ⟨s, 0#32, e.faults, none⟩).emit ready
    let done := e.done ||| r.done
    if done = e.active then r.s.modWarp p.key fun w => w.dropEntry k
    else
      let e1 : LogEntry := { e with done := done, faults := r.faults, pinned := e.pinned || r.pin.isSome }
      let s := r.s.modWarp p.key fun w => { w with log := w.log.put k e1 }
      match r.pin with
      | none => s
      | some (c, va) => s.pinWarp p e.path e.pc 8 false (p.pinCause c) va (some k)

/-- A fence is done in every lane in which no older access is open (15 R398). -/
def resumeFence (s : State) (p : Place) (k : Nat) (e : LogEntry) (o : MOrd) : State :=
  let s := if MemOrdRel o then s.releaseHome p else s
  let wait := openLanes (p.w.log.filter fun ke => ke.1 < k)
  let done := e.done ||| (e.active &&& ~~~ wait)
  s.modWarp p.key fun w => if done = e.active then w.dropEntry k else { w with log := w.log.put k { e with done := done } }

/-- A `sigw` whose page faults are served executes again (15 R401). -/
def resumeSigw (s : State) (p : Place) (k : Nat) (e : LogEntry) : State :=
  if e.faults ≠ [] then s
  else s.modWarp p.key fun w => { w with wake := w.wake.filter fun lw => decide (lw.2 ≠ .page k) }

/-- The warp that holds a slot of a core with a generation. -/
def slotWarp (s : State) (core slot gen : Nat) : Option (Nat × Warp) :=
  s.warps.find? fun kw => decide (kw.2.slot = slot) && decide (kw.2.gen.toNat = gen) &&
    (s.place? kw.1).any fun p => decide (p.t.core = core) && decide (p.g.st = .running)

/-- MEMORY_RETURN: data comes back to entry `idx` of the warp whose slot has the return's generation; a return
that no allotment matches is discarded and counted in `%stale` (01 R51). -/
def memoryReturn (core slot gen idx : Nat) (s : State) : State :=
  match slotWarp s core slot gen with
  | none =>
    let sg : Nat × BitVec 8 := (slot, BitVec.ofNat 8 gen)
    if (s.core core).outstandingGens.contains sg then
      s.modCore core fun c => { c with stale := c.stale + 1#32, outstandingGens := c.outstandingGens.erase sg }
    else s
  | some (w, _) => match s.place? w with
    | none => s
    | some p => match p.w.log.get? idx with
      | none => s
      | some e => match e.instr with
        | .fence x => resumeFence s p idx e x.ord
        | .sigw _ => resumeSigw s p idx e
        | .mmas x => mmasResume s p idx e x
        | i => if isReturn i then resumeEntry s p idx e else s

/-- STORE_PERFORMED: a store or read-modify-write of the operand log reaches its home agent (11 R274). -/
def storePerformed (warp idx : Nat) (s : State) : State :=
  match s.place? warp with
  | none => s
  | some p => match p.w.log.get? idx with
    | none => s
    | some e => if p.g.st ≠ .running ∨ isReturn e.instr then s else resumeEntry s p idx e

/-! ## Ports -/

/-- A path that waits for a port has an entry, or a link that brings no more, in every lane that was short. -/
def portReady (w : Warp) (q : Port) (m : LaneMask) : Bool :=
  (lanesOf m).all fun l => match w.wake.get? l with
    | some (.portRd r true) => decide (r ≠ q) || decide ((w.getFifo q l).q ≠ []) || decide ((w.getFifo q l).st ≠ 0)
    | _ => true

/-- Readers of a port whose path has what it waits for wake (06 R160 PORTRD). -/
def Warp.wakeReaders (w : Warp) (q : Port) : Warp :=
  w.groups.foldl (fun w km =>
    if portReady w q km.2 then w.unblock (maskOf ((lanesOf km.2).filter fun l => match w.wake.get? l with
      | some (.portRd r _) => decide (r = q)
      | _ => false)) else w) w

/-- A message at the head of its link reaches the FIFO: an entry joins the queue, a close or break changes an
open FIFO's state (09 R219 to R221). -/
def Fifo.take (f : Fifo) (m : PortMsg) : Fifo :=
  match m.entry with
  | some x => { f with q := f.q ++ [x] }
  | none => if f.st = 0 then { f with st := m.close } else f

/-- A `qd` binding of the warp is held up while one of its die links trains; what was pushed before a link went Down has
arrived ahead of the break (09 R217, R221). -/
def qdWaits (s : State) (warp : Nat) (q : Port) : Bool :=
  decide (q = .qd) && (qdLinks s (s.warpCore warp)).any fun l => (s.link l).st = .reset || (s.link l).st = .training

/-- PORT_DELIVERY: the oldest message on its way to the FIFO arrives. -/
def portDelivery (warp : Nat) (q : Port) (lane : Nat) (s : State) : State :=
  match s.flight.find? fun m => decide (m.warp = warp) && decide (m.p = q) && decide (m.lane = lane) with
  | none => s
  | some m =>
    if qdWaits s warp q then s
    else { s with flight := s.flight.erase m }.modWarp warp fun w =>
      (w.setFifo q lane ((w.getFifo q lane).take m)).wakeReaders q

/-! ## Service calls -/

/-- SVC_REPLY: the reply reaches the active lanes of the waiting path, also in a saved image (06 R179). Nothing
answers once both service cores have failed (18 R447); a full destination port keeps the reply waiting. -/
def svcReply (warp : Nat) (path : LaneMask) (reply : List Word) (s : State) : State :=
  match s.place? warp with
  | none => s
  | some p => match p.w.svcs.find? fun v => v.path = path with
    | none => s
    | some v =>
      let room : Bool := match v.d with
        | .port q => (lanesOf v.active).all fun l => s.portRoom p q l 1
        | _ => true
      if s.errs.svcFailed.all id || !room then s
      else
        let s := s.writeOp p v.active v.d fun l => [reply.getD l 0#32]
        ({ s with svcRing := s.svcRing.filter fun r => !(decide (r.warp = warp) && decide (r.mask = v.active)) }.modWarp warp
          fun w => { w with
            svcs := w.svcs.filter fun x => decide (x.path ≠ path)
            wake := w.wake.filter fun lw => !(decide (lw.2 = Wake.svc) && path.getLsbD lw.1) }).imageOfWarp warp

/-- SIGW_RETEST: a path that waits in `sigw` tests again (15 R401). -/
def sigwRetest (warp : Nat) (path : LaneMask) (s : State) : State :=
  s.modWarp warp fun w => { w with wake := w.wake.filter fun lw => !(lw.2.isSignal && path.getLsbD lw.1) }

def execMemoryReturn (core slot gen idx : Nat) (s : State) : Host.Outcome State Fault Refusal :=
  .next (memoryReturn core slot gen idx s)
def execStorePerformed (warp idx : Nat) (s : State) : Host.Outcome State Fault Refusal := .next (storePerformed warp idx s)
def execPortDelivery (warp : Nat) (q : Port) (lane : Nat) (s : State) : Host.Outcome State Fault Refusal :=
  .next (portDelivery warp q lane s)
def execSvcReply (warp : Nat) (path : LaneMask) (reply : List Word) (s : State) : Host.Outcome State Fault Refusal :=
  .next (svcReply warp path reply s)
def execSigwRetest (warp : Nat) (path : LaneMask) (s : State) : Host.Outcome State Fault Refusal :=
  .next (sigwRetest warp path s)

end Sys2Proof.Machine
end

