-- ==== Sys2Proof/Machine/Dispatch.lean ====
section
/-! DEFINITION. The one dispatch: what each instruction, event and command does. -/

namespace Sys2Proof.Machine

def exec (i : Instr) (s : State) : Host.Outcome State Fault Refusal :=
  match i with
  | .add x => Sys2Proof.Machine.execAdd x s
  | .sub x => Sys2Proof.Machine.execSub x s
  | .and x => Sys2Proof.Machine.execAnd x s
  | .or x => Sys2Proof.Machine.execOr x s
  | .xor x => Sys2Proof.Machine.execXor x s
  | .shl x => Sys2Proof.Machine.execShl x s
  | .shr x => Sys2Proof.Machine.execShr x s
  | .sra x => Sys2Proof.Machine.execSra x s
  | .mov x => Sys2Proof.Machine.execMov x s
  | .fadd x => Sys2Proof.Machine.execFadd x s
  | .fmul x => Sys2Proof.Machine.execFmul x s
  | .nop x => Sys2Proof.Machine.execNop x s
  | .exit x => Sys2Proof.Machine.execExit x s
  | .ret x => Sys2Proof.Machine.execRet x s
  | .yield x => Sys2Proof.Machine.execYield x s
  | .movi x => Sys2Proof.Machine.execMovi x s
  | .br x => Sys2Proof.Machine.execBr x s
  | .call x => Sys2Proof.Machine.execCall x s
  | .trap x => Sys2Proof.Machine.execTrap x s
  | .addImm x => Sys2Proof.Machine.execAddImm x s
  | .andImm x => Sys2Proof.Machine.execAndImm x s
  | .orImm x => Sys2Proof.Machine.execOrImm x s
  | .xorImm x => Sys2Proof.Machine.execXorImm x s
  | .addXm x => Sys2Proof.Machine.execAddXm x s
  | .subXm x => Sys2Proof.Machine.execSubXm x s
  | .mul x => Sys2Proof.Machine.execMul x s
  | .mulh x => Sys2Proof.Machine.execMulh x s
  | .div x => Sys2Proof.Machine.execDiv x s
  | .rem x => Sys2Proof.Machine.execRem x s
  | .min x => Sys2Proof.Machine.execMin x s
  | .max x => Sys2Proof.Machine.execMax x s
  | .andXm x => Sys2Proof.Machine.execAndXm x s
  | .orXm x => Sys2Proof.Machine.execOrXm x s
  | .xorXm x => Sys2Proof.Machine.execXorXm x s
  | .andn x => Sys2Proof.Machine.execAndn x s
  | .shlXm x => Sys2Proof.Machine.execShlXm x s
  | .shrXm x => Sys2Proof.Machine.execShrXm x s
  | .sraXm x => Sys2Proof.Machine.execSraXm x s
  | .rol x => Sys2Proof.Machine.execRol x s
  | .addSat x => Sys2Proof.Machine.execAddSat x s
  | .subSat x => Sys2Proof.Machine.execSubSat x s
  | .mulSat x => Sys2Proof.Machine.execMulSat x s
  | .divSat x => Sys2Proof.Machine.execDivSat x s
  | .abs x => Sys2Proof.Machine.execAbs x s
  | .neg x => Sys2Proof.Machine.execNeg x s
  | .not x => Sys2Proof.Machine.execNot x s
  | .clz x => Sys2Proof.Machine.execClz x s
  | .ctz x => Sys2Proof.Machine.execCtz x s
  | .popc x => Sys2Proof.Machine.execPopc x s
  | .brev x => Sys2Proof.Machine.execBrev x s
  | .movXm x => Sys2Proof.Machine.execMovXm x s
  | .absSat x => Sys2Proof.Machine.execAbsSat x s
  | .negSat x => Sys2Proof.Machine.execNegSat x s
  | .mad x => Sys2Proof.Machine.execMad x s
  | .madSat x => Sys2Proof.Machine.execMadSat x s
  | .addc x => Sys2Proof.Machine.execAddc x s
  | .bfx x => Sys2Proof.Machine.execBfx x s
  | .bfi x => Sys2Proof.Machine.execBfi x s
  | .sel x => Sys2Proof.Machine.execSel x s
  | .lea x => Sys2Proof.Machine.execLea x s
  | .cmp x => Sys2Proof.Machine.execCmp x s
  | .pand x => Sys2Proof.Machine.execPand x s
  | .por x => Sys2Proof.Machine.execPor x s
  | .pxor x => Sys2Proof.Machine.execPxor x s
  | .pnot x => Sys2Proof.Machine.execPnot x s
  | .pmovToPred x => Sys2Proof.Machine.execPmovToPred x s
  | .pmovFromPred x => Sys2Proof.Machine.execPmovFromPred x s
  | .pcnt x => Sys2Proof.Machine.execPcnt x s
  | .brx x => Sys2Proof.Machine.execBrx x s
  | .voteOr x => Sys2Proof.Machine.execVoteOr x s
  | .voteAnd x => Sys2Proof.Machine.execVoteAnd x s
  | .voteMask x => Sys2Proof.Machine.execVoteMask x s
  | .voteSame x => Sys2Proof.Machine.execVoteSame x s
  | .getpc x => Sys2Proof.Machine.execGetpc x s
  | .faddXm x => Sys2Proof.Machine.execFaddXm x s
  | .fsub x => Sys2Proof.Machine.execFsub x s
  | .fmulXm x => Sys2Proof.Machine.execFmulXm x s
  | .ffma x => Sys2Proof.Machine.execFfma x s
  | .fdiv x => Sys2Proof.Machine.execFdiv x s
  | .fmin x => Sys2Proof.Machine.execFmin x s
  | .fmax x => Sys2Proof.Machine.execFmax x s
  | .frnd x => Sys2Proof.Machine.execFrnd x s
  | .frcp x => Sys2Proof.Machine.execFrcp x s
  | .frsq x => Sys2Proof.Machine.execFrsq x s
  | .fsqrt x => Sys2Proof.Machine.execFsqrt x s
  | .fex2 x => Sys2Proof.Machine.execFex2 x s
  | .flg2 x => Sys2Proof.Machine.execFlg2 x s
  | .fsin x => Sys2Proof.Machine.execFsin x s
  | .fcos x => Sys2Proof.Machine.execFcos x s
  | .fcls x => Sys2Proof.Machine.execFcls x s
  | .fcmp x => Sys2Proof.Machine.execFcmp x s
  | .lmul x => Sys2Proof.Machine.execLmul x s
  | .ldiv x => Sys2Proof.Machine.execLdiv x s
  | .ladd x => Sys2Proof.Machine.execLadd x s
  | .lsub x => Sys2Proof.Machine.execLsub x s
  | .tdot x => Sys2Proof.Machine.execTdot x s
  | .smul x => Sys2Proof.Machine.execSmul x s
  | .sgen x => Sys2Proof.Machine.execSgen x s
  | .cvt x => Sys2Proof.Machine.execCvt x s
  | .mxq x => Sys2Proof.Machine.execMxq x s
  | .mxdq x => Sys2Proof.Machine.execMxdq x s
  | .zq x => Sys2Proof.Machine.execZq x s
  | .zdq x => Sys2Proof.Machine.execZdq x s
  | .tpk x => Sys2Proof.Machine.execTpk x s
  | .tunp x => Sys2Proof.Machine.execTunp x s
  | .shflSel x => Sys2Proof.Machine.execShflSel x s
  | .shflLo x => Sys2Proof.Machine.execShflLo x s
  | .shflHi x => Sys2Proof.Machine.execShflHi x s
  | .shflFlip x => Sys2Proof.Machine.execShflFlip x s
  | .bcast x => Sys2Proof.Machine.execBcast x s
  | .lred x => Sys2Proof.Machine.execLred x s
  | .lscan x => Sys2Proof.Machine.execLscan x s
  | .ld x => Sys2Proof.Machine.execLd x s
  | .ldPoll x => Sys2Proof.Machine.execLdPoll x s
  | .ldu x => Sys2Proof.Machine.execLdu x s
  | .st x => Sys2Proof.Machine.execSt x s
  | .stu x => Sys2Proof.Machine.execStu x s
  | .atomAdd x => Sys2Proof.Machine.execAtomAdd x s
  | .atomSub x => Sys2Proof.Machine.execAtomSub x s
  | .atomMin x => Sys2Proof.Machine.execAtomMin x s
  | .atomMax x => Sys2Proof.Machine.execAtomMax x s
  | .atomAnd x => Sys2Proof.Machine.execAtomAnd x s
  | .atomOr x => Sys2Proof.Machine.execAtomOr x s
  | .atomXor x => Sys2Proof.Machine.execAtomXor x s
  | .atomExch x => Sys2Proof.Machine.execAtomExch x s
  | .cas x => Sys2Proof.Machine.execCas x s
  | .ldr x => Sys2Proof.Machine.execLdr x s
  | .stc x => Sys2Proof.Machine.execStc x s
  | .rst x => Sys2Proof.Machine.execRst x s
  | .rld x => Sys2Proof.Machine.execRld x s
  | .fence x => Sys2Proof.Machine.execFence x s
  | .sfl x => Sys2Proof.Machine.execSfl x s
  | .sinv x => Sys2Proof.Machine.execSinv x s
  | .spf x => Sys2Proof.Machine.execSpf x s
  | .icinv x => Sys2Proof.Machine.execIcinv x s
  | .sig x => Sys2Proof.Machine.execSig x s
  | .sigw x => Sys2Proof.Machine.execSigw x s
  | .qstat x => Sys2Proof.Machine.execQstat x s
  | .qclose x => Sys2Proof.Machine.execQclose x s
  | .qpeek x => Sys2Proof.Machine.execQpeek x s
  | .mma x => Sys2Proof.Machine.execMma x s
  | .mmas x => Sys2Proof.Machine.execMmas x s
  | .mmsp x => Sys2Proof.Machine.execMmsp x s
  | .mloop x => Sys2Proof.Machine.execMloop x s
  | .mloopS x => Sys2Proof.Machine.execMloopS x s
  | .mloopSp x => Sys2Proof.Machine.execMloopSp x s
  | .tld x => Sys2Proof.Machine.execTld x s
  | .tst x => Sys2Proof.Machine.execTst x s
  | .ttr x => Sys2Proof.Machine.execTtr x s
  | .amov x => Sys2Proof.Machine.execAmov x s
  | .aset x => Sys2Proof.Machine.execAset x s
  | .azero x => Sys2Proof.Machine.execAzero x s
  | .ard x => Sys2Proof.Machine.execArd x s
  | .scb x => Sys2Proof.Machine.execScb x s
  | .scinv x => Sys2Proof.Machine.execScinv x s
  | .copy x => Sys2Proof.Machine.execCopy x s
  | .gath x => Sys2Proof.Machine.execGath x s
  | .scat x => Sys2Proof.Machine.execScat x s
  | .coll x => Sys2Proof.Machine.execColl x s
  | .cmpr x => Sys2Proof.Machine.execCmpr x s
  | .fwait x => Sys2Proof.Machine.execFwait x s
  | .ftest x => Sys2Proof.Machine.execFtest x s
  | .fcancel x => Sys2Proof.Machine.execFcancel x s
  | .arv x => Sys2Proof.Machine.execArv x s
  | .bwait x => Sys2Proof.Machine.execBwait x s
  | .bsync x => Sys2Proof.Machine.execBsync x s
  | .launch x => Sys2Proof.Machine.execLaunch x s
  | .svc x => Sys2Proof.Machine.execSvc x s
  | .rte x => Sys2Proof.Machine.execRte x s
  | .csrr x => Sys2Proof.Machine.execCsrr x s
  | .csrw x => Sys2Proof.Machine.execCsrw x s
  | .tokq x => Sys2Proof.Machine.execTokq x s
  | .hint x => Sys2Proof.Machine.execHint x s
  | .voteCnt x => Sys2Proof.Machine.execVoteCnt x s
  | .ffmaUnf x => Sys2Proof.Machine.execFfmaUnf x s
  | .shflWide x => Sys2Proof.Machine.execShflWide x s
  | .ldNc x => Sys2Proof.Machine.execLdNc x s
  | .mmaTf32 x => Sys2Proof.Machine.execMmaTf32 x s
  | .clauseEntry => Sys2Proof.Machine.execClauseEntry s
  | .clauseConditionsMet warp path => Sys2Proof.Machine.execClauseConditionsMet warp path s
  | .fairnessTimerExpires warp => Sys2Proof.Machine.execFairnessTimerExpires warp s
  | .fairnessPathEnds warp => Sys2Proof.Machine.execFairnessPathEnds warp s
  | .yieldEnds warp => Sys2Proof.Machine.execYieldEnds warp s
  | .reservationExpires warp lane => Sys2Proof.Machine.execReservationExpires warp lane s
  | .memoryReturn core slot gen idx => Sys2Proof.Machine.execMemoryReturn core slot gen idx s
  | .storePerformed warp idx => Sys2Proof.Machine.execStorePerformed warp idx s
  | .outstandingAck core grid => Sys2Proof.Machine.execOutstandingAck core grid s
  | .ontouchWriteback gang line => Sys2Proof.Machine.execOntouchWriteback gang line s
  | .portDelivery warp p lane => Sys2Proof.Machine.execPortDelivery warp p lane s
  | .svcReply warp path reply => Sys2Proof.Machine.execSvcReply warp path reply s
  | .sigwRetest warp path => Sys2Proof.Machine.execSigwRetest warp path s
  | .walkCompletes die core ctx va acc => Sys2Proof.Machine.execWalkCompletes die core ctx va acc s
  | .freplyRetry die fnum => Sys2Proof.Machine.execFreplyRetry die fnum s
  | .freplyHold die fnum => Sys2Proof.Machine.execFreplyHold die fnum s
  | .fringHeadWrite head => Sys2Proof.Machine.execFringHeadWrite head s
  | .warpBecomesCritical warp => Sys2Proof.Machine.execWarpBecomesCritical warp s
  | .poolRefill die cluster => Sys2Proof.Machine.execPoolRefill die cluster s
  | .revolution r => Sys2Proof.Machine.execRevolution r s
  | .slewBoundary die cluster => Sys2Proof.Machine.execSlewBoundary die cluster s
  | .matrixStepEnds core => Sys2Proof.Machine.execMatrixStepEnds core s
  | .mloopPly core seqId => Sys2Proof.Machine.execMloopPly core seqId s
  | .droopAlarm die cluster => Sys2Proof.Machine.execDroopAlarm die cluster s
  | .droopRationingEnds die cluster => Sys2Proof.Machine.execDroopRationingEnds die cluster s
  | .quiescePoint die cluster => Sys2Proof.Machine.execQuiescePoint die cluster s
  | .rampEnds die cluster => Sys2Proof.Machine.execRampEnds die cluster s
  | .barrierArrival bar => Sys2Proof.Machine.execBarrierArrival bar s
  | .releaseEnds bar => Sys2Proof.Machine.execReleaseEnds bar s
  | .exitReachesBarrier bar warp => Sys2Proof.Machine.execExitReachesBarrier bar warp s
  | .engineOpStarts op => Sys2Proof.Machine.execEngineOpStarts op s
  | .engineOpCompletes op => Sys2Proof.Machine.execEngineOpCompletes op s
  | .collCreditGrant r => Sys2Proof.Machine.execCollCreditGrant r s
  | .collDataArrives group rank seq data => Sys2Proof.Machine.execCollDataArrives group rank seq data s
  | .ontiaDatagram pseudo h payload => Sys2Proof.Machine.execOntiaDatagram pseudo h payload s
  | .placerDecision => Sys2Proof.Machine.execPlacerDecision s
  | .placerSweep => Sys2Proof.Machine.execPlacerSweep s
  | .recordReserved queue => Sys2Proof.Machine.execRecordReserved queue s
  | .allotmentComplete gang => Sys2Proof.Machine.execAllotmentComplete gang s
  | .stageInCompletes gang => Sys2Proof.Machine.execStageInCompletes gang s
  | .gangEvictionStart gang => Sys2Proof.Machine.execGangEvictionStart gang s
  | .gangEvictionComplete gang => Sys2Proof.Machine.execGangEvictionComplete gang s
  | .restoreBegins gang => Sys2Proof.Machine.execRestoreBegins gang s
  | .imageIsLoaded gang => Sys2Proof.Machine.execImageIsLoaded gang s
  | .retireWritebackComplete gang => Sys2Proof.Machine.execRetireWritebackComplete gang s
  | .gridCompletes grid => Sys2Proof.Machine.execGridCompletes grid s
  | .gridKilledReport grid => Sys2Proof.Machine.execGridKilledReport grid s
  | .completionDelivery => Sys2Proof.Machine.execCompletionDelivery s
  | .journalCheckpoint => Sys2Proof.Machine.execJournalCheckpoint s
  | .quiesceCompletes ctx => Sys2Proof.Machine.execQuiesceCompletes ctx s
  | .standbyTakeover => Sys2Proof.Machine.execStandbyTakeover s
  | .correctableError chan addr => Sys2Proof.Machine.execCorrectableError chan addr s
  | .uncorrectableError chan addr item => Sys2Proof.Machine.execUncorrectableError chan addr item s
  | .trainingSucceeds l width => Sys2Proof.Machine.execTrainingSucceeds l width s
  | .trainingFails l => Sys2Proof.Machine.execTrainingFails l s
  | .widthIsLost l width => Sys2Proof.Machine.execWidthIsLost l width s
  | .linkIsLost l => Sys2Proof.Machine.execLinkIsLost l s
  | .podRequest pa op => Sys2Proof.Machine.execPodRequest pa op s
  | .endpointRead reqPkg stack off size => Sys2Proof.Machine.execEndpointRead reqPkg stack off size s
  | .rdmaWrite qp pa data => Sys2Proof.Machine.execRdmaWrite qp pa data s
  | .rdmaRead qp pa size => Sys2Proof.Machine.execRdmaRead qp pa size s
  | .edwickFrameDropped src frame bytes => Sys2Proof.Machine.execEdwickFrameDropped src frame bytes s
  | .coldReset => Sys2Proof.Machine.execColdReset s
  | .createQueue e num desc => Sys2Proof.Machine.execCreateQueue e num desc s
  | .enableQueue e num => Sys2Proof.Machine.execEnableQueue e num s
  | .disableQueue e num => Sys2Proof.Machine.execDisableQueue e num s
  | .freeQueue e num => Sys2Proof.Machine.execFreeQueue e num s
  | .enqueueRecord e num lr => Sys2Proof.Machine.execEnqueueRecord e num lr s
  | .queryQueue e num => Sys2Proof.Machine.execQueryQueue e num s
  | .setOntiaUdpPort e port => Sys2Proof.Machine.execSetOntiaUdpPort e port s
  | .createContext e desc => Sys2Proof.Machine.execCreateContext e desc s
  | .activateContext e num => Sys2Proof.Machine.execActivateContext e num s
  | .quiesceContext e num => Sys2Proof.Machine.execQuiesceContext e num s
  | .resumeContext e num => Sys2Proof.Machine.execResumeContext e num s
  | .destroyContext e num => Sys2Proof.Machine.execDestroyContext e num s
  | .setServiceClass e num cls => Sys2Proof.Machine.execSetServiceClass e num cls s
  | .setPhase e num phase => Sys2Proof.Machine.execSetPhase e num phase s
  | .queryContext e num => Sys2Proof.Machine.execQueryContext e num s
  | .writeServiceClass e cls val => Sys2Proof.Machine.execWriteServiceClass e cls val s
  | .clearContextError e num val => Sys2Proof.Machine.execClearContextError e num val s
  | .evictGang e grid gang => Sys2Proof.Machine.execEvictGang e grid gang s
  | .invalidateTranslations e ctx base len => Sys2Proof.Machine.execInvalidateTranslations e ctx base len s
  | .writeStackAct e stack idx entry => Sys2Proof.Machine.execWriteStackAct e stack idx entry s
  | .writeRouteEntry e pkg entry => Sys2Proof.Machine.execWriteRouteEntry e pkg entry s
  | .resetLink e l hold => Sys2Proof.Machine.execResetLink e l hold s
  | .queryLink e l => Sys2Proof.Machine.execQueryLink e l s
  | .queryPower e => Sys2Proof.Machine.execQueryPower e s
  | .setClusterClass e die cluster cls => Sys2Proof.Machine.execSetClusterClass e die cluster cls s
  | .writeCollectiveGroup e group ctx members => Sys2Proof.Machine.execWriteCollectiveGroup e group ctx members s
  | .queryPins e => Sys2Proof.Machine.execQueryPins e s
  | .releasePinRetry e pinid => Sys2Proof.Machine.execReleasePinRetry e pinid s
  | .releasePinSkip e pinid => Sys2Proof.Machine.execReleasePinSkip e pinid s
  | .killGrid e grid => Sys2Proof.Machine.execKillGrid e grid s
  | .readErrorLog e clear => Sys2Proof.Machine.execReadErrorLog e clear s
  | .queryErrorCounters e => Sys2Proof.Machine.execQueryErrorCounters e s
  | .writeSignalSet e mode ctx va val => Sys2Proof.Machine.execWriteSignalSet e mode ctx va val s
  | .writeSignalAdd e ctx va val => Sys2Proof.Machine.execWriteSignalAdd e ctx va val s
  | .writeSpecial e die core n val => Sys2Proof.Machine.execWriteSpecial e die core n val s
  | .readSpecial e die core n => Sys2Proof.Machine.execReadSpecial e die core n s
  | .setSavePool e base len => Sys2Proof.Machine.execSetSavePool e base len s
  | .setFaultRing e base => Sys2Proof.Machine.execSetFaultRing e base s
  | .attest e nonce => Sys2Proof.Machine.execAttest e nonce s
  | .queryBootStatus e => Sys2Proof.Machine.execQueryBootStatus e s
  | .warmReset e => Sys2Proof.Machine.execWarmReset e s
  | .unknownCmd e cmd => Sys2Proof.Machine.execUnknownCmd e cmd s
  | .ecnMarkedPacket qp => Sys2Proof.Machine.execEcnMarkedPacket qp s

end Sys2Proof.Machine
end

