-- ==== Sys2Proof/Machine/Forms.lean ====
section
/-! DEFINITION. The ILLEGAL causes that depend on the kernel and the warp: they come before the RESV of a reserved bit
(06 R176, 12 R319). -/

namespace Sys2Proof.Machine

/-- The contract admits the shape (16 R410, R411, R415, R416). -/
def shapeIn (p : Place) (ok : Nat → Bool) (a b : Ty) (code : Nat) : Bool :=
  ok p.gr.contract && (shapeOf p.gr.contract a b code).isSome

/-- The kernel and the warp admit the form: no ILLEGAL of it is left. -/
def formOk (p : Place) : Instr → Bool
  | .mma x => shapeIn p denseOk x.aty x.bty x.code.val
  | .mmas x => shapeIn p scaledOk x.aty x.bty x.code.val
  | .mmsp x => shapeIn p sparseOk x.aty x.bty x.code.val &&
      (match shapeOf p.gr.contract x.aty x.bty x.code.val with
        | some sh => x.m.aligned (sh.k / 16)
        | none => false)
  | .mloop x => shapeIn p denseOk x.aty x.bty x.code.val
  | .mloopS x => shapeIn p (fun c => scaledOk c || c = 4) x.aty x.bty x.code.val
  | .mloopSp x => shapeIn p sparseOk x.aty x.bty x.code.val
  | .aset x => (entryTy p.gr.contract).all fun t => t = x.ty
  | .ard x => ardOk p.gr.longAcc x
  | .arv x => (p.bar x.bar.val).isSome
  | .bwait x => (p.bar x.bar.val).isSome
  | .bsync x => (p.bar x.bar.val).isSome
  | .launch _ => p.w.no = 0
  | .csrr x => specialListed x.n.toNat
  | .csrw x => specialListed x.n.toNat
  | .rte _ => p.w.handler.on
  | .mmaTf32 _ => false
  | _ => true

/-- A path stands at an instruction with a reserved bit set: ILLEGAL where its form is not admitted, else RESV. -/
def reservedStop (s : State) (ins : Instr) : Host.Outcome State Fault Refusal :=
  settle s fun p i => .error (.trap (if formOk p ins then .resv else .illegal) 0 i.path 0#64)

end Sys2Proof.Machine
end

