-- ==== Sys2Proof/Machine/Step.lean ====
section
/-! DEFINITION. One step: one whole event, or the issue of one path, or time (log 5, 6); and the machine that
holds one instruction at its next fetch. -/

namespace Sys2Proof.Machine

/-- Issues one path: its fetch, then the meaning of its instruction. -/
def issuePath (s : State) (w : Nat) (m : LaneMask) : Host.Outcome State Fault Refusal :=
  match fetchPath s w m with
  | .done t => .next t
  | .run t i => exec i t
  | .resv t i => reservedStop t i
  | .enter t => exec .clauseEntry t

/-- A result with a function applied to its state. -/
def onNext (f : State → State) : Host.Outcome State Fault Refusal → Host.Outcome State Fault Refusal
  | .next t => .next (f t)
  | o => o

def State.idle (s : State) : State := { s with cur := none }

/-- How an issue of a warp ends beside another of the same cycle; a trap that finds no handler is a trap (06 R175). -/
inductive Raise | no | trap | pin
  deriving DecidableEq, Repr

def raisedIn (s t : State) (w : Nat) : Raise :=
  match s.warps.get? w, t.warps.get? w with
  | some a, some b =>
    if a.pins.length < b.pins.length then (if (b.pins.drop a.pins.length).all (·.trap) then .trap else .pin)
    else if (!a.handler.on && b.handler.on) || decide (a.traps.length < b.traps.length) then .trap
    else .no
  | _, _ => .no

def raised (s : State) (o : Host.Outcome State Fault Refusal) (w : Nat) : Raise :=
  match o with
  | .next t => raisedIn s t w
  | _ => .no

/-- A path that a port may serve, what its issue would answer, and whether that is its entry into a clause, which takes
no cycle of the port: the header holds before the path is eligible (06 R165). -/
structure Pick where
  w : Nat
  m : LaneMask
  o : Host.Outcome State Fault Refusal
  enters : Bool

def pickOf (s : State) (wm : Nat × LaneMask) : Pick :=
  let o := issuePath s wm.1 wm.2
  let e := match fetchPath s wm.1 wm.2 with
    | .enter _ => decide (raised s o wm.1 = .no)
    | _ => false
  ⟨wm.1, wm.2, o, e⟩

/-- A scoreboard dependence is not met: the path is not eligible. -/
def Pick.stalls (k : Pick) : Bool :=
  match k.o with
  | .next t => t.cur.isNone
  | _ => false

/-- The first of the paths that is eligible (06 R165). -/
def choose (s : State) : List (Nat × LaneMask) → Option Pick
  | [] => none
  | wm :: rest => let k := pickOf s wm
    if k.stalls then choose s rest else some k

/-- A path of the warp waits: it is eligible, and no header condition holds it back. -/
def waitsNow (s : State) (w : Nat) (m : LaneMask) : Bool :=
  let k := pickOf s (w, m)
  !k.stalls && (!k.enters || match k.o with
    | .next t => (t.warps.get? w).all fun x => decide (x.heldBack &&& m = 0#32)
    | _ => true)

/-- The turns of a state, in front of what was laid before. -/
def State.lay (ts : List Turn) (t : State) : State := { t with cur := none, agenda := ts ++ t.agenda }

/-- The issue of a chosen path, with the turns that follow it. -/
def Pick.go (k : Pick) (s : State) (ts : List Turn) : Host.Outcome State Fault Refusal :=
  onNext (fun t => (countFairIssue s t k.w k.m).lay ts) k.o

/-- The core while its second port still issues remembers what stood before the first port's draw (17 R445). -/
def State.keepBefore (s : State) (c : Nat) (t : State) : State :=
  if (t.core c).pool = (s.core c).pool ∧ (t.core c).critical = (s.core c).critical then t
  else t.modCore c fun x => { x with before := some ((s.core c).pool, (s.core c).critical) }

/-- The draws of the cycle are done. -/
def State.endDraws (t : State) (c : Nat) : State :=
  if (t.core c).before.isSome then t.modCore c fun x => { x with before := none } else t

/-- The team and operand whose scale binding a chosen path's instruction writes. -/
def scbOf (s : State) (k : Pick) : Option (Nat × Bool) :=
  match fetchPath s k.w k.m with
  | .run t (.scb x) => (t.warps.get? k.w).map fun w => (w.team, x.isB)
  | _ => none

/-- Two warps of a team bind one operand in one cycle, the younger at the first port: its values remain (16 R414). -/
def bindsLast (s : State) (a b : Pick) : Bool := decide (b.w < a.w) && (scbOf s a).isSome && decide (scbOf s a = scbOf s b)

/-- What both ports serve, chosen in one state (06 R165). A path that enters its clause does so first. Of two paths of one
warp that both raise, a pin comes before a trap, and else the lower key; when only the first raises, the other's
instruction retires (06 R175). -/
def issueBoth (s : State) (c : Nat) (a b : Pick) : Host.Outcome State Fault Refusal :=
  if b.enters then b.go s [.issue c]
  else if bindsLast s a b then b.go s [.second c a.w a.m false]
  else if a.w ≠ b.w then onNext (s.keepBefore c) (a.go s [.second c b.w b.m false])
  else
    let count (t : State) : State := t.modWarp a.w fun w =>
      w.countFair (((s.warps.get? a.w).elim [] fun x => x.others a.m b.m).filter (waitsNow s a.w))
    match raised s a.o a.w, raised s b.o b.w with
    | .no, _ => onNext (fun t => s.keepBefore c (count t)) (a.go s [.second c b.w b.m false])
    | _, .no => onNext count (a.go s [.second c b.w b.m true])
    | .trap, .pin => onNext count (b.go s [])
    | _, _ => onNext count (a.go s [])

/-- The path still stands where it was chosen. -/
def State.stands (s : State) (w : Nat) (m : LaneMask) : Bool :=
  (s.place? w).any fun p => decide (p.g.st = .running) && decide (m &&& (p.w.exited ||| p.w.heldBack) = 0#32)

/-- The warp as it was before the first port's path raised its trap or pin. -/
def Warp.beforeRaise (w : Warp) : Warp :=
  if w.pins = [] then { w with handler := { w.handler with on := false } } else { w with pins := [] }

/-- The second port's path retires beside a path of its warp that raised: the trap or pin stands (06 R175). Beside a pin the
handler state is that of the path that retires. -/
def secondBeside (s : State) (w : Nat) (m : LaneMask) : Host.Outcome State Fault Refusal :=
  match s.warps.get? w with
  | none => .next s
  | some old => onNext (fun t => t.modWarp w fun x =>
        { x with handler := if old.pins = [] then old.handler else x.handler, pins := old.pins ++ x.pins })
      (issuePath (s.modWarp w Warp.beforeRaise) w m)

/-- One turn. -/
def runTurn (s : State) : Turn → Host.Outcome State Fault Refusal
  | .event e => onNext State.idle (exec e s.idle)
  | .elapse n => .next (s.elapse n)
  | .issue c =>
    let s := s.refresh
    match choose s (firstChoices s c) with
    | none => .next s
    | some a =>
      if a.enters then a.go s [.issue c]
      else match choose s (secondChoices s c a.w a.m) with
        | none => a.go s []
        | some b => issueBoth s c a b
  | .second c w m only =>
    if ¬ s.stands w m then .next (s.endDraws c)
    else match (if only then secondBeside s w m else issuePath s w m) with
      | .next t => if t.cur.isNone then .next (s.endDraws c) else .next ((countFairIssue s t w m).idle.endDraws c)
      | o => o

/-- Whether an event would change the state. -/
def hasEffect (s : State) (e : Instr) : Bool :=
  match exec e s.idle with
  | .next t => decide (t ≠ s.idle)
  | _ => false

/-- What moves when the agenda is empty: the first event owed, else a round. -/
def autoAgenda (s : State) : List Turn :=
  match (owedEvents s).find? (hasEffect s) with
  | some e => [.event e]
  | none => round s

/-! ## Events of one cycle

What is laid before the next passage of time happens in one cycle. Events that reach one object in it take effect in the
order of that object's chapter (00 R17): a queue 04 R113, a context 03 R101, a link 09 R217, a gang 06 R161, a barrier 07
R185, the pools of a cluster before their draws (10 R244), a cluster by the list of 10 R256, the future of an engine
operation before the accesses it would trap (15 R404), a slew boundary behind the draws of its cc (23 R487). Each order is
part of the one order of ranks; turns of one rank keep theirs. Errors go by channel, the correctable one of a channel first
(18 R450). -/

def eventRank : Instr → Nat
  | .freeQueue _ _ => 0
  | .destroyContext _ _ | .linkIsLost _ => 1
  | .widthIsLost _ _ => 2
  | .trainingSucceeds _ _ | .trainingFails _ => 3
  | .resetLink _ _ _ => 4
  | .poolRefill _ _ => 5
  | .createContext _ _ => 6
  | .activateContext _ _ => 7
  | .quiesceContext _ _ => 8
  | .quiesceCompletes _ => 9
  | .resumeContext _ _ => 10
  | .setServiceClass _ _ _ => 11
  | .setPhase _ _ _ => 12
  | .killGrid _ _ => 13
  | .disableQueue _ _ => 14
  | .enableQueue _ _ => 15
  | .rampEnds _ _ => 17
  | .setClusterClass _ _ _ _ => 18
  | .quiescePoint _ _ => 19
  | .gangEvictionComplete _ => 20
  | .exitReachesBarrier _ _ => 21
  | .barrierArrival _ => 22
  | .engineOpCompletes _ => 23
  | .mloopPly _ _ => 24
  | .releasePinRetry _ _ | .releasePinSkip _ _ => 25
  | .ontiaDatagram _ _ _ | .enqueueRecord _ _ _ => 26
  | .placerDecision | .placerSweep | .restoreBegins _ => 27
  | .gangEvictionStart _ => 28
  | .slewBoundary _ _ => 29
  | _ => 16

/-- The place of an error among those of a cycle (18 R450). -/
def errOrder : Instr → Nat
  | .correctableError c _ => 2 * Nat.min c 60 + 1
  | .uncorrectableError c _ _ => 2 * Nat.min c 60 + 2
  | _ => 0

def Turn.isElapse : Turn → Bool
  | .elapse _ => true
  | _ => false

def Turn.isKill : Turn → Bool
  | .event (.killGrid _ _) => true
  | _ => false

/-- A *release pin* goes behind the pins of its cycle (06 R161), but one that a *kill grid* follows goes with it, in order of
arrival (18 R452). -/
def releaseRank (e : Instr) (later : List Turn) : Nat :=
  match e with
  | .releasePinRetry _ _ | .releasePinSkip _ _ =>
    if (later.takeWhile fun t => !t.isElapse).any Turn.isKill then 13 else eventRank e
  | _ => eventRank e

/-- The rank of a turn among those of its cycle, of which `later` were laid behind it. -/
def Turn.rank (later : List Turn) : Turn → Nat
  | .event e => 128 * releaseRank e later + errOrder e
  | _ => 128 * 24

/-- The lowest rank of a cycle, the first turn that has it, and the turns that stay. -/
def firstRanked (t : Turn) : List Turn → Nat × Turn × List Turn
  | [] => (t.rank [], t, [])
  | u :: us => if t.isElapse || u.isElapse then (t.rank (u :: us), t, u :: us)
    else
      let r := firstRanked u us
      if r.1 < t.rank (u :: us) then (r.1, r.2.1, t :: r.2.2) else (t.rank (u :: us), t, u :: us)

/-- The turn of a cycle that goes first, and those that stay. -/
def firstOf (t : Turn) (us : List Turn) : Turn × List Turn := (firstRanked t us).2

/-- What the machine may owe an object that has its place in the object's order before a laid event (03 R101; 10 R256). -/
def owedBefore : Instr → List Instr
  | .resumeContext _ n | .setServiceClass _ n _ | .setPhase _ n _ => [.quiesceCompletes n]
  | .setClusterClass _ d k _ => [.rampEnds d k]
  | _ => []

/-- The turn that runs, and the agenda behind it: what is owed first goes before the turn that would be first. -/
def State.nextTurn (s : State) (t : Turn) (us : List Turn) : Turn × List Turn :=
  let r := firstOf t us
  match r.1 with
  | .event e => match (owedBefore e).find? (hasEffect s) with
    | some o => (.event o, t :: us)
    | none => r
  | _ => r

/-- One step of the machine. -/
def step (s : State) : Host.Outcome State Fault Refusal :=
  match s.agenda with
  | t :: rest => let r := s.nextTurn t rest
    runTurn { s with agenda := r.2 } r.1
  | [] => match autoAgenda s with
    | t :: rest => let r := firstOf t rest
      runTurn { s with agenda := r.2, fresh := s.fresh + 16 } r.1
    | [] => .next s

/-! ## A machine about to run one instruction (log 10) -/

/-- A kernel of one core, 64 vector, 32 uniform, 16 tile and 8 accumulator registers, whose text is the first
4,096 bytes of the address space, in the given encoding version. -/
def oneKernel (ver : Nat) : BitVec 512 :=
  BitVec.ofNat 512 (4096 * 2 ^ 416 + 0xFFFFFFFF * 2 ^ 352 + 64 * 2 ^ 328 + 32 * 2 ^ 320 + 16 * 2 ^ 312
    + 8 * 2 ^ 304 + ver * 2 ^ 248)

def oneGrid (ver : Nat) : Grid where
  ctx := 0
  queue := 0
  seq := 0#32
  lrec := 0#1024
  kcb := oneKernel ver
  regions := []
  portmap := 0#256
  bents := []
  cls := 0
  placed := 1
  parent := none
  kids := 0
  counted := []
  poison := 0
  killed := false
  reported := false

/-- The one warp stands behind the header at offset 0, at the instruction at offset 4. -/
def oneWarp (g : Grid) : Warp :=
  { freshWarp g 0 0 0 0#8 with
    pcv := List.replicate 32 4#32
    entering := 0#32
    inside := (List.range 32).map fun l => (l, 0#32) }

/-- A context whose tables, at 4,096 and 8,192 of the package, map the first 2^39 bytes of the address space
onto the package's canonical offsets, readable, writable and executable. -/
def oneCtx (pkg : Nat) : Ctx where
  st := .active
  desc := BitVec.ofNat 512 (pkg * 2 ^ 170 + 1 * 2 ^ 140)
  sclass := 0#4
  phase := 0#16
  evt := false
  sched := []

/-- The machine whose next step fetches and runs the table word: clause header 0x1A00_0000 (N = 1, CLASS 5) at
text offset 0 and the instruction at 4, with the context, page tables, grid, gang, team and warp that a fetch
needs, on core 0, and the issue of core 0 next on the agenda, in a cycle of its own. -/
def State.withFetchWord (s : State) (nbits w : Nat) : State :=
  let ver := tableVersion nbits w
  let pkg := s.fused.pkg
  let gr := oneGrid ver
  let s := s.memFill (locOf pkg 0) (bytesLE 4 0x1A000000 ++ bytesLE 8 (w % 2 ^ nbits))
  let s := s.memFill (locOf pkg 4096) (bytesLE 8 (pkg * 2 ^ 42 + 2 * 2 ^ 12 + 1))
  let s := s.memFill (locOf pkg 8192) (bytesLE 8 (pkg * 2 ^ 42 + 0x1F))
  { s with
    ctxs := s.ctxs.put 0 (oneCtx pkg)
    grids := s.grids.put 0 gr
    gangs := s.gangs.put 0 ⟨0#32, 0, .running, 0, 0, 0, [0], [], 0, 0, false, false, false, [], [], 0, [], []⟩
    teams := s.teams.put 0 ⟨0, 0, 0, 1, 0#512, 0, false⟩
    warps := s.warps.put 0 (oneWarp gr)
    bars := s.bars.put 0 ⟨.armed, false, 1, 0, [], 0, 0, 0, true, 32, [0], 0, none, 0, []⟩
    cores := s.cores.put 0 Core.reset
    poisonLines := s.poisonLines.del (lineOf (locOf pkg 0))
    paging := { s.paging with tlb := s.paging.tlb.filter fun e => e.ctx ≠ 0 }
    agenda := .issue 0 :: .elapse 0 :: s.agenda
    cur := none }

end Sys2Proof.Machine
end

