-- ==== Sys2Proof/Safety.lean ====
section
/-! DEFINITION. The words that claims about the machine are made of: the canonical form of memory, when an
instruction's operands are ready, and what an instruction that computes leaves changed and unchanged. -/

namespace Sys2Proof.Machine

/-! ## Memory -/

/-- The canonical form of memory: addresses strictly rising, and no listed byte equal to what an unlisted
address reads as (log 3). -/
def Memory.wf : List Host.Cell → Bool
  | [] => true
  | [c] => decide (c.2 ≠ 0#8)
  | c :: e :: m => decide (c.2 ≠ 0#8) && decide (c.1 < e.1) && Memory.wf (e :: m)

/-- The byte at a location. -/
def State.byteAt (s : State) (a : Nat) : Byte := Sparse.get 0#8 s.mem a

/-- Every byte of memory reads as before. -/
def SameBytes (s t : State) : Prop := ∀ a, t.byteAt a = s.byteAt a

/-- Every byte outside `n` bytes from `a` reads as before. -/
def SameBytesBut (s t : State) (a n : Nat) : Prop := ∀ x, (x < a ∨ a + n ≤ x) → t.byteAt x = s.byteAt x

/-- Lines have entered the LLC: no byte of memory differs, and HBM may have received the bytes of lines that left it
(11 R272). -/
def Filled (t u : State) : Prop :=
  u = { t with llc := u.llc, llcFills := u.llcFills, hbmOld := u.hbmOld }
  ∧ ∀ line, u.hbmOld.get? line = t.hbmOld.get? line ∨ u.hbmOld.get? line = none

/-! ## The issuing path and its operands -/

/-- A path of the warp at `p` is issuing as `i`. -/
def Issuing (s : State) (p : Place) (i : Issue) : Prop := s.cur = some i ∧ s.place? i.w = some p

/-- The operands of an instruction are at hand for a non-empty active set (06 R176, R160): every register lies in
its allotment; every port named is bound, source ports hold the entries taken, destination ports are open and have
room, with no release fence of the lanes before them (11 R294); no future named is empty; no operand-log entry will write
a register read or has a register written as its source (06 R168), and no barrier arrival will write one named. -/
structure Ready (s : State) (p : Place) (i : Issue) (g : Guard) (srcs : List Src) (dsts : List (Operand × Nat)) :
    Prop where
  active : activeOf p i g ≠ 0#32
  regs : ∀ x ∈ srcRegs srcs ++ dsts, inAllot p.w x.1 x.2 = true
  bound : ∀ q, Operand.port q ∈ (srcRegs srcs ++ dsts).map (·.1) → p.bound q = true
  fed : ∀ q l, l ∈ lanesOf (activeOf p i g) → portCount q srcs ≤ (p.w.getFifo q l).q.length
  out : ∀ q n, (Operand.port q, n) ∈ dsts → activeOf p i g &&& Sparse.get 0#32 p.w.outClosed q.code = 0#32
  room : ∀ q n, (Operand.port q, n) ∈ dsts → ∀ l ∈ lanesOf (activeOf p i g), s.portRoom p q l n = true
  futs : ∀ x ∈ srcRegs srcs ++ dsts, ∀ k ∈ futsOf x.1 x.2, p.w.fut.get? k.val = none
  log : ∀ ke ∈ p.w.log, ke.2.readBy (activeOf p i g) (srcRegs srcs) = false ∧ ke.2.reusedBy (activeOf p i g) dsts = false
  behind : ∀ x ∈ dsts, x.1.isPort = true → fencePending isRelFence p.w (activeOf p i g) = false
  arv : ∀ a ∈ s.arrivals, a.warp = p.key → ∀ d, a.d = some d → ∀ x ∈ srcRegs srcs ++ dsts, regsMeet x (d, 1) = false

/-- The core's pool pays the price and the critical order lets the warp draw (10 R246, R248). -/
def Payable (s : State) (p : Place) (price : Nat) : Prop :=
  price = 0 ∨ ((s.core p.t.core).mayDraw p.key = true ∧ price ≤ (s.core p.t.core).pool)

/-! ## What an instruction that computes leaves -/

/-- Outside the warp at `p`, only counters of its core, the poison count of its grid and entries on their way to
ports may differ: events `ev` are counted (02 R89), the price is drawn (10 R246), bank grants are given, and waits for
them, poisoned reads and dropped pushes may be counted. -/
structure OnlyWarp (s t : State) (p : Place) (price : Nat) (ev : Counts) : Prop where
  rest : t = { s with warps := t.warps, cores := t.cores, grids := t.grids, flight := t.flight, fresh := t.fresh }
  warps : ∀ k, k ≠ p.key → t.warps.get? k = s.warps.get? k
  cores : ∀ k, k ≠ p.t.core → t.core k = s.core k
  core : t.core p.t.core = { s.core p.t.core with
    bgwait := (t.core p.t.core).bgwait, grants := (t.core p.t.core).grants
    poison := (t.core p.t.core).poison, qdrop := (t.core p.t.core).qdrop
    lsat := (s.core p.t.core).lsat + BitVec.ofNat 32 ev.lsat, t2inv := (s.core p.t.core).t2inv + BitVec.ofNat 32 ev.t2inv
    zwrap := (s.core p.t.core).zwrap + BitVec.ofNat 32 ev.zwrap, cvsat := (s.core p.t.core).cvsat + BitVec.ofNat 32 ev.cvsat
    pool := (s.core p.t.core).pool - price, drawn := (s.core p.t.core).drawn + price
    demandNow := (s.core p.t.core).demandNow || decide (price ≠ 0)
    critical := if price = 0 then (s.core p.t.core).critical else (s.core p.t.core).critical.filter (· ≠ p.key) }
  grids : ∀ k, ∃ n, t.grids.get? k = (s.grids.get? k).map fun g => { g with poison := n }

/-- An operand log keeps its entries, of which an instruction behind them may have superseded results (06 R168). -/
def LogKept (l0 l : Tab LogEntry) : Prop := ∀ k, ∃ d, l.get? k = (l0.get? k).map fun e => { e with dead := d }

/-- Of the warp itself only general registers, predicates, port queues, poison marks, superseded results and the program
counters may differ; a draw ends its wait for tempi (10 R247). -/
def WarpKeeps (w w0 : Warp) (price : Nat) : Prop :=
  w = { w0 with v := w.v, u := w.u, p := w.p, fifo := w.fifo, marks := w.marks, log := w.log
                tempoSince := if price = 0 then w0.tempoSince else none
                pcv := w.pcv, bpExempt := w.bpExempt, entering := w.entering, inside := w.inside }
    ∧ LogKept w0.log w.log

/-- The entries a destination port sends: one per word in each active lane whose peer still takes entries, unless a die
link of a `qd` port is Down (09 R217, R222). -/
def portPushes (s : State) (p : Place) (active : LaneMask) (d : Operand) (val : Nat → List Word) : List PortMsg :=
  match d with
  | .port q => (lanesOf active).flatMap fun l => (val l).filterMap fun x => match s.peer p q l with
    | some (w, pq, pl) => if s.peerGone w pl || s.qdDown p.t.core q then none else some ⟨w, pq, pl, some x, 0⟩
    | none => none
  | _ => []

/-- The next state of an instruction that computes (00 R16; 01 R36 to R40): `n` words `val l` reach `d` in each
active lane (the lowest active lane's reach a uniform register), predicate `pd` receives the bits `m` in the active
lanes, source ports lose the entries taken in the lanes read, the path moves past the instruction, and nothing else
changes but what `OnlyWarp` and `WarpKeeps` name. -/
structure Computed (s t : State) (p : Place) (i : Issue) (active rd : LaneMask) (srcs : List Src) (d : Operand) (n : Nat)
    (val : Nat → List Word) (pd : Fin 8) (m : LaneMask) (price : Nat) (ev : Counts) : Prop where
  only : OnlyWarp s t p price ev
  flight : t.flight = s.flight ++ portPushes s p active d val
  warp : ∃ w, t.warps.get? p.key = some w ∧ WarpKeeps w p.w price
    ∧ (∀ q l, l < 32 → w.getV q l = match d with
        | .v r => if active.getLsbD l ∧ r.val ≤ q ∧ q < r.val + n then (val l).getD (q - r.val) 0#32 else p.w.getV q l
        | _ => p.w.getV q l)
    ∧ (∀ q, w.getU q = match d with
        | .s r => if r.val ≤ q ∧ q < r.val + n then (val (lowLane active)).getD (q - r.val) 0#32 else p.w.getU q
        | _ => p.w.getU q)
    ∧ (∀ r, w.getP r = if r = pd ∧ r ≠ 7 then (p.w.getP r &&& ~~~ active) ||| (m &&& active) else p.w.getP r)
    ∧ (∀ q l, l < 32 → (w.getFifo q l).st = (p.w.getFifo q l).st
        ∧ (w.getFifo q l).q = (p.w.getFifo q l).q.drop (if rd.getLsbD l then portCount q srcs else 0))
    ∧ (∀ l, l < 32 → w.pc l = if i.path.getLsbD l then i.pc + BitVec.ofNat 32 i.len else p.w.pc l)

/-- What an instruction of the lanes names: guard and uniform bit, sources, destination of n registers. -/
structure Form where (h : Hd) (srcs : List Src) (d : Operand) (n : Nat)

/-- The words the sources supply for the result of lane l. -/
def Form.vals (f : Form) (s : State) (p : Place) (i : Issue) (l : Nat) : List (List Word) :=
  srcVals s p (laneFor f.h (activeOf p i f.h.g) l) [] f.srcs

/-- Events of the lanes read, together. -/
def sumCounts (m : LaneMask) (ev : Nat → Counts) : Counts := (lanesOf m).foldl (fun n l => n.add (ev l)) Counts.none

/-- The instruction completes whenever its operands are ready and its price can be paid: in each active lane the
destination receives words that stand in relation `R` to the words of the sources, with the events counted. -/
def Computes (ins : Instr) (f : Form) (price : Nat)
    (R : Place → Nat → List (List Word) → List Word → Counts → Prop) : Prop :=
  ∀ s p i, Issuing s p i → Ready s p i f.h.g f.srcs [(f.d, f.n)] → Payable s p price →
    ∃ t val ev, exec ins s = .next t
      ∧ Computed s t p i (activeOf p i f.h.g) (readLanes f.h (activeOf p i f.h.g)) f.srcs f.d f.n val 7 0#32 price
          (sumCounts (readLanes f.h (activeOf p i f.h.g)) ev)
      ∧ ∀ l ∈ lanesOf (activeOf p i f.h.g), (val l).length = f.n
          ∧ R p (laneFor f.h (activeOf p i f.h.g) l) (f.vals s p i l) (val l) (ev (laneFor f.h (activeOf p i f.h.g) l))

/-- A relation of words to words, without events and the same in every lane. -/
def plain (R : List (List Word) → List Word → Prop) (_ : Place) (_ : Nat) (vs : List (List Word)) (ws : List Word)
    (ev : Counts) : Prop := R vs ws ∧ ev = Counts.none

/-- The same for an instruction whose result is one predicate bit per active lane. -/
def Tests (ins : Instr) (h : Hd) (srcs : List Src) (pd : Fin 8) (R : Place → Nat → List (List Word) → Bool) : Prop :=
  ∀ s p i, Issuing s p i → Ready s p i h.g srcs [] →
    ∃ t m, exec ins s = .next t
      ∧ Computed s t p i (activeOf p i h.g) (readLanes h (activeOf p i h.g)) srcs (.imm 0) 0 (fun _ => []) pd m 0 Counts.none
      ∧ ∀ l ∈ lanesOf (activeOf p i h.g), m.getLsbD l
          = R p (laneFor h (activeOf p i h.g) l) (srcVals s p (laneFor h (activeOf p i h.g) l) [] srcs)

/-- An instruction whose words come from several lanes (14 R364): `R` relates the active lanes and the source words of
every lane to the words of every active lane and the events. -/
def Crosses (ins : Instr) (g : Guard) (srcs : List Src) (d : Operand) (n : Nat)
    (R : Place → LaneMask → (Nat → List (List Word)) → (Nat → List Word) → Counts → Prop) : Prop :=
  ∀ s p i, Issuing s p i → Ready s p i g srcs [(d, n)] →
    ∃ t val ev, exec ins s = .next t
      ∧ Computed s t p i (activeOf p i g) (activeOf p i g) srcs d n val 7 0#32 0 ev
      ∧ (∀ l ∈ lanesOf (activeOf p i g), (val l).length = n)
      ∧ R p (activeOf p i g) (fun l => srcVals s p l [] srcs) val ev

/-! ## Control -/

/-- The registers of a warp after results `val` of n words reach `d` in the active lanes. -/
def RegsGet (w0 w : Warp) (active : LaneMask) (d : Operand) (n : Nat) (val : Nat → List Word) : Prop :=
  (∀ q l, l < 32 → w.getV q l = match d with
      | .v r => if active.getLsbD l ∧ r.val ≤ q ∧ q < r.val + n then (val l).getD (q - r.val) 0#32 else w0.getV q l
      | _ => w0.getV q l)
  ∧ (∀ q, w.getU q = match d with
      | .s r => if r.val ≤ q ∧ q < r.val + n then (val (lowLane active)).getD (q - r.val) 0#32 else w0.getU q
      | _ => w0.getU q)

/-- The registers and predicates of a warp are those of another. -/
def RegsSame (w0 w : Warp) : Prop := (∀ q l, w.getV q l = w0.getV q l) ∧ (∀ q, w.getU q = w0.getU q)

/-- The program counters after an instruction: active lanes at their targets, the others of the path past it. -/
def PcsAt (w0 w : Warp) (i : Issue) (active : LaneMask) (target : Nat → Word) : Prop :=
  ∀ l, l < 32 → w.pc l = if active.getLsbD l then target l
    else if i.path.getLsbD l then i.pc + BitVec.ofNat 32 i.len else w0.pc l

/-- A transfer of control: the active lanes stand at their targets, at the head of a clause (12 R306), one word may
reach `d`, and nothing else changes but what `OnlyWarp` and `WarpKeeps` name. -/
structure Transferred (s t : State) (p : Place) (i : Issue) (active : LaneMask) (srcs : List Src) (d : Operand)
    (val : Word) (target : Nat → Word) : Prop where
  only : OnlyWarp s t p 0 Counts.none
  flight : t.flight = s.flight ++ portPushes s p active d fun _ => [val]
  warp : ∃ w, t.warps.get? p.key = some w ∧ WarpKeeps w p.w 0 ∧ w.p = p.w.p
    ∧ RegsGet p.w w active d 1 (fun _ => [val])
    ∧ (∀ q l, l < 32 → (w.getFifo q l).st = (p.w.getFifo q l).st
        ∧ (w.getFifo q l).q = (p.w.getFifo q l).q.drop (if active.getLsbD l then portCount q srcs else 0))
    ∧ PcsAt p.w w i active target
    ∧ ∀ l ∈ lanesOf active, w.entering.getLsbD l = true

/-- Only the warp at `p` changes, and of it, beside what makes it `w0`, only the program counters: the whole path moves
past the instruction. -/
structure Passed (s t : State) (p : Place) (i : Issue) (w0 : Warp) : Prop where
  rest : t = { s with warps := t.warps }
  warps : ∀ k, k ≠ p.key → t.warps.get? k = s.warps.get? k
  warp : ∃ w, t.warps.get? p.key = some w ∧ PcsAt p.w w i 0#32 (fun _ => 0#32)
    ∧ w = { w0 with pcv := w.pcv, bpExempt := w.bpExempt, entering := w.entering, inside := w.inside }

/-- The warp at `p` has entered its handler for a trap (06 R178), over the state `s0` in which the handler entry was
read: the specials hold the cause, the place and the value, every lane of the path stands at the handler. -/
structure HandlerEntered (s0 t : State) (p : Place) (i : Issue) (cause : Cause) (sub : Nat) (mask : LaneMask)
    (val : DWord) (off : Word) : Prop where
  rest : t = { s0 with warps := t.warps }
  warps : ∀ k, k ≠ p.key → t.warps.get? k = s0.warps.get? k
  warp : ∃ w, t.warps.get? p.key = some w
    ∧ w = { p.w with handler := w.handler, resv := w.resv, pcv := w.pcv, bpExempt := w.bpExempt, entering := w.entering
                     inside := w.inside }
    ∧ w.handler = ⟨true, BitVec.ofNat 32 (sub * 256 + causeCode cause), i.pc, i.path, mask,
        BitVec.ofNat 32 (lowLane mask), val.setWidth 32, (val >>> 32).setWidth 32⟩
    ∧ (∀ l, l < 32 → w.pc l = if i.path.getLsbD l then off else p.w.pc l)
    ∧ ∀ l ∈ lanesOf i.path, w.entering.getLsbD l = true

/-- The warp at `p` is pinned at an instruction: a pin with the cause and lanes stands on it, and its registers,
predicates and program counters are as before (18 R451). -/
def PinnedAt (t : State) (p : Place) (i : Issue) (cause : Nat) (lanes : LaneMask) : Prop :=
  ∃ w q, t.warps.get? p.key = some w ∧ q ∈ w.pins ∧ q.cause = cause ∧ q.lanes = lanes ∧ q.pc = i.pc
    ∧ w.v = p.w.v ∧ w.u = p.w.u ∧ w.p = p.w.p ∧ w.pcv = p.w.pcv ∧ w.fifo = p.w.fifo

/-- The instruction retires without effect when its active set is empty and its registers lie in the allotment
(00 R16). -/
def Idles (ins : Instr) (g : Guard) (ops : List (Operand × Nat)) : Prop :=
  ∀ s p i, Issuing s p i → activeOf p i g = 0#32 → (∀ x ∈ ops, inAllot p.w x.1 x.2 = true) →
    ∃ t, exec ins s = .next t ∧ Passed s t p i p.w

/-! ## Memory accesses -/

/-- The bytes at a after stores of the listed bytes, in order: those of the last store that covers a. -/
def lastStore (ws : List (Nat × List Byte)) (old : Nat → Byte) (a : Nat) : Byte :=
  match ws.reverse.find? fun w => decide (w.1 ≤ a ∧ a < w.1 + w.2.length) with
  | some w => w.2.getD (a - w.1) 0#8
  | none => old a

/-- The words a load gives (15 R390): a pair, a sign-extended or a zero-extended element. -/
def loadedWords (t : Ty) (n : Nat) : List Word :=
  if t.wide then [BitVec.ofNat 32 n, BitVec.ofNat 32 (n / 2 ^ 32)]
  else if t.signed then [(BitVec.ofNat t.width n).signExtend 32]
  else [BitVec.ofNat 32 n]

/-- A TLB of the core grants the access (08 R201). -/
def Hit (s : State) (p : Place) (acc : AccKind) (va : DWord) (x : Xlat) : Prop :=
  ∃ e, tlbLookup s (coreTlbs p.t.core) p.gr.ctx va.toNat = some e ∧ permOk e.pte acc = true
    ∧ (accWrites acc = true → e.pte.getLsbD 6 = true) ∧ x = leafXlat e.pte e.size va.toNat e.srec

/-- An access may perform at once: translated by a TLB to a line of this package, plain, unlocked, not poisoned, not
compressed where it is written, while a link of the die works (09 R217). -/
structure Reach (s : State) (p : Place) (acc : AccKind) (va : DWord) (x : Xlat) : Prop where
  hit : Hit s p acc va x
  here : x.pkg = s.fused.pkg
  plain : x.ap ≠ 3
  cmp : accWrites acc = true → x.cmp = false
  surf : s.surfLocked p.gr.ctx x.surf = false
  clean : s.linePoisoned x.loc = false
  cut : s.dieCut (coreDie p.t.core) = false

/-- No older access of the lanes is open, and the operand log has room (06 R168). -/
def LogFree (p : Place) (active : LaneMask) : Prop :=
  p.w.log.length < 8 ∧ ∀ ke ∈ p.w.log, ke.2.active &&& ~~~ ke.2.done &&& active = 0#32

/-- A memory instruction of one address per lane is ready: in a region that admits it, aligned, not locked, translated
(15 R387). -/
structure AccessReady (s : State) (p : Place) (i : Issue) (o : MemOp) (x : Nat → Xlat) : Prop where
  ready : Ready s p i o.g o.srcs o.dsts
  log : LogFree p (activeOf p i o.g)
  lanes : ∀ l ∈ lanesOf (o.lanes (activeOf p i o.g)),
    let va := (o.valsOf s p l).va
    regionOk p.gr p.g.num va.toNat o.bytes o.need = true ∧ va.toNat % o.bytes = 0
      ∧ s.rangeLocked p.gr.ctx va.toNat o.bytes o.writes = false
      ∧ s.stashBusy p.gid (((regionOf p.gr.regions p.g.num va.toNat).map (·.1)).getD 0) o.bytes o.writes = false
      ∧ Reach s p o.acc va (x l)

/-- What an instruction that stores leaves: in memory the bytes of the stores `ws` in order, of the other warps only
reservations and the wakes of signal waiters, of gangs only lines held in stashes, of queues only what their heads watch, of
the warp itself what `own` says beside
ports, marks, reservations, wakes, registers, superseded results and program counters. -/
structure Stored (s t : State) (p : Place) (i : Issue) (active : LaneMask) (srcs : List Src) (ws : List (Nat × List Byte))
    (own : Warp → Prop) : Prop where
  rest : t = { s with warps := t.warps, gangs := t.gangs, cores := t.cores, grids := t.grids, queues := t.queues, mem := t.mem
                      hbmOld := t.hbmOld, llc := t.llc, llcFills := t.llcFills, spoiled := t.spoiled
                      poisonLines := t.poisonLines }
  bytes : ∀ a, t.byteAt a = lastStore ws s.byteAt a
  gangs : ∀ k, ∃ d w, t.gangs.get? k = (s.gangs.get? k).map fun g => { g with dirty := d, wb := w }
  grids : ∀ k, ∃ n, t.grids.get? k = (s.grids.get? k).map fun g => { g with poison := n }
  queues : ∀ k, ∃ a, t.queues.get? k = (s.queues.get? k).map fun q => { q with watch := a }
  warps : ∀ k, k ≠ p.key → ∃ r a, t.warps.get? k = (s.warps.get? k).map fun w => { w with resv := r, wake := a }
  cores : ∀ k, k ≠ p.t.core → t.core k = s.core k
  core : ∃ b g n, t.core p.t.core = { s.core p.t.core with bgwait := b, grants := g, poison := n }
  warp : ∃ w, t.warps.get? p.key = some w ∧ own w ∧ PcsAt p.w w i 0#32 (fun _ => 0#32)
    ∧ LogKept p.w.log w.log
    ∧ w = { p.w with fifo := w.fifo, marks := w.marks, resv := w.resv, wake := w.wake, demoted := w.demoted, v := w.v
                     u := w.u, log := w.log, pcv := w.pcv, bpExempt := w.bpExempt, entering := w.entering, inside := w.inside }
    ∧ (∀ q l, l < 32 → (w.getFifo q l).st = (p.w.getFifo q l).st
        ∧ (w.getFifo q l).q = (p.w.getFifo q l).q.drop (if active.getLsbD l then portCount q srcs else 0))

/-! ## Elements as bit vectors (13 R334) -/

/-- Element e, of width w, of register words. -/
def elemBits (w e : Nat) (ws : List Word) : BitVec w := BitVec.ofNat w (wordsNat ws / 2 ^ (w * e))

/-- Element-wise results of one, two and three sources. -/
def Each1 (t : Ty) (R : BitVec t.width → BitVec t.width → Prop) (vs : List (List Word)) (ws : List Word) : Prop :=
  ∀ e < perLane t, R (elemBits t.width e (vs.getD 0 [])) (elemBits t.width e ws)
def Each2 (t : Ty) (f : BitVec t.width → BitVec t.width → BitVec t.width) (vs : List (List Word)) (ws : List Word) : Prop :=
  ∀ e < perLane t, elemBits t.width e ws = f (elemBits t.width e (vs.getD 0 [])) (elemBits t.width e (vs.getD 1 []))
def Each3 (t : Ty) (f : BitVec t.width → BitVec t.width → BitVec t.width → BitVec t.width) (vs : List (List Word))
    (ws : List Word) : Prop :=
  ∀ e < perLane t, elemBits t.width e ws
    = f (elemBits t.width e (vs.getD 0 [])) (elemBits t.width e (vs.getD 1 [])) (elemBits t.width e (vs.getD 2 []))

/-- An element as the type reads it. -/
def readInt (t : Ty) (x : BitVec t.width) : Int := if t.signed then x.toInt else x.toNat

/-- The exact result, saturated to the range of the type (02 R54). -/
def clampBits (t : Ty) (r : Int) : BitVec t.width :=
  BitVec.ofInt t.width (if t.signed then max (-(2 ^ (t.width - 1))) (min (2 ^ (t.width - 1) - 1) r)
    else max 0 (min (2 ^ t.width - 1) r))

/-- The exact value of a float element (02 R56), and the element that ENCODE gives (02 R60, NAN mode). -/
def floatVal (t : Ty) (x : BitVec t.width) : Val := (fmtD t).decode x.toNat
def rounded (t : Ty) (m : RMode) (v : Val) : BitVec t.width := BitVec.ofNat t.width ((fmtD t).encode v m true).1

/-! ## Exact values in types (02 R59, R60, R69, R91, R92) -/

/-- Twice the magnitude of a value, times 2^k, is at least h, or above it. A magnitude 2^(e/sc) is compared by its power sc. -/
def Val.atLeast (v : Val) (k : Int) (h : Nat) : Prop :=
  match v with
  | .num _ m e => h * 2 ^ (-(e + k + 1)).toNat ≤ m * 2 ^ (e + k + 1).toNat
  | .lg _ e sc => h ^ sc * 2 ^ (-(e + (k + 1) * sc)).toNat ≤ 2 ^ (e + (k + 1) * sc).toNat
  | _ => False
def Val.above (v : Val) (k : Int) (h : Nat) : Prop :=
  match v with
  | .num _ m e => h * 2 ^ (-(e + k + 1)).toNat < m * 2 ^ (e + k + 1).toNat
  | .lg _ e sc => h ^ sc * 2 ^ (-(e + (k + 1) * sc)).toNat < 2 ^ (e + (k + 1) * sc).toNat
  | _ => False

/-- The sign of a value. -/
def Val.isNeg : Val → Bool
  | .num n _ _ | .inf n | .lg n _ _ => n
  | .nan => false

/-- r is the magnitude of v, times 2^k, rounded to an integer in a mode (02 R59). -/
def Val.roundsTo (v : Val) (mode : RMode) (k : Int) (r : Nat) : Prop :=
  let down : Prop := v.atLeast k (2 * r) ∧ ¬ v.atLeast k (2 * r + 2)
  let up : Prop := ¬ v.above k (2 * r) ∧ (r = 0 ∨ v.above k (2 * r - 2))
  match mode with
  | .rtz => down
  | .rdn => if v.isNeg then up else down
  | .rup => if v.isNeg then down else up
  | .rne => v.atLeast k (2 * r - 1) ∧ ¬ v.above k (2 * r + 1)
      ∧ (r % 2 = 1 → v.above k (2 * r - 1) ∧ ¬ v.atLeast k (2 * r + 1))

/-- ENCODE of a finite value that is not zero (02 R60): it rounds to r units of the format's quantum there, which is the code's
value; a result above the largest finite value is an event, and gives that value, or what the NAN mode says. -/
def Encoded (f : Fmt) (mode : RMode) (nan : Bool) (v : Val) (c : Nat × Nat) : Prop :=
  ∃ (q : Int) (r : Nat), v.roundsTo mode (-q) r ∧ 1 - (f.bias : Int) - f.mb ≤ q ∧ ¬ v.atLeast (-q) (2 ^ (f.mb + 2))
    ∧ (q = 1 - (f.bias : Int) - f.mb ∨ v.atLeast (-q) (2 ^ (f.mb + 1)))
    ∧ if f.maxM * 2 ^ (f.maxE - q).toNat < r * 2 ^ (q - f.maxE).toNat then
        c.2 = 1 ∧ f.decode c.1 = (
          if nan && f.inf && (match mode with | .rne => true | .rtz => false | .rdn => v.isNeg | .rup => !v.isNeg) then .inf v.isNeg
          else if nan && !f.inf && f.nan.isSome then .nan else .num v.isNeg f.maxM f.maxE)
      else c.2 = 0 ∧ ∃ m e, f.decode c.1 = .num v.isNeg m e ∧ m * 2 ^ (e - q).toNat = r * 2 ^ (q - e).toNat

/-- 2s × log2 |v| is at least h, or above it. -/
def Val.logAtLeast (v : Val) (s : Nat) (h : Int) : Prop :=
  match v with
  | .num _ m e => 2 ^ (h - 2 * s * e).toNat ≤ m ^ (2 * s) * 2 ^ (2 * s * e - h).toNat
  | .lg _ e sc => h * sc ≤ 2 * s * e
  | _ => False
def Val.logAbove (v : Val) (s : Nat) (h : Int) : Prop :=
  match v with
  | .num _ m e => 2 ^ (h - 2 * s * e).toNat < m ^ (2 * s) * 2 ^ (2 * s * e - h).toNat
  | .lg _ e sc => h * sc < 2 * s * e
  | _ => False

/-- x is s × log2 |v| rounded down, up, or to nearest with ties to even. -/
def Val.logDown (v : Val) (s : Nat) (x : Int) : Prop := v.logAtLeast s (2 * x) ∧ ¬ v.logAtLeast s (2 * x + 2)
def Val.logUp (v : Val) (s : Nat) (x : Int) : Prop := ¬ v.logAbove s (2 * x) ∧ v.logAbove s (2 * x - 2)
def Val.logNear (v : Val) (s : Nat) (x : Int) : Prop :=
  v.logAtLeast s (2 * x - 1) ∧ ¬ v.logAbove s (2 * x + 1) ∧ (x % 2 ≠ 0 → v.logAbove s (2 * x - 1) ∧ ¬ v.logAtLeast s (2 * x + 1))

/-- The code of an exact log field, limited by 02 R69. A flush counts in a conversion as well (log 61). -/
def Limited (t : Ty) (neg nan : Bool) (x : Int) (c : Nat × Nat) : Prop :=
  if (lLimit t : Int) ≤ x then c.2 = 1 ∧ lDecode t c.1 = (if nan then .nan else .lg neg (lLimit t - 1) (lScale t))
  else if x ≤ -(lLimit t : Int) then c.2 = 1 ∧ lDecode t c.1 = Val.zero
  else c.2 = 0 ∧ lDecode t c.1 = .lg neg x (lScale t)

/-- Units per 1, offset and range of the types that 02 R91 rounds to an integer and saturates. -/
def intRange (t : Ty) (z : Nat) : Option (Int × Int × Int × Int) :=
  match t with
  | .mxi8 => some (6, 0, -128, 127)
  | .z8 => some (0, z, 0, 255)
  | .z4 => some (0, z, 0, 15)
  | .t2 => some (0, 0, -1, 1)
  | .i8 | .i16 | .i32 | .i64 => some (0, 0, -(2 ^ (t.width - 1)), 2 ^ (t.width - 1) - 1)
  | .n8 | .n16 | .n32 | .n64 => some (0, 0, 0, 2 ^ t.width - 1)
  | _ => none

/-- The code of a type and the saturation events that a value gives (02 R91, R92). What the tables leave open is the model's
choice: the modes round the magnitude into a log type (log 21); a zero gives the E2M1 code 0, a flush counts, and E8M0 clamps
below -127 in both saturation modes (log 61). -/
def Converted (t : Ty) (z : Nat) (mode : RMode) (nan : Bool) (v : Val) (c : Nat × Nat) : Prop :=
  let zero : Prop := match t with
    | .f32 | .f16 | .bf16 | .e4m3 | .e5m2 => c.2 = 0 ∧ ∃ f e, fmtOf t = some f ∧ f.decode c.1 = .num v.isNeg 0 e
    | .z8 | .z4 => c = (z, 0) | .l16 => c = (0x4000, 0) | .l8 => c = (0x40, 0) | .e8m0 => c = (0xFF, 1) | _ => c = (0, 0)
  match v with
  | .nan => match t with
    | .f32 => c = (0x7FC00000, 0) | .f16 => c = (0x7E00, 0) | .bf16 => c = (0x7FC0, 0) | .e4m3 => c = (0x7F, 0)
    | .e5m2 => c = (0x7E, 0) | .l16 => c = (0xC000, 0) | .l8 => c = (0xC0, 0) | .e8m0 => c = (0xFF, 0)
    | .z8 | .z4 => c = (z, 1) | _ => c = (0, 1)
  | .inf neg => match t with
    | .f32 | .f16 | .bf16 | .e5m2 => c.2 = 0 ∧ ∃ f, fmtOf t = some f ∧ f.decode c.1 = .inf neg
    | .e4m3 => c = (if nan then 0x7F else if neg then 0xFE else 0x7E, 1)
    | .e2m1 => c = (if neg then 0xF else 0x7, 1)
    | .l16 => c = (if nan then 0xC000 else if neg then 0xBFFF else 0x3FFF, 1)
    | .l8 => c = (if nan then 0xC0 else if neg then 0xBF else 0x3F, 1)
    | .e8m0 => c = (if neg || nan then 0xFF else 0xFE, 1)
    | .b1 => c = (1, 0)
    | _ => ∀ k off lo hi, intRange t z = some (k, off, lo, hi) → c = ((BitVec.ofInt t.width (if neg then lo else hi)).toNat, 1)
  | .num _ 0 _ => zero
  | v => match t, fmtOf t, intRange t z with
    | _, some f, _ => Encoded f mode nan v c
    | _, _, some (k, off, lo, hi) => ∃ r : Nat, v.roundsTo mode k r ∧
        let x : Int := (if v.isNeg then -(r : Int) else r) + off
        c = ((BitVec.ofInt t.width (max lo (min hi x))).toNat, if lo ≤ x ∧ x ≤ hi then 0 else 1)
    | .e8m0, _, _ => if v.isNeg then c = (0xFF, 1) else ∃ x : Int,
        (match mode with
          | .rne => v.logNear 1 x | .rdn => v.logDown 1 x | .rup => v.logUp 1 x
          | .rtz => (v.logAtLeast 1 0 → v.logDown 1 x) ∧ (¬ v.logAtLeast 1 0 → v.logUp 1 x))
        ∧ c = if 127 < x then (if nan then 0xFF else 0xFE, 1) else if x < -127 then (0, 1) else ((x + 127).toNat, 0)
    | .b1, _, _ => c = (1, 0)
    | t, _, _ => ∃ x : Int, (match mode with
          | .rne => v.logNear (lScale t) x | .rtz | .rdn => v.logDown (lScale t) x | .rup => v.logUp (lScale t) x)
        ∧ Limited t v.isNeg nan x c

/-- Exact products of a matrix step in units of 2^q, summed. -/
def exactSum (vs : List Val) (q : Int) : Int :=
  (vs.map fun v => match v with | .num n m e => scaled n m e q | _ => 0).sum

/-- The exact sum of products (02 R80): NaN, an infinity, or a finite sum in units in which every product is whole. -/
def Summed (vs : List Val) (g : Val) : Prop :=
  if vs.any Val.isNan || (vs.contains (.inf false) && vs.contains (.inf true)) then g = .nan
  else if vs.contains (.inf false) then g = .inf false
  else if vs.contains (.inf true) then g = .inf true
  else ∃ q : Int, (∀ n m e, Val.num n m e ∈ vs → q ≤ e)
    ∧ g = .num (decide (exactSum vs q < 0)) (exactSum vs q).natAbs q

/-- An entry after a group, which is rounded to F32 and then added (02 R80, R81). -/
def groupAdd (acc : Word) (g : Val) : Word :=
  rounded .f32 .rne (Val.add .rne (floatVal .f32 acc) (floatVal .f32 (rounded .f32 .rne g)))

/-- Terms added one after the other to a word, wrapping, and how often it wrapped (02 R83). -/
def wrapSum (acc : Word) (xs : List Int) : Word × Nat :=
  xs.foldl (fun a x => let y := a.1.toInt + x
    (BitVec.ofInt 32 y, a.2 + if y < -(2 ^ 31) ∨ 2 ^ 31 ≤ y then 1 else 0)) (acc, 0)

/-- The registers, predicates, tiles and accumulators of every warp are as before. -/
def AllRegsSame (s t : State) : Prop :=
  ∀ k, (t.warps.get? k).map (fun w => (w.v, w.u, w.p, w.tiles, w.accs, w.laccs))
    = (s.warps.get? k).map fun w => (w.v, w.u, w.p, w.tiles, w.accs, w.laccs)

/-- A release writes the on-touch lines of the team home (11 R267): its gang loses those marks, and nothing else changes, of
memory, registers or anything else. -/
def Released (s t : State) (p : Place) : Prop :=
  t = { s with gangs := t.gangs } ∧ SameBytes s t ∧ AllRegsSame s t
  ∧ ∀ k, ∃ d, t.gangs.get? k = (s.gangs.get? k).map (fun g => { g with dirty := d })
      ∧ ∀ g, s.gangs.get? k = some g → ∀ l, l ∈ d ↔ l ∈ g.dirty ∧ ¬ (k = p.gid ∧ l.2.2 = p.t.pos)

/-- Scratch bytes of a gang's window (11 R268). -/
def State.scratchAt (s : State) (gid a : Nat) : Byte := Sparse.get 0#8 (((s.gangs.get? gid).map (·.scratch)).getD []) a

/-- Counts of a grid in a core's outstanding counters (05 R148). -/
def State.outCount (s : State) (core : Nat) (grid : Word) : Nat :=
  (((s.core core).out.find? fun gc => decide (gc.1 = grid)).map (·.2)).getD 0

/-- The target of an `rst` or `rld` lane may be accessed at once (15 R396, R397). -/
def TargetReady (s : State) (p : Place) (n : Nat) (need : MemAcc) (write : Bool) (t : Target) (x : Xlat) : Prop :=
  t.busy s n write = false ∧ match t with
    | .outside => False
    | .scratch gid off => write = true ∨ scratchPoisoned s gid off = false
    | .region _ _ va mode => canonicalVa va = true ∧ regionAdmits mode need = true
        ∧ s.rangeLocked p.gr.ctx va n write = false ∧ Reach s p (if write then .store else .load) (BitVec.ofNat 64 va) x

/-- What a read-modify-write leaves in memory (15 R393). -/
def rmwBits (t : Ty) (f : RmwFn) (old b : BitVec t.width) : BitVec t.width :=
  match f with
  | .add => old + b | .sub => old - b
  | .min => if readInt t b < readInt t old then b else old
  | .max => if readInt t old < readInt t b then b else old
  | .and => old &&& b | .or => old ||| b | .xor => old ^^^ b | .exch => b

/-- The little-endian bytes of an element. -/
def elemLE {w : Nat} (x : BitVec w) : List Byte := bytesLE (w / 8) x.toNat

/-! ## Matrix work -/

/-- One value of a table is replaced. -/
def AtKey {β : Type} (t0 t : Tab β) (k : Nat) (v : β) : Prop := ∀ j, t.get? j = if j = k then some v else t0.get? j

/-- Element c of width w of row r of tile t. -/
def tileElem (tiles : Sparse Byte) (w t r c : Nat) : Nat :=
  natLE (Sparse.read 0#8 tiles (4096 * t + 64 * r) 64) / 2 ^ (w * c) % 2 ^ w

/-- Tiles lie in the allotment, nothing unfinished will write those read, and nothing unfinished still reads those
written (06 R168; 16 R408). -/
structure TilesFree (s : State) (p : Place) (reads writes : List Nat) : Prop where
  allot : ∀ t ∈ reads ++ writes, t < p.w.ta
  written : ∀ ke ∈ p.w.log, ∀ t ∈ reads, t ∈ (logTiles ke.2.instr).1 → ke.2.open &&& ~~~ ke.2.dead.getD 0 0#32 = 0#32
  read : ∀ ke ∈ p.w.log, ∀ t ∈ writes, t ∉ (logTiles ke.2.instr).2
  steps : ∀ m ∈ (s.core p.t.core).mq, m.warp = p.key → m.ends = none → ∀ t ∈ writes, t ∉ stepTiles m.instr

/-- Accumulators lie in the allotment and no step or loop of the warp uses them (16 R408, R417). -/
def AccsFree (s : State) (p : Place) (as : List Nat) : Prop :=
  ∀ a ∈ as, a < p.w.aa ∧ loopLocked s p a = false ∧ ∀ m ∈ (s.core p.t.core).mq, m.warp = p.key → m.acc ≠ a

/-! ## Engines and events -/

/-- The descriptor that an engine instruction reads (17 R424). -/
def engDesc (s : State) (p : Place) (i : Issue) (x : EngF) : BitVec 256 :=
  BitVec.ofNat 256 (wordsNat ((srcVals s p (lowLane (activeOf p i x.g)) [] [groupSrc x.grp]).getD 0 []))

/-- No access of the active lanes is still open. -/
def NoOpen (p : Place) (m : LaneMask) : Prop := ∀ ke ∈ p.w.log, ke.2.active &&& ~~~ ke.2.done &&& m = 0#32

/-- An engine instruction resolves its future at once with a status (17 R426, R427). -/
def ResolvesNow (ins : Instr) (x : EngF) (s : State) (p : Place) (i : Issue) (status : Nat) : Prop :=
  ∃ t, exec ins s = .next (resolveFut (t.releaseHome p) p.key x.f (BitVec.ofNat 32 (status * 2 ^ 24)))
    ∧ Computed s t p i (activeOf p i x.g) (activeOf p i x.g) [groupSrc x.grp] (.imm 0) 0 (fun _ => []) 7 0#32 0 Counts.none

/-- An operation enters its engine once there is room in the engine, the tables and the counters: its future is empty,
the operation stands under the next number (17 R425, R426; 05 R148). `s0` is the state after the checks of the
descriptor. -/
def Enters (ins : Instr) (x : EngF) (s s0 : State) (p : Place) (i : Issue) (o : EngOp) (groups : Tab CollGroup) : Prop :=
  ∀ s1, engineFull s0 o = false → s0.rangeEntries + optCount o.rd + optCount o.wr ≤ 1024 →
    s0.stashEntries p.t.core + optCount o.srd + optCount o.swr ≤ 16 → s0.takeOut p.t.core p.g.grid 1 = some s1 →
    ∃ t, exec ins s = .next { (t.releaseHome p).startFut p.key x.f (.engine s0.placer.nextOp) with
          ops := s0.ops.put s0.placer.nextOp o, groups := groups
          placer := { s0.placer with nextOp := s0.placer.nextOp + 1 } }
      ∧ s1.outCount p.t.core p.g.grid = s0.outCount p.t.core p.g.grid + 1
      ∧ Computed s1 t p i (activeOf p i x.g) (activeOf p i x.g) [groupSrc x.grp] (.imm 0) 0 (fun _ => []) 7 0#32 0 Counts.none

/-- Only the warp k changes, and becomes w. -/
def WarpBecomes (s t : State) (k : Nat) (w : Warp) : Prop := t = { s with warps := t.warps } ∧ AtKey s.warps t.warps k w

/-- The words at a header admit the entry of a path into a clause (12 R301 to R304): a clause of N instructions in its
line and in `.text`, a class, no reserved bit, every future named full, and with PW every port named ready. -/
structure ClauseReady (s : State) (p : Place) (path : LaneMask) (pc : Word) (ws : List Nat) : Prop where
  align : pc.toNat % 4 = 0
  text : pc.toNat < p.gr.textl
  canon : canonicalVa (codeVa p pc) = true
  clause : ∃ is, clauseAt ws (pc.toNat % 128 / 4) = some is
    ∧ pc.toNat / 128 * 128 + 4 * clauseEnd 0 is ≤ p.gr.textl
    ∧ ((headerOf (ws.getD (pc.toNat % 128 / 4) 0)).pw = 0 ∨
      (∀ q ∈ portsIn ((clauseCode p.gr.ver ws is).flatMap fun i => (Instr.ops i).1), ∀ l ∈ lanesOf path,
          (p.w.getFifo q l).q ≠ [] ∨ (p.w.getFifo q l).st ≠ 0)
      ∧ ∀ q ∈ portsIn ((clauseCode p.gr.ver ws is).flatMap fun i => (Instr.ops i).2), ∀ l ∈ lanesOf path,
          s.portRoom p q l 1 = true)
  cls : (headerOf (ws.getD (pc.toNat % 128 / 4) 0)).cls < 6
  low : (if p.gr.ver = 1 then (headerOf (ws.getD (pc.toNat % 128 / 4) 0)).low % 2 ^ 12
    else (headerOf (ws.getD (pc.toNat % 128 / 4) 0)).low) = 0
  futs : ∀ k < 8, (headerOf (ws.getD (pc.toNat % 128 / 4) 0)).wait.testBit k = true → 24 + k < p.w.sa ∧ p.w.fut.get? k = none

/-- The lanes of a path stand at the first instruction of the clause whose header is at pc (12 R303). -/
def Entered (w0 w : Warp) (path : LaneMask) (pc : Word) : Prop :=
  w = { w0 with pcv := w.pcv, entering := w0.entering &&& ~~~ path, inside := w.inside }
    ∧ (∀ l, l < 32 → w.pc l = if path.getLsbD l then pc + 4#32 else w0.pc l)
    ∧ ∀ l, l < 32 → w.inside.get? l = if path.getLsbD l then some pc else w0.inside.get? l

/-! ## Management commands (09 R236, R237) -/

/-- The device accepts a command of this source and TAG: the host port works, the address is one of the allow list, the
TAG is not the last. -/
def Accepts (s : State) (e : Edw) : Prop :=
  linkWorks (s.link 136) = true ∧ s.allowed e.src = true ∧ s.boot ≠ .rejected ∧ ∀ r, s.host.last.get? e.src = some r → r.tag ≠ e.tag

/-- A command leaves the state t and answers on its frame with a status and a result, which is kept for a repeat of its
TAG. -/
def Replies (c : Cmd) (cmd : Edw → Instr) (s t : State) (status : Nat) (result : List DWord) : Prop :=
  ∀ e, Accepts s e → exec (cmd e) s = .next { t with host := { t.host with
    last := t.host.last.put e.src ⟨e.src, e.tag, c.code, c.oplen, status, result⟩
    replies := t.host.replies ++ [⟨e.src, e.tag, c.code, c.oplen, status, result⟩] } }

/-- The source and TAG of a management command. -/
def edwOf : Instr → Option Edw
  | .createQueue e _ _ | .enableQueue e _ | .disableQueue e _ | .freeQueue e _ | .enqueueRecord e _ _ | .queryQueue e _
  | .setOntiaUdpPort e _ | .createContext e _ | .activateContext e _ | .quiesceContext e _ | .resumeContext e _
  | .destroyContext e _ | .setServiceClass e _ _ | .setPhase e _ _ | .queryContext e _ | .writeServiceClass e _ _
  | .clearContextError e _ _ | .evictGang e _ _ | .invalidateTranslations e _ _ _ | .writeStackAct e _ _ _
  | .writeRouteEntry e _ _ | .resetLink e _ _ | .queryLink e _ | .queryPower e | .setClusterClass e _ _ _
  | .writeCollectiveGroup e _ _ _ | .queryPins e | .releasePinRetry e _ | .releasePinSkip e _ | .killGrid e _
  | .readErrorLog e _ | .queryErrorCounters e | .writeSignalSet e _ _ _ _ | .writeSignalAdd e _ _ _ | .writeSpecial e _ _ _ _
  | .readSpecial e _ _ _ | .setSavePool e _ _ | .setFaultRing e _ | .attest e _ | .queryBootStatus e | .warmReset e
  | .unknownCmd e _ => some e
  | _ => none

end Sys2Proof.Machine

namespace Sys2Proof
open Machine

/-! ## Forms of the operand bundles (12 R315, R316) -/

def Sh3.form (x : Sh3) (t : Ty) : Form := ⟨x.h, [srcOf t x.a, srcOf t x.b], x.d, 1⟩
def Sh2.form (x : Sh2) : Form := ⟨x.h, [srcOf .i32 x.a], x.d, 1⟩
def MoviF.form (x : MoviF) : Form := ⟨x.h, [], x.d, 1⟩
def ImmF.form (x : ImmF) : Form := ⟨x.h, [srcOf .i32 x.a], x.d, 1⟩
def Bin.form (x : Bin) : Form := ⟨x.h, [srcOf x.ty x.a, srcOf x.ty x.b], x.d, x.ty.regs⟩
def Un.form (x : Un) : Form := ⟨x.h, [srcOf x.ty x.a], x.d, x.ty.regs⟩
def Tern.form (x : Tern) : Form := ⟨x.h, [srcOf x.ty x.a, srcOf x.ty x.b, srcOf x.ty x.c], x.d, x.ty.regs⟩
def BfxF.form (x : BfxF) : Form := ⟨x.h, [srcOf x.ty x.a], x.d, x.ty.regs⟩
def BfiF.form (x : BfiF) : Form := ⟨x.h, [srcOf x.ty x.a, srcOf x.ty x.b], x.d, x.ty.regs⟩
def SelF.form (x : SelF) : Form := ⟨x.h, [srcOf x.ty x.a, srcOf x.ty x.b], x.d, x.ty.regs⟩
def LeaF.form (x : LeaF) : Form := ⟨x.h, [srcPair x.x, srcOf x.ty x.b], x.d, 2⟩
def PFromF.form (x : PFromF) : Form := ⟨x.h, [], x.d, 1⟩
def FBin.form (x : FBin) : Form := ⟨x.h, [srcOf x.ty x.a, srcOf x.ty x.b], x.d, 1⟩
def FTern.form (x : FTern) : Form := ⟨x.h, [srcOf x.ty x.a, srcOf x.ty x.b, srcOf x.ty x.c], x.d, 1⟩
def FUn.form (x : FUn) : Form := ⟨x.h, [srcOf x.ty x.a], x.d, 1⟩
def LBin.form (x : LBin) : Form := ⟨x.h, [srcOf x.ty x.a, srcOf x.ty x.b], x.d, 1⟩
def TdotF.form (x : TdotF) : Form := ⟨x.h, [srcOf .t2 x.a, ⟨x.b, 4, []⟩, srcOf .i32 x.c], x.d, 1⟩
def SmulF.form (x : SmulF) : Form := ⟨x.h, [srcOf .i8 x.a, srcOf .i8 x.b], x.d, 1⟩
def SgenF.form (x : SgenF) : Form := ⟨x.h, [srcOf .i8 x.a], x.d, 1⟩
def CvtF.form (x : CvtF) : Form :=
  ⟨x.h, ⟨x.a, cvtRegs (cvtCount x.sty x.dty) x.sty, srcT x.sty x.a⟩ :: x.b.toList.map src1, x.d,
    cvtRegs (cvtCount x.sty x.dty) x.dty⟩
def ConvF.form (x : ConvF) (a : Src) : Form := ⟨x.h, [a], x.d, 1⟩
def AddcF.form (x : AddcF) : Form := ⟨x.h, [srcOf x.ty x.a, srcOf x.ty x.b], x.d, x.ty.regs⟩

/-- What an instruction names: its guard, registers, tiles and accumulators, and its stream code and price. -/
structure Named where
  g : Guard
  regs : List (Operand × Nat)
  tiles : List Nat := []
  accs : List Nat := []
  code : Nat := 0
  price : Nat := 0

def Machine.Form.named (f : Form) : Named := { g := f.h.g, regs := srcRegs f.srcs ++ [(f.d, f.n)] }
def Machine.MemOp.named (o : MemOp) : Named := { g := o.g, regs := srcRegs o.srcs ++ o.dsts }

/-- A matrix step or loop: its price is that of its shape, or the one given. -/
def namedStep (p : Place) (g : Guard) (a b : Ty) (code : Nat) (price : Option Nat) (regs : List (Operand × Nat))
    (tiles accs : List Nat) : Named :=
  { g := g, regs := regs, tiles := tiles, accs := accs, code := code
    price := price.getD (((shapeOf p.gr.contract a b code).map (·.price)).getD 0) }

/-- What each instruction that a guard can idle names: every row of the opcode table but `hint`, which no guard selects,
`ld.nc` and `mma.tf32`, which trap whatever their guard. -/
def Instr.named (p : Place) : Instr → Option Named
  | .add x | .sub x | .and x | .or x | .xor x | .shl x | .shr x | .sra x => some (x.form .i32).named
  | .fadd x | .fmul x => some (x.form .f32).named
  | .mov x => some x.form.named
  | .movi x => some x.form.named
  | .addImm x | .andImm x | .orImm x | .xorImm x => some x.form.named
  | .addXm x | .subXm x | .mul x | .mulh x | .div x | .rem x | .min x | .max x | .andXm x | .orXm x | .xorXm x | .andn x
  | .shlXm x | .shrXm x | .sraXm x | .rol x | .addSat x | .subSat x | .mulSat x | .divSat x => some x.form.named
  | .fmin x | .fmax x => some { g := x.h.g, regs := [(x.a, x.ty.regs), (x.b, x.ty.regs), (x.d, 1)] }
  | .abs x | .neg x | .not x | .clz x | .ctz x | .popc x | .brev x | .movXm x | .absSat x | .negSat x | .fcls x =>
    some x.form.named
  | .mad x | .madSat x => some x.form.named
  | .addc x => some x.form.named
  | .bfx x => some x.form.named
  | .bfi x => some x.form.named
  | .sel x => some x.form.named
  | .lea x => some x.form.named
  | .cmp x => some { g := x.h.g, regs := [(x.a, x.ty.regs), (x.b, x.ty.regs)] }
  | .pand x | .por x | .pxor x => some { g := x.h.g, regs := [] }
  | .pnot x => some { g := x.h.g, regs := [] }
  | .pmovToPred x => some { g := x.h.g, regs := [(x.a, 1)] }
  | .pmovFromPred x | .pcnt x => some x.form.named
  | .voteOr x | .voteAnd x => some { g := x.g, regs := [] }
  | .voteMask x | .voteCnt x => some { g := x.g, regs := [(x.d, 1)] }
  | .voteSame x => some { g := x.g, regs := [(x.a, 1)] }
  | .getpc x | .tokq x => some { g := x.g, regs := [(x.d, 1)] }
  | .faddXm x | .fsub x | .fmulXm x | .fdiv x => some x.form.named
  | .ffma x | .ffmaUnf x => some x.form.named
  | .frnd x | .frcp x | .frsq x | .fsqrt x | .fex2 x | .flg2 x | .fsin x | .fcos x => some x.form.named
  | .fcmp x => some { g := x.h.g, regs := [(x.a, x.ty.regs), (x.b, x.ty.regs)] }
  | .lmul x | .ldiv x | .ladd x | .lsub x => some x.form.named
  | .tdot x => some { x.form.named with price := 2 }
  | .smul x => some { x.form.named with price := 2 }
  | .sgen x => some { x.form.named with price := 1 }
  | .cvt x => some x.form.named
  | .mxq x | .mxdq x | .zq x | .zdq x | .tpk x => some (x.form (srcOf x.sty x.a)).named
  | .tunp x => some (x.form (srcOf .t2 x.a)).named
  | .shflSel x | .shflLo x | .shflHi x | .shflFlip x | .bcast x => some { g := x.g, regs := [(x.a, x.ty.regs), (x.b, 1), (x.d, 1)] }
  | .shflWide x => some { g := x.g, regs := [(x.a, 2), (x.b, 1), (x.d, 2)] }
  | .lred x => some { g := x.g, regs := [(x.a, x.ty.regs), (x.d, 1)] }
  | .lscan x => some { g := x.g, regs := [(x.a, x.ty.regs), (x.d, 1)] }
  | .br x => some { g := x.g, regs := [] }
  | .brx x | .ret x => some { g := x.g, regs := [(x.a, 1)] }
  | .call x => some { g := x.g, regs := [(x.d, 1)] }
  | .nop x | .exit x | .yield x | .rte x | .scinv x => some { g := x.g, regs := [] }
  | .trap x => some { g := x.g, regs := [] }
  | .ld x => some (ldOp x (.load false) false).named
  | .ldPoll x => some (ldOp x (.load true) false).named
  | .ldu x => some (ldOp x (.load false) true).named
  | .ldr x => some (ldOp x .ldr false).named
  | .st x => some (stOp x false).named
  | .stu x => some (stOp x true).named
  | .atomAdd x => some (atomOp x (.rmw .add)).named
  | .atomSub x => some (atomOp x (.rmw .sub)).named
  | .atomMin x => some (atomOp x (.rmw .min)).named
  | .atomMax x => some (atomOp x (.rmw .max)).named
  | .atomAnd x => some (atomOp x (.rmw .and)).named
  | .atomOr x => some (atomOp x (.rmw .or)).named
  | .atomXor x => some (atomOp x (.rmw .xor)).named
  | .atomExch x => some (atomOp x (.rmw .exch)).named
  | .stc x => some (atomOp x .stc).named
  | .cas x => some (casOp x).named
  | .sig x | .sigw x => some (sigOp x).named
  | .rst x => some { g := x.g, regs := [(x.o, 1), (x.b, x.ty.regs), (x.t, 1)] }
  | .rld x => some { g := x.g, regs := [(x.o, 1), (x.t, 1), (x.d, x.ty.regs)] }
  | .fence x => some { g := x.g, regs := [] }
  | .sfl x | .sinv x | .spf x | .icinv x => some { g := x.g, regs := srcRegs [srcPair x.x, src1 x.n] }
  | .qstat x | .qpeek x => some { g := x.g, regs := [(x.d, 1)] }
  | .qclose x => some { g := x.g, regs := [] }
  | .mma x => some (namedStep p x.g x.aty x.bty x.code.val none [(x.sw, 1)] [x.ta.val, x.tb.val] [x.acc.val])
  | .mmas x => some (namedStep p x.g x.aty x.bty x.code.val (some 16) [] [x.ta.val, x.tb.val] [x.acc.val])
  | .mmsp x => some (namedStep p x.g x.aty x.bty x.code.val (some 6)
      [(x.m, ((shapeOf p.gr.contract x.aty x.bty x.code.val).map (·.k / 16)).getD 0)] [x.ta.val, x.tb.val] [x.acc.val])
  | .mloop x | .mloopS x =>
    some (namedStep p x.g x.aty x.bty x.code.val (some 0) [((groupSrc x.grp).o, 8), futDst x.f] [] [x.acc.val])
  | .mloopSp x => some (namedStep p x.g x.aty x.bty x.code.val (some 0)
      (srcRegs [groupSrc x.grp, srcPair x.mp] ++ [futDst x.f]) [] [x.acc.val])
  | .tld x | .tst x => some { g := x.g, regs := srcRegs [srcPair x.x], tiles := [x.t.val] }
  | .ttr x => some { g := x.g, regs := [], tiles := [x.a.val, x.d.val] }
  | .amov x => some { g := x.g, regs := [], accs := [x.d.val, x.a.val] }
  | .aset x => some { g := x.g, regs := [(x.v, x.ty.regs)], accs := [x.d.val] }
  | .azero x => some { g := x.g, regs := [], accs := [x.d.val] }
  | .ard x => some { g := x.g, regs := [], accs := [x.a.val]
                     tiles := (List.range (if p.gr.contract = 7 then 1 else Nat.max 1 (x.ty.width / 8))).map (x.t.val + ·) }
  | .scb x => some { g := x.g, regs := srcRegs [srcPair x.x, src1 x.v] }
  | .copy x | .gath x | .scat x | .coll x | .cmpr x => some { g := x.g, regs := [((groupSrc x.grp).o, 8), futDst x.f] }
  | .fwait x | .fcancel x => some { g := x.g, regs := [futDst x.f] }
  | .ftest x => some { g := x.g, regs := [futDst x.f] }
  | .arv x => some { g := x.g, regs := [(x.e, 1), (x.d, 1)] }
  | .bwait x => some { g := x.g, regs := [(x.q, 1)] }
  | .bsync x => some { g := x.g, regs := [] }
  | .launch x => some { g := x.g, regs := [((groupSrc x.grp).o, 2), (x.q, 1), futDst x.f] }
  | .svc x => some { g := x.g, regs := [(x.a, 1), (x.d, 1)] }
  | .csrr x => some { g := x.g, regs := [(x.d, 1)] }
  | .csrw x => some { g := x.g, regs := [(x.a, 1)] }
  | _ => none

end Sys2Proof
end

