-- ==== Sys2Proof/Certificates/Slice0/Obligations.lean ====
section
/-! DEFINITION. The statements for the provers. Each docstring names the rules of spec/ it formalises. -/

open Sys2Proof Sys2Proof.Machine

/-! ## Integer instructions (13 R334 to R351) -/

/-- 13 R338, R339: the wrapping rows, in every typed, short and immediate form. Nothing but the destination, the ports read
and the counts that `Computed` names changes. -/
def Obligations.IntegerArithmetic : Prop :=
  (∀ x : Sh3, x.wf = true →
      Computes (.add x) (x.form .i32) 0 (plain (Each2 .i32 fun a b => a + b))
    ∧ Computes (.sub x) (x.form .i32) 0 (plain (Each2 .i32 fun a b => a - b)))
  ∧ (∀ x : ImmF, x.wf = true → Computes (.addImm x) x.form 0 (plain fun vs ws => ws = [BitVec.ofNat 32 (wordsNat (vs.getD 0 [])) + x.imm]))
  ∧ (∀ x : Bin, x.wf Ty.isInt = true →
      Computes (.addXm x) x.form 0 (plain (Each2 x.ty fun a b => a + b))
    ∧ Computes (.subXm x) x.form 0 (plain (Each2 x.ty fun a b => a - b))
    ∧ Computes (.mul x) x.form 0 (plain (Each2 x.ty fun a b => a * b))
    ∧ Computes (.mulh x) x.form 0 (plain (Each2 x.ty fun a b =>
        (BitVec.ofInt (2 * x.ty.width) (readInt x.ty a * readInt x.ty b)).extractLsb' x.ty.width x.ty.width))
    ∧ Computes (.min x) x.form 0 (plain (Each2 x.ty fun a b => if readInt x.ty b < readInt x.ty a then b else a))
    ∧ Computes (.max x) x.form 0 (plain (Each2 x.ty fun a b => if readInt x.ty a < readInt x.ty b then b else a)))
  ∧ (∀ x : Un, x.wf Ty.isInt = true →
      Computes (.abs x) x.form 0 (plain (Each1 x.ty fun a r => r = if x.ty.signed && a.msb then -a else a))
    ∧ Computes (.neg x) x.form 0 (plain (Each1 x.ty fun a r => r = -a)))
  ∧ (∀ x : Tern, x.wf = true → Computes (.mad x) x.form 0 (plain (Each3 x.ty fun a b c => a * b + c)))

/-- 13 R338 to R340, R342: logic and shifts; a shift by the width or more, and `sra` of unsigned types; the bit counts, the
width for zero, and the reversal. -/
def Obligations.BitOperations : Prop :=
  (
    (∀ x : Sh3, x.wf = true →
        Computes (.and x) (x.form .i32) 0 (plain (Each2 .i32 fun a b => a &&& b))
      ∧ Computes (.or x) (x.form .i32) 0 (plain (Each2 .i32 fun a b => a ||| b))
      ∧ Computes (.xor x) (x.form .i32) 0 (plain (Each2 .i32 fun a b => a ^^^ b))
      ∧ Computes (.shl x) (x.form .i32) 0 (plain (Each2 .i32 fun a b => a <<< b.toNat))
      ∧ Computes (.shr x) (x.form .i32) 0 (plain (Each2 .i32 fun a b => a >>> b.toNat))
      ∧ Computes (.sra x) (x.form .i32) 0 (plain (Each2 .i32 fun a b => a.sshiftRight b.toNat)))
    ∧ (∀ x : ImmF, x.wf = true →
        Computes (.andImm x) x.form 0 (plain fun vs ws => ws = [BitVec.ofNat 32 (wordsNat (vs.getD 0 [])) &&& x.imm])
      ∧ Computes (.orImm x) x.form 0 (plain fun vs ws => ws = [BitVec.ofNat 32 (wordsNat (vs.getD 0 [])) ||| x.imm])
      ∧ Computes (.xorImm x) x.form 0 (plain fun vs ws => ws = [BitVec.ofNat 32 (wordsNat (vs.getD 0 [])) ^^^ x.imm]))
    ∧ (∀ x : Bin, x.wf Ty.isInt = true →
        Computes (.andXm x) x.form 0 (plain (Each2 x.ty fun a b => a &&& b))
      ∧ Computes (.orXm x) x.form 0 (plain (Each2 x.ty fun a b => a ||| b))
      ∧ Computes (.xorXm x) x.form 0 (plain (Each2 x.ty fun a b => a ^^^ b))
      ∧ Computes (.andn x) x.form 0 (plain (Each2 x.ty fun a b => a &&& ~~~b))
      ∧ Computes (.shlXm x) x.form 0 (plain (Each2 x.ty fun a b => a <<< b.toNat))
      ∧ Computes (.shrXm x) x.form 0 (plain (Each2 x.ty fun a b => a >>> b.toNat))
      ∧ Computes (.sraXm x) x.form 0 (plain (Each2 x.ty fun a b => a.sshiftRight b.toNat))
      ∧ Computes (.rol x) x.form 0 (plain (Each2 x.ty fun a b => a.rotateLeft b.toNat)))
    ∧ (∀ x : Un, x.wf Ty.isInt = true → Computes (.not x) x.form 0 (plain (Each1 x.ty fun a r => r = ~~~a))))
  ∧ (
    ∀ x : Un, x.wf Ty.isInt = true →
        Computes (.clz x) x.form 0 (plain (Each1 x.ty fun a r => r.toNat ≤ x.ty.width
          ∧ (∀ j < r.toNat, a.getMsbD j = false) ∧ (r.toNat < x.ty.width → a.getMsbD r.toNat = true)))
      ∧ Computes (.ctz x) x.form 0 (plain (Each1 x.ty fun a r => r.toNat ≤ x.ty.width
          ∧ (∀ j < r.toNat, a.getLsbD j = false) ∧ (r.toNat < x.ty.width → a.getLsbD r.toNat = true)))
      ∧ Computes (.popc x) x.form 0 (plain (Each1 x.ty fun a r => r.toNat = popCount a))
      ∧ Computes (.brev x) x.form 0 (plain (Each1 x.ty fun a r => ∀ j < x.ty.width, r.getLsbD j = a.getMsbD j)))

/-- 02 R54, R55; 13 R338, R341 to R343: saturation, and division with its corners: a zero divisor gives all ones as the
quotient and the dividend as the remainder. -/
def Obligations.SaturationAndDivision : Prop :=
  (∀ x : Bin, x.wf Ty.isInt = true →
      Computes (.addSat x) x.form 0 (plain (Each2 x.ty fun a b => clampBits x.ty (readInt x.ty a + readInt x.ty b)))
    ∧ Computes (.subSat x) x.form 0 (plain (Each2 x.ty fun a b => clampBits x.ty (readInt x.ty a - readInt x.ty b)))
    ∧ Computes (.mulSat x) x.form 0 (plain (Each2 x.ty fun a b => clampBits x.ty (readInt x.ty a * readInt x.ty b)))
    ∧ Computes (.div x) x.form 0 (plain (Each2 x.ty fun a b =>
        if b = 0 then BitVec.allOnes _ else if x.ty.signed then a.sdiv b else a.udiv b))
    ∧ Computes (.rem x) x.form 0 (plain (Each2 x.ty fun a b =>
        if b = 0 then a else if x.ty.signed then a.srem b else a.umod b))
    ∧ Computes (.divSat x) x.form 0 (plain (Each2 x.ty fun a b =>
        if b = 0 then BitVec.allOnes _ else clampBits x.ty ((readInt x.ty a).tdiv (readInt x.ty b)))))
  ∧ (∀ x : Un, x.wf Ty.isInt = true →
      Computes (.absSat x) x.form 0 (plain (Each1 x.ty fun a r => r = clampBits x.ty (readInt x.ty a).natAbs))
    ∧ Computes (.negSat x) x.form 0 (plain (Each1 x.ty fun a r => r = clampBits x.ty (-(readInt x.ty a)))))
  ∧ (∀ x : Tern, x.wf = true → Computes (.madSat x) x.form 0 (plain (Each3 x.ty fun a b c =>
      clampBits x.ty (readInt x.ty a * readInt x.ty b + readInt x.ty c))))

/-- 13 R345 to R349: moves, selection by a predicate, bit fields and address formation. -/
def Obligations.MovesFieldsAddresses : Prop :=
  (∀ x : Sh2, x.wf = true → Computes (.mov x) x.form 0 (plain fun vs ws => ws = vs.getD 0 []))
  ∧ (∀ x : Un, x.wf Ty.isInt = true → Computes (.movXm x) x.form 0 (plain fun vs ws => ws = vs.getD 0 []))
  ∧ (∀ x : MoviF, Computes (.movi x) x.form 0 (plain fun _ ws => ws = [x.imm]))
  ∧ (∀ x : SelF, x.wf = true → Computes (.sel x) x.form 0 fun p l vs ws ev => ev = Counts.none
      ∧ ws = if (p.w.getP x.p).getLsbD l = !x.neg then vs.getD 0 [] else vs.getD 1 [])
  ∧ (∀ x : BfxF, x.wf = true → Computes (.bfx x) x.form 0 (plain (Each1 x.ty fun a r => r =
      if x.ty.signed then (a.extractLsb' x.pos.val (x.wid1.val + 1)).signExtend x.ty.width
      else (a.extractLsb' x.pos.val (x.wid1.val + 1)).zeroExtend x.ty.width)))
  ∧ (∀ x : BfiF, x.wf = true → Computes (.bfi x) x.form 0 (plain fun vs ws => ∀ e < perLane x.ty, ∀ j < x.ty.width,
      (elemBits x.ty.width e ws).getLsbD j = if x.pos.val ≤ j ∧ j < x.pos.val + x.wid1.val + 1
        then (elemBits x.ty.width e (vs.getD 1 [])).getLsbD (j - x.pos.val)
        else (elemBits x.ty.width e (vs.getD 0 [])).getLsbD j))
  ∧ (∀ x : LeaF, x.wf = true → Computes (.lea x) x.form 0 (plain fun vs ws =>
      BitVec.ofNat 64 (wordsNat ws) = BitVec.ofNat 64 (wordsNat (vs.getD 0 []))
        + BitVec.ofInt 64 (readInt x.ty (elemBits x.ty.width 0 (vs.getD 1 []))) <<< x.sh.val))

/-- 13 R344: every element takes the carry-in of its lane, and the carry-out predicate is set where some element's unsigned
sum reaches 2^w. With U = 1 both are those of the lowest active lane: the model's choice (log 23). -/
def Obligations.AddWithCarry : Prop :=
  ∀ (x : AddcF) s p i, x.wf = true → Issuing s p i →
    Ready s p i x.h.g [srcOf x.ty x.a, srcOf x.ty x.b] [(x.d, x.ty.regs)] →
    let m := activeOf p i x.h.g
    let vs (l : Nat) := srcVals s p (laneFor x.h m l) [] [srcOf x.ty x.a, srcOf x.ty x.b]
    let cin (l : Nat) : Nat := if (p.w.getP x.ci).getLsbD (laneFor x.h m l) then 1 else 0
    let sum (l e : Nat) : Nat :=
      (elemBits x.ty.width e ((vs l).getD 0 [])).toNat + (elemBits x.ty.width e ((vs l).getD 1 [])).toNat + cin l
    ∃ t val co, exec (.addc x) s = .next t
      ∧ Computed s t p i m (readLanes x.h m) [srcOf x.ty x.a, srcOf x.ty x.b] x.d x.ty.regs val x.co co 0 Counts.none
      ∧ ∀ l ∈ lanesOf m, (val l).length = x.ty.regs
        ∧ (∀ e < perLane x.ty, elemBits x.ty.width e (val l) = BitVec.ofNat _ (sum l e))
        ∧ (co.getLsbD l = true ↔ ∃ e < perLane x.ty, 2 ^ x.ty.width ≤ sum l e)

/-- 13 R350, R336, R351: comparisons hold when every element meets the condition; the logic of predicates; the bits of a word
as a predicate. Only the active lanes' bits change. -/
def Obligations.ComparisonsAndPredicates : Prop :=
  (∀ x : CmpF, x.wf = true → Tests (.cmp x) x.h [srcOf x.ty x.a, srcOf x.ty x.b] x.pd fun _ _ vs =>
      (List.range (perLane x.ty)).all fun e =>
        let a := readInt x.ty (elemBits x.ty.width e (vs.getD 0 []))
        let b := readInt x.ty (elemBits x.ty.width e (vs.getD 1 []))
        match x.cond with
        | .eq => decide (a = b) | .ne => decide (a ≠ b) | .lt => decide (a < b)
        | .le => decide (a ≤ b) | .gt => decide (a > b) | .ge => decide (a ≥ b))
  ∧ (∀ x : P3, Tests (.pand x) x.h [] x.pd fun p l _ => (p.w.getP x.pa &&& p.w.getP x.pb).getLsbD l)
  ∧ (∀ x : P3, Tests (.por x) x.h [] x.pd fun p l _ => (p.w.getP x.pa ||| p.w.getP x.pb).getLsbD l)
  ∧ (∀ x : P3, Tests (.pxor x) x.h [] x.pd fun p l _ => (p.w.getP x.pa ^^^ p.w.getP x.pb).getLsbD l)
  ∧ (∀ x : P2, Tests (.pnot x) x.h [] x.pd fun p l _ => !(p.w.getP x.pa).getLsbD l)
  ∧ (∀ x : PToF, x.wf = true → Tests (.pmovToPred x) x.h [src1 x.a] x.pd fun _ l vs =>
      ((vs.getD 0 []).getD 0 0#32).getLsbD l)
  ∧ (∀ x : PFromF, x.wf = true →
      Computes (.pmovFromPred x) x.form 0 (fun p _ _ ws ev => ws = [p.w.getP x.pa] ∧ ev = Counts.none)
    ∧ Computes (.pcnt x) x.form 0 (fun p _ _ ws ev => ws = [BitVec.ofNat 32 (popCount (p.w.getP x.pa))] ∧ ev = Counts.none))

/-- 13 R358, R359; 12 R323: votes over the active lanes, without effect where there is none, the offset of the instruction,
and the retired count of votes, counted in `%lad0`. -/
def Obligations.VotesAndOffsets : Prop :=
  (∀ (x : VoteP) s p i, Issuing s p i → Ready s p i x.g [] [] →
    let m := activeOf p i x.g
    (∃ t, exec (.voteOr x) s = .next t ∧ Computed s t p i m m [] (.imm 0) 0 (fun _ => []) x.pd
        (if p.w.getP x.ps &&& m ≠ 0#32 then m else 0#32) 0 Counts.none)
    ∧ ∃ t, exec (.voteAnd x) s = .next t ∧ Computed s t p i m m [] (.imm 0) 0 (fun _ => []) x.pd
        (if m &&& ~~~ p.w.getP x.ps = 0#32 then m else 0#32) 0 Counts.none)
  ∧ (∀ (x : VoteS) s p i, Issuing s p i → Ready s p i x.g [src1 x.a] [] →
    let m := activeOf p i x.g
    ∃ t, exec (.voteSame x) s = .next t ∧ Computed s t p i m m [src1 x.a] (.imm 0) 0 (fun _ => []) x.pd
        (if ∀ l ∈ lanesOf m, ∀ k ∈ lanesOf m, srcVals s p l [] [src1 x.a] = srcVals s p k [] [src1 x.a] then m else 0#32)
        0 Counts.none)
  ∧ (∀ (x : VoteM) s p i, Issuing s p i → Ready s p i x.g [] [(x.d, 1)] →
    let m := activeOf p i x.g
    (∃ t, exec (.voteMask x) s = .next t
      ∧ Computed s t p i m m [] x.d 1 (fun _ => [p.w.getP x.ps &&& m]) 7 0#32 0 Counts.none)
    ∧ ∃ t, exec (.voteCnt x) s = .next (t.countLadder p.t.core 0 1)
      ∧ Computed s t p i m m [] x.d 1 (fun _ => [BitVec.ofNat 32 (popCount (p.w.getP x.ps &&& m))]) 7 0#32 0 Counts.none)
  ∧ (∀ (x : GDst) s p i, Issuing s p i → Ready s p i x.g [] [(x.d, 1)] →
    ∃ t, exec (.getpc x) s = .next t
      ∧ Computed s t p i (activeOf p i x.g) (activeOf p i x.g) [] x.d 1 (fun _ => [i.pc]) 7 0#32 0 Counts.none)
  ∧ (∀ x : VoteP, Idles (.voteOr x) x.g [] ∧ Idles (.voteAnd x) x.g []) ∧ (∀ x : VoteS, Idles (.voteSame x) x.g [(x.a, 1)])
  ∧ ∀ x : VoteM, Idles (.voteMask x) x.g [(x.d, 1)]

/-! ## Float, logarithmic, ternary and stream instructions (14 R366 to R376) -/

/-- 14 R366, R367: the exact value of each form, rounded once by ENCODE with the NAN mode. -/
def Obligations.FloatArithmetic : Prop :=
  (∀ x : Sh3, x.wf = true →
      Computes (.fadd x) (x.form .f32) 0 (plain (Each2 .f32 fun a b =>
        rounded .f32 .rne (Val.add .rne (floatVal .f32 a) (floatVal .f32 b))))
    ∧ Computes (.fmul x) (x.form .f32) 0 (plain (Each2 .f32 fun a b =>
        rounded .f32 .rne ((floatVal .f32 a).mul (floatVal .f32 b)))))
  ∧ (∀ x : FBin, x.wf = true →
      Computes (.faddXm x) x.form 0 (plain (Each2 x.ty fun a b =>
        rounded x.ty x.rm (Val.add x.rm (floatVal x.ty a) (floatVal x.ty b))))
    ∧ Computes (.fsub x) x.form 0 (plain (Each2 x.ty fun a b =>
        rounded x.ty x.rm (Val.add x.rm (floatVal x.ty a) (floatVal x.ty b).neg)))
    ∧ Computes (.fmulXm x) x.form 0 (plain (Each2 x.ty fun a b =>
        rounded x.ty x.rm ((floatVal x.ty a).mul (floatVal x.ty b))))
    ∧ Computes (.fdiv x) x.form 0 (plain (Each2 x.ty fun a b =>
        rounded x.ty x.rm ((floatVal x.ty a).div (floatVal x.ty b)))))
  ∧ (∀ x : FTern, x.wf = true → Computes (.ffma x) x.form 0 (plain (Each3 x.ty fun a b c =>
      rounded x.ty x.rm (Val.add x.rm ((floatVal x.ty a).mul (floatVal x.ty b)) (floatVal x.ty c)))))
  ∧ (∀ x : FUn, x.wf = true → Computes (.frnd x) x.form 0 (plain (Each1 x.ty fun a r =>
      r = rounded x.ty x.rm ((floatVal x.ty a).rint x.rm))))

/-- 14 R369: the one-source functions, from their exact or enclosed values. Where the enclosures of `fex2`, `flg2`, `fsin`
and `fcos` do not decide the rounding, the result is the model's choice (log 20: the opaque Config.undecided). -/
def Obligations.FloatFunctions : Prop :=
  ∀ x : FUn, x.wf = true →
      Computes (.frcp x) x.form 0 (plain (Each1 x.ty fun a r =>
        r = rounded x.ty x.rm (Val.div (.num false 1 0) (floatVal x.ty a))))
    ∧ Computes (.frsq x) x.form 0 (plain (Each1 x.ty fun a r => r = rounded x.ty x.rm (floatVal x.ty a).rsqrt))
    ∧ Computes (.fsqrt x) x.form 0 (plain (Each1 x.ty fun a r => r = rounded x.ty x.rm (floatVal x.ty a).sqrt))
    ∧ Computes (.fex2 x) x.form 0 (plain (Each1 x.ty fun a r =>
        r = BitVec.ofNat _ ((fmtD x.ty).encodeIn 3 a.toNat (floatVal x.ty a).exp2 x.rm)))
    ∧ Computes (.flg2 x) x.form 0 (plain (Each1 x.ty fun a r =>
        r = BitVec.ofNat _ ((fmtD x.ty).encodeIn 4 a.toNat (floatVal x.ty a).log2 x.rm)))
    ∧ Computes (.fsin x) x.form 0 (plain (Each1 x.ty fun a r =>
        r = BitVec.ofNat _ ((fmtD x.ty).encodeIn 5 a.toNat (floatVal x.ty a).sin x.rm)))
    ∧ Computes (.fcos x) x.form 0 (plain (Each1 x.ty fun a r =>
        r = BitVec.ofNat _ ((fmtD x.ty).encodeIn 6 a.toNat (floatVal x.ty a).cos x.rm)))

/-- 14 R368, R370, R371: one operand bit for bit with −0 below +0, the class mask of the stored bits, and the comparisons,
which hold when every element meets the condition. -/
def Obligations.FloatSelections : Prop :=
  (∀ x : Bin, x.wf Ty.isFloat = true →
    let nan (a : BitVec x.ty.width) : Bool := (floatVal x.ty a).isNan
    let below (a b : BitVec x.ty.width) : Bool := (floatVal x.ty a).lt (floatVal x.ty b)
      || (!(floatVal x.ty b).lt (floatVal x.ty a) && a.msb && !b.msb)
    let canon : BitVec x.ty.width := BitVec.ofNat _ ((fmtD x.ty).nan.getD 0)
    Computes (.fmin x) x.form 0 (plain (Each2 x.ty fun a b =>
        if nan a && nan b then canon else if nan a then b else if nan b then a else if below a b then a else b))
    ∧ Computes (.fmax x) x.form 0 (plain (Each2 x.ty fun a b =>
        if nan a && nan b then canon else if nan a then b else if nan b then a else if below a b then b else a)))
  ∧ (∀ x : Un, x.wf Ty.isFloat = true → Computes (.fcls x) x.form 0 (plain (Each1 x.ty fun a r =>
      let f := fmtD x.ty
      let e := a.toNat / 2 ^ f.mb % 2 ^ (x.ty.width - 1 - f.mb)
      let m := a.toNat % 2 ^ f.mb
      ∃ k, r = BitVec.ofNat _ (2 ^ k) ∧ k < 10 ∧
        (k = 0 ↔ a.msb = true ∧ e = f.top ∧ m = 0) ∧ (k = 1 ↔ a.msb = true ∧ 0 < e ∧ e < f.top)
        ∧ (k = 2 ↔ a.msb = true ∧ e = 0 ∧ m ≠ 0) ∧ (k = 3 ↔ a.msb = true ∧ e = 0 ∧ m = 0)
        ∧ (k = 4 ↔ a.msb = false ∧ e = 0 ∧ m = 0) ∧ (k = 5 ↔ a.msb = false ∧ e = 0 ∧ m ≠ 0)
        ∧ (k = 6 ↔ a.msb = false ∧ 0 < e ∧ e < f.top) ∧ (k = 7 ↔ a.msb = false ∧ e = f.top ∧ m = 0)
        ∧ (k = 8 ↔ e = f.top ∧ m ≠ 0 ∧ a.getLsbD (f.mb - 1) = false)
        ∧ (k = 9 ↔ e = f.top ∧ m ≠ 0 ∧ a.getLsbD (f.mb - 1) = true))))
  ∧ (∀ x : FCmpF, x.wf = true → Tests (.fcmp x) x.h [srcOf x.ty x.a, srcOf x.ty x.b] x.pd fun _ _ vs =>
      (List.range (perLane x.ty)).all fun e =>
        let a := floatVal x.ty (elemBits x.ty.width e (vs.getD 0 []))
        let b := floatVal x.ty (elemBits x.ty.width e (vs.getD 1 []))
        let un := a.isNan || b.isNan
        match x.cond with
        | .eq => !un && !a.lt b && !b.lt a | .ne => un || a.lt b || b.lt a
        | .lt => !un && a.lt b | .le => !un && !b.lt a | .gt => !un && b.lt a | .ge => !un && !a.lt b
        | .un => un | .ord => !un)

/-- 02 R56 to R60, R63, R91, R92, R94: ENCODE of the value of a code that is no NaN is that code, without an event, in every
format, rounding mode and overflow mode; a result that is NaN is the one canonical NaN of the format, as R57 lists them. A
value is rounded into every type and limited there as the tables say; a type converts to itself unchanged but for NaN.
MXQUANT takes the scale of the largest magnitude and encodes every element at it. E→L gives the codes of Example 7. What the
tables leave open is the model's choice: the rounding of a log field (log 21), the E2M1 code of a zero, flushes that count,
E8M0 below -127 (log 61). -/
def Obligations.EncodingOfValues : Prop :=
  let plainLog (v : Val) : Prop := ∀ n e sc, v = .lg n e sc → (sc = 8 ∨ sc = 512) ∧ e ≤ 40 * sc
  (∀ t f, fmtOf t = some f → ∀ (mode : RMode) (nan : Bool),
    (∀ x < 2 ^ f.w, (f.decode x).isNan = false → f.encode (f.decode x) mode nan = (x, 0))
    ∧ ∀ c, f.nan = some c → f.encode .nan mode nan = (c, 0) ∧ (f.decode c).isNan = true)
  ∧ rounded .f32 .rne .nan = 0x7FC00000#32 ∧ rounded .bf16 .rne .nan = 0x7FC0#16 ∧ rounded .f16 .rne .nan = 0x7E00#16
  ∧ (elemOf .e4m3 0 .rne false .nan).1 = 0x7F ∧ (elemOf .e5m2 0 .rne false .nan).1 = 0x7E
  ∧ (∀ t z mode nan v, z < 2 ^ t.width → plainLog v → Converted t z mode nan v (elemOf t z mode nan v))
  ∧ (∀ st dt zs zd mode nan, ∀ x < 2 ^ st.width,
    (st ≠ dt → convElem st dt zs zd mode nan x = elemOf dt zd mode nan (elemVal st zs x))
    ∧ (∀ f, st = dt → fmtOf st = some f → convElem st dt zs zd mode nan x =
        (if (f.decode x).isNan then (f.nan.getD x, 0) else (x, 0)))
    ∧ (st = dt → fmtOf st = none → convElem st dt zs zd mode nan x = (x, 0)))
  ∧ (∀ t ∈ [Ty.e4m3, .e5m2, .e2m1, .mxi8], ∀ mode nan (vs : List Val), (∀ v ∈ vs, plainLog v) →
    let r := mxQuant t mode nan vs
    let special (v : Val) : Bool := match v with | .nan | .inf _ => true | _ => false
    let emax : Int := match t with | .e4m3 => 8 | .e5m2 => 15 | .e2m1 => 2 | _ => 0
    (vs.any special = true → r = (255, vs.map fun _ => 0, 0))
    ∧ (vs.any special = false → ∃ (xs : Int) (cs : List (Nat × Nat)),
        r = ((xs + 127).toNat, cs.map (·.1), (cs.map (·.2)).sum) ∧ cs.length = vs.length ∧ -127 ≤ xs ∧ xs ≤ 127
        ∧ ((∀ v ∈ vs, v.isZero = true) → xs = -127)
        ∧ (∀ a, (∃ v ∈ vs, v.logAtLeast 1 (2 * a)) → (∀ v ∈ vs, ¬ v.logAtLeast 1 (2 * a + 2)) → xs = max (-127) (min 127 (a - emax)))
        ∧ ∀ vc ∈ vs.zip cs, if vc.1.isZero && t == .e2m1 then vc.2 = (if vc.1.isNeg then 8 else 0, 0)
            else Converted t 0 mode nan (vc.1.scale (-xs)) vc.2))
  ∧ expToL16 false 0x00000000 = (0x0000, 0) ∧ expToL16 false 0x3F800000 = (0x02E3, 0) ∧ expToL16 false 0xC0200000 = (0x78C9, 0)
  ∧ expToL16 false 0x41F00000 = (0x3FFF, 1) ∧ expToL16 true 0x41F00000 = (0xC000, 1) ∧ expToL16 false 0xFF800000 = (0x4000, 0)
  ∧ expToL16 false 0x7F800000 = (0x3FFF, 1) ∧ expToL16 false 0x7FC00000 = (0xC000, 0)

/-- 02 R69, R70, R72; 14 R373: logarithmic elements, and each clamp and flush counted in `%lsat` of the core. -/
def Obligations.LogarithmicOperations : Prop :=
  ∀ x : LBin, x.wf = true →
    let run (f : Nat → Nat → Nat × Nat) (_ : Place) (_ : Nat) (vs : List (List Word)) (ws : List Word) (ev : Counts) : Prop :=
      let r (e : Nat) := f (elemBits x.ty.width e (vs.getD 0 [])).toNat (elemBits x.ty.width e (vs.getD 1 [])).toNat
      (∀ e < perLane x.ty, elemBits x.ty.width e ws = BitVec.ofNat _ (r e).1)
        ∧ ev = ⟨((List.range (perLane x.ty)).map fun e => (r e).2).sum, 0, 0, 0⟩
    Computes (.lmul x) x.form 0 (run (lMulDiv x.ty false x.nan))
    ∧ Computes (.ldiv x) x.form 0 (run (lMulDiv x.ty true x.nan))
    ∧ Computes (.ladd x) x.form 0 (run (lAdd x.ty false x.nan))
    ∧ Computes (.lsub x) x.form 0 (run (lAdd x.ty true x.nan))

/-- 02 R67 to R72: the value of a product or quotient of codes that are neither zero nor NaR has the sum or the difference of
their exponents and the XOR of their signs, where the threshold of R69 lets it; beyond it the result is clamped to the
largest magnitude, or NaR in the NAN mode, or flushed to zero, and one event is counted. PHI and PSI are the nearest integers
to s × log2(1 + 2^(-d/s)) and s × log2(1 - 2^(-d/s)), shown by fractions on both sides of 2^(-d/s); LADD adds them to the
larger field, cancels equal magnitudes of opposite sign without an event, and limits its result. -/
def Obligations.LogarithmicArithmetic : Prop :=
  (∀ t : Ty, t.isL = true → ∀ x < 2 ^ t.width, ∀ y < 2 ^ t.width, ∀ na ea nb eb,
    lDecode t x = .lg na ea (lScale t) → lDecode t y = .lg nb eb (lScale t) → ∀ isDiv nan : Bool,
      let e : Int := if isDiv then ea - eb else ea + eb
      let r := lMulDiv t isDiv nan x y
      (-(lLimit t : Int) < e → e < lLimit t → r.2 = 0 ∧ lDecode t r.1 = .lg (na != nb) e (lScale t))
      ∧ (e ≤ -(lLimit t : Int) → r = (lZero t, 1))
      ∧ ((lLimit t : Int) ≤ e → r.2 = 1 ∧ (nan = true → r.1 = lNar t)
          ∧ (nan = false → lDecode t r.1 = .lg (na != nb) (lLimit t - 1) (lScale t))))
  ∧ (∀ s d, (s = 8 ∧ d < 128) ∨ (s = 512 ∧ d < 32768) →
    (∃ n k q k1 q1 : Nat, lCorr s false d = n ∧ 0 < q ∧ 0 < q1
      ∧ k ^ s * 2 ^ d ≤ q ^ s ∧ 2 ^ (2 * n) * q ^ (2 * s) < 2 * (q + k) ^ (2 * s)
      ∧ q1 ^ s ≤ k1 ^ s * 2 ^ d ∧ (q1 + k1) ^ (2 * s) < 2 ^ (2 * n + 1) * q1 ^ (2 * s))
    ∧ (d ≠ 0 → ∃ n k q k1 q1 : Nat, lCorr s true d = -(n : Int) ∧ 0 < q ∧ k1 < q1
      ∧ k ^ s * 2 ^ d ≤ q ^ s ∧ (q - k) ^ (2 * s) * 2 ^ (2 * n) < 2 * q ^ (2 * s)
      ∧ q1 ^ s ≤ k1 ^ s * 2 ^ d ∧ q1 ^ (2 * s) < (q1 - k1) ^ (2 * s) * 2 ^ (2 * n + 1)))
  ∧ ∀ t : Ty, t.isL = true → ∀ x < 2 ^ t.width, ∀ y < 2 ^ t.width, ∀ sub nan : Bool,
      let r := lAdd t sub nan x y
      (x = lNar t ∨ y = lNar t → r = (lNar t, 0))
      ∧ (y = lZero t → x ≠ lNar t → r = (x, 0))
      ∧ ∀ nb eb, lDecode t y = .lg nb eb (lScale t) → let nb := nb != sub
        (x = lZero t → r.2 = 0 ∧ lDecode t r.1 = .lg nb eb (lScale t))
        ∧ ∀ na ea, lDecode t x = .lg na ea (lScale t) →
          let neg := if ea < eb then nb else na
          let d := (ea - eb).natAbs
          (na = nb → Limited t neg nan (max ea eb + lCorr (lScale t) false d) r)
          ∧ (na ≠ nb → d = 0 → r = (lZero t, 0))
          ∧ (na ≠ nb → d ≠ 0 → Limited t neg nan (max ea eb + lCorr (lScale t) true d) r)

/-- 10 R245; 14 R363, R374 to R376; 02 R74 to R77, R83: sixteen ternary weights on sixteen activations and an addend, one
after the other, wrapping, each wrap counted in `%zwrap`; 0b10 reads 0 and counts in `%t2inv`; stream products with SCKEY of
the kernel, and the bits of a stream. The price is 2 of `tdot` and `smul` and 1 of `sgen` (14 R363; 10 R245). -/
def Obligations.TernaryAndStreams : Prop :=
  (
    ∀ x : TdotF, x.wf = true → Computes (.tdot x) x.form 2 fun _ _ vs ws ev =>
      let wt (j : Nat) : Int := if elemBits 2 j (vs.getD 0 []) = 1#2 then 1 else if elemBits 2 j (vs.getD 0 []) = 3#2 then -1 else 0
      let c : Word := BitVec.ofNat 32 (wordsNat (vs.getD 2 []))
      let term (j : Nat) : Int := wt j * (elemBits 8 j (vs.getD 1 [])).toInt
      let wraps := (List.range 16).foldl (fun (a : Word × Nat) j => let x := a.1.toInt + term j
        (BitVec.ofInt 32 x, a.2 + if x < -(2 ^ 31) ∨ 2 ^ 31 ≤ x then 1 else 0)) (c, 0)
      ws = [c + BitVec.ofInt 32 ((List.range 16).map term).sum] ∧ ev.zwrap = wraps.2
      ∧ ev.t2inv = ((List.range 16).filter fun j => elemBits 2 j (vs.getD 0 []) = 2#2).length ∧ ev.lsat = 0 ∧ ev.cvsat = 0)
  ∧ (
    (∀ x : SmulF, x.wf = true → Computes (.smul x) x.form 2 fun p l vs ws ev => ev = Counts.none
      ∧ ws = [BitVec.ofInt 32 ((List.range 4).map fun e =>
          let a := (elemBits 8 e (vs.getD 0 [])).toInt
          let b := (elemBits 8 e (vs.getD 1 [])).toInt
          let n : Int := streamOnes x.n.val (a.natAbs * 2 ^ x.n.val / 128) (b.natAbs * 2 ^ x.n.val / 128) (2 ^ x.n.val)
            (streamSeed p.gr.sckey l e 0) (streamSeed p.gr.sckey l e 1)
          if (a < 0) = (b < 0) then n else -n).sum])
    ∧ (∀ x : SgenF, x.wf = true → Computes (.sgen x) x.form 1 fun p l vs ws ev => ev = Counts.none
      ∧ ∃ r : Word, ws = [r] ∧ ∀ t < 32,
          let a := (vs.getD 0 []).getD 0 0#32
          let i := bits a 31 16 + t
          let j := bits a 8 8
          let s := lfsrAt (lfsrTaps j) i (streamSeed p.gr.sckey l (bits a 10 9) j)
          r.getLsbD t = (decide (i < 2 ^ x.n.val)
            && decide (s / 2 ^ (16 - x.n.val) < (a.setWidth 8).toInt.natAbs * 2 ^ x.n.val / 128))))

/-! ## Conversion and lane operations (14 R377 to R385) -/

/-- 14 R379; 02 R91 to R94: every element converted, saturation counted in `%cvsat` and 0b10 in `%t2inv`; `mxdq`, `zdq` and
`tunp` read their lane alone (14 R381 to R383). -/
def Obligations.Conversions : Prop :=
  (∀ x : CvtF, x.wf = true → Computes (.cvt x) x.form 0 fun _ _ vs ws ev =>
    let src (e : Nat) : Nat := wordsNat (vs.getD 0 []) / 2 ^ (x.sty.width * e) % 2 ^ x.sty.width
    let b := wordsNat (vs.getD 1 [])
    let zp (t : Ty) (k : Nat) : Nat := b / 2 ^ k % (if t = .z4 then 16 else 256)
    let r (e : Nat) : Nat × Nat := if x.el then expToL16 x.nan (src e)
      else convElem x.sty x.dty (zp x.sty 0) (zp x.dty 8) x.rm x.nan (src e)
    (∀ e < cvtCount x.sty x.dty, elemBits x.dty.width e ws = BitVec.ofNat _ (r e).1)
      ∧ ev = ⟨0, if x.sty = .t2 then ((List.range (cvtCount x.sty x.dty)).filter fun e => src e = 2).length else 0, 0,
          ((List.range (cvtCount x.sty x.dty)).map fun e => (r e).2).sum⟩)
  ∧ (∀ x : ConvF, x.wf false mxdqTys = true → Computes (.mxdq x) (x.form (srcOf x.sty x.a)) 0 fun _ _ vs ws ev =>
    let a := wordsNat (vs.getD 0 [])
    let r (e : Nat) : Nat × Nat := elemOf x.dty 0 x.rm x.nan
      (mxVal x.sty (a / 2 ^ (8 * (2 + e)) % 256) (a / 2 ^ (8 * e) % (if x.sty = .e2m1 then 16 else 256)))
    (∀ e < perLane x.dty, elemBits x.dty.width e ws = BitVec.ofNat _ (r e).1)
      ∧ ev = ⟨0, 0, 0, ((List.range (perLane x.dty)).map fun e => (r e).2).sum⟩)
  ∧ (∀ x : ConvF, x.wf false zdqTys = true → Computes (.zdq x) (x.form (srcOf x.sty x.a)) 0 (plain fun vs ws =>
    let a := wordsNat (vs.getD 0 [])
    let m := if x.sty = .z4 then 16 else 256
    let q : Int := (a % m : Nat) - (a / 2 ^ 16 % m : Nat)
    ws = [if x.dty = .i32 then BitVec.ofInt 32 q else rounded .f32 x.rm (Val.ofInt q)]))
  ∧ (∀ x : ConvF, x.wf false tunpTys = true → Computes (.tunp x) (x.form (srcOf .t2 x.a)) 0 fun _ l vs ws ev =>
    let c := elemBits 2 (l % 16) (vs.getD 0 [])
    let v : Int := if c = 1#2 then 1 else if c = 3#2 then -1 else 0
    ws = [if x.dty = .i32 then BitVec.ofInt 32 v else rounded .f32 .rne (Val.ofInt v)]
      ∧ ev = ⟨0, if c = 2#2 then 1 else 0, 0, 0⟩)

/-- 14 R380, R382, R383: conversions over the active lanes of a path: one block for each element position with the scale and
codes of MXQUANT, the zero point of the smallest value, and the codes of 16 lanes in one word. -/
def Obligations.BlockConversions : Prop :=
  (∀ x : ConvF, x.wf true mxqTys = true → Crosses (.mxq x) x.h.g [srcOf x.sty x.a] x.d 1 fun _ m vals ws ev =>
    let elem (e l : Nat) : Val := elemVal x.sty 0 (elemBits x.sty.width e ((vals l).getD 0 [])).toNat
    let q (e : Nat) := mxQuant x.dty x.rm x.nan ((lanesOf m).map (elem e))
    (∀ l ∈ lanesOf m, ∀ e < perLane x.sty,
        (elemBits 8 e (ws l)).toNat = (q e).2.1.getD ((lanesOf m).findIdx (· = l)) 0
        ∧ (elemBits 8 (2 + e) (ws l)).toNat = (q e).1
        ∧ (perLane x.sty = 1 → elemBits 8 1 (ws l) = 0#8 ∧ elemBits 8 3 (ws l) = 0#8))
      ∧ ev = ⟨0, 0, 0, ((List.range (perLane x.sty)).map fun e => (q e).2.2).sum⟩)
  ∧ (∀ x : ConvF, x.wf true zqTys = true → Crosses (.zq x) x.h.g [srcOf x.sty x.a] x.d 1 fun _ m vals ws ev =>
    let v (l : Nat) : Val := elemVal x.sty 0 (elemBits x.sty.width 0 ((vals l).getD 0 [])).toNat
    let r (l : Nat) : Int × Nat := satRound x.rm 0 0 (-(2 ^ 31)) (2 ^ 31 - 1) (v l)
    let top : Int := if x.dty = .z4 then 15 else 255
    let vmin : Int := ((((lanesOf m).filter fun l => !(v l).isNan).map fun l => (r l).1).min?).getD 0
    let z : Int := max 0 (min top (-vmin))
    let q (l : Nat) : Int := if (v l).isNan then z else (r l).1 + z
    (∀ l ∈ lanesOf m, ws l = [BitVec.ofInt 32 (max 0 (min top (q l)) + z * 2 ^ 16)])
      ∧ ev = ⟨0, 0, 0, ((lanesOf m).map fun l =>
          if (v l).isNan then 1 else (r l).2 + (if q l < 0 ∨ top < q l then 1 else 0)).sum⟩)
  ∧ (∀ x : ConvF, x.wf true tpkTys = true → Crosses (.tpk x) x.h.g [srcOf x.sty x.a] x.d 1 fun _ m vals ws ev =>
    let code (l : Nat) : Nat × Nat :=
      elemOf .t2 0 x.rm x.nan (elemVal x.sty 0 (elemBits x.sty.width 0 ((vals l).getD 0 [])).toNat)
    (∀ l ∈ lanesOf m, ∀ j < 16,
        elemBits 2 j (ws l) = if m.getLsbD (16 * (l / 16) + j) then BitVec.ofNat 2 (code (16 * (l / 16) + j)).1 else 0#2)
      ∧ ev = ⟨0, 0, 0, ((lanesOf m).map fun l => (code l).2).sum⟩)

/-- 14 R384, R385: every active lane receives the word of a in its source lane, an inactive one included; a reduction folds
the operation in ascending order over the active lanes of the path, a scan over those up to the lane, with the identity where
there is none. The value that a port in a gives for an inactive source lane is free (log 24: the spec states none), so
nothing is claimed of it. -/
def Obligations.LaneExchange : Prop :=
  (
    let moves (x : ShflF) (ins : Instr) (j : LaneMask → (Nat → Nat) → Nat → Nat) : Prop :=
      Crosses ins x.g [srcOf x.ty x.a, src1 x.b] x.d 1 fun _ m vals ws ev => ev = Counts.none
        ∧ ∀ l ∈ lanesOf m,
            let b (k : Nat) : Nat := (((vals k).getD 1 []).getD 0 0#32).toNat % 32
            (x.a.isPort = false ∨ m.getLsbD (j m b l) = true) → ws l = (vals (j m b l)).getD 0 []
    ∀ x : ShflF, x.wf = true →
        moves x (.shflSel x) (fun _ b i => b i)
      ∧ moves x (.shflLo x) (fun _ b i => if i < b i then i else i - b i)
      ∧ moves x (.shflHi x) (fun _ b i => if 31 < i + b i then i else i + b i)
      ∧ moves x (.shflFlip x) (fun _ b i => i ^^^ b i)
      ∧ moves x (.bcast x) (fun m b _ => b (lowLane m)))
  ∧ (
    (∀ x : LredF, x.wf = true → Crosses (.lred x) x.g [srcOf x.ty x.a] x.d 1 fun _ m vals ws ev => ev = Counts.none
      ∧ ∃ l0 rest, lanesOf m = l0 :: rest ∧ ∀ l ∈ lanesOf m,
          ws l = [BitVec.ofNat 32 (rest.foldl (fun acc k => redOp x.ty x.op acc (wordsNat ((vals k).getD 0 [])))
            (wordsNat ((vals l0).getD 0 [])))])
    ∧ (∀ x : LscanF, x.wf = true → Crosses (.lscan x) x.g [srcOf x.ty x.a] x.d 1 fun _ m vals ws ev => ev = Counts.none
      ∧ ∀ l ∈ lanesOf m, ws l = [match (lanesOf m).filter fun k => if x.excl then decide (k < l) else decide (k ≤ l) with
          | [] => BitVec.ofNat 32 (redIdentity x.ty x.op)
          | k0 :: ks => BitVec.ofNat 32 (ks.foldl (fun acc k => redOp x.ty x.op acc (wordsNat ((vals k).getD 0 [])))
              (wordsNat ((vals k0).getD 0 [])))]))

/-! ## Control (13 R352 to R357; 17 R441, R442, R446) -/

/-- 13 R352 to R354: each active lane stands at its target, at the head of a clause; the other lanes of the path continue
after the clause; `call` leaves the offset of the word after its clause. Targets are aligned. -/
def Obligations.Transfers : Prop :=
  (∀ (x : BrF) s p i, Issuing s p i → Ready s p i x.g [] [] →
    ∃ t, exec (.br x) s = .next t
      ∧ Transferred s t p i (activeOf p i x.g) [] (.imm 0) 0#32 fun _ => i.pc + x.disp)
  ∧ (∀ (x : CallF) s p i, Issuing s p i → Ready s p i x.g [] [(x.d, 1)] →
    ∃ t, exec (.call x) s = .next t
      ∧ Transferred s t p i (activeOf p i x.g) [] x.d (i.pc + BitVec.ofNat 32 i.len) fun _ => i.pc + x.disp)
  ∧ (∀ (x : RetF) s p i, Issuing s p i → Ready s p i x.g [src1 x.a] [] →
    let target (l : Nat) : Word := ((srcVals s p l [] [src1 x.a]).getD 0 []).getD 0 0#32
    (∀ l ∈ lanesOf (activeOf p i x.g), (target l).toNat % 4 = 0) →
    (∃ t, exec (.brx x) s = .next t
      ∧ Transferred s t p i (activeOf p i x.g) [src1 x.a] (.imm 0) 0#32 target)
    ∧ ∃ t, exec (.ret x) s = .next t
      ∧ Transferred s t p i (activeOf p i x.g) [src1 x.a] (.imm 0) 0#32 target)

/-- 13 R355 to R357; 01 R44; 17 R446: an active lane that exits has left every entry of the operand log behind it; it stands
at 0xFFFFFFFF and never issues again, its reservation is gone and its outbound ports close; the exit of the last lane reaches
every barrier of the warp 2 cc later. `yield` moves the path to the next clause and the warp defers for 64 cc, `hint` with k
= 0 for 16 and with k = 1 leaves every register as it was; `nop` and the other hints change nothing. -/
def Obligations.ExitsYieldsAndHints : Prop :=
  (
    ∀ (x : Gd) s p i, Issuing s p i → Ready s p i x.g [] [] →
      let m := activeOf p i x.g
      (∀ ke ∈ p.w.log, ke.2.active &&& ~~~ ke.2.done &&& m = 0#32) →
      ∃ t w, exec (.exit x) s = .next t ∧ t.warps.get? p.key = some w
        ∧ t = { s with warps := t.warps, flight := t.flight, exits := t.exits, cores := t.cores, teams := t.teams, gangs := t.gangs }
        ∧ (∀ k, k ≠ p.key → t.warps.get? k = s.warps.get? k)
        ∧ w = { p.w with exited := p.w.exited ||| m, pcv := w.pcv, bpExempt := w.bpExempt, entering := w.entering
                         inside := w.inside, tempoSince := w.tempoSince, yieldUntil := w.yieldUntil
                         resv := p.w.resv.filter fun lr => ! m.getLsbD lr.1 }
        ∧ PcsAt p.w w i m (fun _ => 0xFFFFFFFF#32)
        ∧ t.flight = s.flight ++ (lanesOf m).flatMap (fun l => allPorts.filterMap fun q =>
            (s.peer p q l).map fun d => (⟨d.1, d.2.1, d.2.2, none, 2⟩ : PortMsg))
        ∧ (p.w.exited ||| m ≠ 0xFFFFFFFF#32 → t.exits = s.exits ∧ t.teams = s.teams ∧ t.gangs = s.gangs
            ∧ (w.st ≠ .blocked → t.cores = s.cores ∧ w.tempoSince = p.w.tempoSince ∧ w.yieldUntil = p.w.yieldUntil))
        ∧ (p.w.exited ||| m = 0xFFFFFFFF#32 →
            t.exits = s.exits ++ (p.t.bar :: p.g.bars).map fun b => ⟨s.coreCc p.t.core + 2, b, p.key⟩))
  ∧ (
    (∀ (x : Gd) s p i, Issuing s p i → Ready s p i x.g [] [] → ∃ t, exec (.yield x) s = .next t
      ∧ Passed s t p i { p.w with yieldUntil := max p.w.yieldUntil (s.coreCc p.t.core + 64) })
    ∧ (∀ (x : Gd) s p i, Issuing s p i → ∃ t, exec (.nop x) s = .next t ∧ Passed s t p i p.w)
    ∧ (∀ (x : HintF) s p i, Issuing s p i → x.k = 1 → ∃ t w, exec (.hint x) s = .next t ∧ AllRegsSame s t
      ∧ (prefetchText s p i.pc).warps.get? p.key = some w ∧ Passed (prefetchText s p i.pc) t { p with w := w } i w)
    ∧ (∀ (x : HintF) s p i, Issuing s p i → x.k ≠ 1 → ∃ t, exec (.hint x) s = .next t
      ∧ Passed s t p i (if x.k = 0 then { p.w with yieldUntil := max p.w.yieldUntil (s.coreCc p.t.core + 16) } else p.w)))

/-- 00 R16; 05 R154; 10 R246: every instruction of the opcode table that a guard can idle, with an empty active set, retires
without effect on registers, memory or ports, where the kernel admits its form and its registers, tiles and accumulators lie
in the allotment; its price is still charged, and a retired form's attempt still counted (05 R154). -/
def Obligations.EmptyActiveSet : Prop :=
  ∀ s p i ins n, Issuing s p i → Instr.named p ins = some n → activeOf p i n.g = 0#32 → formOk p ins = true →
    (p.gr.contract = 9 ∨ n.code = 0) → (n.accs ≠ [] → (entryTy p.gr.contract).isSome = true) →
    (∀ x ∈ n.regs, inAllot p.w x.1 x.2 = true) → (∀ t ∈ n.tiles, t < p.w.ta) → (∀ a ∈ n.accs, a < p.w.aa) →
    Payable s p n.price →
    ∃ t, exec ins s = .next (match ins with
        | .voteCnt _ => t.countLadder p.t.core 0 1
        | .ffmaUnf _ => t.countLadder p.t.core 1 2
        | .shflWide _ => t.countLadder p.t.core 1 3
        | _ => t)
      ∧ Computed s t p i 0#32 0#32 [] (.imm 0) 0 (fun _ => []) 7 0#32 n.price Counts.none
      ∧ (n.price = 0 → Passed s t p i p.w)

/-! ## Traps (06 R175 to R178; 17 R441, R442) -/

/-- 06 R177, R178: taking a trap of any cause fills the handler state and sends every lane of the path to the handler that 03
R98 finds; without a handler, or in handler mode, the warp is pinned with P-NOHANDLER, code 6. -/
def Obligations.TakingATrap : Prop :=
  (∀ s p i (c : Cause) sub mask val s0 off, s.place? p.key = some p → p.w.handler.on = false →
    findHandler s p (causeCode c) = .found s0 off →
    HandlerEntered s0 (takeTrap s p i c sub mask val) p i c sub mask val off)
  ∧ (∀ s p i (c : Cause) sub mask val, s.place? p.key = some p →
    (p.w.handler.on = true ∨ ∃ s0, findHandler s p (causeCode c) = .none s0) →
    PinnedAt (takeTrap s p i c sub mask val) p i 6 i.path)
  ∧ causeCode .illegal = 1 ∧ causeCode .resv = 2 ∧ causeCode .retired = 3 ∧ causeCode .align = 4 ∧ causeCode .regnum = 5
  ∧ causeCode .rangelock = 6 ∧ causeCode .portdead = 7 ∧ causeCode .futdead = 8 ∧ causeCode .user = 9 ∧ causeCode .brk = 10

/-- 17 R441, R442; 06 R178: `trap` takes USER in its active lanes with its immediate in `%tval`; `rte` ends handler mode and
every lane of `%tpath` that has not exited stands at `%epc`, exempt from one breakpoint check. -/
def Obligations.TrapAndReturn : Prop :=
  (∀ (x : TrapF) s p i s0 off, Issuing s p i → Ready s p i x.g [] [] → p.w.handler.on = false →
    findHandler s p 9 = .found s0 off →
    ∃ t, exec (.trap x) s = .next t
      ∧ HandlerEntered s0 t p i .user 0 (activeOf p i x.g) (x.imm.setWidth 64) off)
  ∧ (∀ (x : Gd) s p i, Issuing s p i → Ready s p i x.g [] [] → p.w.handler.on = true →
    let back := p.w.handler.tpath &&& ~~~ p.w.exited
    ∃ t w, exec (.rte x) s = .next t ∧ t = { s with warps := t.warps }
      ∧ (∀ k, k ≠ p.key → t.warps.get? k = s.warps.get? k) ∧ t.warps.get? p.key = some w
      ∧ w = { p.w with handler := { p.w.handler with on := false }, pcv := w.pcv, bpExempt := w.bpExempt
                       entering := w.entering, inside := w.inside }
      ∧ (∀ l ∈ lanesOf back, w.bpExempt.getLsbD l = true)
      ∧ ∀ l, l < 32 → w.pc l = if back.getLsbD l then p.w.handler.epc
          else if i.path.getLsbD l ∧ (activeOf p i x.g).getLsbD l = false then i.pc + BitVec.ofNat 32 i.len else p.w.pc l)

/-- 13 R354, 17 R442, 12 R322, R324, R325, 05 R153, R154: a target whose low bits are set raises ALIGN with the lanes and the
target of the lowest of them; `rte` outside handler mode raises ILLEGAL; `ld.nc` raises RETIRED and `mma.tf32` ILLEGAL; the
microcoded retired forms run, twice rounded and as pairs; each attempt adds 1 to its counter of the ladder, unless `%ladsel`
selects another position of the ladder. -/
def Obligations.TrappingAndRetiredForms : Prop :=
  (
    (∀ (x : RetF) s p i s0 off, Issuing s p i → Ready s p i x.g [src1 x.a] [] → p.w.handler.on = false →
      findHandler s p 4 = .found s0 off →
      let target (l : Nat) : Word := ((srcVals s p l [] [src1 x.a]).getD 0 []).getD 0 0#32
      let bad := maskOf ((lanesOf (activeOf p i x.g)).filter fun l => decide ((target l).toNat % 4 ≠ 0))
      bad ≠ 0#32 →
      (∃ t, exec (.brx x) s = .next t ∧ HandlerEntered s0 t p i .align 0 bad ((target (lowLane bad)).setWidth 64) off)
      ∧ ∃ t, exec (.ret x) s = .next t ∧ HandlerEntered s0 t p i .align 0 bad ((target (lowLane bad)).setWidth 64) off)
    ∧ (∀ (x : Gd) s p i s0 off, Issuing s p i → p.w.handler.on = false → findHandler s p 1 = .found s0 off →
      ∃ t, exec (.rte x) s = .next t ∧ HandlerEntered s0 t p i .illegal 0 i.path 0#64 off)
    ∧ (∀ (x : LdF) s p i s0 off, Issuing s p i → p.w.handler.on = false → findHandler s p 3 = .found s0 off →
      ∃ t, exec (.ldNc x) s = .next (t.countLadder p.t.core 2 4) ∧ HandlerEntered s0 t p i .retired 0 i.path 0#64 off)
    ∧ (∀ (x : Tf32F) s p i s0 off, Issuing s p i → p.w.handler.on = false → findHandler s p 1 = .found s0 off →
      ∃ t, exec (.mmaTf32 x) s = .next (t.countLadder p.t.core 3 5) ∧ HandlerEntered s0 t p i .illegal 0 i.path 0#64 off))
  ∧ (
    (∀ (x : FTern) s p i, x.wf = true → Issuing s p i → Ready s p i x.h.g x.form.srcs [(x.d, 1)] →
      ∃ t val, exec (.ffmaUnf x) s = .next (t.countLadder p.t.core 1 2)
        ∧ Computed s t p i (activeOf p i x.h.g) (readLanes x.h (activeOf p i x.h.g)) x.form.srcs x.d 1 val 7 0#32 0 Counts.none
        ∧ ∀ l ∈ lanesOf (activeOf p i x.h.g), (val l).length = 1 ∧ Each3 x.ty (fun a b c =>
            rounded x.ty x.rm (Val.add x.rm
              (floatVal x.ty (rounded x.ty x.rm ((floatVal x.ty a).mul (floatVal x.ty b)))) (floatVal x.ty c)))
            (srcVals s p (laneFor x.h (activeOf p i x.h.g) l) [] x.form.srcs) (val l))
    ∧ (∀ (x : WideF) s p i, x.wf = true → Issuing s p i →
      let srcs : List Src := [⟨x.a, 2, srcT .n64 x.a⟩, src1 x.b]
      let m := activeOf p i x.g
      Ready s p i x.g srcs [(x.d, 2)] →
      ∃ t val, exec (.shflWide x) s = .next (t.countLadder p.t.core 1 3)
        ∧ Computed s t p i m m srcs x.d 2 val 7 0#32 0 Counts.none
        ∧ ∀ l ∈ lanesOf m, (val l).length = 2
          ∧ let j := (((srcVals s p l [] srcs).getD 1 []).getD 0 0#32).toNat % 32
            (x.a.isPort = false ∨ m.getLsbD j = true) → val l = (srcVals s p j [] srcs).getD 0 [])
    ∧ (∀ (c : Core) (k : Nat) (s : State) rung pos, s.core k = c →
        (c.ladsel = 0#32 ∨ c.ladsel.toNat = pos →
          ((s.countLadder k rung pos).core k).lad = c.lad.set rung (c.lad.getD rung 0#32 + 1#32))
        ∧ (c.ladsel ≠ 0#32 → c.ladsel.toNat ≠ pos → (s.countLadder k rung pos).core k = c)))


/-! ## Memory (15 R386 to R403; 11) -/

/-- 15 R386, R389, R390; 11 R267: each active lane receives the element at its address, extended as its type says; `ldu`
loads once for the lowest active lane; `ld.poll` demotes its lanes. Memory and every other register stay, and a release
changes what `Released` says. That the lines read enter the LLC is the model's choice (log 7). -/
def Obligations.Loads : Prop :=
  ∀ (x : LdF) s p i (xl : Nat → Xlat), x.wf Ty.isMem = true → Issuing s p i →
    let m := activeOf p i x.g
    let home (t : State) : State := if MemOrdRel x.ord then t.releaseHome p else t
    let got (l : Nat) : List Word := loadedWords x.ty (natLE (s.memRead (xl l).loc (x.ty.width / 8)))
    let gives (o : MemOp) (val : Nat → List Word) (t : State) : Prop := Computed s t p i m m o.srcs x.d x.ty.regs val 7 0#32 0 Counts.none
    (AccessReady s p i (ldOp x (.load false) false) xl →
      ∃ t u, exec (.ld x) s = .next u ∧ Filled (home t) u ∧ gives (ldOp x (.load false) false) got t)
    ∧ (AccessReady s p i (ldOp x (.load true) false) xl →
      ∃ t u, exec (.ldPoll x) s = .next u ∧ Filled (home (t.demote p.key m)) u ∧ gives (ldOp x (.load true) false) got t)
    ∧ (AccessReady s p i (ldOp x (.load false) true) xl →
      ∃ t u, exec (.ldu x) s = .next u ∧ Filled (home t) u ∧ gives (ldOp x (.load false) true) (fun _ => got (lowLane m)) t)

/-- 15 R391: `st` stores the low bytes of b of each active lane at its address, in ascending lane order, so that the highest
active lane's bytes remain where lanes meet; `stu` stores once for the lowest active lane. No other byte of memory and no
register changes. -/
def Obligations.Stores : Prop :=
  ∀ (x : StF) s p i (xl : Nat → Xlat), x.wf = true → Issuing s p i →
    let m := activeOf p i x.g
    let bytes (o : MemOp) (l : Nat) : Nat × List Byte :=
      ((xl l).loc, elemLE (elemBits x.ty.width 0 ((srcVals s p l [] o.srcs).getD 1 [])))
    (AccessReady s p i (stOp x false) xl → ∃ t, exec (.st x) s = .next t
      ∧ Stored s t p i m (stOp x false).srcs ((lanesOf m).map (bytes (stOp x false)))
          fun w => RegsSame p.w w ∧ w.demoted = p.w.demoted)
    ∧ (AccessReady s p i (stOp x true) xl → ∃ t, exec (.stu x) s = .next t
      ∧ Stored s t p i m (stOp x true).srcs [bytes (stOp x true) (lowLane m)]
          fun w => RegsSame p.w w ∧ w.demoted = p.w.demoted)

/-- 15 R393: in ascending lane order, each active lane receives the old element and leaves the operation's result in memory,
which a later lane at the same place reads. -/
def Obligations.Atomics : Prop :=
  let rmw (x : AtomF) (ins : Instr) (f : RmwFn) : Prop :=
    ∀ s p i (xl : Nat → Xlat), Issuing s p i → AccessReady s p i (atomOp x (.rmw f)) xl →
      let m := activeOf p i x.g
      let srcs := (atomOp x (.rmw f)).srcs
      ∃ t, ∃ old : Nat → BitVec x.ty.width,
        let put (l : Nat) : Nat × List Byte :=
          ((xl l).loc, elemLE (rmwBits x.ty f (old l) (elemBits x.ty.width 0 ((srcVals s p l [] srcs).getD 1 []))))
        (∀ l ∈ lanesOf m, old l = BitVec.ofNat _ (natLE ((List.range (x.ty.width / 8)).map fun j =>
          lastStore (((lanesOf m).filter (· < l)).map put) s.byteAt ((xl l).loc + j))))
        ∧ exec ins s = .next t
        ∧ Stored s t p i m srcs ((lanesOf m).map put) fun w => w.demoted = p.w.demoted
            ∧ RegsGet p.w w m x.d x.ty.regs fun l => loadedWords x.ty (old l).toNat
  ∀ x : AtomF, x.wf = true →
    rmw x (.atomAdd x) .add ∧ rmw x (.atomSub x) .sub ∧ rmw x (.atomMin x) .min ∧ rmw x (.atomMax x) .max
    ∧ rmw x (.atomAnd x) .and ∧ rmw x (.atomOr x) .or ∧ rmw x (.atomXor x) .xor ∧ rmw x (.atomExch x) .exch

/-- 15 R394, R395; 11 R288: `cas` writes c where the old element equals b; each active lane receives the old element, and a
lane that fails is demoted. `ldr` loads and gives each active lane a reservation on the line of its address; `stc` stores and
gives 0 where the lane holds one that no earlier lane of the instruction has broken, else it gives 1 and demotes; the
reservations of its lanes are gone. -/
def Obligations.ConditionalStores : Prop :=
  (
    ∀ (x : CasF) s p i (xl : Nat → Xlat), x.wf = true → Issuing s p i → AccessReady s p i (casOp x) xl →
      let m := activeOf p i x.g
      let arg (k l : Nat) : BitVec x.ty.width := elemBits x.ty.width 0 ((srcVals s p l [] (casOp x).srcs).getD k [])
      ∃ t, ∃ old : Nat → BitVec x.ty.width,
        let wins (l : Nat) : Bool := decide (old l = arg 1 l)
        let put (l : Nat) : Nat × List Byte := ((xl l).loc, elemLE (arg 2 l))
        (∀ l ∈ lanesOf m, old l = BitVec.ofNat _ (natLE ((List.range (x.ty.width / 8)).map fun j =>
          lastStore (((lanesOf m).filter fun k => decide (k < l) && wins k).map put) s.byteAt ((xl l).loc + j))))
        ∧ exec (.cas x) s = .next t
        ∧ Stored s t p i m (casOp x).srcs (((lanesOf m).filter wins).map put) fun w =>
            w.demoted = p.w.demoted ||| maskOf ((lanesOf m).filter fun l => !wins l)
            ∧ RegsGet p.w w m x.d x.ty.regs fun l => loadedWords x.ty (old l).toNat)
  ∧ (
    (∀ (x : LdF) s p i (xl : Nat → Xlat), x.wf Ty.isAtom = true → Issuing s p i → AccessReady s p i (ldOp x .ldr false) xl →
      let m := activeOf p i x.g
      ∃ t u, exec (.ldr x) s = .next u
        ∧ Filled ((if MemOrdRel x.ord then t.releaseHome p else t).modWarp p.key fun w =>
            { w with resv := (lanesOf m).foldl (fun r l => r.put l ⟨(xl l).line, s.coreCc p.t.core⟩) w.resv }) u
        ∧ Computed s t p i m m (ldOp x .ldr false).srcs x.d x.ty.regs
            (fun l => loadedWords x.ty (natLE (s.memRead (xl l).loc (x.ty.width / 8)))) 7 0#32 0 Counts.none)
    ∧ (∀ (x : AtomF) s p i (xl : Nat → Xlat), x.wfStc = true → Issuing s p i → AccessReady s p i (atomOp x .stc) xl →
      let m := activeOf p i x.g
      let holds (l : Nat) : Prop := ∃ r, p.w.resv.get? l = some r ∧ r.line = (xl l).line ∧ s.coreCc p.t.core < r.cc + 512
      ∃ t, ∃ wins : Nat → Bool,
        (∀ l ∈ lanesOf m, wins l = true ↔ holds l ∧ ∀ k ∈ lanesOf m, k < l → wins k = true → (xl k).line ≠ (xl l).line)
        ∧ exec (.stc x) s = .next t
        ∧ Stored s t p i m (atomOp x .stc).srcs (((lanesOf m).filter wins).map fun l =>
            ((xl l).loc, elemLE (elemBits x.ty.width 0 ((srcVals s p l [] (atomOp x .stc).srcs).getD 1 [])))) fun w =>
          w.demoted = p.w.demoted ||| maskOf ((lanesOf m).filter fun l => !wins l)
          ∧ RegsGet p.w w m x.d 1 (fun l => [if wins l then 0#32 else 1#32])
          ∧ ∀ l ∈ lanesOf m, w.resv.get? l = none))

/-- 15 R396, R397; 11 R269: `rst` and `rld` reach a scratch byte of the window of a gang of the unit, or the global location
behind a region byte; an `rst` is counted in the outstanding counters once per lane. -/
def Obligations.RemoteAccess : Prop :=
  (∀ (x : RldF) s p i (xl : Nat → Xlat), x.wf = true → Issuing s p i → Ready s p i x.g [src1 x.o, src1 x.t] [(x.d, x.ty.regs)] →
    let m := activeOf p i x.g
    let n := x.ty.width / 8
    let arg (k l : Nat) : Word := ((srcVals s p l [] [src1 x.o, src1 x.t]).getD k []).getD 0 0#32
    let at_ (l : Nat) : Target := targetOf s p (arg 0 l) (arg 1 l)
    LogFree p m → (∀ l ∈ lanesOf m, (arg 0 l).toNat % n = 0 ∧ TargetReady s p n (.load (x.ord != .plain)) false (at_ l) (xl l)) →
    ∃ t u, exec (.rld x) s = .next u ∧ Filled t u ∧ Computed s t p i m m [src1 x.o, src1 x.t] x.d x.ty.regs
      (fun l => loadedWords x.ty (natLE ((List.range n).map fun j => match at_ l with
        | .scratch gid off => s.scratchAt gid (off + j)
        | _ => s.byteAt ((xl l).loc + j)))) 7 0#32 0 Counts.none)
  ∧ (∀ (x : RstF) s p i (xl : Nat → Xlat) s0, x.wf = true → Issuing s p i →
    let srcs := [src1 x.o, srcOf x.ty x.b, src1 x.t]
    let m := activeOf p i x.g
    let n := x.ty.width / 8
    let arg (k l : Nat) : Word := ((srcVals s p l [] srcs).getD k []).getD 0 0#32
    let at_ (l : Nat) : Target := targetOf s p (arg 0 l) (arg 2 l)
    let val (l : Nat) : List Byte := elemLE (elemBits x.ty.width 0 ((srcVals s p l [] srcs).getD 1 []))
    Ready s p i x.g srcs [] → LogFree p m → s.takeOut p.t.core p.g.grid (popCount m) = some s0 →
    (∀ l ∈ lanesOf m, (arg 0 l).toNat % n = 0 ∧ TargetReady s p n (.store (x.ord != .plain)) true (at_ l) (xl l)) →
    ∃ t w, exec (.rst x) s = .next t ∧ t.warps.get? p.key = some w ∧ PcsAt p.w w i 0#32 (fun _ => 0#32) ∧ AllRegsSame s t
      ∧ t.outCount p.t.core p.g.grid = s.outCount p.t.core p.g.grid + popCount m
      ∧ (∀ a, t.byteAt a = lastStore ((lanesOf m).filterMap fun l => match at_ l with
          | .region _ _ _ _ => some ((xl l).loc, val l) | _ => none) s.byteAt a)
      ∧ ∀ gid a, (s.gangs.get? gid).isSome → t.scratchAt gid a = lastStore ((lanesOf m).filterMap fun l => match at_ l with
          | .scratch g off => if g = gid then some (off, val l) else none | _ => none) (s.scratchAt gid) a)

/-- 11 R267; 15 R398, R399: a release writes the team's on-touch lines home and leaves every byte that a load reads, every
register and everything else as it was; a fence whose lanes have no older access open is done and changes no byte; `sfl`
leaves no dirty copy of a line of its ranges that a translation reaches, and at `.sy` none that HBM lacks; `sinv` leaves none
in the issuing gang's stash of region lines; `spf` changes no value; `icinv` leaves none of the lines in the L0s of its
scope, and changes no value. -/
def Obligations.FencesAndMaintenance : Prop :=
  (∀ s p, Released s (s.releaseHome p) p)
  ∧ (∀ (x : FenceF) s p i, Issuing s p i → Ready s p i x.g [] [] → LogFree p (activeOf p i x.g) →
    ∃ t, exec (.fence x) s = .next (if MemOrdRel x.ord then t.releaseHome p else t) ∧ Passed s t p i p.w)
  ∧ (∀ (x : MaintF) s p i, Issuing s p i → Ready s p i x.g [srcPair x.x, src1 x.n] [] →
    let m := activeOf p i x.g
    let srcs := [srcPair x.x, src1 x.n]
    let lines (l : Nat) : List Nat := rangeLines (wordsNat ((srcVals s p l [] srcs).getD 0 [])) (wordsNat ((srcVals s p l [] srcs).getD 1 []))
    let frame (t : State) : Prop :=
      t = { s with warps := t.warps, gangs := t.gangs, cores := t.cores, grids := t.grids, hbmOld := t.hbmOld }
      ∧ SameBytes s t ∧ AllRegsSame s t ∧ ∃ w, t.warps.get? p.key = some w ∧ PcsAt p.w w i 0#32 fun _ => 0#32
    LogFree p m →
    (∃ t u, exec (.spf x) s = .next u ∧ Filled t u ∧ Computed s t p i m m srcs (.imm 0) 0 (fun _ => []) 7 0#32 0 Counts.none)
    ∧ (∃ t u, exec (.icinv x) s = .next u ∧ Computed s t p i m m srcs (.imm 0) 0 (fun _ => []) 7 0#32 0 Counts.none
      ∧ u = { t with cores := u.cores }
      ∧ ∀ k, ∃ c0, u.core k = { t.core k with l0 := c0 } ∧ (∀ e ∈ c0, e ∈ (t.core k).l0)
        ∧ (p.inScope s x.sc k = false → c0 = (t.core k).l0)
        ∧ (p.inScope s x.sc k = true → ∀ l ∈ lanesOf m, ∀ va ∈ lines l, ∀ line, reachLine s p va = some line → ∀ e ∈ c0, e.1 ≠ line))
    ∧ (∃ t, exec (.sfl x) s = .next t ∧ frame t ∧ ∀ l ∈ lanesOf m, ∀ va ∈ lines l, ∀ line, reachLine s p va = some line →
        (∀ k g, t.gangs.get? k = some g → g.dirty.has line = false ∧ g.wb.has line = false) ∧ (x.sc = .sy → t.hbmOld.has line = false))
    ∧ ((∀ l ∈ lanesOf m, ∀ va ∈ lines l, ∀ om, regionOf p.gr.regions p.g.num va = some om → s.stashBusy p.gid om.1 128 true = false) →
      ∃ t, exec (.sinv x) s = .next t ∧ frame t ∧ t.hbmOld = s.hbmOld
        ∧ ∀ l ∈ lanesOf m, ∀ va ∈ lines l, ∀ line, reachLine s p va = some line →
          (regionOf p.gr.regions p.g.num va).isSome = true → ∀ g, t.gangs.get? p.gid = some g →
            g.dirty.has line = false ∧ g.wb.has line = false))

/-- 15 R398, R400 to R403; 11 R293; 09 R219 to R222: `sig` adds V of each active lane, in ascending order, modulo 2^64,
counted in the outstanding counters; `sigw` goes on when every active lane has its V reached, else its path blocks on the
signal of the lowest lane that fails. `qstat` gives the word of the port, with occupancy, room and the states of both
directions, also where an unbound port is named, and then the word is 0 or reaches nothing; `qpeek` gives the oldest entry of
each lane and takes none; `qclose` sends a close behind every entry pushed before, once per link. They wait behind a pending
fence of their lanes (15 R398). -/
def Obligations.SignalsAndPorts : Prop :=
  (
    (∀ (x : SigF) s p i (xl : Nat → Xlat) s0, x.wf MOrd.sigOk = true → Issuing s p i → AccessReady s p i (sigOp x) xl →
      let m := activeOf p i x.g
      s.takeOut p.t.core p.g.grid (popCount m) = some s0 →
      ∃ t, ∃ old : Nat → DWord,
        let put (l : Nat) : Nat × List Byte :=
          ((xl l).loc, elemLE (old l + BitVec.ofNat 64 (wordsNat ((srcVals s p l [] (sigOp x).srcs).getD 1 []))))
        (∀ l ∈ lanesOf m, old l = BitVec.ofNat 64 (natLE ((List.range 8).map fun j =>
          lastStore (((lanesOf m).filter (· < l)).map put) s.byteAt ((xl l).loc + j))))
        ∧ exec (.sig x) s = .next t
        ∧ s0.outCount p.t.core p.g.grid = s.outCount p.t.core p.g.grid + popCount m
        ∧ Stored s0 t p i m (sigOp x).srcs ((lanesOf m).map put) fun w => RegsSame p.w w ∧ w.demoted = p.w.demoted)
    ∧ (∀ (x : SigF) s p i (xl : Nat → Xlat), x.wf MOrd.sigwOk = true → Issuing s p i → Ready s p i x.g (sigOp x).srcs [] →
      let m := activeOf p i x.g
      let va (l : Nat) : DWord := ((sigOp x).valsOf s p l).va
      let short (l : Nat) : Prop := natLE (s.memRead (xl l).loc 8) < wordsNat ((srcVals s p l [] (sigOp x).srcs).getD 1 [])
      p.w.log.length < 8 → (∀ ke ∈ p.w.log, ke.2.active &&& m = 0#32) →
      (∀ l ∈ lanesOf m, regionOk p.gr p.g.num (va l).toNat 8 (.load true) = true ∧ (va l).toNat % 8 = 0
        ∧ s.rangeLocked p.gr.ctx (va l).toNat 8 false = false ∧ s.windowBusy p (va l).toNat 8 false = false
        ∧ Reach s p .load (va l) (xl l)) →
      ((∀ l ∈ lanesOf m, ¬ short l) → ∃ t u, exec (.sigw x) s = .next u ∧ Filled t u
        ∧ Computed s t p i m m (sigOp x).srcs (.imm 0) 0 (fun _ => []) 7 0#32 0 Counts.none)
      ∧ ∀ l0 ∈ lanesOf m, short l0 → (∀ l ∈ lanesOf m, l < l0 → ¬ short l) →
        ∃ t w, exec (.sigw x) s = .next t ∧ AllRegsSame s t ∧ SameBytes s t ∧ t.warps.get? p.key = some w ∧ w.pcv = p.w.pcv
          ∧ ∀ l ∈ lanesOf i.path, w.wake.get? l = some (.signal (va l0))))
  ∧ (
    (∀ (x : PortDF) s p i, Issuing s p i → Ready s p i x.g [] [(x.d, 1)] →
      fencePending isFence p.w (activeOf p i x.g) = false →
      let m := activeOf p i x.g
      (∃ t, exec (.qstat x) s = .next t ∧ Computed s t p i m m [] x.d 1 (fun l => [qstatWord s p x.q l]) 7 0#32 0 Counts.none)
      ∧ (p.bound x.q = true → (∀ l ∈ lanesOf m, (p.w.getFifo x.q l).q ≠ []) → ∃ t, exec (.qpeek x) s = .next t
        ∧ Computed s t p i m m [] x.d 1 (fun l => [(p.w.getFifo x.q l).q.headD 0#32]) 7 0#32 0 Counts.none))
    ∧ (∀ (x : PortDF) s p i q, Issuing s p i → Ready s p i x.g [] [] → fencePending isFence p.w (activeOf p i x.g) = false →
      x.d = .port q → p.bound q = false → let m := activeOf p i x.g
      ∃ t, exec (.qstat x) s = .next t ∧ Computed s t p i m m [] (.imm 0) 0 (fun _ => []) 7 0#32 0 Counts.none)
    ∧ (∀ s p q l, p.bound q = false → qstatWord s p q l = 0#32)
    ∧ (∀ s p q l, p.bound q = true → let f := p.w.getFifo q l
      let w := qstatWord s p q l
      f.q.length ≤ 8 → f.st < 4 → (∀ k pq pl, s.peer p q l = some (k, pq, pl) → s.fifoLoad k pq pl ≤ portDepth q) →
      (w.extractLsb' 0 4).toNat = f.q.length ∧ (w.extractLsb' 8 2).toNat = f.st ∧ w.extractLsb' 12 4 = 8#4
        ∧ w.extractLsb' 16 16 = 0#16
        ∧ ((Sparse.get 0#32 p.w.outClosed q.code).getLsbD l = true → w.extractLsb' 10 2 = 1#2)
        ∧ ∀ k pq pl, s.peer p q l = some (k, pq, pl) →
          (w.extractLsb' 4 4).toNat = portDepth q - s.fifoLoad k pq pl
          ∧ ((Sparse.get 0#32 p.w.outClosed q.code).getLsbD l = false →
              w.extractLsb' 10 2 = if s.peerGone k pl then 2#2 else 0#2))
    ∧ (∀ (x : PortF) s p i, Issuing s p i → Ready s p i x.g [] [] → p.bound x.q = true →
      fencePending isFence p.w (activeOf p i x.g) = false →
      let m := activeOf p i x.g
      let was := Sparse.get 0#32 p.w.outClosed x.q.code
      ∃ t w, exec (.qclose x) s = .next t ∧ t = { s with warps := t.warps, flight := t.flight }
        ∧ (∀ k, k ≠ p.key → t.warps.get? k = s.warps.get? k) ∧ t.warps.get? p.key = some w
        ∧ w = { p.w with outClosed := w.outClosed, pcv := w.pcv, bpExempt := w.bpExempt, entering := w.entering, inside := w.inside }
        ∧ (∀ q, Sparse.get 0#32 w.outClosed q = if q = x.q.code then was ||| m else Sparse.get 0#32 p.w.outClosed q)
        ∧ PcsAt p.w w i 0#32 (fun _ => 0#32)
        ∧ t.flight = s.flight ++ (lanesOf (m &&& ~~~ was)).filterMap fun l =>
            (s.peer p x.q l).map fun d => (⟨d.1, d.2.1, d.2.2, none, 1⟩ : PortMsg)))


/-! ## Matrix work (16 R405 to R423) -/

/-- 16 R408 to R412, R415: an admitted matrix step draws its price at issue and joins the steps of its core, ordered by the
moment of the draw, with the windows of its step word, the metadata string of `mmsp`, or the scales that the team binding
names for `mmas`. That `mmas` is one step of twice the time, and `mmsp` one of half the time that its die takes for the dense
step, is the model's choice (log 32). -/
def Obligations.MatrixSteps : Prop :=
  (∀ (x : MmaF) s p i sh, Issuing s p i → Ready s p i x.g [src1 x.sw] [] → p.gr.contract ≠ 4 →
    shapeOf p.gr.contract x.aty x.bty x.code.val = some sh → (p.gr.contract = 9 ∨ x.code.val = 0) →
    Payable s p sh.price → TilesFree s p [x.ta.val, x.tb.val] [] → AccsFree s p [x.acc.val] →
    let m := activeOf p i x.g
    ∃ t, exec (.mma x) s = .next (t.queueStep p.t.core
        { singleStep s p (.mma x) x.acc.val (sh.time * slowdown p.gr.contract p.gr.cls x.code.val) with
          sw := ((srcVals s p (lowLane m) [] [src1 x.sw]).getD 0 []).getD 0 0#32 })
      ∧ Computed s t p i m m [src1 x.sw] (.imm 0) 0 (fun _ => []) 7 0#32 sh.price Counts.none)
  ∧ (∀ (x : MmspF) s p i sh (r : Fin 64), x.m = .v r → Issuing s p i → Ready s p i x.g [⟨x.m, sh.k / 16, []⟩] [] →
    (∀ ke ∈ p.w.log, ke.2.readBy 0xFFFFFFFF#32 [(x.m, sh.k / 16)] = false) →
    p.gr.contract ∈ [1, 2, 3, 5, 6, 8] → shapeOf p.gr.contract x.aty x.bty x.code.val = some sh → x.code.val = 0 →
    r.val % (sh.k / 16) = 0 → Payable s p 6 → TilesFree s p [x.ta.val, x.tb.val] [] → AccsFree s p [x.acc.val] →
    let m := activeOf p i x.g
    ∃ t md, exec (.mmsp x) s = .next (t.queueStep p.t.core
        { singleStep s p (.mmsp x) x.acc.val (max 4 (sh.time * slowdown p.gr.contract p.gr.cls x.code.val / 2)) with mdata := md })
      ∧ Computed s t p i m m [⟨x.m, sh.k / 16, []⟩] (.imm 0) 0 (fun _ => []) 7 0#32 6 Counts.none
      ∧ ∀ g < sh.k / 16, ∀ l < 32, ∀ b < 32, md.testBit (1024 * g + 32 * l + b) = (p.w.getV (r.val + g) l).getLsbD b)
  ∧ (∀ (x : MmasF) s p i sh (xl : Nat → Xlat), Issuing s p i → Ready s p i x.g [] [] → p.gr.contract ∈ [2, 3, 5] →
    shapeOf p.gr.contract x.aty x.bty x.code.val = some sh → x.code.val = 0 →
    Payable s p 16 → TilesFree s p [x.ta.val, x.tb.val] [] → AccsFree s p [x.acc.val] → LogFree p (activeOf p i x.g) →
    let m := activeOf p i x.g
    let at_ (isB : Bool) : List Nat := scaleAddrs p.t.scb isB p.gr.contract (List.range (2 * blocksPer sh))
    let scale (va : Nat) : Nat := (s.byteAt (xl va).loc).toNat
    (∀ va ∈ at_ false ++ at_ true, regionOk p.gr p.g.num va 1 (.load false) = true
      ∧ s.rangeLocked p.gr.ctx va 1 false = false ∧ s.windowBusy p va 1 false = false
      ∧ Reach s p .load (BitVec.ofNat 64 va) (xl va)) →
    ∃ t u, exec (.mmas x) s = .next u
      ∧ Filled (t.queueStep p.t.core
        { singleStep s p (.mmas x) x.acc.val (2 * sh.time * slowdown p.gr.contract p.gr.cls 0) with
          scaleA := (at_ false).map scale, scaleB := (at_ true).map scale }) u
      ∧ Computed s t p i m m [] (.imm 0) 0 (fun _ => []) 7 0#32 16 Counts.none)

/-- 16 R416 to R418: an admitted `mloop` of a resident gang, with aligned parameters and no access of the warp open, takes a
sequencer and leaves its future empty; with no plies it resolves OK at once, and a K.FS8 loop of an incomplete k-block
resolves BADLOOP. -/
def Obligations.MatrixLoops : Prop :=
  let form (ins : Instr) (g : Guard) (f : Fin 8) (grp : Fin 4) (acc : Fin 8) (o : StepOf) (contracts : List Nat)
      (mp : Option Pair) : Prop :=
    ∀ s p i sh, Issuing s p i → p.gr.contract ∈ contracts → shapeOf p.gr.contract o.a o.b o.code = some sh →
      (p.gr.contract = 9 ∨ o.code = 0) →
      let srcs := groupSrc grp :: mp.toList.map srcPair
      let m := activeOf p i g
      let vs := srcVals s p (lowLane m) [] srcs
      let x : BitVec 256 := BitVec.ofNat 256 (wordsNat (vs.getD 0 []))
      let y : DWord := BitVec.ofNat 64 (wordsNat (vs.getD 1 []))
      let k := s.placer.nextOp
      Ready s p i g srcs [futDst f] → AccsFree s p [acc.val] → NoOpen p 0xFFFFFFFF#32 → p.g.st ≠ .evicted →
      plAaddr x % 4 = 0 ∧ plBaddr x % 4 = 0 ∧ plStra x % 4 = 0 ∧ plStrb x % 4 = 0 ∧ plInca x % 4 = 0 ∧ plIncb x % 4 = 0
        ∧ (∀ l ∈ lanesOf m, wordsNat ((srcVals s p l [] srcs).getD 1 []) % 4 = 0) →
      (p.gr.contract = 4 ∧ plPlies x % 4 ≠ 0 → ∃ t, exec ins s = .next (resolveFut t p.key f 0x03000000#32)
        ∧ Computed s t p i m m srcs (.imm 0) 0 (fun _ => []) 7 0#32 0 Counts.none)
      ∧ (plPlies x = 0 → ∃ t, exec ins s = .next (resolveFut t p.key f 0#32)
        ∧ Computed s t p i m m srcs (.imm 0) 0 (fun _ => []) 7 0#32 0 Counts.none)
      ∧ (¬ (p.gr.contract = 4 ∧ plPlies x % 4 ≠ 0) → plPlies x ≠ 0 →
        (s.mloops.filter fun km => km.2.core = p.t.core).length < 4 →
        s.rangeEntries + (loopRanges sh o x y).length ≤ 1024 →
        ∃ t, exec ins s = .next { t.startFut p.key f (.mloop k) with
            mloops := s.mloops.put k ⟨p.t.core, p.key, p.gr.ctx, acc.val, loopRanges sh o x y, ins, i.pc, f, x, y, p.t.scb,
              0, 0, [], [], false, none⟩
            placer := { s.placer with nextOp := k + 1 } }
          ∧ Computed s t p i m m srcs (.imm 0) 0 (fun _ => []) 7 0#32 0 Counts.none)
  (∀ x : MloopF, form (.mloop x) x.g x.f x.grp x.acc ⟨x.aty, x.bty, x.code.val, false, false⟩ [1, 2, 3, 5, 6, 7, 8, 9] none)
  ∧ (∀ x : MloopF, form (.mloopS x) x.g x.f x.grp x.acc ⟨x.aty, x.bty, x.code.val, false, true⟩ [2, 3, 4, 5] none)
  ∧ (∀ x : MloopSpF, form (.mloopSp x) x.g x.f x.grp x.acc ⟨x.aty, x.bty, x.code.val, true, false⟩ [1, 2, 3, 5, 6, 8] (some x.mp))

/-- 16 R419: lane l of `tld` fills rows 2l and 2l + 1 of the tile with the 128 bytes at its address, and `tst` stores them
there; every other tile byte and every other byte of memory stays. -/
def Obligations.TileMemory : Prop :=
  ∀ (x : TldF) s p i (x0 x1 : Nat → Xlat), Issuing s p i → Ready s p i x.g [srcPair x.x] [] → LogFree p (activeOf p i x.g) →
    let m := activeOf p i x.g
    let va (l : Nat) : DWord := memAddr ((srcVals s p l [] [srcPair x.x]).getD 0 []) x.off
    let fits (write : Bool) : Prop := ∀ l ∈ lanesOf m,
      regionOk p.gr p.g.num (va l).toNat 128 (if write then .store false else .load false) = true ∧ (va l).toNat % 64 = 0
        ∧ s.rangeLocked p.gr.ctx (va l).toNat 128 write = false
        ∧ s.stashBusy p.gid (((regionOf p.gr.regions p.g.num (va l).toNat).map (·.1)).getD 0) 128 write = false
        ∧ Reach s p (if write then .store else .load) (va l) (x0 l)
        ∧ Reach s p (if write then .store else .load) (va l + 64#64) (x1 l)
    (TilesFree s p [] [x.t.val] → fits false → ∃ t u tiles,
      exec (.tld x) s = .next u ∧ Filled (t.modWarp p.key fun w => { w with tiles := tiles }) u
      ∧ Computed s t p i m m [srcPair x.x] (.imm 0) 0 (fun _ => []) 7 0#32 0 Counts.none
      ∧ ∀ b, Sparse.get 0#8 tiles b = lastStore ((lanesOf m).map fun l =>
          (4096 * x.t.val + 128 * l, s.memRead (x0 l).loc 64 ++ s.memRead (x1 l).loc 64)) (Sparse.get 0#8 p.w.tiles) b)
    ∧ (TilesFree s p [x.t.val] [] → fits true → ∃ t, exec (.tst x) s = .next t
      ∧ Stored s t p i m [srcPair x.x] ((lanesOf m).flatMap fun l =>
          [((x0 l).loc, p.w.tileRead x.t.val (128 * l) 64), ((x1 l).loc, p.w.tileRead x.t.val (128 * l + 64) 64)])
          fun w => RegsSame p.w w ∧ w.demoted = p.w.demoted)

/-- 02 R86; 16 R414, R420 to R422: `ttr` mirrors each square of E elements a side; `amov`, `aset` and `azero` write every
entry of an accumulator; `ard` writes every entry, rounded to its type, into successive elements of a tile group and counts
the saturations, a long entry by way of F32; `scb` sets the base, shift and broadcast bit of one operand of the team's
binding; `scinv` changes no value. -/
def Obligations.TilesAndAccumulators : Prop :=
  let done (s t : State) (p : Place) (i : Issue) (g : Guard) (srcs : List Src) (ev : Counts) : Prop :=
    Computed s t p i (activeOf p i g) (activeOf p i g) srcs (.imm 0) 0 (fun _ => []) 7 0#32 0 ev
  let filled (p : Place) (d : Nat) (short : Nat → Word) (long : Nat → LongEntry) (A : Sparse Word) (L : Sparse LongEntry) : Prop :=
    (∀ k, Sparse.get 0#32 A k = if p.gr.contract ≠ 7 ∧ 4096 * d ≤ k ∧ k < 4096 * (d + 1) then short (k - 4096 * d)
      else Sparse.get 0#32 p.w.accs k)
    ∧ ∀ k, Sparse.get LongEntry.zero L k = if p.gr.contract = 7 ∧ 1024 * d ≤ k ∧ k < 1024 * (d + 1) then long (k - 1024 * d)
      else Sparse.get LongEntry.zero p.w.laccs k
  (∀ (x : TtrF) s p i, x.wf = true → Issuing s p i → Ready s p i x.g [] [] → TilesFree s p [x.a.val] [x.d.val] →
    ∃ t tiles, exec (.ttr x) s = .next (t.modWarp p.key fun w => { w with tiles := tiles }) ∧ done s t p i x.g [] Counts.none
      ∧ (∀ b, (b < 4096 * x.d.val ∨ 4096 * (x.d.val + 1) ≤ b) → Sparse.get 0#8 tiles b = Sparse.get 0#8 p.w.tiles b)
      ∧ ∀ r < 64, ∀ c < 512 / x.ty.width,
          (if 512 / x.ty.width < 64 then tileElem tiles x.ty.width x.d.val (r / (512 / x.ty.width) * (512 / x.ty.width) + c) (r % (512 / x.ty.width))
            else tileElem tiles x.ty.width x.d.val (c % 64) (c / 64 * 64 + r))
            = tileElem p.w.tiles x.ty.width x.a.val r c)
  ∧ (∀ (x : AmovF) s p i, Issuing s p i → Ready s p i x.g [] [] → AccsFree s p [x.d.val, x.a.val] → ∃ t A L,
    exec (.amov x) s = .next (t.modWarp p.key fun w => { w with accs := A, laccs := L }) ∧ done s t p i x.g [] Counts.none
      ∧ filled p x.d.val (fun k => Sparse.get 0#32 p.w.accs (4096 * x.a.val + k))
          (fun k => Sparse.get LongEntry.zero p.w.laccs (1024 * x.a.val + k)) A L)
  ∧ (∀ (x : AzeroF) s p i, Issuing s p i → Ready s p i x.g [] [] → AccsFree s p [x.d.val] → ∃ t A L,
    exec (.azero x) s = .next (t.modWarp p.key fun w => { w with accs := A, laccs := L }) ∧ done s t p i x.g [] Counts.none
      ∧ filled p x.d.val (fun _ => if p.gr.contract = 6 then 0x4000#32 else 0#32) (fun _ => LongEntry.zero) A L)
  ∧ (∀ (x : AsetF) s p i, entryTy p.gr.contract = some x.ty → Issuing s p i → Ready s p i x.g [srcOf x.ty x.v] [] →
    AccsFree s p [x.d.val] →
    let v : Word := ((srcVals s p (lowLane (activeOf p i x.g)) [] [srcOf x.ty x.v]).getD 0 []).getD 0 0#32
    ∃ t A L, exec (.aset x) s = .next (t.modWarp p.key fun w => { w with accs := A, laccs := L })
      ∧ done s t p i x.g [srcOf x.ty x.v] Counts.none ∧ filled p x.d.val (fun _ => v) (fun _ => longOf v.toNat) A L)
  ∧ (∀ (x : ArdF) s p i et, x.wf = true → entryTy p.gr.contract = some et → Issuing s p i → Ready s p i x.g [] [] →
    let long := decide (p.gr.contract = 7)
    let n := if long then 1 else max 1 (x.ty.width / 8)
    let size := if long then 1024 else 4096
    let code (k : Nat) : Nat × Nat := if long then
        let f := fmtF32.encode (longVal (Sparse.get LongEntry.zero p.w.laccs (1024 * x.a.val + k))) x.rm true
        ((elemOf x.ty 0 x.rm true (fmtF32.decode f.1)).1, f.2 + (elemOf x.ty 0 x.rm true (fmtF32.decode f.1)).2)
      else ardElem et x.ty x.rm (Sparse.get 0#32 p.w.accs (4096 * x.a.val + k))
    (long = true → x.ty.isFloat = true) → x.t.val % min n 8 = 0 → AccsFree s p [x.a.val] →
    TilesFree s p [] ((List.range n).map (x.t.val + ·)) →
    ∃ t tiles, exec (.ard x) s = .next (t.modWarp p.key fun w => { w with tiles := tiles })
      ∧ done s t p i x.g [] { Counts.none with cvsat := ((List.range size).map fun k => (code k).2).foldl (· + ·) 0 }
      ∧ (∀ k < size, natLE (Sparse.read 0#8 tiles (4096 * x.t.val) (size * x.ty.width / 8)) / 2 ^ (x.ty.width * k) % 2 ^ x.ty.width
          = (code k).1 % 2 ^ x.ty.width)
      ∧ ∀ b, (b < 4096 * x.t.val ∨ 4096 * x.t.val + size * x.ty.width / 8 ≤ b) → Sparse.get 0#8 tiles b = Sparse.get 0#8 p.w.tiles b)
  ∧ (∀ (x : ScbF) s p i, Issuing s p i → Ready s p i x.g [srcPair x.x, src1 x.v] [] →
    let vs := srcVals s p (lowLane (activeOf p i x.g)) [] [srcPair x.x, src1 x.v]
    let v : Word := (vs.getD 1 []).getD 0 0#32
    let base := if x.isB then 384 else 448
    let sh := if x.isB then 8 else 0
    ∃ t b, exec (.scb x) s = .next (t.modTeam p.w.team fun y => { y with scb := b })
      ∧ done s t p i x.g [srcPair x.x, src1 x.v] Counts.none
      ∧ ∀ k < 512, b.getLsbD k = if base ≤ k ∧ k < base + 64 then (wordsNat (vs.getD 0 [])).testBit (k - base)
          else if sh ≤ k ∧ k < sh + 6 then v.getLsbD (k - sh) else if k = (if x.isB then 15 else 14) then v.getLsbD 6
          else p.t.scb.getLsbD k)
  ∧ (∀ (x : Gd) s p i, Issuing s p i → Ready s p i x.g [] [] → ∃ t, exec (.scinv x) s = .next t ∧ done s t p i x.g [] Counts.none)

/-! ## Engines, futures, barriers, services (17; 07) -/

/-- 17 R424 to R434: an engine instruction resolves at once with BADDESC, BADCONV, OK of nothing to do, or BARRIER, in that
order; otherwise its operation enters the engine with the ranges it will read and write. That a COUNT of 0 answers OK before
the barrier index is judged, and that the index is judged last, is the model's choice (log 44, log 46), as is which issues of
a `coll` are numbered (log 45). -/
def Obligations.EngineIssue : Prop :=
  ∀ (x : EngF) s p i, Issuing s p i → Ready s p i x.g [groupSrc x.grp] [futDst x.f] → NoOpen p (activeOf p i x.g) →
    p.g.st ≠ .evicted → p.w.held = [] →
    let d := engDesc s p i x
    let n := egCount d
    let bad (ins : Instr) : Prop := ResolvesNow ins x s p i 4
    (cpHost d = 3 ∨ bits d 245 224 ≠ 0 ∨ (cpHost d = 1 ∧ cpSk d) ∨ (cpHost d = 2 ∧ cpDk d) → bad (.copy x))
    ∧ (¬ (cpHost d = 3 ∨ bits d 245 224 ≠ 0 ∨ (cpHost d = 1 ∧ cpSk d) ∨ (cpHost d = 2 ∧ cpDk d)) →
      (parseXd (egXd d) = none → ResolvesNow (.copy x) x s p i 5)
      ∧ ∀ xd, parseXd (egXd d) = some xd → (xd.isSome → cpHost d = 0 ∧ ¬ (cpSk d ∧ cpDk d)) →
        egSrc d % 4 = 0 → egDst d % 4 = 0 → (xd = none → n % 4 = 0) →
        (cpSk d → egSrc d + cpSrcLen xd d ≤ p.gr.window) → (cpDk d → egDst d + cpDstLen xd d ≤ p.gr.window) →
        (n = 0 → ResolvesNow (.copy x) x s p i 0)
        ∧ (n ≠ 0 → engBar p x = none → ResolvesNow (.copy x) x s p i 6)
        ∧ ∀ b, n ≠ 0 → engBar p x = some b → Enters (.copy x) x s s p i { newOp .copy p x b d with
            rd := rangeIf (cpHost d ≠ 1 && !cpSk d) (egSrc d) (cpSrcLen xd d)
            wr := rangeIf (cpHost d ≠ 2 && !cpDk d) (egDst d) (cpDstLen xd d)
            srd := rangeIf (cpSk d) (egSrc d) (cpSrcLen xd d)
            swr := rangeIf (cpDk d) (egDst d) (cpDstLen xd d) } s.groups)
    ∧ (let wrong : Prop := d.getLsbD 255 ∨ bits d 253 236 ≠ 0 ∨ bits d 231 224 ≠ 0 ∨ bits d 235 232 < 2 ∨ 12 < bits d 235 232
          ∨ 4096 < n ∨ gsStride d % 4 ≠ 0 ∨ gsIoff d % 4 ≠ 0 ∨ egSrc d % 4 ≠ 0 ∨ p.gr.window < gsIoff d + 4 * n
          ∨ (gsCk d ∧ p.gr.window < egDst d + n * gsSize d)
      (wrong → bad (.gath x) ∧ bad (.scat x))
      ∧ ∀ b s0 bs ps, ¬ wrong → engBar p x = some b →
        (EngAt.mk (newOp .gath p x b d) p.gr p.g.num).read s true (gsIoff d) (4 * n) = ⟨s0, (bs, ps), .done⟩ →
        (EngAt.mk (newOp .scat p x b d) p.gr p.g.num).read s true (gsIoff d) (4 * n) = ⟨s0, (bs, ps), .done⟩ →
        let idx := codesOf .n32 n bs
        let table := gsRange d idx
        let cont := rangeIf (!gsCk d) (egDst d) (n * gsSize d)
        let stash := rangeIf (gsCk d) (egDst d) (n * gsSize d)
        Enters (.gath x) x s s0 p i { newOp .gath p x b d with started := decide (n ≠ 0), idx := idx, poison := ps, rd := table, wr := cont, swr := stash } s0.groups
        ∧ Enters (.scat x) x s s0 p i { newOp .scat p x b d with started := decide (n ≠ 0), idx := idx, poison := ps, rd := cont, wr := table, srd := stash } s0.groups)
    ∧ (let members := ((s.groups.get? (clGroup d)).map (·.members)).getD [s.fused.pkg]
      let wrong : Prop := 2 < clOpc d ∨ bits d 237 224 ≠ 0 ∨ (clOpc d ≠ 1 ∧ clRoot d ≠ 0)
        ∨ (clOpc d = 1 ∧ s.groups.has (clGroup d) ∧ members.length ≤ clRoot d)
      (wrong → bad (.coll x))
      ∧ ∀ xd b, ¬ wrong → parseXd (egXd d) = some xd → (∀ y, xd = some y → y.sch = 2) →
        (clOpc d = 2 → clTy xd = .f32 ∨ clTy xd = .i32) → egSrc d % 4 = 0 → egDst d % 4 = 0 → engBar p x = some b →
        let o : EngOp := { newOp .coll p x b d with
          rd := rangeIf true (egSrc d) (tensorLen (clTy xd) (xd.any (·.srcScaled)) n (egSrc d))
          wr := rangeIf true (egDst d) (codeBytes (clTy xd) false (n * if clOpc d = 0 then members.length else 1)) }
        ((∀ g, s.groups.get? (clGroup d) = some g → g.ctx ≠ p.gr.ctx ∨ s.fused.pkg ∉ g.members) →
          Enters (.coll x) x s s p i o s.groups)
        ∧ ∀ g, s.groups.get? (clGroup d) = some g → g.ctx = p.gr.ctx → s.fused.pkg ∈ g.members →
          Enters (.coll x) x s s p i
            ((g.early.filter fun r => r.seq = g.issued).foldl EngOp.takeGrant { o with seq := g.issued, numbered := true })
            (s.groups.put (clGroup d) { g with issued := g.issued + 1, early := g.early.filter fun r => r.seq ≠ g.issued }))
    ∧ ((bits d 255 224 ≠ 0 ∨ bits d 191 128 ≠ 0 ∨ egSrc d % 128 ≠ 0 ∨ egDst d % 128 ≠ 0 → bad (.cmpr x))
      ∧ ∀ s0 y b, ¬ (bits d 255 224 ≠ 0 ∨ bits d 191 128 ≠ 0 ∨ egSrc d % 128 ≠ 0 ∨ egDst d % 128 ≠ 0) →
        canonicalVa (egDst d) = true → translate s [] p.gr.ctx (egDst d) .store = .ok (s0, y) → y.surf ≠ 0 →
        let r := y.srec
        r.getLsbD 0 = true → surfBase s0 r 511 448 ≤ y.loc →
        (y.loc - surfBase s0 r 511 448) / 128 + n ≤ bits r 383 352 → engBar p x = some b →
        Enters (.cmpr x) x s s0 p i { newOp .cmpr p x b d with
          surf := y.surf, seq := (y.loc - surfBase s0 r 511 448) / 128
          rd := rangeIf true (egSrc d) (128 * n), wr := rangeIf true (egDst d) (128 * n) } s0.groups)

/-- 17 R435, R436: `fwait` goes on once its future is full and writes nothing; `ftest` tells whether a future is full or will
never be; `fcancel` discards a queued operation and returns its count, and marks a started one or a loop to stop. -/
def Obligations.Futures : Prop :=
  (∀ (x : FutF) s p i, Issuing s p i → Ready s p i x.g [futSrc x.f] [] →
    ∃ t, exec (.fwait x) s = .next t ∧ Computed s t p i (activeOf p i x.g) (activeOf p i x.g) [futSrc x.f] (.imm 0) 0
      (fun _ => []) 7 0#32 0 Counts.none)
  ∧ (∀ (x : FtestF) s p i, Issuing s p i → Ready s p i x.g [] [] → 24 + x.f.val < p.w.sa →
    let m := activeOf p i x.g
    ∃ t, exec (.ftest x) s = .next t ∧ Computed s t p i m m [] (.imm 0) 0 (fun _ => []) x.pd
      (match p.w.fut.get? x.f.val with | none | some (.gone _) => m | _ => 0#32) 0 Counts.none)
  ∧ (∀ (x : FutF) s p i, Issuing s p i → Ready s p i x.g [] [] → 24 + x.f.val < p.w.sa →
    let m := activeOf p i x.g
    (∀ k o, p.w.fut.get? x.f.val = some (.engine k) → s.ops.get? k = some o → o.pinned = none → o.released = false →
      (o.started = true → ∃ t, exec (.fcancel x) s = .next { t with ops := s.ops.modify k fun o => { o with cancelled := some (o.cancelled.getD s.hc) } }
        ∧ Computed s t p i m m [] (.imm 0) 0 (fun _ => []) 7 0#32 0 Counts.none)
      ∧ (o.started = false → ∃ t w, exec (.fcancel x) s = .next t ∧ t.ops = s.ops.del k
        ∧ t.cores = (s.ackOut o.core o.grid 1).cores ∧ t.warps.get? p.key = some w
        ∧ w.fut.get? x.f.val = some (.gone 3) ∧ RegsSame p.w w ∧ PcsAt p.w w i 0#32 fun _ => 0#32))
    ∧ (∀ k, p.w.fut.get? x.f.val = some (.mloop k) →
      ∃ t, exec (.fcancel x) s = .next { t with mloops := s.mloops.modify k fun y => { y with cancelled := true } }
        ∧ Computed s t p i m m [] (.imm 0) 0 (fun _ => []) 7 0#32 0 Counts.none)
    ∧ (p.w.fut.get? x.f.val = none ∨ (∃ q n, p.w.fut.get? x.f.val = some (.launch q n)) → ∃ t, exec (.fcancel x) s = .next t
        ∧ Computed s t p i m m [] (.imm 0) 0 (fun _ => []) 7 0#32 0 Counts.none))

/-- 07 R186, R187; 11 R267; 17 R437: once the accesses of its lanes have performed, `arv` writes the team's on-touch lines
home (`Released`) and sends an arrival, due 2 cc later, with the byte count of the lowest active lane; `bwait` goes on when
the parity differs from the barrier's and else blocks with kind BARRIER; `bsync` arrives and blocks. That its path then
stands past it is the model's choice (log 41). -/
def Obligations.Barriers : Prop :=
  (∀ (x : ArvF) s p i b, Issuing s p i → Ready s p i x.g [src1 x.e] [(x.d, 1)] → NoOpen p (activeOf p i x.g) →
    p.bar x.bar.val = some b →
    let m := activeOf p i x.g
    let e : Word := ((srcVals s p (lowLane m) [] [src1 x.e]).getD 0 []).getD 0 0#32
    ∃ t, exec (.arv x) s = .next { t.releaseHome p with arrivals := s.arrivals
        ++ [⟨s.coreCc p.t.core + 2, b, p.key, e.toNat % 2 ^ 24, i.path, m, some x.d⟩] }
      ∧ Computed s t p i m m [src1 x.e] (.imm 0) 0 (fun _ => []) 7 0#32 0 Counts.none)
  ∧ (∀ (x : BwaitF) s p i b y, Issuing s p i → Ready s p i x.g [src1 x.q] [] → p.bar x.bar.val = some b → s.bars.get? b = some y →
    let m := activeOf p i x.g
    let q : Word := ((srcVals s p (lowLane m) [] [src1 x.q]).getD 0 []).getD 0 0#32
    (y.ph ≠ q.getLsbD 0 → ∃ t, exec (.bwait x) s = .next t
      ∧ Computed s t p i m m [src1 x.q] (.imm 0) 0 (fun _ => []) 7 0#32 0 Counts.none)
    ∧ (y.ph = q.getLsbD 0 → ∃ t w, exec (.bwait x) s = .next t ∧ AllRegsSame s t ∧ SameBytes s t
      ∧ t.warps.get? p.key = some w ∧ w.pcv = p.w.pcv ∧ w.fifo = p.w.fifo
      ∧ ∀ l, w.wake.get? l = if l < 32 ∧ i.path.getLsbD l then some (.barrier x.bar.val) else p.w.wake.get? l))
  ∧ (∀ (x : BsyncF) s p i b, Issuing s p i → Ready s p i x.g [] [] → NoOpen p (activeOf p i x.g) →
    p.bar x.bar.val = some b →
    ∃ t w, exec (.bsync x) s = .next t ∧ AllRegsSame s t ∧ SameBytes s t
      ∧ t.arrivals = s.arrivals ++ [⟨s.coreCc p.t.core + 2, b, p.key, 0, i.path, activeOf p i x.g, none⟩]
      ∧ t.warps.get? p.key = some w ∧ w.fifo = p.w.fifo ∧ PcsAt p.w w i 0#32 (fun _ => 0#32)
      ∧ ∀ l, w.wake.get? l = if l < 32 ∧ i.path.getLsbD l then some (.bsync x.bar.val false) else p.w.wake.get? l)

/-- 11 R267; 17 R438 to R440: `launch` in warp 0 resolves at once with DEPTH, QUEUE or FULL, tested in that order, else its
record enters the child queue with the queue's next SEQ and the launching grid waits for one child more; `svc` answers
services 0x800 and above with all ones, else its record of 40 words joins the service ring and the path waits behind it. The
statuses are tested before the record is read, the path of an `svc` stands past it, and a number of 0x800 or more does not
enter the ring: the model's choices (log 50, log 41, log 49). A launch writes the on-touch lines home as `Released` says (11
R267). -/
def Obligations.LaunchesAndServices : Prop :=
  (∀ (x : LaunchF) s p i xl, p.w.no = 0 → Issuing s p i →
    let addr : Src := ⟨(groupSrc x.grp).o, 2, []⟩
    let srcs := [addr, src1 x.q]
    let m := activeOf p i x.g
    let vs := srcVals s p (lowLane m) [] srcs
    let va := wordsNat (vs.getD 0 [])
    let n := ((vs.getD 1 []).getD 0 0#32).toNat % 1024
    let q := s.queue n
    Ready s p i x.g srcs [futDst x.f] → NoOpen p m → regionOk p.gr p.g.num va 128 (.load false) = true → va % 128 = 0 →
    s.rangeLocked p.gr.ctx va 128 false = false → s.windowBusy p va 128 false = false → p.g.st ≠ .evicted →
    (∀ st, (if 9 ≤ bits p.g.grid 31 28 then some 16 else if q.st ≠ .enabled ∨ q.src ≠ 1 ∨ q.ctx ≠ p.gr.ctx then some 17
        else if 2 ^ q.ringn ≤ q.tail - q.head then some 18 else none) = some st →
      ∃ t, exec (.launch x) s = .next (resolveFut (t.releaseHome p) p.key x.f (BitVec.ofNat 32 (st * 2 ^ 24)))
        ∧ Computed s t p i m m srcs (.imm 0) 0 (fun _ => []) 7 0#32 0 Counts.none)
    ∧ (bits p.g.grid 31 28 < 9 → q.st = .enabled → q.src = 1 → q.ctx = p.gr.ctx → q.tail - q.head < 2 ^ q.ringn →
      Reach s p .load (BitVec.ofNat 64 va) xl →
      let r : BitVec 1024 := BitVec.ofNat 1024 (natLE (s.memRead xl.loc 128))
      ∃ t w, exec (.launch x) s = .next t ∧ AllRegsSame s t
        ∧ (t.queue n).tail = q.tail + 1 ∧ (t.queue n).head = q.head ∧ (t.queue n).nextSeq = q.nextSeq + 1#32
        ∧ recordAt t n q.tail = r.extractLsb' 32 992 ++ q.nextSeq
        ∧ SameBytesBut s t (q.slotLoc q.tail) 128
        ∧ (∀ g, s.grids.get? p.g.grid.toNat = some g → ∃ c, t.grids.get? p.g.grid.toNat = some { g with kids := g.kids + 1, poison := c })
        ∧ t.warps.get? p.key = some w ∧ PcsAt p.w w i 0#32 (fun _ => 0#32)
        ∧ w.fut.get? x.f.val = some (.launch n q.nextSeq)))
  ∧ (∀ (x : SvcF) s p i, Issuing s p i → Ready s p i x.g [src1 x.a] [(x.d, 1)] →
    let m := activeOf p i x.g
    (0x800 ≤ x.n.toNat → ∃ t, exec (.svc x) s = .next t
      ∧ Computed s t p i m m [src1 x.a] x.d 1 (fun _ => [0xFFFFFFFF#32]) 7 0#32 0 Counts.none)
    ∧ (x.n.toNat < 0x800 → s.svcRing.length < 256 → ∃ t w r, exec (.svc x) s = .next t ∧ AllRegsSame s t ∧ SameBytes s t
      ∧ t.svcRing = s.svcRing ++ [r] ∧ r.warp = p.key ∧ r.mask = m
      ∧ r.words.take 4 = [BitVec.ofNat 32 x.n.toNat, m, BitVec.ofNat 32 p.gr.ctx, p.g.grid]
      ∧ r.words.length = 40 ∧ (∀ l < 32, r.words.getD (8 + l) 0#32
          = if m.getLsbD l then ((srcVals s p l [] [src1 x.a]).getD 0 []).getD 0 0#32 else 0#32)
      ∧ t.warps.get? p.key = some w ∧ PcsAt p.w w i 0#32 (fun _ => 0#32)
      ∧ w.svcs = p.w.svcs ++ [⟨i.path, m, x.d⟩]
      ∧ ∀ l, w.wake.get? l = if l < 32 ∧ i.path.getLsbD l then some .svc else p.w.wake.get? l))

/-- 13 R356; 17 R443 to R445; 06 R178: `csrr` reads the handler specials, the context, the counters of the core; `csrw`
writes a handler special in handler mode and otherwise pins the warp with P-PRIV, code 5, or, in handler mode, with
P-NOHANDLER, code 6; `tokq` tells quota, reserve, critical order and pool as they were before the draws of the cc. That
`csrr` reads the handler specials also outside handler mode (log 49), and that the quota is the one before its thermal
reduction (log 48), is the model's choice. A write that leaves its warp Blocked ends its yield (13 R356). -/
def Obligations.SpecialRegisters : Prop :=
  (∀ (x : CsrrF) s p i, specialListed x.n.toNat = true → Issuing s p i → Ready s p i x.g [] [(x.d, 1)] →
    let m := activeOf p i x.g
    let h := p.w.handler
    let c := s.core p.t.core
    ∃ t v, exec (.csrr x) s = .next t ∧ Computed s t p i m m [] x.d 1 (fun _ => [v]) 7 0#32 0 Counts.none
      ∧ ∀ nv ∈ [(0x000, h.cause), (0x001, h.epc), (0x002, h.tpath), (0x003, h.tmask), (0x004, h.tlane), (0x005, h.tval),
          (0x006, h.tvalh), (0x010, c.stale), (0x011, c.lsat), (0x012, c.t2inv), (0x013, c.zwrap), (0x014, c.cvsat),
          (0x015, c.barmis), (0x016, c.qdrop), (0x017, c.bgwait), (0x018, c.lad.getD 0 0#32), (0x019, c.lad.getD 1 0#32),
          (0x01A, c.lad.getD 2 0#32), (0x01B, c.lad.getD 3 0#32), (0x01C, c.poison),
          (0x01D, BitVec.ofNat 32 (s.coreCc p.t.core / 2 ^ 32)), (0x040, c.ladsel), (0x041, c.bp.getD 0 0#32),
          (0x042, c.bp.getD 1 0#32), (0x043, c.bp.getD 2 0#32), (0x044, c.bp.getD 3 0#32), (0x048, BitVec.ofNat 32 p.gr.ctx)],
        x.n.toNat = nv.1 → v = nv.2)
  ∧ (∀ (x : CsrwF) s p i, specialListed x.n.toNat = true → Issuing s p i →
    let m := activeOf p i x.g
    let v : Word := ((srcVals s p (lowLane m) [] [src1 x.a]).getD 0 []).getD 0 0#32
    let h := p.w.handler
    (h.on = true → x.n.toNat < 7 → Ready s p i x.g [src1 x.a] [] →
      let h1 : Handler := { h with
        cause := if x.n.toNat = 0 then v &&& 0xFFFF#32 else h.cause
        epc := if x.n.toNat = 1 then v &&& 0xFFFFFFFC#32 else h.epc
        tpath := if x.n.toNat = 2 then v else h.tpath
        tmask := if x.n.toNat = 3 then v else h.tmask
        tlane := if x.n.toNat = 4 then v else h.tlane
        tval := if x.n.toNat = 5 then v else h.tval
        tvalh := if x.n.toNat = 6 then v else h.tvalh }
      ∃ t, exec (.csrw x) s = .next ((t.modWarp p.key fun w => { w with handler := h1 }).endYield p.key)
        ∧ Computed s t p i m m [src1 x.a] (.imm 0) 0 (fun _ => []) 7 0#32 0 Counts.none)
    ∧ (h.on = false ∨ 7 ≤ x.n.toNat → inAllot p.w x.a 1 = true → m ≠ 0#32 →
      ∃ t, exec (.csrw x) s = .next t ∧ PinnedAt t p i (if h.on then 6 else 5) i.path))
  ∧ (∀ (x : GDst) s p i, Issuing s p i → Ready s p i x.g [] [(x.d, 1)] →
    let m := activeOf p i x.g
    let c := s.core p.t.core
    let order := (c.before.map (·.2)).getD c.critical
    let word := BitVec.ofNat 32 (s.power.q * 2 ^ 24 + (s.cluster (coreCluster p.t.core)).reserve * 2 ^ 16
      + order.length * 2 ^ 11 + (if p.key ∈ order then 2 ^ 7 else 0) + (c.before.map (·.1)).getD c.pool)
    ∃ t, exec (.tokq x) s = .next t ∧ Computed s t p i m m [] x.d 1 (fun _ => [word]) 7 0#32 0 Counts.none)

/-! ## Events of the issue and of warps (12 R303, R304; 06 R167; 13 R356; 11 R288) -/

/-- 12 R303, R304; 06 R167; 13 R356; 11 R288; 15 R401: entry into a clause, the end of a wait at a header, the fairness timer
and path, the end of a yield and of a reservation, and the periodic test of `sigw`. -/
def Obligations.IssueEvents : Prop :=
  (∀ s p i s0 ws, Issuing s p i → codeLine s p i.pc = .ok (s0, ws) → ClauseReady s0 p i.path i.pc ws →
    ∃ t w r a, exec .clauseEntry s = .next t ∧ WarpBecomes s0 t p.key w ∧ Entered { p.w with resv := r, wake := a } w i.path i.pc)
  ∧ (∀ s p path s0 ws, let pc := p.w.pc (lowLane path)
    let w0 : Warp := p.w.unblock path
    s.place? p.key = some p → path ≠ 0#32 → p.w.blocked &&& path = path → p.w.entering &&& path = path →
    (∀ l ∈ lanesOf path, p.w.pc l = pc) →
    codeLine (s.modWarp p.key fun w => w.unblock path) { p with w := w0 } pc = .ok (s0, ws) → ClauseReady s0 { p with w := w0 } path pc ws →
    ∃ t w r a, exec (.clauseConditionsMet p.key path) s = .next t ∧ WarpBecomes s0 t p.key w
      ∧ Entered { w0 with resv := r, wake := a } w path pc)
  ∧ (∀ s k w0, s.warps.get? k = some w0 →
    (∀ a b m ms, w0.others a b = m :: ms →
      w0.countFair (w0.others a b) = { w0 with fairTimer := w0.fairTimer + 1, fairNext := m }
      ∧ m &&& (a ||| b) = 0#32 ∧ ∃ key < 2 ^ 32, (key, m) ∈ w0.eligible)
    ∧ (4096 ≤ w0.fairTimer → ∃ t, exec (.fairnessTimerExpires k) s = .next t
      ∧ WarpBecomes s t k { w0 with fairTimer := 0, fairPath := w0.fairNext, fairLeft := 64 })
    ∧ (w0.fairOver = true → ∃ t, exec (.fairnessPathEnds k) s = .next t
      ∧ WarpBecomes s t k { w0 with fairPath := 0#32, fairLeft := 0 })
    ∧ (w0.yieldUntil ≤ s.coreCc (s.warpCore k) ∨ w0.st = .blocked → ∃ t, exec (.yieldEnds k) s = .next t
      ∧ WarpBecomes s t k { w0 with yieldUntil := 0 })
    ∧ (∀ l r, w0.resv.get? l = some r → r.cc + 512 ≤ s.coreCc (s.warpCore k) → ∃ t w,
      exec (.reservationExpires k l) s = .next t ∧ WarpBecomes s t k w ∧ w = { w0 with resv := w.resv }
        ∧ ∀ j, w.resv.get? j = if j = l then none else w0.resv.get? j)
    ∧ ∀ path, ∃ t w, exec (.sigwRetest k path) s = .next t ∧ WarpBecomes s t k w ∧ w = { w0 with wake := w.wake }
        ∧ ∀ lw, lw ∈ w.wake ↔ lw ∈ w0.wake ∧ ¬ (path.getLsbD lw.1 = true ∧ ∃ a, lw.2 = .signal a))

/-! ## Events of memory and ports (01 R51; 06 R168, R179; 08; 09 R219 to R221; 11 R267, R274) -/

/-- 01 R51; 06 R168; 11 R274; 05 R148: a return that no allotment awaits counts in `%stale`; the return of a load gives its
open lanes their elements, but those that a younger instruction has written since, and retires the entry; a store of the log
performs its open lanes; an acknowledgement takes one count of its grid; an on-touch line that became dirty 1,024 cc ago is
written home. That a younger result is not written over (log 26), that the open lanes that are ready perform in one step (log
19), and that an acknowledgement without an operation behind it changes nothing (log 52), is the model's choice. -/
def Obligations.MemoryEvents : Prop :=
  (∀ s core slot gen idx, slotWarp s core slot gen = none → (slot, BitVec.ofNat 8 gen) ∈ (s.core core).outstandingGens →
    ∃ t, exec (.memoryReturn core slot gen idx) s = .next t ∧ t = { s with cores := t.cores }
      ∧ AtKey s.cores t.cores core { s.core core with
          stale := (s.core core).stale + 1#32
          outstandingGens := (s.core core).outstandingGens.erase (slot, BitVec.ofNat 8 gen) })
  ∧ (∀ s p core slot gen idx (x : LdF) e (r : Fin 64) (xl : Nat → Xlat), slotWarp s core slot gen = some (p.key, p.w) →
    s.place? p.key = some p → p.w.log.get? idx = some e → e.instr = .ld x → x.d = .v r → e.pinned = false → e.faults = [] →
    (∀ ke ∈ p.w.log, idx ≤ ke.1) →
    let todo := e.active &&& ~~~ e.done
    let s0 := if MemOrdRel x.ord then s.releaseHome p else s
    let kept (q l : Nat) : Prop := (e.dead.getD (q - r.val) 0#32).getLsbD l = false
    todo ≠ 0#32 → e.active &&& e.done = e.done →
    (∀ l ∈ lanesOf todo, Reach s p .load (e.addr.getD l 0#64) (xl l)
      ∧ s.windowBusy p (e.addr.getD l 0#64).toNat (x.ty.width / 8) false = false) →
    ∃ t u w, exec (.memoryReturn core slot gen idx) s = .next u ∧ Filled t u ∧ WarpBecomes s0 t p.key w
      ∧ w = { p.w with v := w.v, log := p.w.log.del idx, wake := w.wake }
      ∧ (∀ lw, lw ∈ w.wake ↔ lw ∈ p.w.wake ∧ lw.2 ≠ .page idx ∧ lw.2 ≠ .remote idx)
      ∧ ∀ q l, l < 32 → w.getV q l
          = if todo.getLsbD l ∧ r.val ≤ q ∧ q < r.val + x.ty.regs ∧ kept q l
            then (loadedWords x.ty (natLE (s.memRead (xl l).loc (x.ty.width / 8)))).getD (q - r.val) 0#32 else p.w.getV q l)
  ∧ (∀ s p idx (x : StF) e (xl : Nat → Xlat), s.place? p.key = some p → p.g.st = .running → p.w.log.get? idx = some e →
    e.instr = .st x → x.wf = true → e.pinned = false → e.faults = [] → (∀ ke ∈ p.w.log, idx ≤ ke.1) →
    let todo := e.active &&& ~~~ e.done
    todo ≠ 0#32 → e.active &&& e.done = e.done →
    (∀ l ∈ lanesOf todo, Reach s p .store (e.addr.getD l 0#64) (xl l)
      ∧ s.windowBusy p (e.addr.getD l 0#64).toNat (x.ty.width / 8) true = false) →
    ∃ t w, exec (.storePerformed p.key idx) s = .next t ∧ AllRegsSame s t
      ∧ (∀ a, t.byteAt a = lastStore ((lanesOf todo).map fun l =>
          ((xl l).loc, elemLE ((e.b.getD l 0#64).setWidth x.ty.width))) s.byteAt a)
      ∧ t.warps.get? p.key = some w ∧ w.log = p.w.log.del idx ∧ w.pcv = p.w.pcv)
  ∧ (∀ s core grid n, (grid, n) ∈ (s.core core).out → (s.core core).out.Pairwise (fun a b => a.1 ≠ b.1) →
    opsOut s core grid < n →
    ∃ t, exec (.outstandingAck core grid) s = .next t ∧ t = { s with cores := t.cores }
      ∧ (∀ k, k ≠ core → t.core k = s.core k) ∧ t.core core = { s.core core with out := (t.core core).out }
      ∧ t.outCount core grid = n - 1 ∧ ∀ g, g ≠ grid → t.outCount core g = s.outCount core g)
  ∧ (∀ s k g line, s.gangs.get? k = some g →
    let due := (g.dirty.get? line).any fun l => decide (l.1 + 1024 ≤ s.coreCc g.core)
    ∃ t x, exec (.ontouchWriteback k line) s = .next t
      ∧ t = { s with gangs := t.gangs, teams := t.teams, cores := t.cores } ∧ t.gangs.get? k = some x
      ∧ x = { g with dirty := x.dirty, st := x.st, wbOut := x.wbOut, mark := x.mark, evicting := x.evicting }
      ∧ ∀ j, x.dirty.get? j = if j = line ∧ due then none else g.dirty.get? j)

/-- 09 R219 to R221; 06 R179; 17 R440: the oldest message on a link reaches the FIFO of its lane: an entry joins the queue, a
close or break ends an open link; a service reply gives the active lanes of the waiting path their words and wakes the path.
That a reply to an evicted gang reaches its saved image in the model's layout is the model's choice (log 55). -/
def Obligations.DeliveryEvents : Prop :=
  (∀ s k q l m w0, l < 32 → s.warps.get? k = some w0 →
    (q = .qd → ∀ n ∈ qdLinks s (s.warpCore k), (s.link n).st ≠ .reset ∧ (s.link n).st ≠ .training) →
    (s.flight.find? fun m => decide (m.warp = k) && decide (m.p = q) && decide (m.lane = l)) = some m →
    ∃ t w, exec (.portDelivery k q l) s = .next t ∧ t = { s with flight := s.flight.erase m, warps := t.warps }
      ∧ AtKey s.warps t.warps k w ∧ w = { w0 with fifo := w.fifo, wake := w.wake }
      ∧ (∀ j x, w.wake.get? j = some x → w0.wake.get? j = some x)
      ∧ ∀ r j, j < 32 → w.getFifo r j = if r = q ∧ j = l then (match m.entry with
          | some x => { w0.getFifo q l with q := (w0.getFifo q l).q ++ [x] }
          | none => if (w0.getFifo q l).st = 0 then { w0.getFifo q l with st := m.close } else w0.getFifo q l)
        else w0.getFifo r j)
  ∧ (∀ s p path (reply : List Word) v, s.place? p.key = some p → (p.w.svcs.find? fun v => v.path = path) = some v →
    s.errs.svcFailed ≠ [true, true] → s.errs.svcFailed.length = 2 → (∀ q, v.d ≠ .port q) →
    ∃ t w, exec (.svcReply p.key path reply) s = .next t ∧ t = { s with warps := t.warps, svcRing := t.svcRing, pool := t.pool }
      ∧ (p.g.st ≠ .evicted → t.pool = s.pool) ∧ t.svcRing = (s.svcRing.filter fun r => decide (¬ (r.warp = p.key ∧ r.mask = v.active)))
      ∧ AtKey s.warps t.warps p.key w ∧ RegsGet p.w w v.active v.d 1 (fun l => [reply.getD l 0#32])
      ∧ w = { p.w with v := w.v, u := w.u, svcs := p.w.svcs.filter fun y => decide (y.path ≠ path), wake := w.wake }
      ∧ ∀ lw, lw ∈ w.wake ↔ lw ∈ p.w.wake ∧ ¬ (lw.2 = .svc ∧ path.getLsbD lw.1 = true))

/-- 08 R199 to R201, R205 to R207, R491: a walk that finds a leaf with the permissions sets A, and D for a write, in it and
fills the TLBs; a fault on a page without an entry takes the next fault number; a retry frees the entry and wakes what waits
for it, a hold only stands in FREPLY; a head within the ring frees slots, any other is ignored. -/
def Obligations.PagingEvents : Prop :=
  (∀ s die core ctx (va : DWord) acc c pte size ploc l r, core < 768 → s.ctxs.get? ctx = some c → canonicalVa va.toNat = true →
    walkFrom s c va.toNat = .leaf pte size ploc l → surfOf s c pte = some r → permOk pte acc = true →
    ∃ t e, exec (.walkCompletes die core ctx va acc) s = .next t
      ∧ t = { s with mem := t.mem, paging := t.paging, llc := t.llc, llcFills := t.llcFills, hbmOld := t.hbmOld
                     spoiled := t.spoiled, warps := t.warps, gangs := t.gangs }
      ∧ (∀ k, ∃ v a, t.warps.get? k = (s.warps.get? k).map fun w => { w with resv := v, wake := a })
      ∧ (∀ k, ∃ d b, t.gangs.get? k = (s.gangs.get? k).map fun g => { g with dirty := d, wb := b })
      ∧ t.memWord ploc = pte ||| (if accWrites acc then 0x60#64 else 0x20#64) ∧ SameBytesBut s t ploc 8
      ∧ tlbLookup t (coreTlbs core) ctx va.toNat = some e ∧ e.pte = t.memWord ploc ∧ e.size = size ∧ e.srec = r
      ∧ t.paging.faults = s.paging.faults)
  ∧ (∀ s die ctx (va : DWord) acc kind level grid,
    (∀ ke ∈ s.paging.faults, ke.1 / 2 ^ 32 = die → ¬ (ke.2.ctx = ctx ∧ ke.2.va.toNat / 4096 = va.toNat / 4096)) →
    (s.paging.faults.filter fun ke => decide (ke.1 / 2 ^ 32 = die)).length < 64 →
    (kind = 2 → ∀ c, s.ctxs.get? ctx = some c → walkLost s c va.toNat = false) →
    ∃ t, joinFault s die ctx va acc kind level grid = some (t, (s.die die).nextFnum)
      ∧ t = { s with paging := { s.paging with faults := t.paging.faults }, dies := t.dies }
      ∧ AtKey s.paging.faults t.paging.faults (die * 2 ^ 32 + (s.die die).nextFnum.toNat) ⟨ctx, va, 1, acc, kind, level, grid, false⟩
      ∧ (t.die die).nextFnum = (s.die die).nextFnum + 1#32)
  ∧ (∀ s die (fnum : Word), s.paging.faults.has (die * 2 ^ 32 + fnum.toNat) = true → s.errs.svcFailed.all id = false →
    ∃ t, exec (.freplyRetry die fnum) s = .next t
      ∧ t = { s with paging := { s.paging with faults := s.paging.faults.del (die * 2 ^ 32 + fnum.toNat)
                                               freply := BitVec.ofNat 64 (die % 16 * 2 ^ 36 + fnum.toNat) }
                     warps := t.warps, ops := t.ops, mloops := t.mloops }
      ∧ AllRegsSame s t
      ∧ (∀ k w, t.warps.get? k = some w → (∀ ke ∈ w.log, ∀ lf ∈ ke.2.faults, lf.2 ≠ (die, fnum))
          ∧ ∀ lw ∈ w.wake, ∀ a, lw.2 ≠ .fetch a die fnum)
      ∧ (∀ k o, t.ops.get? k = some o → o.fault ≠ some (die, fnum)) ∧ ∀ k m, t.mloops.get? k = some m → m.fault ≠ some (die, fnum))
  ∧ (∀ s die (fnum : Word), s.errs.svcFailed.all id = false → exec (.freplyHold die fnum) s = .next { s with
      paging := { s.paging with freply := BitVec.ofNat 64 (die % 16 * 2 ^ 36 + 2 ^ 32 + fnum.toNat) } })
  ∧ (∀ s (head : BitVec 13),
    let d := (head - s.paging.head).toNat
    let len := (s.paging.tail - s.paging.head).toNat
    (d ≤ len → ∃ t, exec (.fringHeadWrite head) s = .next t ∧ t.paging.head = head ∧ AllRegsSame s t)
    ∧ (len < d → exec (.fringHeadWrite head) s = .next s))

/-! ## Power (10) -/

/-- 10 R243, R244, R247, R248, R252, R254 to R259: the critical order, the refill of a cluster, the revolution's quota and
thermal levels, droop alarms, and the change of an operating class. The package power and the temperatures are readings of
the outside, which the model takes as given (log 8). -/
def Obligations.PowerEvents : Prop :=
  (∀ s k w0 since, s.warps.get? k = some w0 → w0.tempoSince = some since → since + 512 ≤ s.coreCc (s.warpCore k) →
    k ∉ (s.core (s.warpCore k)).critical →
    let c := s.warpCore k
    ∃ t, exec (.warpBecomesCritical k) s = .next t ∧ t = { s with cores := t.cores }
      ∧ AtKey s.cores t.cores c { s.core c with critical := (t.core c).critical }
      ∧ (t.core c).critical.Perm (k :: (s.core c).critical)
      ∧ ((∀ j ∈ (s.core c).critical, (((s.warps.get? j).bind (·.tempoSince)).getD 0) < since) →
          (t.core c).critical = (s.core c).critical ++ [k]))
  ∧ (∀ s die cl, let k := die * 8 + cl
    let q := match (s.die die).thermal with | .normal => s.power.q | .reduced => max 2 (s.power.q / 2) | .minimum => 2
    ∃ t, exec (.poolRefill die cl) s = .next t ∧ t = { s with cores := t.cores, clusters := t.clusters }
      ∧ AtKey s.clusters t.clusters k { s.cluster k with reserve := 64, lastRefill := s.clusterCc k / 16 }
      ∧ ∀ n, t.core n = if coreCluster n = k then { s.core n with pool := min 64 ((s.core n).pool + q) } else s.core n)
  ∧ (∀ s (r : RevReading),
    let w2 := (s.cores.map fun kc => if kc.2.demandNow then classWeight2 (s.cluster (coreCluster kc.1)).cls else 0).foldl (· + ·) 0
    let lic := (licensedNow s :: s.power.licensed).take 8
    let ns := 128 * lic.length
    let a : Int := (3000000 - (r.powerMw : Int)) * ns + lic.sum
    ∃ t, exec (.revolution r) s = .next t
      ∧ t = { s with dies := t.dies, power := t.power, counters := t.counters, cores := t.cores, clusters := t.clusters
                     errs := t.errs }
      ∧ t.power = ⟨if w2 = 0 then 64 else max 2 (min 64 ((2 * a).toNat / (w2 * ns))), s.hc / 256, lic⟩
      ∧ (∀ k, t.clusters.get? k = (s.clusters.get? k).map fun c => { c with filled := 0 })
      ∧ (∀ k, t.cores.get? k = (s.cores.get? k).map fun c => { c with demandPrev := c.demandNow, demandNow := false, drawn := 0 })
      ∧ (∀ d < 12, let temp := r.dieTemp.getD d 0
          (t.die d).thermal = if 920 ≤ temp then .minimum else if 800 ≤ temp then .reduced else if temp < 760 then .normal
            else if (s.die d).thermal = .normal then .normal else .reduced)
      ∧ t.counters.pwrflr = if a < ((w2 * ns : Nat) : Int) then s.counters.pwrflr + 1#32 else s.counters.pwrflr)
  ∧ (∀ s die cl, let k := die * 8 + cl
    (∃ t, exec (.droopAlarm die cl) s = .next t ∧ t = { s with clusters := t.clusters }
      ∧ AtKey s.clusters t.clusters k { s.cluster k with droops := (s.cluster k).droops + 1#16, lastDroop := some (s.clusterCc k) })
    ∧ (∀ since, (s.cluster k).lastDroop = some since → since + 256 ≤ s.clusterCc k →
      ∃ t, exec (.droopRationingEnds die cl) s = .next t ∧ t = { s with clusters := t.clusters }
        ∧ AtKey s.clusters t.clusters k { s.cluster k with lastDroop := none })
    ∧ ((s.cluster k).st = .draining → clusterQuiet s k = true → ∃ t, exec (.quiescePoint die cl) s = .next t
      ∧ t = { s with clusters := t.clusters } ∧ AtKey s.clusters t.clusters k { s.cluster k with st := .ramping, rampAt := s.hc })
    ∧ (let c := s.cluster k
      let mv (x : BitVec 2) : Nat := if x = 0 then 600 else if x = 1 then 680 else if x = 2 then 750 else 850
      let way := 200 * (max (mv c.cls) (mv c.target) - min (mv c.cls) (mv c.target))
      c.st = .ramping → c.rampAt + 4000 + way ≤ s.hc →
      ∃ t, exec (.rampEnds die cl) s = .next t ∧ t = { s with clusters := t.clusters }
      ∧ (∀ j, j ≠ k → t.clusters.get? j = s.clusters.get? j)
      ∧ (t.cluster k).cls = c.target ∧ (t.cluster k).clock = c.target ∧ (t.cluster k).volt = mv c.target
      ∧ (t.cluster k).pend = none
      ∧ match (s.cluster k).pend with
        | none => (t.cluster k).st = .pooled
        | some p => if p = (s.cluster k).target then (t.cluster k).st = .pooled
            else (t.cluster k).st = .ramping ∧ (t.cluster k).target = p))

/-- 02 R80 to R85; 10 R250, R252; 16 R407, R408, R417, R418: at a slew boundary at most two cores more run than the last
level says, and the fillers keep the level from falling by more than one; with one waiting step it starts. A finished step
leaves every entry of its accumulator as its fragments make it, one after the other, and the array; a finished bit-serial
K.SC step adds the sum of its 32 products; a ply counts in its loop, which resolves after the last, or as CANCELLED. A loop
draws the price of its next ply and queues it with the rows that it read. What a fragment makes of an entry is stated for
every contract (02 R80 to R85; 16 R407): a group or block is summed exactly, rounded to F32 and added; integer terms are
added one after the other, each wrap counted; logarithmic ones by LMUL and LADD in SAT mode; a long entry takes the exact
sum, with its range test and flags. The order of grants, the moment at which a loop draws and the sparse time are the model's
choice (log 32). -/
def Obligations.ArrayEvents : Prop :=
  (∀ s die cl, let k := die * 8 + cl
    let c := s.cluster k
    s.clusterCc k % 4 = 0 → c.lastSlew ≤ s.clusterCc k / 4 →
    (∃ t level f, exec (.slewBoundary die cl) s = .next t
      ∧ AtKey s.clusters t.clusters k { c with
          level := level, reserve := c.reserve - f, filled := c.filled + f, lastSlew := s.clusterCc k / 4 + 1 }
      ∧ c.level ≤ level + 1 ∧ level ≤ max 8 (c.level - 1) ∧ f ≤ c.level - 1
      ∧ ((∀ n ∈ clusterCores k, runningStep s n = false ∧ (s.core n).ended = none) → level ≤ c.level + 2))
    ∧ ((∀ n ∈ clusterCores k, (s.core n).mq = []) → ∃ t, exec (.slewBoundary die cl) s = .next t ∧ t = { s with clusters := t.clusters }
      ∧ AtKey s.clusters t.clusters k { c with
          level := c.level - 1, reserve := c.reserve - (c.level - 1), filled := c.filled + (c.level - 1)
          lastSlew := s.clusterCc k / 4 + 1 })
    ∧ (∀ n x rest p, n ∈ clusterCores k → (∀ j ∈ clusterCores k, j ≠ n → (s.core j).mq = []) → (s.core n).mq = x :: rest →
      x.ends = none → x.entry = none → s.place? x.warp = some p → p.w.marks = [] →
      ∃ t, exec (.slewBoundary die cl) s = .next t ∧ t = { s with clusters := t.clusters, cores := t.cores }
        ∧ AtKey s.cores t.cores n { s.core n with
            mq := { readRows p.w x with ends := some ((s.coreCc n + x.time + 3) / 4 * 4) } :: rest }
        ∧ AtKey s.clusters t.clusters k { c with
            level := max 1 (c.level - 1), reserve := c.reserve - (c.level - 1 - 1), filled := c.filled + (c.level - 1 - 1)
            lastSlew := s.clusterCc k / 4 + 1 }))
  ∧ (∀ s core m rest e p o sh, (s.core core).mq = m :: rest → m.ends = some e → e ≤ s.coreCc core → s.place? m.warp = some p →
    stepOf m.instr = some o → shapeOf p.gr.contract o.a o.b o.code = some sh → p.gr.contract ≠ 4 →
    let fs := (stepFrags p.gr sh o m).zipIdx
    let short (i j : Nat) (x : Word) : Word := fs.foldl (fun x fn => BitVec.ofNat 32 (entryStep p.gr.contract o.a o.b o.code p.gr.sckey i j
      (scaleFor p.gr.contract o.a sh m.scaleA fn.2 i) (scaleFor p.gr.contract o.b sh m.scaleB fn.2 j)
      (entryTerms sh o m.mdata fn.1 i j) x.toNat).1) x
    let long (i j : Nat) (x : LongEntry) : LongEntry := fs.foldl (fun x fn => longStep o.a o.b (entryTerms sh o m.mdata fn.1 i j) x) x
    ∃ t w, exec (.matrixStepEnds core) s = .next t ∧ (t.core core).mq = markWaiting (s.coreCc core) rest
      ∧ (t.core core).ended = some (m.warp, m.acc, e) ∧ t.warps.get? m.warp = some w
      ∧ w.v = p.w.v ∧ w.p = p.w.p ∧ w.tiles = p.w.tiles ∧ w.pcv = p.w.pcv
      ∧ (p.gr.contract ≠ 7 → w.laccs = p.w.laccs ∧ ∀ c, ∀ i < 64, ∀ j < 64, w.accGet c i j
          = if c = m.acc then short i j (p.w.accGet c i j) else p.w.accGet c i j)
      ∧ (p.gr.contract = 7 → w.accs = p.w.accs ∧ ∀ c, ∀ i < 32, ∀ j < 32,
          Sparse.get LongEntry.zero w.laccs (1024 * c + 32 * i + j) = if c = m.acc
            then long i j (Sparse.get LongEntry.zero p.w.laccs (1024 * c + 32 * i + j))
            else Sparse.get LongEntry.zero p.w.laccs (1024 * c + 32 * i + j))
      ∧ ∀ k l, m.src = .ply k → s.mloops.get? k = some l → l.warp = m.warp →
        let ends (status : Nat) : Prop := t.mloops.get? k = none ∧ w.fut.get? l.fut.val = none
            ∧ w.getU (24 + l.fut.val) = statusWord status (l.ply + 1)
        if l.cancelled = true ∧ l.drawn = l.ply + 1 then ends 2
        else if plPlies l.params ≤ l.ply + 1 then ends 0
        else t.mloops.get? k = some { l with ply := l.ply + 1 })
  ∧ (∀ (a b : Ty) (code key i j : Nat) (sa sb : Nat → Nat) (ts : List Term) (acc : Word),
    let out (c : Nat) : Nat × Counts := entryStep c a b code key i j sa sb ts acc.toNat
    let prods (us : List Term) : List Val := us.map fun t => Val.mul (elemVal a 0 t.a) (elemVal b 0 t.b)
    let wraps (c : Nat) (xs : List Int) : Prop :=
      out c = ((acc + BitVec.ofInt 32 xs.sum).toNat, ⟨0, 0, (wrapSum acc xs).2, 0⟩)
    let i8 (x : Nat) : Int := (BitVec.ofNat 8 x).toInt
    (∃ g, Summed (prods ts) g ∧ out 1 = ((groupAdd acc g).toNat, Counts.none))
    ∧ (∀ c ∈ [2, 3], ∃ gs : List Val, (∀ t ∈ ts, t.k / 32 < gs.length) ∧ (∀ n, gs.length = n + 1 → ∃ t ∈ ts, t.k / 32 = n)
      ∧ (∀ k < gs.length, let us := ts.filter fun t => t.k / 32 = k
          if sa k = 255 || sb k = 255 || us.any fun t => isSpecial (elemVal a 0 t.a) || isSpecial (elemVal b 0 t.b) then
            gs[k]? = some .nan
          else ∃ g, Summed (prods us) g ∧ gs[k]? = some (g.scale ((sa k : Int) + sb k - 254)))
      ∧ out c = ((gs.foldl groupAdd acc).toNat, Counts.none))
    ∧ wraps 5 (ts.map fun t => ((t.a : Int) - sa (t.k / 32)) * ((t.b : Int) - sb (t.k / 32)))
    ∧ ((∀ t ∈ ts, t.a < 4 ∧ t.b < 256) →
        wraps 8 (ts.map fun t => (if t.a = 1 then 1 else if t.a = 3 then -1 else 0) * i8 t.b))
    ∧ ((∀ t ∈ ts, t.a < 256 ∧ t.b < 256) → wraps 9 (ts.map fun t =>
        if code = 0 then i8 t.a * i8 t.b
        else
          let n := code + 1
          let x : Int := streamOnes n ((i8 t.a).natAbs * 2 ^ n / 128) ((i8 t.b).natAbs * 2 ^ n / 128) (2 ^ n)
            (streamSeed key i t.ka 0) (streamSeed key j t.kb 1)
          if (i8 t.a < 0) = (i8 t.b < 0) then x else -x))
    ∧ (let r := ts.foldl (fun (r : Nat × Nat) t =>
          let m := lMulDiv .l16 false false t.a t.b
          let y := lAdd .l16 false false r.1 m.1
          (y.1, r.2 + m.2 + y.2)) (acc.toNat % 2 ^ 16, 0);
        out 6 = (r.1, ⟨r.2, 0, 0, 0⟩))
    ∧ ∀ e : LongEntry,
      let r : Int := e.n.toInt + exactSum (prods ts) (-298)
      let x := longStep a b ts e
      x.n = (if r < -(2 ^ 639) ∨ 2 ^ 639 ≤ r then e.n else BitVec.ofInt 640 r) ∧ x.nan = (e.nan || (prods ts).any Val.isNan)
        ∧ (x.pinf = true ↔ e.pinf = true ∨ Val.inf false ∈ prods ts ∨ 2 ^ 639 ≤ r)
        ∧ (x.ninf = true ↔ e.ninf = true ∨ Val.inf true ∈ prods ts ∨ r < -(2 ^ 639)))
  ∧ (∀ s core m e p (x : MmaF), (s.core core).mq = [m] → m.ends = some e → e ≤ s.coreCc core → s.place? m.warp = some p →
    p.t.core = core → p.w.exited ≠ 0xFFFFFFFF#32 → p.w.marks = [] → p.gr.contract = 9 → m.instr = .mma x → x.aty = .i8 → x.bty = .i8 → x.code.val = 0 → m.src = .single →
    m.rowsA.length = 64 → m.rowsB.length = 64 → (∀ r ∈ m.rowsA ++ m.rowsB, r.length = 64) → m.acc < 8 →
    let a (i k : Nat) : Byte := (m.rowsA.getD i []).getD (32 * (m.sw.toNat % 2) + k) 0#8
    let b (j k : Nat) : Byte := (m.rowsB.getD j []).getD (32 * (m.sw.toNat / 8 % 2) + k) 0#8
    ∃ t w z, exec (.matrixStepEnds core) s = .next t ∧ t = { s with warps := t.warps, cores := t.cores }
      ∧ AtKey s.cores t.cores core { s.core core with mq := [], zwrap := z, ended := some (m.warp, m.acc, e) }
      ∧ AtKey s.warps t.warps m.warp w ∧ w = { p.w with accs := w.accs }
      ∧ (∀ i < 64, ∀ j < 64, w.accGet m.acc i j = p.w.accGet m.acc i j
          + (List.range 32).foldl (fun n k => n + (a i k).signExtend 32 * (b j k).signExtend 32) 0#32)
      ∧ ∀ c, c ≠ m.acc → ∀ i < 64, ∀ j < 64, w.accGet c i j = p.w.accGet c i j)
  ∧ (∀ s s1 s0 core k m p o sh ra rb md sa sb, s.mloops.get? k = some m → m.core = core → stepOf m.instr = some o →
    s.place? m.warp = some p → p.t.core = core → shapeOf p.gr.contract o.a o.b o.code = some sh →
    m.cancelled = false → m.fault = none → m.drawn < plPlies m.params → plyWaits s k m = false →
    plyReads s p sh o m = .ok s1 ra rb md sa sb → drawPrice s1 core p.key (if o.sparse then 6 else sh.price) = some s0 →
    ∃ t st, exec (.mloopPly core k) s = .next t
      ∧ t = { s0 with mloops := t.mloops, cores := t.cores } ∧ AtKey s0.mloops t.mloops k { m with drawn := m.drawn + 1 }
      ∧ AtKey s0.cores t.cores core { s0.core core with mq := (t.core core).mq }
      ∧ (∃ pre post, (s0.core core).mq = pre ++ post ∧ (t.core core).mq = markWaiting (s.coreCc core) (pre ++ st :: post))
      ∧ st.warp = m.warp ∧ st.acc = m.acc ∧ st.instr = m.instr ∧ st.src = .ply k ∧ st.drawn = s.coreCc core ∧ st.ends = none
      ∧ st.entry = none ∧ st.rowsA = ra ∧ st.rowsB = rb ∧ st.mdata = md ∧ st.scaleA = sa ∧ st.scaleB = sb)
  ∧ (∀ s s0 core k m p (x : MloopF) sh (xa xb : Nat → Xlat), s.mloops.get? k = some m → m.core = core → m.instr = .mloop x →
    s.place? m.warp = some p → p.t.core = core → shapeOf p.gr.contract x.aty x.bty x.code.val = some sh → p.gr.contract ≠ 4 →
    m.cancelled = false → m.fault = none → m.drawn < plPlies m.params → plyWaits s k m = false →
    let ra (r : Nat) : Nat := rowAddr (plAaddr m.params) (plInca m.params) (plStra m.params) m.drawn r
    let rb (r : Nat) : Nat := rowAddr (plBaddr m.params) (plIncb m.params) (plStrb m.params) m.drawn r
    (∀ r < sh.m, ra r % 128 + sh.wa ≤ 128 ∧ regionOk p.gr p.g.num (ra r) sh.wa (.load false) = true
      ∧ s.rangeLocked p.gr.ctx (ra r) sh.wa false = false ∧ s.windowBusy p (ra r) sh.wa false = false
      ∧ Reach s p .load (BitVec.ofNat 64 (ra r)) (xa r)) →
    (∀ r < sh.n, rb r % 128 + sh.wb ≤ 128 ∧ regionOk p.gr p.g.num (rb r) sh.wb (.load false) = true
      ∧ s.rangeLocked p.gr.ctx (rb r) sh.wb false = false ∧ s.windowBusy p (rb r) sh.wb false = false
      ∧ Reach s p .load (BitVec.ofNat 64 (rb r)) (xb r)) →
    drawPrice s core p.key sh.price = some s0 →
    ∃ u, exec (.mloopPly core k) s = .next u
      ∧ Filled (({ s0 with mloops := s.mloops.put k { m with drawn := m.drawn + 1 } } : State).queueStep core
        { singleStep s p m.instr m.acc (sh.time * slowdown p.gr.contract p.gr.cls x.code.val) with
          src := .ply k
          rowsA := (List.range sh.m).map fun r => s.memRead (xa r).loc sh.wa
          rowsB := (List.range sh.n).map fun r => s.memRead (xb r).loc sh.wb }) u)

/-! ## Barriers and engines (07 R184 to R190; 17 R425 to R434) -/

/-- 07 R184 to R190: an arrival that is due counts once per warp and phase and returns the parity; one that finds every
arrival counted belongs to the next phase and returns the next parity, as all that come so do (log 14, the model's choice);
the last one, with every byte there, releases the barrier, flips the parity and wakes its waiters, which issue from the next
cc on; what came for the next phase is counted in it; Released returns to Armed one cc later; an exit leaves a barrier of
every warp. Bytes of an engine operation add to BARR up to BEXP; those above it count in `%barmis` and are not added; with
the last of them a barrier whose arrivals are all there is released (07 R188). -/
def Obligations.BarrierEvents : Prop :=
  (∀ s p a b d, (s.arrivals.filter fun y => decide (y.bar = a.bar) && decide (y.due ≤ barCc s a.bar)) = [a] →
    (∀ m ∈ s.exits, m.bar = a.bar → barCc s a.bar < m.due) → s.bars.get? a.bar = some b → s.place? a.warp = some p →
    b.st = .armed ∨ b.st = .released → ¬ (b.st = .armed ∧ b.cnt = b.expw ∧ b.bexp ≤ b.barr) → a.d = some d → (∀ q, d ≠ .port q) →
    let rest := s.arrivals.filter fun y => !(decide (y.bar = a.bar) && decide (y.due ≤ barCc s a.bar))
    let result (ph : Bool) (w : Warp) : Prop := RegsGet p.w w a.active d 1 fun _ => [if ph then 1#32 else 0#32]
    (a.warp ∈ b.arrived ∨ (∃ y ∈ b.late, y.warp = a.warp) → ∃ t w, exec (.barrierArrival a.bar) s = .next t
      ∧ t = { s with arrivals := rest, warps := t.warps, cores := t.cores }
      ∧ AtKey s.cores t.cores p.t.core { s.core p.t.core with barmis := (s.core p.t.core).barmis + 1#32 }
      ∧ t.warps.get? a.warp = some w ∧ result b.ph w)
    ∧ (a.warp ∉ b.arrived → (∀ y ∈ b.late, y.warp ≠ a.warp) → b.cnt = b.expw → ∃ t w, exec (.barrierArrival a.bar) s = .next t
      ∧ t = { s with arrivals := rest, warps := t.warps, bars := t.bars }
      ∧ AtKey s.bars t.bars a.bar { b with late := b.late ++ [⟨a.warp, a.e, p.t.core, a.path, false⟩] }
      ∧ t.warps.get? a.warp = some w ∧ result (!b.ph) w)
    ∧ (a.warp ∉ b.arrived → (∀ y ∈ b.late, y.warp ≠ a.warp) → b.cnt ≠ b.expw → b.bexp + a.e < 2 ^ 24 →
      (¬ (b.st = .armed ∧ b.cnt + 1 = b.expw ∧ b.bexp + a.e ≤ b.barr) → ∃ t w, exec (.barrierArrival a.bar) s = .next t
        ∧ AtKey s.bars t.bars a.bar { b with cnt := b.cnt + 1, arrived := b.arrived ++ [a.warp], bexp := b.bexp + a.e }
        ∧ t.arrivals = rest ∧ t.warps.get? a.warp = some w ∧ result b.ph w)
      ∧ (b.st = .armed → b.cnt + 1 = b.expw → b.bexp + a.e ≤ b.barr → b.late = [] → ∃ t w, exec (.barrierArrival a.bar) s = .next t
        ∧ AtKey s.bars t.bars a.bar { b with st := .released, ph := !b.ph, cnt := 0, barr := 0, arrived := [], bexp := b.txb
                                             relAt := s.clusterCc b.cluster }
        ∧ t.arrivals = rest ∧ t.warps.get? a.warp = some w ∧ result b.ph w
        ∧ ∀ k ∈ b.group, ∀ y, t.warps.get? k = some y → (∀ lw ∈ y.wake, lw.2 ≠ .barrier b.idx ∧ lw.2 ≠ .bsync b.idx true)
          ∧ ∀ l, (s.warps.get? k).bind (·.wake.get? l) = some (.barrier b.idx) → y.wake.get? l = some (.released b.idx))))
  ∧ (∀ s k b, s.bars.get? k = some b → b.st = .armed → b.cnt = b.expw → b.bexp ≤ b.barr →
    b.txb + (b.late.map (·.e)).sum < 2 ^ 24 →
    AtKey s.bars (phaseTest s k).bars k { b with
      st := .released, ph := !b.ph, cnt := b.late.length, barr := 0, arrived := b.late.map (·.warp)
      bexp := b.txb + (b.late.map (·.e)).sum, relAt := s.clusterCc b.cluster, late := [] })
  ∧ (∀ s k b, s.bars.get? k = some b → b.st = .released → b.relAt < s.clusterCc b.cluster → ¬ (b.cnt = b.expw ∧ b.bexp ≤ b.barr) →
    ∃ t, exec (.releaseEnds k) s = .next t ∧ t = { s with bars := t.bars, warps := t.warps }
      ∧ AtKey s.bars t.bars k { b with st := .armed }
      ∧ ∀ j, t.warps.get? j = (s.warps.get? j).map fun w =>
          if j ∈ b.group then { w with wake := w.wake.filter fun lw => decide (lw.2 ≠ .released b.idx) } else w)
  ∧ (∀ s k b core n, s.bars.get? k = some b → (∀ m ∈ s.exits, m.bar = k → barCc s k < m.due) →
    (∀ a ∈ s.arrivals, a.bar = k → barCc s k < a.due) → b.st = .armed → b.barr ≤ b.bexp →
    let t := barrierBytes s k core n
    let more : Prop := AtKey s.cores t.cores core { s.core core with
      barmis := (s.core core).barmis + (if b.bexp < b.barr + n then 1#32 else 0#32) }
    (¬ (b.cnt = b.expw ∧ b.bexp ≤ b.barr + n) → t = { s with bars := t.bars, cores := t.cores } ∧ more
      ∧ AtKey s.bars t.bars k { b with barr := min (b.barr + n) b.bexp })
    ∧ (b.cnt = b.expw → b.bexp ≤ b.barr + n → b.late = [] →
      t = { s with bars := t.bars, cores := t.cores, warps := t.warps } ∧ more
      ∧ AtKey s.bars t.bars k { b with
          st := .released, ph := !b.ph, cnt := 0, barr := 0, arrived := [], bexp := b.txb, relAt := s.clusterCc b.cluster }))
  ∧ (∀ s m b, (s.exits.filter fun y => decide (y.bar = m.bar) && decide (y.due ≤ barCc s m.bar)) = [m] →
    (∀ a ∈ s.arrivals, a.bar = m.bar → barCc s m.bar < a.due) → s.bars.get? m.bar = some b → b.all = true ∨ b.idx = 32 →
    m.warp ∉ b.arrived → ¬ (b.st = .armed ∧ b.cnt = b.expw - 1 ∧ b.bexp ≤ b.barr) →
    ∃ t, exec (.exitReachesBarrier m.bar m.warp) s = .next t
      ∧ t = { s with bars := t.bars, exits := s.exits.filter fun y => !(decide (y.bar = m.bar) && decide (y.due ≤ barCc s m.bar)) }
      ∧ AtKey s.bars t.bars m.bar { b with expw := b.expw - 1 })

/-- 17 R425 to R427, R432, R433, R436; 07 R188; 09 R217, R232: an operation whose first line can be read starts, and a copy
from the host asks for its data; one whose first line faults is held and has not started. A `coll` whose peers can be reached
sends them its grants; one that is no issue of a group resolves BADDESC. A released operation resolves REGION, one stopped in
an earlier hub cycle CANCELLED, one whose members differ BADDESC; one whose accesses are admitted makes its writes and
resolves OK, or UNROUTE, with its saturation events; in every case the bytes of a started one reach its barrier, its full
count also when it failed. A copy of part of a line moves its bytes; a grant and a shard of a peer are taken in. The model's
choices: which issues of `coll` are numbered and what the shards wait for (log 45), that an operation reads and writes at its
completion (log 5), and that a stopped one adds the events of the free part that it wrote (log 46). -/
def Obligations.EngineEvents : Prop :=
  let resolved (s t : State) (k : Nat) (o : EngOp) (word : Word) : Prop := ∃ t0 : State, t0.ops = s.ops.del k
    ∧ (∀ w0, s.warps.get? o.warp = some w0 → ∃ w, t0.warps.get? o.warp = some w
      ∧ w.fut.get? o.fut.val = none ∧ w.getU (24 + o.fut.val) = word)
    ∧ t = if o.started = true ∧ o.bar ≠ 0 then barrierBytes t0 (o.bar - 1) o.core (o.bytes s) else t0
  let word (st ev : Nat) : Word := BitVec.ofNat 32 (st * 2 ^ 24 + min ev (2 ^ 24 - 1))
  let hit (s : State) (o : EngOp) (va : Nat) (acc : AccKind) (x : Xlat) : Prop :=
    ∃ e, tlbLookup s (dieTlbs o.die) o.ctx va = some e ∧ permOk e.pte acc = true
      ∧ (accWrites acc = true → e.pte.getLsbD 6 = true) ∧ x = leafXlat e.pte e.size va e.srec
  (∀ s k o a, s.ops.get? k = some o → o.kind ≠ .coll → o.pinned = none → o.released = false → o.cancelled = none → o.fault = none →
    o.started = false → ¬ (o.kind = .cmpr ∧ o.surf = 0) → s.engAt o = some a →
    let asks := if o.kind = .copy ∧ cpHost o.desc = 1 ∧ linkWorks (s.link 136) = true then
      [Sent.rdmaRead (cpQp o.desc) (BitVec.ofNat 64 (egSrc o.desc)) (egCount o.desc)] else []
    (firstRead s a = .done → ∃ t, exec (.engineOpStarts k) s = .next t ∧ AtKey s.ops t.ops k { o with started := true }
      ∧ t = { s with ops := t.ops, host := { s.host with sent := s.host.sent ++ asks } })
    ∧ ∀ va acc kl s1 f, firstRead s a = .page va acc kl → engFault s o va acc kl = some (s1, f) →
      ∃ t, exec (.engineOpStarts k) s = .next t ∧ AtKey s1.ops t.ops k { o with fault := some f } ∧ t = { s1 with ops := t.ops })
  ∧ (∀ s k o, s.ops.get? k = some o → o.kind = .coll → o.pinned = none → o.released = false → o.cancelled = none → o.fault = none →
    o.status = 0 →
    (s.groups.get? (clGroup o.desc) = none ∨ o.numbered = false →
      ∃ t, exec (.engineOpStarts k) s = .next t ∧ resolved s t k o (word 4 0))
    ∧ ∀ g, s.groups.get? (clGroup o.desc) = some g → o.numbered = true →
      (∀ q ∈ clPeers o.desc g s.fused.pkg, s.unreachable q = false) → ∃ t, exec (.engineOpStarts k) s = .next t
        ∧ t = { s with ops := t.ops, host := { s.host with
            sent := s.host.sent ++ (clPeers o.desc g s.fused.pkg).map fun q => .grant q o.seq o.desc } }
        ∧ AtKey s.ops t.ops k { o with status := 1 })
  ∧ (∀ s k o, s.ops.get? k = some o →
    (o.released = true → ∃ t, exec (.engineOpCompletes k) s = .next t ∧ resolved s t k o (word 1 o.ev))
    ∧ (o.released = false → o.pinned = none → o.differs = true → o.status = 1 →
      ∃ t ev, exec (.engineOpCompletes k) s = .next t ∧ resolved s t k o (word 4 ev) ∧ o.ev ≤ ev)
    ∧ (o.released = false → o.pinned = none → ¬ (o.differs = true ∧ o.status = 1) → o.started = true →
      ((∃ c, o.cancelled = some c ∧ c < s.hc) →
        ∃ t ev, exec (.engineOpCompletes k) s = .next t ∧ resolved s t k o (word 2 ev) ∧ o.ev ≤ ev ∧ (o.xd = none → ev = o.ev))
      ∧ ∀ a, o.cancelled = none → o.fault = none → (o.kind = .copy → cpHost o.desc = 0 ∨ linkWorks (s.link 136) = true) →
        (o.kind ≠ .coll → o.kind ≠ .cmpr → s.dieCut o.die = false) → s.engAt o = some a → (opWork s a).stop = .done →
        let r := opWork s a
        let w := a.writeAll r.s r.x
        ∃ t, exec (.engineOpCompletes k) s = .next t
          ∧ resolved s t k o (word (if w.2 then 7 else 0) (o.ev + evSum (r.x.ws.flatMap (·.evs))))
          ∧ ∀ x, t.byteAt x = w.1.byteAt x))
  ∧ (∀ s k o gr g (x y : Xlat), s.ops.get? k = some o → o.kind = .copy → o.started = true → o.cancelled = none →
    o.released = false → o.pinned = none → o.fault = none → o.status = 0 → o.ev = 0 → s.dieCut o.die = false →
    let n := egCount o.desc
    cpHost o.desc = 0 → cpSk o.desc = false → cpDk o.desc = false → o.xd = none → n ≠ 0 →
    egSrc o.desc % 128 + n ≤ 128 → egDst o.desc % 128 + n ≤ 128 →
    s.grids.get? o.grid.toNat = some gr → s.gangs.get? o.gang = some g →
    regionOk gr g.num (egSrc o.desc) n (.load false) = true → regionOk gr g.num (egDst o.desc) n (.store false) = true →
    hit s o (egSrc o.desc) .load x → hit s o (egDst o.desc) .store y →
    x.pkg = s.fused.pkg → y.pkg = s.fused.pkg → x.ap ≠ 3 → y.cmp = false → s.linePoisoned x.loc = false →
    x.loc % 128 + n ≤ 128 → y.loc % 128 + n ≤ 128 →
    ∃ t, exec (.engineOpCompletes k) s = .next t ∧ resolved s t k o 0#32
      ∧ ∀ a, t.byteAt a = lastStore [(y.loc, s.memRead x.loc n)] s.byteAt a)
  ∧ (∀ s (r : Grant) g k o, s.groups.get? r.group = some g → s.podUp = true → r.rank < g.members.length →
    r.rank ≠ g.rank s.fused.pkg → clFind s r.group r.seq = some (k, o) → s.ops.get? k = some o → (∀ y ∈ o.grants, y.rank ≠ r.rank) →
    s.unreachable (g.members.getD r.rank 0) = false →
    let agrees := r.opc = clOpc o.desc ∧ r.count = egCount o.desc ∧ r.xd = egXd o.desc ∧ r.root = clRoot o.desc
    let shard := if agrees then (o.data.get? (g.rank s.fused.pkg)).toList.map fun bs =>
      Sent.shard (g.members.getD r.rank 0) r.group r.seq bs else []
    ∃ t, exec (.collCreditGrant r) s = .next t
      ∧ t = { s with ops := t.ops, host := { s.host with sent := s.host.sent ++ shard } }
      ∧ AtKey s.ops t.ops k { o with grants := o.grants ++ [r], differs := o.differs || !decide agrees })
  ∧ (∀ s group rank seq data g k o, s.groups.get? group = some g → clFind s group seq = some (k, o) → s.ops.get? k = some o →
    s.podUp = true → o.status = 1 → o.differs = false → rank ≠ g.rank s.fused.pkg → rank ∈ clNeeds o.desc g →
    o.data.get? rank = none → data.length = clWireLen o.xd (egCount o.desc) →
    ∃ t o1, exec (.collDataArrives group rank seq data) s = .next t ∧ t = { s with ops := t.ops } ∧ AtKey s.ops t.ops k o1
      ∧ o1 = { o with data := o1.data, started := o.started || !clSends o.desc (g.rank s.fused.pkg) }
      ∧ ∀ j, o1.data.get? j = if j = rank then some data else o.data.get? j)

/-! ## Queues, the placer, dispatch (03; 04; 05; 06) -/

/-- 04 R115 to R117, R120 to R123, R125 to R129; 03 R107; 05 R149, R151; 22 R480 to R482: a datagram that is not for the port
or whose checksum is wrong is dropped, one with a wrong header counts in ONTBAD; a good record in sequence enters the ring
with its SEQ; a head that is the child of a killed grid, or with a misaligned dependence, fails; the only eligible head fails
its checks, is placed where its first unit fits, or is passed over; a head passed over for 65,536 hub cycles becomes
reserved. The oldest report is delivered in four steps: its completion signal rises to the larger of the two values, or is
dropped with the error event; DONE is journalled, behind a checkpoint that is due, in the slot of its number among 16,384; a
child's report resolves the future of its `launch`, and its parent counts it once; it leaves the FIFO. A checkpoint is
written after 4,096 entries. The standby takes over, numbers its entries from the one behind the last valid one, and the
placer goes on once the held reports are delivered. The model's choices: when a head is evaluated anew, what counts as passed
over, the order beside grids that still place gangs and the records of NDEP 5 to 7 (log 42), what is journalled while
castling (log 41), and the checks of a port map's bytes (log 63). -/
def Obligations.QueueAndDispatchEvents : Prop :=
  let arrives (s : State) (pseudo : List Nat) (h : UdpHeader) (payload : List Byte) : Prop :=
    h.dst = s.host.udpPort.toNat ∧ s.boot = .ready ∧ linkWorks (s.link 136) = true
      ∧ checksumOk h.sum pseudo [h.src, h.dst, h.len] payload = true
  let failed (s t : State) (n : Nat) (q : Queue) : Prop :=
    t.queue n = { q with head := q.head + 1, headSince := s.hc, passedSince := none, reserved := false, watch := none
                         qbad := q.qbad + 1#32, parents := (t.queue n).parents }
    ∧ (∀ c, s.ctxs.get? q.ctx = some c → t.ctxs.get? q.ctx = some { c with evt := true }) ∧ t.mem = s.mem ∧ t.placer = s.placer
  let soleHead (s : State) (n : Nat) (q : Queue) : Prop :=
    s.placer.stopped = false ∧ Tab.Sorted s.queues ∧ (n, q) ∈ s.queues ∧ s.queues.get? n = some q ∧ q.takes s.hc = true
      ∧ q.watch = none ∧ (∀ kq ∈ s.queues, kq.2.takes s.hc = true → kq = (n, q)) ∧ headOrphan s n q = false ∧ ctxActive s q.ctx = true
  (
    (∀ s pseudo h payload, ¬ arrives s pseudo h payload → exec (.ontiaDatagram pseudo h payload) s = .next s)
    ∧ (∀ s pseudo (u : UdpHeader) (payload : List Byte), arrives s pseudo u payload →
      let h := BitVec.ofNat 192 (natLE (payload.take 24))
      h.extractLsb' 0 16 ≠ 0x4F4E#16 ∨ h.extractLsb' 16 16 ≠ 1#16 ∨ h.extractLsb' 80 4 = 0#4 ∨ 8#4 < h.extractLsb' 80 4 ∨
        u.len ≠ 32 + 128 * (h.extractLsb' 80 4).toNat →
      exec (.ontiaDatagram pseudo u payload) s
        = .next { s with counters := { s.counters with ontbad := s.counters.ontbad + 1#32 } })
    ∧ (∀ s pseudo (u : UdpHeader) n (q : Queue) (r : BitVec 1024), n < 1024 → s.queues.get? n = some q → q.st = .enabled → q.src = 0 →
      q.tail - q.head < 2 ^ q.ringn → u.len = 160 →
      let stamped : BitVec 1024 := r.extractLsb' 32 992 ++ q.nextSeq
      let payload := bytesLE 24 (0x4F4E + 2 ^ 16 + n * 2 ^ 64 + 2 ^ 80 + q.nextSeq.toNat * 2 ^ 96 + q.cred.toNat * 2 ^ 128)
        ++ bytesLE 128 r.toNat
      arrives s pseudo u payload → ∃ t, exec (.ontiaDatagram pseudo u payload) s = .next t
        ∧ t = { s with queues := t.queues, disp := t.disp, mem := t.mem, hbmOld := t.hbmOld, llc := t.llc, llcFills := t.llcFills
                       spoiled := t.spoiled, poisonLines := t.poisonLines, warps := t.warps }
        ∧ AtKey s.queues t.queues n { q with
            tail := q.tail + 1, nextSeq := q.nextSeq + 1#32, headSince := if q.head = q.tail then s.hc else q.headSince }
        ∧ (∀ a, t.byteAt a = lastStore [(q.slotLoc q.tail, bytesLE 128 stamped.toNat)] s.byteAt a) ∧ AllRegsSame s t)
    ∧ (∀ s n (q : Queue), s.placer.stopped = false → (n, q) ∈ s.queues → s.queues.get? n = some q → headOrphan s n q = true →
      (∀ kq ∈ s.queues, headOrphan s kq.1 kq.2 = true → kq = (n, q)) →
      ∃ t, exec .placerDecision s = .next t ∧ failed s t n q)
    ∧ (∀ s n (q : Queue) k, soleHead s n q →
      let lr := recordAt s n q.head
      k < Nat.min 4 (lr.extractLsb' 36 3).toNat → (lr.extractLsb' (128 + 128 * k) 64).toNat % 8 ≠ 0 →
      ∃ t, exec .placerDecision s = .next t ∧ failed (depsState s q.ctx lr).1 t n q)
    ∧ (∀ s n (q : Queue) s1, soleHead s n q → s.placer.nextPlace ≤ s.hc → (∀ kg ∈ s.grids, kg.2.gangs ≤ kg.2.placed) →
      depsState s q.ctx (recordAt s n q.head) = (s1, .met) →
      let read := readRecord s1 q.ctx n (recordAt s1 n q.head)
      let s2 := read.1
      let passed (t : State) : Prop := t = { s2 with queues := t.queues }
        ∧ AtKey s2.queues t.queues n { q with passedSince := some (q.passedSince.getD s.hc) }
      ∃ t, exec .placerDecision s = .next t
        ∧ (read.2 = none → failed s2 t n q)
        ∧ (∀ g, read.2 = some g → bindClass s2 g = none → passed t)
        ∧ (∀ g cls c, read.2 = some g → bindClass s2 g = some cls → s2.ctxs.get? q.ctx = some c → q.parents.get? g.seq.toNat = none →
          (placeHead s2 (headCand s1 n q) g cls = none → passed t)
          ∧ (placeHead s2 (headCand s1 n q) g cls ≠ none → ∃ gid ga,
              t.grids.get? (gid : Word).toNat = some { g with cls := cls, parent := none, placed := unitSize g }
              ∧ t.gangs.get? s.placer.nextGang = some ga ∧ ga.grid = gid ∧ ga.num = 0 ∧ ga.st = .allotted
              ∧ t.queue n = { q with head := q.head + 1, headSince := s.hc, passedSince := none, reserved := false, watch := none
                                     parents := (t.queue n).parents }
              ∧ t.ctxs.get? q.ctx = some { c with phase := if g.phase = 0 then c.phase else BitVec.ofNat 16 g.phase }
              ∧ t.placer.nextPlace = s.hc + 8
              ∧ (s.disp.up = true → s.disp.sinceCkpt < 4096 → t.disp.journal.getLast? = some ⟨s.disp.nextJseq, .place, n, g.seq, gid, 0#64, 0#64, false⟩))))
    ∧ (∀ s, exec .placerSweep s = exec .placerDecision { s with
        lastSweep := s.hc / 4096, queues := s.queues.mapV fun _ q => { q with watch := none } })
    ∧ (∀ s, (∀ kq ∈ s.queues, kq.2.takes s.hc = false) → (∀ kg ∈ s.grids, kg.2.gangs ≤ kg.2.placed) →
      exec .placerDecision s = .next s
      ∧ exec .placerSweep s = .next { s with lastSweep := s.hc / 4096, queues := s.queues.mapV fun _ q => { q with watch := none } })
    ∧ (∀ s n (q : Queue) since, s.queues.get? n = some q → q.passedSince = some since → since + 65536 ≤ s.hc →
      ∃ t, exec (.recordReserved n) s = .next t ∧ t = { s with queues := t.queues } ∧ AtKey s.queues t.queues n { q with reserved := true }))
  ∧ (
    (∀ s, s.disp.up = false ∨ s.disp.fifo = [] → exec .completionDelivery s = .next s)
    ∧ (∀ s (r : Report) rest, s.disp.up = true → s.disp.fifo = r :: rest →
      let onward (n : Nat) : State := { s with disp := { s.disp with steps := n } }
      (s.disp.steps = 0 →
        let s0 := onward 1
        let event (t : State) : Prop := ∀ c, s0.ctxs.get? r.ctx = some c → t.ctxs.get? r.ctx = some { c with evt := true }
        (r.killed = true → ∃ t, exec .completionDelivery s = .next t ∧ t = { s0 with ctxs := t.ctxs } ∧ event t)
        ∧ (r.killed = false → r.csig = 0#64 → exec .completionDelivery s = .next s0)
        ∧ (r.killed = false → r.csig ≠ 0#64 → ∃ t, exec .completionDelivery s = .next t ∧ t.disp = s0.disp ∧ AllRegsSame s t
          ∧ (∀ f, translate s0 [] r.ctx r.csig.toNat .atomic = .error f → SameBytes s t ∧ event t)
          ∧ ∀ s1 x, translate s0 [] r.ctx r.csig.toNat .atomic = .ok (s1, x) →
              (s1.unreachable x.pkg = true → (∀ a, t.byteAt a = s1.byteAt a) ∧ event t
                ∧ t.counters = { s.counters with unroute := s.counters.unroute + 1#32 })
              ∧ (s1.unreachable x.pkg = false →
                let old := s1.memWord x.loc
                (∀ a, t.byteAt a = lastStore [(x.loc, bytesLE 8 (if old < r.cval then r.cval else old).toNat)] s1.byteAt a)
                ∧ ∀ n, t.queues.get? n = (s1.queues.get? n).map fun q => if q.watch = some x.loc then { q with watch := none } else q)))
      ∧ (s.disp.steps = 1 → ∃ t, exec .completionDelivery s = .next t ∧ t = { s with disp := t.disp }
        ∧ (s.disp.sinceCkpt < 4096 → t.disp = { s.disp with
            steps := 2, journal := t.disp.journal, nextJseq := s.disp.nextJseq + 1, sinceCkpt := s.disp.sinceCkpt + 1
            uliend := { s.disp.uliend with grids := s.disp.uliend.grids.filter (· ≠ r.grid) } })
        ∧ (4096 ≤ s.disp.sinceCkpt → t.disp.sinceCkpt = 2 ∧ t.disp.nextJseq = s.disp.nextJseq + 2)
        ∧ let e : JEntry := ⟨t.disp.nextJseq - 1, .done, r.queue, r.seq, r.grid, r.csig, if r.killed then 0#64 else r.cval, false⟩
          t.disp.journal.getLast? = some e
          ∧ ∀ x, x.ty ≠ .ckpt → (x ∈ t.disp.journal ↔ x = e ∨ x ∈ s.disp.journal
              ∧ ∀ j, s.disp.nextJseq ≤ j → j < t.disp.nextJseq → x.jseq % 16384 ≠ j % 16384))
      ∧ (s.disp.steps = 2 → (r.parent = none → exec .completionDelivery s = .next (onward 3))
        ∧ ∀ pg gr, r.parent = some pg → s.grids.get? pg.toNat = some gr →
          ∃ t, exec .completionDelivery s = .next t ∧ t.disp = { s.disp with steps := 3 } ∧ SameBytes s t
            ∧ AtKey s.grids t.grids pg.toNat
                (if r.grid ∈ gr.counted then gr else { gr with kids := gr.kids - 1, counted := gr.counted ++ [r.grid] })
            ∧ ∀ k w0 (f : Fin 8), s.warps.get? k = some w0 → w0.fut.get? f.val = some (.launch r.queue r.seq) →
                ∃ w, t.warps.get? k = some w ∧ w.fut.get? f.val = none
                  ∧ w.getU (24 + f.val) = BitVec.ofNat 32 ((if r.killed then 20 else 0) * 2 ^ 24 + min r.poison (2 ^ 24 - 1)))
      ∧ (3 ≤ s.disp.steps → ∃ t, exec .completionDelivery s = .next t
        ∧ t = { s with
            grids := t.grids
            disp := { s.disp with steps := 0, fifo := rest, castling := s.disp.castling && decide (rest ≠ []) }
            placer := if s.disp.castling = true ∧ rest = [] then { s.placer with stopped := s.errs.hubFatal } else s.placer }
        ∧ (r.parent = none → t.grids = s.grids)
        ∧ ∀ pg gr, r.parent = some pg → s.grids.get? pg.toNat = some gr →
            AtKey s.grids t.grids pg.toNat { gr with counted := gr.counted.filter (· ≠ r.grid) }))
    ∧ (∀ s, s.disp.up = true → 4096 ≤ s.disp.sinceCkpt → ∃ t, exec .journalCheckpoint s = .next t ∧ t = { s with disp := t.disp }
      ∧ t.disp = { s.disp with
          ckpts := s.disp.ckpts.set s.disp.ckptArea s.disp.uliend, ckptArea := 1 - s.disp.ckptArea, sinceCkpt := 1
          nextJseq := s.disp.nextJseq + 1, journal := t.disp.journal }
      ∧ t.disp.journal.getLast? = some ⟨s.disp.nextJseq, .ckpt, 0, 0#32, 0#32, 0#64, BitVec.ofNat 64 s.disp.ckptArea, false⟩)
    ∧ (∀ s, s.disp.castling = true → DispSt.standby ∈ s.disp.cores →
      let held : Bool := decide (s.disp.fifo ≠ [])
      ∃ t, exec .standbyTakeover s = .next t ∧ t = { s with
          disp := t.disp, queues := t.queues, placer := { s.placer with stopped := held || s.errs.hubFatal } }
        ∧ t.disp.cores = (s.disp.cores.map fun (c : DispSt) => if c = .standby then .active else c)
        ∧ t.disp.castling = held ∧ t.disp.fifo = s.disp.fifo
        ∧ (∀ n, (t.queues.get? n).map (fun q => { q with born := none }) = (s.queues.get? n).map fun q => { q with born := none })
        ∧ ((∀ kq ∈ s.queues, kq.2.kick = false) → t.disp.journal = s.disp.journal
          ∧ ∀ es (e : JEntry) bs, s.disp.journal = es ++ e :: bs → (∀ x ∈ es, x.bad = false) → e.bad = false →
            (∀ x, bs.head? = some x → x.bad = true) → (∀ x ∈ bs, x.bad = true ∨ x.ty ≠ .ckpt) → t.disp.nextJseq = e.jseq + 1)))

/-- 06 R158, R170 to R172; 05 R145, R148, R149, R151; 07 R192; 03 R100; 04 R123: the states of a gang from allotment to
retirement, with its image in the save pool and the write-back of its lines; a restore is a placement, one in 8 hub cycles; a
grid all of whose gangs are retired and whose counters, children and pins are zero is reported and goes; a context with
nothing of its own left is Suspended. The model's choices: the contents of the image where the spec gives lengths alone (log
55), when a gang's lines are home and the counts of a core belong to its grid (log 58), and the unit that is evicted for a
reserved record (log 63). -/
def Obligations.GangAndGridEvents : Prop :=
  (∀ s k g, s.gangs.get? k = some g →
    (∀ gr, s.grids.get? g.grid.toNat = some gr → g.st = .allotted → ∃ t, exec (.allotmentComplete k) s = .next t
      ∧ t = { s with gangs := t.gangs }
      ∧ ((∃ r ∈ gr.regions, r.extractLsb' 80 3 = 0#3) → AtKey s.gangs t.gangs k { g with st := .staged })
      ∧ ((∀ r ∈ gr.regions, r.extractLsb' 80 3 ≠ 0#3) → AtKey s.gangs t.gangs k { g with st := .running }))
    ∧ (g.st = .staged → ∃ t, exec (.stageInCompletes k) s = .next t ∧ t = { s with gangs := t.gangs }
      ∧ AtKey s.gangs t.gangs k { g with st := .running })
    ∧ (Tab.Sorted s.gangs → evictFirst s g.unit = true → ∃ t, exec (.gangEvictionStart k) s = .next t ∧ t = { s with gangs := t.gangs }
      ∧ ∀ j, t.gangs.get? j = (s.gangs.get? j).map fun x =>
          if x.unit = g.unit ∧ x.st = .running then { x with evicting := true } else x)
    ∧ (Tab.Sorted s.gangs → g.evicting = true → unitDrained s g.unit = true → ∃ t, exec (.gangEvictionComplete k) s = .next t
      ∧ AllRegsSame s t ∧ t.mem = s.mem ∧ t.pool = { s.pool with saved := t.pool.saved }
      ∧ (∀ j, t.gangs.get? j = (s.gangs.get? j).map fun x => if x.unit = g.unit ∧ x.st = .running then
          { x with st := .evicted, evicting := false, mark := false, freed := true, dirty := [], wb := [] } else x)
      ∧ ∀ j x gr, s.gangs.get? j = some x → s.grids.get? x.grid.toNat = some gr → x.unit = g.unit → x.st = .running →
          ∃ y, t.gangs.get? j = some y ∧ t.pool.saved.get? j = some (gangImage t gr y) ∧ (gangImage t gr y).len = imageSize gr)
    ∧ (∀ gr, s.grids.get? g.grid.toNat = some gr → unitIn s g.unit .evicted = [(k, g)] → ctxActive s gr.ctx = true →
      s.placer.stopped = false → (∀ kq ∈ s.queues, kq.2.reserved = false) →
      (s.hc < s.placer.nextPlace → exec (.restoreBegins k) s = .next s)
      ∧ (s.placer.nextPlace ≤ s.hc → ∃ t, exec (.restoreBegins k) s = .next t
        ∧ AllRegsSame s t ∧ t.mem = s.mem ∧ t.pool = s.pool
        ∧ (restorePositions s gr [(k, g)] = none → t = s)
        ∧ ∀ pos, restorePositions s gr [(k, g)] = some [pos] → t.placer = { s.placer with nextPlace := s.hc + 8 } ∧
            AtKey s.gangs t.gangs k { g with
              st := .restored, freed := false, die := pos.1, row := pos.2.1, col := pos.2.2, placedAt := s.hc }))
    ∧ (unitIn s g.unit .restored = [(k, g)] → ∃ t, exec (.imageIsLoaded k) s = .next t
      ∧ AllRegsSame s t ∧ t.mem = s.mem ∧ t.pool = { s.pool with saved := t.pool.saved }
      ∧ (∀ j, t.pool.saved.get? j = if j = k then none else s.pool.saved.get? j)
      ∧ AtKey s.gangs t.gangs k { g with st := .running })
    ∧ (g.st = .retired → g.freed = false →
      (∀ gc ∈ (s.core g.core).out, gc.1 = g.grid → gc.2 = s.outCount g.core g.grid) →
      let done := { g with dirty := [], wb := [], wbOut := 0, freed := true }
      (g.wbOut = 0 → g.wb = [] → ∃ t, exec (.retireWritebackComplete k) s = .next t
        ∧ t = { s with gangs := t.gangs, bars := t.bars } ∧ AtKey s.gangs t.gangs k done)
      ∧ (g.wbOut ≠ 0 → ∃ t, exec (.retireWritebackComplete k) s = .next t
        ∧ t = { s with gangs := t.gangs, bars := t.bars, cores := t.cores } ∧ AtKey s.gangs t.gangs k done
        ∧ t.outCount g.core g.grid = s.outCount g.core g.grid - g.wbOut)
      ∧ (g.wbOut = 0 → g.wb ≠ [] → ∃ t, exec (.retireWritebackComplete k) s = .next t
        ∧ t = { s with gangs := t.gangs, cores := t.cores }
        ∧ (s.outCount g.core g.grid ≠ 0 → s.outCount g.core g.grid + g.wb.length ≤ 65535 →
            AtKey s.gangs t.gangs k { g with wbOut := g.wb.length }
            ∧ t.outCount g.core g.grid = s.outCount g.core g.grid + g.wb.length))))
  ∧ (∀ s id (g : Grid), s.grids.get? id.toNat = some g → (∀ kg ∈ s.gangs, kg.2.grid = id → kg.2.st = .retired ∧ kg.2.freed = true) →
    (∀ kc ∈ s.cores, ∀ gc ∈ kc.2.out, gc.1 = id → gc.2 = 0) → s.disp.castling = false ∨ s.disp.fifo.length < 4096 →
    let leaves (i : Instr) : Prop := ∃ t, exec i s = .next t
      ∧ t.disp = { s.disp with fifo := s.disp.fifo ++ [⟨id, g.ctx, g.queue, g.seq, g.csig, g.cval, g.parent, g.killed, g.poison⟩] }
      ∧ (∀ j, t.grids.get? j = if j = id.toNat then none else s.grids.get? j) ∧ (∀ kg ∈ t.gangs, kg.2.grid ≠ id) ∧ t.mem = s.mem
    (g.killed = false → g.placed = g.gangs → g.kids = 0 → (∀ q ∈ s.errs.pins, q.grid ≠ id) → leaves (.gridCompletes id))
    ∧ (g.killed = true → leaves (.gridKilledReport id)))
  ∧ (∀ s n c, s.ctxs.get? n = some c → c.st = .quiescing →
    (∀ kg ∈ s.gangs, ∀ gr, s.grids.get? kg.2.grid.toNat = some gr → gr.ctx = n → kg.2.freed = true) →
    (∀ kr ∈ s.grids, kr.2.ctx = n → ∀ kc ∈ s.cores, ∀ gc ∈ kc.2.out, gc.1 = BitVec.ofNat 32 kr.1 → gc.2 = 0) →
    (∀ ko ∈ s.ops, ko.2.ctx ≠ n) →
    ∃ t, exec (.quiesceCompletes n) s = .next t ∧ t = { s with ctxs := t.ctxs } ∧ AtKey s.ctxs t.ctxs n { c with st := .suspended })

/-! ## Errors, links, the outside (09 R216 to R236; 18 R447 to R453) -/

/-- 18 R447, R448, R450; 04 R128, R131; 09 R217, R218, R227: an error of a channel counts there and is logged while the log
has room; an uncorrectable one poisons the line or the register element, fails a dispatch core, or stops the hub. The error
of the active dispatch core leaves a report in delivery unacknowledged; without a standby, or when the standby that castling
has released fails too, the hub raises an event. Training ends Up at full width, Degraded below it, or Down; a link that
loses width goes down one step at a time; a lost link is Down, and with the last of its eight links a die is failed. The
model's choices: which errors change nothing (log 52), what a poisoned item reads as (log 18), the code of the hub's event
and what castling holds (log 41), and one step of width for each event (log 64). -/
def Obligations.ErrorAndLinkEvents : Prop :=
  (
    (∀ s chan (addr : DWord), errChannel chan addr = true → s.errs.log.length < 64 →
      ∃ t a, exec (.correctableError chan addr) s = .next t ∧ t = { s with errs := { s.errs with cec := t.errs.cec, log := t.errs.log } }
        ∧ (∀ j, Sparse.get 0#32 t.errs.cec j = if j = chan then Sparse.get 0#32 s.errs.cec chan + 1#32 else Sparse.get 0#32 s.errs.cec j)
        ∧ t.errs.log = s.errs.log ++ [⟨a, chan, false, Sparse.get 0#32 s.errs.cec chan + 1#32⟩] ∧ (44 ≤ chan → a = 0#64))
    ∧ (∀ s chan (addr : DWord), errChannel chan addr = true → 64 ≤ s.errs.log.length →
      ∃ t, exec (.correctableError chan addr) s = .next t ∧ t.errs.log = s.errs.log ∧ t.counters.elovf = s.counters.elovf + 1#32)
    ∧ (∀ s chan (addr : DWord), errChannel chan addr = false → exec (.correctableError chan addr) s = .next s
      ∧ ∀ item, exec (.uncorrectableError chan addr item) s = .next s)
    ∧ (∀ chan (addr : DWord), 32 ≤ chan → chan < 49 → errChannel chan addr = true)
    ∧ (∀ s chan (addr : DWord) item, errChannel chan addr = true →
      ∃ t, exec (.uncorrectableError chan addr item) s = .next t ∧ SameBytes s t
        ∧ (∀ j, Sparse.get 0#32 t.errs.uec j = if j = chan then Sparse.get 0#32 s.errs.uec chan + 1#32 else Sparse.get 0#32 s.errs.uec j)
        ∧ (chan < 8 → t.linePoisoned (physLoc addr.toNat) = true ∧ AllRegsSame s t)
        ∧ (32 ≤ chan → chan < 44 → ∀ w r l w0, item = .vreg w r l → s.warps.get? w = some w0 → r < w0.va → l < 32 →
            itemOnDie s (chan - 32) item = true →
            ∃ w1, t.warps.get? w = some w1 ∧ w1.marks.has (markV r l) = true
              ∧ ∀ q j, j < 32 → w1.getV q j = if q = r ∧ j = l then 0xFFFFFFFF#32 else w0.getV q j)
        ∧ ((chan = 44 ∨ chan = 45) → s.disp.cores[chan - 44]? = some .active →
            t.disp = { s.disp with
                cores := s.disp.cores.set (chan - 44) .failed, castling := s.disp.cores.contains DispSt.standby, steps := 0 }
              ∧ t.placer.stopped = true
              ∧ (DispSt.standby ∈ s.disp.cores → t.errs.events = s.errs.events)
              ∧ (DispSt.standby ∉ s.disp.cores → t.errs.events = s.errs.events ++ [(2, chan - 44)]))
        ∧ ((chan = 44 ∨ chan = 45) → s.disp.cores[chan - 44]? = some .standby →
            t.disp = { s.disp with cores := s.disp.cores.set (chan - 44) .failed, castling := false } ∧ t.placer = s.placer
              ∧ t.errs.events = if s.disp.castling then s.errs.events ++ [(2, chan - 44)] else s.errs.events)
        ∧ (chan = 48 → t.errs.hubFatal = true ∧ t.placer.stopped = true)))
  ∧ (
    (∀ s (l : Link) width, linkValid l = true → (s.link (linkCode l)).st = .training → widthOk l width = true →
      ∃ t, exec (.trainingSucceeds l width) s = .next t ∧ t = { s with links := t.links }
        ∧ AtKey s.links t.links (linkCode l) { s.link (linkCode l) with
            st := if width = (match l with | .die _ _ | .host => 8 | _ => 4) then .up else .degraded, width := width })
    ∧ (∀ s (l : Link) width, linkValid l = true → (s.link (linkCode l)).st = .up ∨ (s.link (linkCode l)).st = .degraded →
      width < (s.link (linkCode l)).width →
      let n := match l with | .die _ _ => (s.link (linkCode l)).width - 1 | .host => 0 | _ => (s.link (linkCode l)).width / 2
      ∃ t, exec (.widthIsLost l width) s = .next t ∧ AllRegsSame s t ∧ SameBytes s t
        ∧ (n ≠ 0 → t = { s with links := t.links }
          ∧ AtKey s.links t.links (linkCode l) { s.link (linkCode l) with st := .degraded, width := n })
        ∧ (n = 0 → ∀ j, t.link j = if j = linkCode l then { s.link (linkCode l) with st := .down, width := 0 } else s.link j))
    ∧ (∀ s (l : Link), linkValid l = true →
      let x := s.link (linkCode l)
      let down (i : Instr) : Prop := ∃ t, exec i s = .next t ∧ AllRegsSame s t ∧ SameBytes s t
        ∧ (∀ j, t.link j = if j = linkCode l then { x with st := .down, width := 0 } else s.link j)
        ∧ ((∀ d j, l ≠ .die d j) → t = { s with links := t.links })
        ∧ ∀ d j, l = .die d j → (∀ i < 8, i ≠ j → (s.link (d * 8 + i)).st = .down) → t.dieFailed d = true
      (x.st = .training → down (.trainingFails l)) ∧ (x.st = .up ∨ x.st = .degraded → down (.linkIsLost l))))

/-- 09 R232 to R236; 11 R295 to R298; 18 R453: requests from outside read and write the home's memory; a stack endpoint
answers only where its table grants; nothing arrives while its port does not work, nor for the host in boot state Rejected; a
frame that fails a check is dropped and counted; a cold reset leaves nothing but the fused values. The model's choices: ones
for a poisoned line (log 18), and what a granted read of an endpoint brings (log 57). -/
def Obligations.OutsideRequests : Prop :=
  (∀ s pa op, s.podUp = false → exec (.podRequest pa op) s = .next s)
  ∧ (∀ s pa, s.podUp = true → pa / 2 ^ 42 = s.fused.pkg → pa % 2 ^ 42 < 2 ^ 39 →
    let loc := physLoc pa
    let old (n : Nat) := natLE (s.memRead loc n)
    let answers (n : Nat) (new : Nat → Nat) (op : PodOp) : Prop := ∃ t, exec (.podRequest pa op) s = .next t
      ∧ AllRegsSame s t ∧ t.host = { s.host with sent := s.host.sent ++ [.pod (s.memRead loc n)] }
      ∧ ∀ a, t.byteAt a = lastStore [(loc, bytesLE n (new (old n)))] s.byteAt a
    (∀ n, loc % 128 + n ≤ 128 → s.linePoisoned loc = false → exec (.podRequest pa (.load n)) s
      = .next { s with host := { s.host with sent := s.host.sent ++ [.pod (s.memRead loc n)] } })
    ∧ (∀ bs, loc % 128 + bs.length ≤ 128 → ∃ t, exec (.podRequest pa (.store bs)) s = .next t ∧ AllRegsSame s t
      ∧ ∀ a, t.byteAt a = lastStore [(loc, bs)] s.byteAt a)
    ∧ (∀ f (y : Ty) (b : BitVec y.width), (y.width = 32 ∨ y.width = 64) → loc % (y.width / 8) = 0 → s.linePoisoned loc = false →
      answers (y.width / 8) (fun x => (rmwBits y f (BitVec.ofNat _ x) b).toNat) (.rmw f y b.toNat))
    ∧ (∀ (y : Ty) b c, (y.width = 32 ∨ y.width = 64) → loc % (y.width / 8) = 0 → s.linePoisoned loc = false →
      (old (y.width / 8) = b → answers (y.width / 8) (fun _ => c) (.cas y b c))
      ∧ (old (y.width / 8) ≠ b → exec (.podRequest pa (.cas y b c)) s
          = .next { s with host := { s.host with sent := s.host.sent ++ [.pod (s.memRead loc (y.width / 8))] } }))
    ∧ ∀ v : DWord, loc % 8 = 0 → s.linePoisoned loc = false → ∃ t, exec (.podRequest pa (.sig v)) s = .next t ∧ AllRegsSame s t
      ∧ (∀ a, t.byteAt a = lastStore [(loc, bytesLE 8 ((old 8 + v.toNat) % 2 ^ 64))] s.byteAt a)
      ∧ ∀ n, t.queues.get? n = (s.queues.get? n).map fun q => if q.watch = some loc then { q with watch := none } else q)
  ∧ (∀ s pkg stack off size, stack < 8 → (s.link (128 + stack)).st = .up → off % 128 + size ≤ 128 →
    let c := canonOff 2 (stack * 2 ^ 36 + off % 2 ^ 36)
    let granted : Prop := ∃ i < 256, let e := Sparse.get 0#64 s.acts (stack * 256 + i)
      e.getLsbD 63 = true ∧ (e.getLsbD 62 = true ∨ (e.extractLsb' 52 10).toNat = pkg)
        ∧ (e.extractLsb' 0 24).toNat ≤ granuleK c ∧ granuleK c ≤ (e.extractLsb' 24 24).toNat
    let loc := s.fused.pkg * 2 ^ 39 + c
    (granted → exec (.endpointRead pkg stack off size) s
      = .next { s with host := { s.host with sent := s.host.sent
          ++ [.endpoint pkg (if s.linePoisoned loc then List.replicate size 0xFF#8 else hbmRead s loc size)] } })
    ∧ (¬ granted → exec (.endpointRead pkg stack off size) s = .next s))
  ∧ (∀ s qp pa, s.boot = .rejected ∨ linkWorks (s.link 136) = false →
    (∀ bs, exec (.rdmaWrite qp pa bs) s = .next s) ∧ (∀ n, exec (.rdmaRead qp pa n) s = .next s)
    ∧ exec (.ecnMarkedPacket qp) s = .next s)
  ∧ (∀ s qp pa, qp < 64 → linkWorks (s.link 136) = true → s.boot ≠ .rejected →
    (∀ bs, physLoc pa % 128 + bs.length ≤ 128 → ∃ t, exec (.rdmaWrite qp pa bs) s = .next t ∧ AllRegsSame s t
      ∧ ∀ a, t.byteAt a = lastStore [(physLoc pa, bs)] s.byteAt a)
    ∧ (∀ n, physLoc pa % 128 + n ≤ 128 → s.linePoisoned (physLoc pa) = false → exec (.rdmaRead qp pa n) s
      = .next { s with host := { s.host with sent := s.host.sent ++ [.rdmaReply qp (s.memRead (physLoc pa) n)] } })
    ∧ ∃ t, exec (.ecnMarkedPacket qp) s = .next t ∧ t = { s with host := { s.host with qpSlow := t.host.qpSlow } }
      ∧ ∀ j, Sparse.get false t.host.qpSlow j = if j = qp then true else Sparse.get false s.host.qpSlow j)
  ∧ (∀ s src (f : BitVec 128) n, linkWorks (s.link 136) = true →
      (s.fused.allow.take 8).contains src = false ∨ f.extractLsb' 0 16 ≠ 0x4557#16 ∨ f.extractLsb' 16 16 ≠ 1#16 ∨
      f.extractLsb' 64 32 ≠ 0#32 ∨ 4096 < (f.extractLsb' 96 32).toNat ∨ (f.extractLsb' 96 32).toNat % 8 ≠ 0 ∨
      n ≠ 16 + (f.extractLsb' 96 32).toNat →
    exec (.edwickFrameDropped src f n) s = .next { s with counters := { s.counters with edwbad := s.counters.edwbad + 1#32 } })
  ∧ (∀ s, exec .coldReset s = .next (State.afterReset s.fused))

/-! ## Management commands (09 R236, R237) -/

/-- 09 R236, R237; 04 R111, R112, R115, R118; 03 R97, R99, R102 to R109; 08 R203: a frame of a source that is not listed is
dropped and counted, a repeated TAG gets the last reply again; the states of a queue, a record enqueued; a context's states
under its commands, its class and phase, the class registers, the error event cleared by a 1, and translations discarded. The
model's choices: the layout of the words that a query answers (log 35), the order of two statuses and the codes of QCFG (log
38), counters that creation keeps (log 39), and a number that is not free in the cycle of its destroy (log 5). -/
def Obligations.QueueAndContextCommands : Prop :=
  (
    (∀ i e s, edwOf i = some e → (∀ c, i = .unknownCmd e c → (cmdOplen c.code.toNat).any (· c.oplen) = false) →
      (linkWorks (s.link 136) = false → exec i s = .next s)
      ∧ (linkWorks (s.link 136) = true →
        (s.allowed e.src = false → exec i s = .next { s with counters := { s.counters with edwbad := s.counters.edwbad + 1#32 } })
        ∧ (s.allowed e.src = true → s.boot = .rejected → (∀ n, i ≠ .attest e n) → i ≠ .queryBootStatus e → exec i s = .next s)
        ∧ ∀ r, s.allowed e.src = true → s.boot ≠ .rejected → s.host.last.get? e.src = some r → r.tag = e.tag →
          exec i s = .next { s with host := { s.host with replies := s.host.replies ++ [r] } }))
    ∧ (∀ s num (desc : BitVec 256), num < 1024 →
      (((s.queue num).st ≠ .free → Replies ⟨0x01, 40⟩ (.createQueue · num desc) s s 1 []))
      ∧ ((s.queue num).st = .free → desc.extractLsb' 48 80 = 0#80 → desc.extractLsb' 38 4 = 0#4 → desc.extractLsb' 42 2 ≠ 3#2 →
        4#4 ≤ desc.extractLsb' 44 4 → desc.extractLsb' 44 4 ≤ 12#4 → desc.extractLsb' 180 12 = 0#12 →
        (desc.extractLsb' 128 64).toNat % (128 * 2 ^ (desc.extractLsb' 44 4).toNat) = 0 →
        s.ctxs.has (desc.extractLsb' 32 6).toNat = true →
        ∃ t, Replies ⟨0x01, 40⟩ (.createQueue · num desc) s t 0 [] ∧ t = { s with queues := t.queues, disp := t.disp }
          ∧ AtKey s.queues t.queues num { s.queue num with
              st := .disabled, desc := desc, nextSeq := desc.extractLsb' 0 32, head := 0, tail := 0, headSince := s.hc
              passedSince := none, reserved := false, parents := [], watch := none, offAt := none
              born := if s.disp.up then some (t.disp.nextJseq - 1) else none })
      ∧ (let goes (c : Cmd) (cmd : Edw → Instr) (q : Queue) : Prop := ∃ t, Replies c cmd s t 0 []
          ∧ t = { s with queues := t.queues, disp := t.disp } ∧ AtKey s.queues t.queues num q
        ((s.queue num).st = .disabled → goes ⟨0x02, 8⟩ (.enableQueue · num) { s.queue num with st := .enabled, offAt := none, watch := none })
        ∧ ((s.queue num).st ≠ .disabled → Replies ⟨0x02, 8⟩ (.enableQueue · num) s s 1 [])
        ∧ ((s.queue num).st = .enabled → goes ⟨0x03, 8⟩ (.disableQueue · num) { s.queue num with st := .disabled, offAt := some s.hc })
        ∧ ((s.queue num).st ≠ .enabled → Replies ⟨0x03, 8⟩ (.disableQueue · num) s s 1 []))
      ∧ ((s.queue num).st = .free → Replies ⟨0x04, 8⟩ (.freeQueue · num) s s 1 [])
      ∧ ((s.queue num).st ≠ .free → ∃ t, Replies ⟨0x04, 8⟩ (.freeQueue · num) s t 0 [] ∧ (t.queue num).st = .free
        ∧ (t.queue num).head = (s.queue num).tail ∧ (t.queue num).tail = (s.queue num).tail ∧ t.mem = s.mem)
      ∧ (∀ r : BitVec 1024, let q := s.queue num
        (q.st ≠ .enabled → Replies ⟨0x05, 136⟩ (.enqueueRecord · num r) s s 1 [])
        ∧ (q.st = .enabled → q.src ≠ 2 → Replies ⟨0x05, 136⟩ (.enqueueRecord · num r) s s 2 [])
        ∧ (q.st = .enabled → q.src = 2 → 2 ^ q.ringn ≤ q.tail - q.head → Replies ⟨0x05, 136⟩ (.enqueueRecord · num r) s s 5 [])
        ∧ (q.st = .enabled → q.src = 2 → q.tail - q.head < 2 ^ q.ringn →
          let stamped : BitVec 1024 := r.extractLsb' 32 992 ++ q.nextSeq
          ∃ t, Replies ⟨0x05, 136⟩ (.enqueueRecord · num r) s t 0 [] ∧ AllRegsSame s t
            ∧ AtKey s.queues t.queues num { q with
                tail := q.tail + 1, nextSeq := q.nextSeq + 1#32, headSince := if q.head = q.tail then s.hc else q.headSince }
            ∧ ∀ a, t.byteAt a = lastStore [(q.slotLoc q.tail, bytesLE 128 stamped.toNat)] s.byteAt a))
      ∧ (let q := s.queue num
        let word (n : Word) : DWord := n.setWidth 64
        Replies ⟨0x06, 8⟩ (.queryQueue · num) s s 0 [(match q.st with | .free => 0#64 | .disabled => 1#64 | .enabled => 2#64),
          BitVec.ofNat 64 (q.head % 2 ^ q.ringn), BitVec.ofNat 64 (q.tail % 2 ^ q.ringn), word q.nextSeq, word q.qoff, word q.qcred,
          word q.qdup, word q.qgap, word q.qfull, word q.qbad, word s.counters.ontbad]))
    ∧ (∀ s port, Replies ⟨0x07, 8⟩ (.setOntiaUdpPort · port) s { s with host := { s.host with udpPort := port } } 0 [])
    ∧ (∀ s (c : FrameCmd), (cmdOplen c.code.toNat).any (· c.oplen) = false → Replies ⟨c.code.toNat, c.oplen⟩ (.unknownCmd · c) s s 6 []))
  ∧ (
    (∀ s (desc : BitVec 512), (∀ k < 64, s.ctxs.has k = true) → Replies ⟨0x10, 64⟩ (.createContext · desc) s s 3 [])
    ∧ (∀ s (desc : BitVec 512) k, k < 64 → (∀ j < k, s.ctxs.has j = true ∨ s.freedAt.get? j = some s.hc) → s.ctxs.has k = false →
      s.freedAt.get? k ≠ some s.hc →
      (ctxDescOk desc = false → Replies ⟨0x10, 64⟩ (.createContext · desc) s s 2 [])
      ∧ (ctxDescOk desc = true → ∃ t, Replies ⟨0x10, 64⟩ (.createContext · desc) s t 0 [BitVec.ofNat 64 k] ∧ t = { s with ctxs := t.ctxs }
        ∧ AtKey s.ctxs t.ctxs k ⟨.created, desc, desc.extractLsb' 464 4, 0#16, false, []⟩))
    ∧ (∀ s num c, s.ctxs.get? num = some c →
      let becomes (k : Cmd) (cmd : Edw → Instr) (c1 : Ctx) : Prop := ∃ t, Replies k cmd s t 0 [] ∧ t = { s with ctxs := t.ctxs } ∧ AtKey s.ctxs t.ctxs num c1
      let rsn := (c.desc.extractLsb' 452 12).toNat
      (∀ table s1 c1, c.st = .created → (s.ctxs.map fun kc => kc.2.sched.length).sum + rsn ≤ 16384 →
        readVirtBits s num (c.desc.extractLsb' 320 64).toNat (256 * rsn) = (s1, some table) → s1.ctxs.get? num = some c1 →
        let sched := (List.range rsn).map fun i => BitVec.ofNat 256 (table / 2 ^ (256 * i))
        (∀ x ∈ sched, schedEntryOk x = true) →
        ∃ t, Replies ⟨0x11, 8⟩ (.activateContext · num) s t 0 [] ∧ t = { s1 with ctxs := t.ctxs }
          ∧ AtKey s1.ctxs t.ctxs num { c1 with st := .active, phase := 0#16, sched := sched })
      ∧ (c.st ≠ .created → Replies ⟨0x11, 8⟩ (.activateContext · num) s s 1 [])
      ∧ (c.st = .active → becomes ⟨0x12, 8⟩ (.quiesceContext · num) { c with st := .quiescing })
      ∧ (c.st ≠ .active → Replies ⟨0x12, 8⟩ (.quiesceContext · num) s s 1 [])
      ∧ (c.st = .suspended → becomes ⟨0x13, 8⟩ (.resumeContext · num) { c with st := .active })
      ∧ (c.st ≠ .suspended → Replies ⟨0x13, 8⟩ (.resumeContext · num) s s 1 [])
      ∧ (∀ cls, becomes ⟨0x15, 16⟩ (.setServiceClass · num cls) { c with sclass := cls })
      ∧ (∀ phase, (c.st = .active ∨ c.st = .suspended → becomes ⟨0x16, 16⟩ (.setPhase · num phase) { c with phase := phase })
        ∧ (c.st = .created ∨ c.st = .quiescing → Replies ⟨0x16, 16⟩ (.setPhase · num phase) s s 1 []))
      ∧ Replies ⟨0x17, 8⟩ (.queryContext · num) s s 0 [(match c.st with
          | .created => 0#64 | .active => 1#64 | .quiescing => 2#64 | .suspended => 3#64 | .destroyed => 4#64),
          c.phase.setWidth 64, c.sclass.setWidth 64, BitVec.ofNat 64 ((if c.evt then 2 ^ 31 else 0) + s.pinsOf num)]
      ∧ (∀ val : Word, becomes ⟨0x19, 16⟩ (.clearContextError · num val) { c with evt := c.evt && !val.getLsbD 31 })
      ∧ ∃ t, Replies ⟨0x14, 8⟩ (.destroyContext · num) s t 0 [] ∧ t.ctxs.get? num = none ∧ t.freedAt = s.freedAt.put num s.hc
        ∧ (∀ e ∈ t.paging.tlb, e.ctx ≠ num)
        ∧ (∀ ko ∈ t.ops, ko.2.ctx ≠ num) ∧ ∀ k, (t.queue k).st = .free ∨ (t.queue k).ctx ≠ num)
    ∧ (∀ s num, s.ctxs.get? num = none → Replies ⟨0x14, 8⟩ (.destroyContext · num) s s 1 [])
    ∧ (∀ s (cls : BitVec 4) (val : Word), s.scls.length = 16 → ∃ t v, Replies ⟨0x18, 16⟩ (.writeServiceClass · cls val) s t 0 []
      ∧ t = { s with scls := t.scls } ∧ (∀ k < 16, t.scls.getD k 0#32 = if k = cls.toNat then v else s.scls.getD k 0#32)
      ∧ v.extractLsb' 29 3 = val.extractLsb' 29 3 ∧ v.extractLsb' 24 5 = 0#5 ∧ v.extractLsb' 16 8 = val.extractLsb' 16 8
      ∧ v.extractLsb' 0 16 = if 16384#16 < val.extractLsb' 0 16 then 16384#16 else val.extractLsb' 0 16)
    ∧ (∀ s ctx (base len : DWord), ∃ t, Replies ⟨0x30, 24⟩ (.invalidateTranslations · ctx base len) s t 0 []
      ∧ t = { s with paging := { s.paging with tlb := t.paging.tlb } }
      ∧ ∀ e, e ∈ t.paging.tlb ↔ e ∈ s.paging.tlb ∧ ¬ (e.ctx = ctx ∧ (len = 0#64 ∨
          (e.vpage * 2 ^ e.size < base.toNat + len.toNat ∧ base.toNat < e.vpage * 2 ^ e.size + 2 ^ e.size)))))

/-- 18 R451, R452, R492; 05 R151; 06 R171; 08 R491: marking a gang's unit for eviction, killing a grid, the pin list and the
release of a pin, the save pool and the fault ring. The model's choices: the layout of the words of *query pins* (log 35),
and BADSTATE of *evict gang* for a gang that is not yet placed (log 38). -/
def Obligations.GangAndPinCommands : Prop :=
  (∀ s (grid : Word) num gr k g, s.grids.get? grid.toNat = some gr → num < gr.gangs → Tab.Sorted s.gangs → s.gangs.get? k = some g →
    g.grid = grid → g.num = num → (∀ kg ∈ s.gangs, kg.2.grid = grid → kg.2.num = num → kg.1 = k) →
    (g.st ≠ .running → Replies ⟨0x20, 16⟩ (.evictGang · grid num) s s 1 [])
    ∧ (g.st = .running → ∃ t, Replies ⟨0x20, 16⟩ (.evictGang · grid num) s t 0 [] ∧ t = { s with gangs := t.gangs }
      ∧ ∀ j, t.gangs.get? j = (s.gangs.get? j).map fun x => if j = k then { x with mark := true } else x))
  ∧ (∀ s (grid : Word) num, s.grids.get? grid.toNat = none →
    Replies ⟨0x20, 16⟩ (.evictGang · grid num) s s 2 [] ∧ Replies ⟨0x62, 8⟩ (.killGrid · grid) s s 2 [])
  ∧ (∀ s (grid : Word) gr, s.grids.get? grid.toNat = some gr → gr.killed = false → ∃ t gr1, Replies ⟨0x62, 8⟩ (.killGrid · grid) s t 0 []
    ∧ AllRegsSame s t ∧ ((∀ ko ∈ s.ops, ko.2.started = false) → t.mem = s.mem)
    ∧ t.grids.get? grid.toNat = some gr1 ∧ gr1.killed = true ∧ (∀ ko ∈ t.ops, ko.2.grid ≠ grid)
    ∧ (∀ k g1, t.gangs.get? k = some g1 → g1.grid = grid → g1.st = .retired)
    ∧ (∀ k g0, s.gangs.get? k = some g0 → g0.grid = grid → g0.st ≠ .retired → g0.wb = [] →
        ∃ g1, t.gangs.get? k = some g1 ∧ g1.freed = true)
    ∧ ∀ q ∈ t.errs.pins, q.grid ≠ grid)
  ∧ (∀ s, ∃ ws : List DWord, Replies ⟨0x60, 0⟩ .queryPins s s 0 ws ∧ ws.length = 4 * (s.errs.pins.filter (·.written)).length
    ∧ ∀ q i, (s.errs.pins.filter (·.written))[i]? = some q → q.team < 4 → q.warp < 16 → q.ctx < 64 → q.cause < 8 → q.id < 2 ^ 64 →
      ws.getD (4 * i) 0#64 = BitVec.ofNat 64 q.id ∧ ws.getD (4 * i + 1) 0#64 = q.addr
      ∧ (ws.getD (4 * i + 2) 0#64).extractLsb' 0 6 = BitVec.ofNat 6 q.ctx ∧ (ws.getD (4 * i + 2) 0#64).extractLsb' 29 3 = BitVec.ofNat 3 q.cause
      ∧ (ws.getD (4 * i + 3) 0#64).extractLsb' 0 32 = q.grid ∧ (ws.getD (4 * i + 3) 0#64).extractLsb' 32 32 = q.pc)
  ∧ (∀ s (pinid : DWord), (∀ q ∈ s.errs.pins, q.id ≠ pinid.toNat) →
    Replies ⟨0x61, 16⟩ (.releasePinRetry · pinid) s s 1 [] ∧ Replies ⟨0x61, 16⟩ (.releasePinSkip · pinid) s s 1 [])
  ∧ (∀ s (pinid : DWord) q k w0 x, (s.errs.pins.find? fun q => decide (q.id = pinid.toNat)) = some q → q.master = .warp k →
    s.warps.get? k = some w0 → (w0.pins.find? fun x => decide (x.id = pinid.toNat)) = some x → x.entry = none →
    let freed (t : State) : Prop := t = { s with errs := t.errs, warps := t.warps, pool := t.pool } ∧ ∀ y ∈ t.errs.pins, y.id ≠ pinid.toNat
    let pins := w0.pins.filter fun y => decide (y.id ≠ pinid.toNat)
    (∃ t, Replies ⟨0x61, 16⟩ (.releasePinRetry · pinid) s t 0 [] ∧ freed t ∧ AtKey s.warps t.warps k { w0 with pins := pins })
    ∧ ∃ t w, Replies ⟨0x61, 16⟩ (.releasePinSkip · pinid) s t 0 [] ∧ freed t ∧ AtKey s.warps t.warps k w ∧ w.pins = pins
      ∧ RegsSame w0 w ∧ w.p = w0.p ∧ w.fifo = w0.fifo
      ∧ ∀ l < 32, w.pc l = if x.lanes.getLsbD l then x.pc + BitVec.ofNat 32 x.len else w0.pc l)
  ∧ (∀ s (base len : DWord), Replies ⟨0x70, 16⟩ (.setSavePool · base len) s { s with pool := { s.pool with base := base, len := len } } 0 [])
  ∧ (∀ s (base : DWord), s.paging.faults = [] → Replies ⟨0x71, 8⟩ (.setFaultRing · base) s
      { s with paging := { s.paging with ringBase := base, head := 0#13, tail := 0#13 } } 0 [])

/-- 09 R217, R230, R232, R234; 10 R256 to R258; 17 R432, R444; 18 R450, R453 to R456: routes, grants, links, classes of
clusters, collective groups, the error log and counters, signals, specials, attestation, boot status and reset; a signal
write that cannot be routed is discarded, counted and reported (09 R232). The model's choices: the layout of the words that a
query answers (log 35) and the operands of *write signal* (log 38). -/
def Obligations.SystemCommands : Prop :=
  (∀ s pkg (entry : DWord), (1024 ≤ pkg → Replies ⟨0x41, 16⟩ (.writeRouteEntry · pkg entry) s s 2 [])
    ∧ (pkg < 1024 → ∃ t, Replies ⟨0x41, 16⟩ (.writeRouteEntry · pkg entry) s t 0 [] ∧ t = { s with routes := t.routes }
      ∧ ∀ j, Sparse.get 0#64 t.routes j = if j = pkg then (entry.extractLsb' 0 33).setWidth 64 else Sparse.get 0#64 s.routes j))
  ∧ (∀ s stack idx (entry : DWord), (8 ≤ stack ∨ 256 ≤ idx → Replies ⟨0x40, 24⟩ (.writeStackAct · stack idx entry) s s 2 [])
    ∧ (stack < 8 → idx < 256 → ∃ t, Replies ⟨0x40, 24⟩ (.writeStackAct · stack idx entry) s t 0 [] ∧ t = { s with acts := t.acts }
      ∧ ∀ j, Sparse.get 0#64 t.acts j = if j = stack * 256 + idx then
          entry.extractLsb' 52 12 ++ 0#4 ++ entry.extractLsb' 0 48 else Sparse.get 0#64 s.acts j))
  ∧ (∀ s (l : Link), let x := s.link (linkCode l)
    (linkValid l = false → Replies ⟨0x43, 16⟩ (.queryLink · l) s s 2 [] ∧ ∀ hold, Replies ⟨0x42, 24⟩ (.resetLink · l hold) s s 2 [])
    ∧ (linkValid l = true → Replies ⟨0x43, 16⟩ (.queryLink · l) s s 0 [(match x.st with
          | .reset => 0#64 | .training => 1#64 | .up => 2#64 | .degraded => 3#64 | .down => 4#64),
          BitVec.ofNat 64 x.width, x.cvsati.setWidth 64, x.cvsato.setWidth 64]
      ∧ ∀ hold, x.st ≠ .training → ∃ t, Replies ⟨0x42, 24⟩ (.resetLink · l hold) s t 0 [] ∧ t = { s with links := t.links }
        ∧ AtKey s.links t.links (linkCode l) { x with st := if hold then .reset else .training, width := 0, hold := hold }))
  ∧ (∀ s, ∃ ws : List DWord, ws.length = 294 ∧ Replies ⟨0x50, 0⟩ .queryPower s { s with fresh := s.fresh + 288 } 0 ws
    ∧ ws.take 6 = [BitVec.ofNat 64 s.power.q, s.counters.pwrflr.setWidth 64, s.counters.pwrcoal.setWidth 64,
        s.counters.collsat.setWidth 64, s.counters.cmprsat.setWidth 64, s.counters.unroute.setWidth 64])
  ∧ (∀ s die cl (cls : BitVec 2), die < 12 → cl < 8 →
    let k := die * 8 + cl
    ∃ t, Replies ⟨0x51, 24⟩ (.setClusterClass · die cl cls) s t 0 [] ∧ t = { s with clusters := t.clusters, counters := t.counters }
      ∧ AtKey s.clusters t.clusters k (match (s.cluster k).st with
        | .pooled => if cls = (s.cluster k).cls then s.cluster k else { s.cluster k with st := .draining, target := cls }
        | .draining => { s.cluster k with target := cls, st := if cls = (s.cluster k).cls then .pooled else .draining }
        | .ramping => { s.cluster k with pend := some cls })
      ∧ t.counters = { s.counters with pwrcoal := if (s.cluster k).st = .ramping ∧ (s.cluster k).pend ≠ none
          then s.counters.pwrcoal + 1#32 else s.counters.pwrcoal })
  ∧ (∀ s group ctx (ms : List Nat), group < 16 → 1 ≤ ms.length → ms.length ≤ 1024 → ∃ t,
    Replies ⟨0x52, 16 + 8 * ms.length⟩ (.writeCollectiveGroup · group ctx ms) s t 0 [] ∧ t = { s with groups := t.groups }
    ∧ AtKey s.groups t.groups group ⟨ctx, ms, 0, [], []⟩)
  ∧ (∀ s clear, ∃ ws : List DWord, ws.length = 2 * s.errs.log.length
    ∧ Replies ⟨0x63, 8⟩ (.readErrorLog · clear) s (if clear then { s with errs := { s.errs with log := [] } } else s) 0 ws
    ∧ ∀ x i, s.errs.log[i]? = some x → x.chan < 64 → ws.getD (2 * i) 0#64 = (if x.ue then 1#1 else 0#1) ++ 0#31 ++ x.stamp
        ∧ (ws.getD (2 * i + 1) 0#64).extractLsb' 0 6 = BitVec.ofNat 6 x.chan)
  ∧ (∀ s, ∃ ws : List DWord, ws.length = 98 ∧ Replies ⟨0x64, 0⟩ .queryErrorCounters s s 0 ws
    ∧ ∀ k < 49, ws.getD k 0#64 = (Sparse.get 0#32 s.errs.cec k).setWidth 64
        ∧ ws.getD (49 + k) 0#64 = (Sparse.get 0#32 s.errs.uec k).setWidth 64)
  ∧ (∀ s ctx (va val : DWord),
    (s.ctxs.has ctx = false → Replies ⟨0x65, 32⟩ (.writeSignalSet · 0 ctx va val) s s 1 [] ∧ Replies ⟨0x65, 32⟩ (.writeSignalAdd · ctx va val) s s 1 [])
    ∧ (s.ctxs.has ctx = true → va.toNat % 8 ≠ 0 ∨ canonicalVa va.toNat = false →
      Replies ⟨0x65, 32⟩ (.writeSignalSet · 0 ctx va val) s s 2 [] ∧ Replies ⟨0x65, 32⟩ (.writeSignalAdd · ctx va val) s s 2 [])
    ∧ (s.ctxs.has ctx = true → ∀ mode, 2 ≤ mode → Replies ⟨0x65, 32⟩ (.writeSignalSet · mode ctx va val) s s 2 [])
    ∧ (∀ f, s.ctxs.has ctx = true → translate s [] ctx va.toNat .atomic = .error f →
      Replies ⟨0x65, 32⟩ (.writeSignalSet · 0 ctx va val) s s 2 [] ∧ Replies ⟨0x65, 32⟩ (.writeSignalAdd · ctx va val) s s 2 [])
    ∧ ∀ s1 x, s.ctxs.has ctx = true → va.toNat % 8 = 0 → canonicalVa va.toNat = true →
      translate s [] ctx va.toNat .atomic = .ok (s1, x) →
      let writes (cmd : Edw → Instr) (n : DWord) : Prop := ∃ t, Replies ⟨0x65, 32⟩ cmd s t 0 [] ∧ AllRegsSame s t
        ∧ (∀ a, t.byteAt a = lastStore [(x.loc, bytesLE 8 n.toNat)] s1.byteAt a)
        ∧ ∀ n, t.queues.get? n = (s1.queues.get? n).map fun q => if q.watch = some x.loc then { q with watch := none } else q
      let lost (cmd : Edw → Instr) : Prop := ∃ t, Replies ⟨0x65, 32⟩ cmd s t 0 [] ∧ t = { s1 with counters := t.counters, ctxs := t.ctxs }
        ∧ t.counters = { s1.counters with unroute := s1.counters.unroute + 1#32 }
        ∧ ∀ c, s1.ctxs.get? ctx = some c → t.ctxs.get? ctx = some { c with evt := true }
      (s1.unreachable x.pkg = true → lost (.writeSignalSet · 0 ctx va val)
        ∧ (s1.linePoisoned x.loc = false → lost (.writeSignalAdd · ctx va val)))
      ∧ (s1.linePoisoned x.loc = true → Replies ⟨0x65, 32⟩ (.writeSignalAdd · ctx va val) s s1 0 [])
      ∧ (s1.unreachable x.pkg = false → writes (.writeSignalSet · 0 ctx va val) val
        ∧ (s1.linePoisoned x.loc = false → writes (.writeSignalAdd · ctx va val) (s1.memWord x.loc + val)
          ∧ writes (.writeSignalSet · 1 ctx va val) (s1.memWord x.loc + val))))
  ∧ (∀ s die core (n : BitVec 12) (val : Word), die < 12 → core < 64 →
    let k := die * 64 + core
    (n = 0x040#12 → ∃ t, Replies ⟨0x66, 32⟩ (.writeSpecial · die core n val) s t 0 [] ∧ t = { s with cores := t.cores }
      ∧ AtKey s.cores t.cores k { s.core k with ladsel := val })
    ∧ (0x041#12 ≤ n → n ≤ 0x044#12 → ∃ t, Replies ⟨0x66, 32⟩ (.writeSpecial · die core n val) s t 0 [] ∧ t = { s with cores := t.cores }
      ∧ AtKey s.cores t.cores k { s.core k with bp := (s.core k).bp.set (n.toNat - 0x041) (val &&& 0xFFFFFFFD#32) })
    ∧ (∃ t, Replies ⟨0x66, 32⟩ (.writeSpecial · die 64 0x040#12 val) s t 0 [] ∧ t = { s with cores := t.cores }
      ∧ ∀ j, t.core j = if j / 64 = die then { s.core j with ladsel := val } else s.core j)
    ∧ (n < 0x040#12 ∨ 0x044#12 < n → Replies ⟨0x66, 32⟩ (.writeSpecial · die core n val) s s 2 [])
    ∧ ∀ m v, (m, v) ∈ [(0x010#12, (s.core k).stale), (0x011#12, (s.core k).lsat), (0x012#12, (s.core k).t2inv),
        (0x013#12, (s.core k).zwrap), (0x014#12, (s.core k).cvsat), (0x015#12, (s.core k).barmis), (0x016#12, (s.core k).qdrop),
        (0x017#12, (s.core k).bgwait), (0x01C#12, (s.core k).poison), (0x040#12, (s.core k).ladsel), (0x000#12, 0#32)] →
      Replies ⟨0x67, 24⟩ (.readSpecial · die core m) s s 0 [v.setWidth 64])
  ∧ (∀ s (nonce : List Byte), nonce.length = 32 → s.boot = .ready → ∃ ws : List DWord, ws.length = 671
    ∧ Replies ⟨0x78, 32⟩ (.attest · nonce) s s 0 ws
    ∧ (∀ i < 32, ((ws.getD (i / 8) 0#64).toNat / 2 ^ (8 * (i % 8))) % 256 = (nonce.getD i 0#8).toNat)
    ∧ (ws.getD 12 0#64).extractLsb' 0 16 = s.fused.fwVersion ∧ (ws.getD 12 0#64).extractLsb' 16 16 = s.fused.rollback
    ∧ (ws.getD 12 0#64).extractLsb' 48 8 = 0#8)
  ∧ (∀ s, Replies ⟨0x79, 0⟩ .queryBootStatus s s 0 [match s.boot with | .ready => 0#64 | .rejected => 1#64 | .failed => 2#64])
  ∧ (∀ s, Replies ⟨0x7F, 0⟩ .warmReset s (State.afterReset s.fused) 0 [])

/-! ## Encoding, fetch and reset -/

/-- 12 R307 to R324: every well-formed instruction of the opcode table has words, one or two as its opcode says, and under
its encoding version they decode to it, with every operand at every value. `Instr.named` is defined on every row of the table
but the three that are listed beside it. -/
def Obligations.DecodeEncode : Prop :=
  (∀ i : Instr, i.wf = true →
    (∃ p n, i.named p = some n) ∨ (∃ x, i = .hint x) ∨ (∃ x, i = .ldNc x) ∨ (∃ x, i = .mmaTf32 x) → ∃ ws, encode i = some ws)
  ∧ ∀ i : Instr, i.wf = true → ∀ ws, encode i = some ws →
    ws.length = opWords (ws.getD 0 0 / 2 ^ 26) ∧ (∀ w ∈ ws, w < 2 ^ 32)
      ∧ decodeWords i.version (ws.getD 0 0) (ws.getD 1 0) = .ok i

/-- 12 R307 to R317: words of each family, field by field, and the instructions they stand for. -/
def Obligations.DecodedWords : Prop :=
  decodeWords 3 0b000001_0_111_0_0000001_0000010_0000011 0 = .ok (.add ⟨⟨false, ⟨7, false⟩⟩, .v 1, .v 2, .v 3⟩)
  ∧ decodeWords 3 0b001001_1_010_1_1000100_1101000_0000000 0 = .ok (.mov ⟨⟨true, ⟨2, true⟩⟩, .s 4, .spec .lane⟩)
  ∧ decodeWords 3 0b001110_0_111_0_0000000_0000101_0000000 0 = .ok (.ret ⟨⟨7, false⟩, .v 5⟩)
  ∧ decodeWords 3 0b010000_0_111_0_1000000_0000000_0000000 0x12345678 = .ok (.movi ⟨⟨false, ⟨7, false⟩⟩, .s 0, 0x12345678#32⟩)
  ∧ decodeWords 3 0b010001_0_001_0_0000000_0000000_0000000 0xFFFFFFC0 = .ok (.br ⟨⟨1, false⟩, 0xFFFFFFC0#32⟩)
  ∧ decodeWords 3 0b011010_0_111_0_0000010_0000011_0000100 0b00001_00000011_0000000_000111010000 = .ok (.bfi ⟨⟨false, ⟨7, false⟩⟩, .n32, .v 2, .v 3, .v 4, 7, 16⟩)
  ∧ decodeWords 3 0b011100_0_111_0_0000001_0000110_0000000 0b00000_00000011_0000000_000000000000 = .ok (.pnot ⟨⟨false, ⟨7, false⟩⟩, 1, 6⟩)
  ∧ decodeWords 3 0b011110_0_111_0_0000001_0000010_0000011 0b01001_00000011_0000100_000000000011 = .ok (.ffma ⟨⟨false, ⟨7, false⟩⟩, .bf16, .rup, .v 1, .v 2, .v 3, .v 4⟩)
  ∧ decodeWords 3 0b100001_0_111_0_0000011_0000100_0000101 0b10010_00000010_0000000_000000000001 = .ok (.ladd ⟨⟨false, ⟨7, false⟩⟩, .l16, true, .v 3, .v 4, .v 5⟩)
  ∧ decodeWords 3 0b100101_0_111_0_0000001_0000010_0000000 0b00001_01001001_0000000_111111111100 = .ok (.ldPoll ⟨⟨7, false⟩, .acq, .gg, .n32, .v 1, .v 1, 0xFFC#12⟩)
  ∧ decodeWords 3 0b101001_0_111_0_0000001_0000010_0000011 0b00000_10110100_0000100_000000000000 = .ok (.cas ⟨⟨7, false⟩, .sc, .pk, .i32, .v 1, .v 1, .v 3, .v 4, 0#12⟩)
  ∧ decodeWords 3 0b101101_0_111_0_0000000_0000010_0000100 0b00000_01101100_0000000_000000000000 = .ok (.sig ⟨⟨7, false⟩, .rel, .cl, .v 1, .v 4, 0#12⟩)
  ∧ decodeWords 3 0b101111_0_111_0_0000001_0000010_0000011 0b01001_00000000_1000100_000000001001 = .ok (.mma ⟨⟨7, false⟩, .bf16, .bf16, 0, 1, 2, 3, .s 4⟩)
  ∧ decodeWords 3 0b110000_0_111_0_1011001_1001000_0000010 0b00100_00000010_0000100_000000000100 = .ok (.mloopSp ⟨⟨7, false⟩, .i8, .i8, 0, 1, 1, 2, .v 2⟩)
  ∧ decodeWords 3 0b110100_0_111_0_1011111_1011000_0000000 0b00000_00000011_0000000_000111111101 = .ok (.coll ⟨⟨7, false⟩, 7, 3, 63, .pk⟩)
  ∧ decodeWords 3 0b110110_0_111_0_0000001_0000010_0000000 0b00000_00000000_0000000_000000000101 = .ok (.arv ⟨⟨7, false⟩, .v 1, .v 2, 5⟩)

/-- 12 R301 to R306; 06 R165: the path that a core's first port serves fetches the words at its PC; where they decode, its
issue is the meaning of that instruction at the state whose issuing path is named, and unless that stalls, the step runs it,
alone or with the second port's path of another warp behind it, which goes first only where both bind the same scales and it
is the older (16 R414). An event's turn is the meaning of the event; of the turns of one cycle the one of the lowest rank
goes first, and of one rank the one laid first, behind what the object is owed before it; time passes on a turn of its own
(log 5). -/
def Obligations.StepRunsDecoded : Prop :=
  (∀ s s1 c rest w m more p h is t k i, let s0 := State.refresh { s with agenda := rest }
    let pc := p.w.pc (lowLane m)
    s.agenda = .issue c :: rest → (∀ u, rest.head? = some u → u.isElapse = true) → firstChoices s0 c = (w, m) :: more →
    s0.place? w = some p → (∀ x ∈ p.w.traps, x.path &&& m = 0#32) → pc.toNat % 4 = 0 →
    pc.toNat < p.gr.textl → canonicalVa (codeVa p pc) = true →
    p.w.entering.getLsbD (lowLane m) = false → p.w.inside.get? (lowLane m) = some h →
    h.toNat / 128 = pc.toNat / 128 → (∀ b ∈ (s1.core p.t.core).bp, b.getLsbD 0 = false) →
    ∀ ws, codeLine s0 p pc = .ok (s1, ws) → clauseAt ws (h.toNat % 128 / 4) = some is → t = pc.toNat % 128 / 4 →
    (is.find? fun ik => decide (ik.1 = t)) = some (t, k) → pc.toNat + 4 * k ≤ p.gr.textl →
    let x := if k = 2 then ws.getD (t + 1) 0 else 0
    let last := decide (is.getLast? = some (t, k))
    admitted (headerOf (ws.getD (h.toNat % 128 / 4) 0)).cls (ws.getD t 0 / 2 ^ 26 % 64) (x / 2 ^ 19 % 256) last = true →
    decodeWords p.gr.ver (ws.getD t 0) x = .ok i →
    let s2 : State := { s1 with cur := some ⟨w, m, pc, 4 * k, last⟩ }
    let run (ts : List Turn) := onNext (fun u => (countFairIssue s0 u w m).lay ts) (exec i s2)
    issuePath s0 w m = exec i s2
    ∧ ((∀ u, exec i s2 = .next u → u.cur ≠ none) →
      (choose s0 (secondChoices s0 c w m) = none → step s = run [])
      ∧ ∀ b, choose s0 (secondChoices s0 c w m) = some b → b.enters = false → b.w ≠ w →
          step s = if bindsLast s0 (pickOf s0 (w, m)) b
            then onNext (fun u => (countFairIssue s0 u b.w b.m).lay [.second c w m false]) b.o
            else onNext (s0.keepBefore c) (run [.second c b.w b.m false])))
  ∧ (∀ s x xs e rest, s.agenda = x :: xs → firstOf x xs = (.event e, rest) →
    let runs (e : Instr) (rest : List Turn) : Prop :=
      step s = onNext (fun u => { u with cur := none }) (exec e { s with agenda := rest, cur := none })
    ((owedBefore e).find? (hasEffect s) = none → runs e rest)
    ∧ ∀ o, (owedBefore e).find? (hasEffect s) = some o → runs o (x :: xs))
  ∧ (∀ (x : Turn) xs, (∀ y ∈ x :: xs, y.isElapse = false) → ∃ before after, x :: xs = before ++ (firstOf x xs).1 :: after
    ∧ (firstOf x xs).2 = before ++ after
    ∧ ∀ as y bs, x :: xs = as ++ y :: bs → (firstOf x xs).1.rank after ≤ y.rank bs
        ∧ (as.length < before.length → (firstOf x xs).1.rank after < y.rank bs))
  ∧ (∀ s n rest, s.agenda = .elapse n :: rest → step s = .next ({ s with agenda := rest }.elapse n)
    ∧ ((∀ kc ∈ s.cores, kc.2.grants.queue = []) → step s = .next { s with agenda := rest, hc := s.hc + n }))

/-- 11 R262; log 3: every step keeps the canonical form of memory: addresses strictly rising and no byte listed that equals
what an unlisted address reads as. -/
def Obligations.StepKeepsMemory : Prop :=
  ∀ s t, Memory.wf s.mem = true → step s = .next t → Memory.wf t.mem = true

/-- 06 R158: every step keeps the gangs in a table of strictly rising numbers, the premise of the statements on eviction
marks. -/
def Obligations.StepKeepsGangs : Prop :=
  ∀ s t, Tab.Sorted s.gangs → step s = .next t → Tab.Sorted t.gangs

/-- 18 R453; 03 R103; 10 R256: after reset SCLS0 holds HBMW 1, CAP 7 and QUOTA 16,384 and the other classes zero, every
cluster is Pooled at C2, every queue is Free, every link is trained, nothing is placed, and memory is in its canonical form.
The fused values and the register values that the spec does not state are the model's choice (log 1, log 9). -/
def Obligations.ResetState : Prop :=
  let s := State.reset
  Memory.wf s.mem = true ∧ s.boot = .ready ∧ s.scls.length = 16
  ∧ (s.scls.getD 0 0#32).extractLsb' 29 3 = 7#3 ∧ (s.scls.getD 0 0#32).extractLsb' 16 8 = 1#8
  ∧ (s.scls.getD 0 0#32).extractLsb' 0 16 = 16384#16 ∧ (∀ k, 1 ≤ k → k < 16 → s.scls.getD k 0#32 = 0#32)
  ∧ (∀ k, (s.cluster k).st = .pooled ∧ (s.cluster k).cls = 2#2) ∧ (∀ k, (s.queue k).st = .free)
  ∧ (∀ k, (s.link k).st = .up) ∧ s.ctxs = [] ∧ s.grids = [] ∧ s.gangs = [] ∧ s.teams = [] ∧ s.warps = [] ∧ s.errs.log = []
  ∧ (∀ k, (s.core k).pool = 64 ∧ (s.core k).mq = [])
end

