-- ==== Sys2Proof/Laws/Access.lean ====
section
/-! SUPPORT. The shared checks of memory instructions: what passes them, and what a TLB grants. -/

namespace Sys2Proof.Machine

/-- With no access of the lanes open nothing waits (06 R160, R169). -/
theorem checkDone_ok {p : Place} {m : LaneMask} (i : Issue) (h : NoOpen p m) : checkDone p i m = .ok () := by
  unfold checkDone
  have : (p.w.log.filter fun ke => decide (ke.2.open &&& m ≠ 0#32)) = [] := by
    rw [List.filter_eq_nil_iff]
    intro ke hk
    have : ke.2.open &&& m = 0#32 := h ke hk
    simp [this]
  rw [this]

theorem fencePending_false {p : Place} {m : LaneMask} (kind : Instr → Bool) (h : NoOpen p m) :
    fencePending kind p.w m = false := by
  unfold fencePending
  rw [List.any_eq_false]
  intro ke hk
  have : ke.2.open &&& m = 0#32 := h ke hk
  simp [this]

/-- With room in the log and no access of the lanes open an entry may be made (06 R168). -/
theorem checkEntry_ok {p : Place} {m : LaneMask} (i : Issue) (h : LogFree p m) : checkEntry p i m = .ok () := by
  unfold checkEntry
  rw [if_neg (by have := h.1; omega), fencePending_false isFence h.2]
  rfl

/-- A TLB that grants an access serves it without a walk (08 R199, R201). -/
theorem translate_hit {s : State} {p : Place} {acc : AccKind} {va : DWord} {x : Xlat} (h : Hit s p acc va x) :
    translate s (coreTlbs p.t.core) p.gr.ctx va.toNat acc = .ok (s, x) := by
  obtain ⟨e, h1, h2, h3, rfl⟩ := h
  unfold translate
  rw [h1]
  have : e.serves acc = true := by
    unfold TlbEnt.serves
    cases h : accWrites acc with
    | false => simp [h2]
    | true => simp [h2, h3 h]
  simp only [this, if_true]

end Sys2Proof.Machine
end

