-- ==== Sys2Proof/Laws/Sparse.lean ====
section
/-! SUPPORT. Laws of tables: what is read after a put, a removal, a change, a write, and after writes at
successive keys; and the canonical form they keep. They hold of every list, sorted or not. -/

namespace Sys2Proof

namespace Tab
variable {β : Type}

theorem get?_put_self (t : Tab β) (k : Nat) (v : β) : (t.put k v).get? k = some v := by
  induction t with
  | nil => simp [put, get?]
  | cons a t ih =>
    simp only [put]
    split
    · simp [get?]
    · split
      · rename_i h; simp [get?, h]
      · rename_i h; simp [get?, h, ih]

theorem get?_put_ne (t : Tab β) {k x : Nat} (v : β) (h : x ≠ k) : (t.put k v).get? x = t.get? x := by
  induction t with
  | nil => simp [put, get?, h]
  | cons a t ih =>
    simp only [put]
    split
    · simp [get?, h]
    · split
      · rename_i hk; subst hk; simp [get?, h]
      · simp only [get?]; split
        · rfl
        · exact ih

theorem get?_put (t : Tab β) (k x : Nat) (v : β) : (t.put k v).get? x = if x = k then some v else t.get? x := by
  split
  · subst_vars; exact get?_put_self t _ v
  · exact get?_put_ne t v ‹_›

theorem get?_filter_key (t : Tab β) (q : Nat → Bool) (x : Nat) :
    Tab.get? (List.filter (fun kv => q kv.1) t) x = if q x then t.get? x else none := by
  induction t with
  | nil => simp [get?]
  | cons a t ih =>
    obtain ⟨k, v⟩ := a
    simp only [List.filter_cons]
    by_cases hx : x = k
    · subst hx
      by_cases hq : q x = true
      · simp [hq, get?]
      · simp only [Bool.not_eq_true] at hq
        simp only [hq, Bool.false_eq_true, if_false] at ih ⊢
        exact ih
    · by_cases hq : q k = true
      · simp [hq, get?, hx, ih]
      · simp only [Bool.not_eq_true] at hq
        simp [hq, get?, hx, ih]

theorem get?_del (t : Tab β) (k x : Nat) : (t.del k).get? x = if x = k then none else t.get? x := by
  have := get?_filter_key t (fun j => decide (j ≠ k)) x
  simp only [del] at *
  rw [this]; by_cases h : x = k <;> simp [h]

theorem get?_modify (t : Tab β) (k x : Nat) (f : β → β) :
    (t.modify k f).get? x = if x = k then (t.get? k).map f else t.get? x := by
  induction t with
  | nil => split <;> rfl
  | cons kv t ih =>
    obtain ⟨k', v⟩ := kv
    show get? ((if k' = k then (k', f v) else (k', v)) :: Tab.modify t k f) x = _
    by_cases h1 : k' = k
    · subst h1
      rw [if_pos rfl]
      by_cases h2 : x = k'
      · subst h2; simp [get?]
      · rw [if_neg h2] at ih ⊢; simp only [get?, if_neg h2]; exact ih
    · rw [if_neg h1]
      by_cases h2 : x = k'
      · subst h2; simp [get?, h1]
      · simp only [get?, if_neg h2]
        rw [ih]
        by_cases h3 : x = k
        · subst h3; simp [Ne.symm h1, h2]
        · simp [h3]

theorem get?_mapV {γ : Type} (t : Tab β) (f : Nat → β → γ) (x : Nat) : (t.mapV f).get? x = (t.get? x).map (f x) := by
  induction t with
  | nil => rfl
  | cons a t ih =>
    simp only [mapV, List.map_cons, get?] at *
    split
    · subst_vars; rfl
    · exact ih

theorem getD_put (t : Tab β) (k x : Nat) (v d : β) : (t.put k v).getD x d = if x = k then v else t.getD x d := by
  simp only [getD, get?_put]; split <;> rfl

/-- Sorted, as a chain from a lower bound. -/
theorem sorted_cons (a : Nat) (v : β) (t : Tab β) : Sorted ((a, v) :: t) ↔ (∀ kv ∈ t, a < kv.1) ∧ Sorted t := by
  induction t generalizing a v with
  | nil => simp [Sorted]
  | cons b t ih =>
    obtain ⟨k, w⟩ := b
    simp only [Sorted, List.mem_cons, forall_eq_or_imp]
    rw [ih]
    constructor
    · rintro ⟨h, h1, h2⟩; exact ⟨⟨h, fun kv hkv => Nat.lt_trans h (h1 kv hkv)⟩, h1, h2⟩
    · rintro ⟨⟨h, _⟩, h1, h2⟩; exact ⟨h, h1, h2⟩

theorem mem_put (t : Tab β) (k : Nat) (v : β) (kv : Nat × β) (h : kv ∈ t.put k v) : kv = (k, v) ∨ kv ∈ t := by
  induction t with
  | nil => simp [put] at h; exact .inl h
  | cons a t ih =>
    simp only [put] at h
    split at h
    · rcases List.mem_cons.1 h with h | h
      · exact .inl h
      · exact .inr h
    · split at h
      · rcases List.mem_cons.1 h with h | h
        · rename_i hk _; subst hk; exact .inl h
        · exact .inr (List.mem_cons_of_mem _ h)
      · rcases List.mem_cons.1 h with h | h
        · exact .inr (h ▸ List.mem_cons_self)
        · rcases ih h with h | h
          · exact .inl h
          · exact .inr (List.mem_cons_of_mem _ h)

theorem sorted_put (t : Tab β) (k : Nat) (v : β) (h : Sorted t) : Sorted (t.put k v) := by
  induction t with
  | nil => simp [put, Sorted]
  | cons a t ih =>
    obtain ⟨x, w⟩ := a
    rw [sorted_cons] at h
    simp only [put]
    split
    · rw [sorted_cons, sorted_cons]
      refine ⟨?_, h⟩
      intro kv hkv
      rcases List.mem_cons.1 hkv with hkv | hkv
      · subst hkv; assumption
      · exact Nat.lt_trans ‹_› (h.1 kv hkv)
    · split
      · subst_vars; rw [sorted_cons]; exact h
      · rw [sorted_cons]
        refine ⟨?_, ih h.2⟩
        intro kv hkv
        rcases mem_put t k v kv hkv with hkv | hkv
        · subst hkv; simp only; omega
        · exact h.1 kv hkv

theorem sorted_filter (t : Tab β) (q : Nat × β → Bool) (h : Sorted t) : Sorted (List.filter q t) := by
  induction t with
  | nil => exact h
  | cons a t ih =>
    obtain ⟨x, w⟩ := a
    rw [sorted_cons] at h
    simp only [List.filter_cons]
    split
    · rw [sorted_cons]; exact ⟨fun kv hkv => h.1 kv (List.mem_filter.1 hkv).1, ih h.2⟩
    · exact ih h.2

theorem sorted_del (t : Tab β) (k : Nat) (h : Sorted t) : Sorted (t.del k) := sorted_filter t _ h

end Tab

namespace Sparse
variable {β : Type} [DecidableEq β]

/-- A read after a write. -/
theorem get_set (d : β) (m : Sparse β) (k x : Nat) (v : β) : get d (set d m k v) x = if x = k then v else get d m x := by
  unfold get set
  split
  · rw [Tab.get?_del]; split <;> simp_all
  · rw [Tab.get?_put]; split <;> simp_all

theorem get_fill (d : β) (m : Sparse β) (k x : Nat) (vs : List β) :
    get d (fill d m k vs) x = if k ≤ x ∧ x < k + vs.length then vs.getD (x - k) d else get d m x := by
  induction vs generalizing m k with
  | nil => rw [if_neg (by simp only [List.length_nil]; omega)]; rfl
  | cons v vs ih =>
    simp only [fill, ih, List.length_cons, get_set]
    by_cases h1 : k + 1 ≤ x ∧ x < k + 1 + vs.length
    · rw [if_pos h1, if_pos (by omega), show x - k = (x - (k + 1)) + 1 by omega]; rfl
    · rw [if_neg h1]
      by_cases h2 : x = k
      · subst h2; simp
      · rw [if_neg h2, if_neg (by omega)]

/-- Every write keeps the canonical form. -/
theorem wf_set (d : β) (m : Sparse β) (k : Nat) (v : β) (h : wf d m) : wf d (set d m k v) := by
  unfold set
  split
  · exact ⟨Tab.sorted_del m k h.1, fun kv hkv => h.2 kv (List.mem_filter.1 hkv).1⟩
  · refine ⟨Tab.sorted_put m k v h.1, fun kv hkv => ?_⟩
    rcases Tab.mem_put m k v kv hkv with hkv | hkv
    · subst hkv; assumption
    · exact h.2 kv hkv

theorem wf_fill (d : β) (m : Sparse β) (k : Nat) (vs : List β) (h : wf d m) : wf d (fill d m k vs) := by
  induction vs generalizing m k with
  | nil => exact h
  | cons v vs ih => exact ih _ _ (wf_set d m k v h)

end Sparse

end Sys2Proof
end

