-- ==== Sys2Proof/Laws/State.lean ====
section
/-! SUPPORT. What each named update of the state, and of a warp, leaves as it was: one lemma per field. -/

namespace Sys2Proof.Machine

/-! ## modWarp -/
@[simp] theorem State.modWarp_fused (s : State) (k : Nat) (f : Warp → Warp) : (s.modWarp k f).fused = s.fused := rfl
@[simp] theorem State.modWarp_boot (s : State) (k : Nat) (f : Warp → Warp) : (s.modWarp k f).boot = s.boot := rfl
@[simp] theorem State.modWarp_hc (s : State) (k : Nat) (f : Warp → Warp) : (s.modWarp k f).hc = s.hc := rfl
@[simp] theorem State.modWarp_lastSweep (s : State) (k : Nat) (f : Warp → Warp) : (s.modWarp k f).lastSweep = s.lastSweep := rfl
@[simp] theorem State.modWarp_counters (s : State) (k : Nat) (f : Warp → Warp) : (s.modWarp k f).counters = s.counters := rfl
@[simp] theorem State.modWarp_scls (s : State) (k : Nat) (f : Warp → Warp) : (s.modWarp k f).scls = s.scls := rfl
@[simp] theorem State.modWarp_ctxs (s : State) (k : Nat) (f : Warp → Warp) : (s.modWarp k f).ctxs = s.ctxs := rfl
@[simp] theorem State.modWarp_freedAt (s : State) (k : Nat) (f : Warp → Warp) : (s.modWarp k f).freedAt = s.freedAt := rfl
@[simp] theorem State.modWarp_queues (s : State) (k : Nat) (f : Warp → Warp) : (s.modWarp k f).queues = s.queues := rfl
@[simp] theorem State.modWarp_placer (s : State) (k : Nat) (f : Warp → Warp) : (s.modWarp k f).placer = s.placer := rfl
@[simp] theorem State.modWarp_disp (s : State) (k : Nat) (f : Warp → Warp) : (s.modWarp k f).disp = s.disp := rfl
@[simp] theorem State.modWarp_grids (s : State) (k : Nat) (f : Warp → Warp) : (s.modWarp k f).grids = s.grids := rfl
@[simp] theorem State.modWarp_gangs (s : State) (k : Nat) (f : Warp → Warp) : (s.modWarp k f).gangs = s.gangs := rfl
@[simp] theorem State.modWarp_teams (s : State) (k : Nat) (f : Warp → Warp) : (s.modWarp k f).teams = s.teams := rfl
@[simp] theorem State.modWarp_bars (s : State) (k : Nat) (f : Warp → Warp) : (s.modWarp k f).bars = s.bars := rfl
@[simp] theorem State.modWarp_arrivals (s : State) (k : Nat) (f : Warp → Warp) : (s.modWarp k f).arrivals = s.arrivals := rfl
@[simp] theorem State.modWarp_exits (s : State) (k : Nat) (f : Warp → Warp) : (s.modWarp k f).exits = s.exits := rfl
@[simp] theorem State.modWarp_flight (s : State) (k : Nat) (f : Warp → Warp) : (s.modWarp k f).flight = s.flight := rfl
@[simp] theorem State.modWarp_cores (s : State) (k : Nat) (f : Warp → Warp) : (s.modWarp k f).cores = s.cores := rfl
@[simp] theorem State.modWarp_clusters (s : State) (k : Nat) (f : Warp → Warp) : (s.modWarp k f).clusters = s.clusters := rfl
@[simp] theorem State.modWarp_dies (s : State) (k : Nat) (f : Warp → Warp) : (s.modWarp k f).dies = s.dies := rfl
@[simp] theorem State.modWarp_power (s : State) (k : Nat) (f : Warp → Warp) : (s.modWarp k f).power = s.power := rfl
@[simp] theorem State.modWarp_mloops (s : State) (k : Nat) (f : Warp → Warp) : (s.modWarp k f).mloops = s.mloops := rfl
@[simp] theorem State.modWarp_ops (s : State) (k : Nat) (f : Warp → Warp) : (s.modWarp k f).ops = s.ops := rfl
@[simp] theorem State.modWarp_groups (s : State) (k : Nat) (f : Warp → Warp) : (s.modWarp k f).groups = s.groups := rfl
@[simp] theorem State.modWarp_svcRing (s : State) (k : Nat) (f : Warp → Warp) : (s.modWarp k f).svcRing = s.svcRing := rfl
@[simp] theorem State.modWarp_errs (s : State) (k : Nat) (f : Warp → Warp) : (s.modWarp k f).errs = s.errs := rfl
@[simp] theorem State.modWarp_paging (s : State) (k : Nat) (f : Warp → Warp) : (s.modWarp k f).paging = s.paging := rfl
@[simp] theorem State.modWarp_pool (s : State) (k : Nat) (f : Warp → Warp) : (s.modWarp k f).pool = s.pool := rfl
@[simp] theorem State.modWarp_links (s : State) (k : Nat) (f : Warp → Warp) : (s.modWarp k f).links = s.links := rfl
@[simp] theorem State.modWarp_routes (s : State) (k : Nat) (f : Warp → Warp) : (s.modWarp k f).routes = s.routes := rfl
@[simp] theorem State.modWarp_acts (s : State) (k : Nat) (f : Warp → Warp) : (s.modWarp k f).acts = s.acts := rfl
@[simp] theorem State.modWarp_host (s : State) (k : Nat) (f : Warp → Warp) : (s.modWarp k f).host = s.host := rfl
@[simp] theorem State.modWarp_mem (s : State) (k : Nat) (f : Warp → Warp) : (s.modWarp k f).mem = s.mem := rfl
@[simp] theorem State.modWarp_hbmOld (s : State) (k : Nat) (f : Warp → Warp) : (s.modWarp k f).hbmOld = s.hbmOld := rfl
@[simp] theorem State.modWarp_llc (s : State) (k : Nat) (f : Warp → Warp) : (s.modWarp k f).llc = s.llc := rfl
@[simp] theorem State.modWarp_llcFills (s : State) (k : Nat) (f : Warp → Warp) : (s.modWarp k f).llcFills = s.llcFills := rfl
@[simp] theorem State.modWarp_poisonLines (s : State) (k : Nat) (f : Warp → Warp) : (s.modWarp k f).poisonLines = s.poisonLines := rfl
@[simp] theorem State.modWarp_spoiled (s : State) (k : Nat) (f : Warp → Warp) : (s.modWarp k f).spoiled = s.spoiled := rfl
@[simp] theorem State.modWarp_cur (s : State) (k : Nat) (f : Warp → Warp) : (s.modWarp k f).cur = s.cur := rfl
@[simp] theorem State.modWarp_agenda (s : State) (k : Nat) (f : Warp → Warp) : (s.modWarp k f).agenda = s.agenda := rfl
@[simp] theorem State.modWarp_fresh (s : State) (k : Nat) (f : Warp → Warp) : (s.modWarp k f).fresh = s.fresh := rfl

/-! ## modCore -/
@[simp] theorem State.modCore_fused (s : State) (k : Nat) (f : Core → Core) : (s.modCore k f).fused = s.fused := rfl
@[simp] theorem State.modCore_boot (s : State) (k : Nat) (f : Core → Core) : (s.modCore k f).boot = s.boot := rfl
@[simp] theorem State.modCore_hc (s : State) (k : Nat) (f : Core → Core) : (s.modCore k f).hc = s.hc := rfl
@[simp] theorem State.modCore_lastSweep (s : State) (k : Nat) (f : Core → Core) : (s.modCore k f).lastSweep = s.lastSweep := rfl
@[simp] theorem State.modCore_counters (s : State) (k : Nat) (f : Core → Core) : (s.modCore k f).counters = s.counters := rfl
@[simp] theorem State.modCore_scls (s : State) (k : Nat) (f : Core → Core) : (s.modCore k f).scls = s.scls := rfl
@[simp] theorem State.modCore_ctxs (s : State) (k : Nat) (f : Core → Core) : (s.modCore k f).ctxs = s.ctxs := rfl
@[simp] theorem State.modCore_freedAt (s : State) (k : Nat) (f : Core → Core) : (s.modCore k f).freedAt = s.freedAt := rfl
@[simp] theorem State.modCore_queues (s : State) (k : Nat) (f : Core → Core) : (s.modCore k f).queues = s.queues := rfl
@[simp] theorem State.modCore_placer (s : State) (k : Nat) (f : Core → Core) : (s.modCore k f).placer = s.placer := rfl
@[simp] theorem State.modCore_disp (s : State) (k : Nat) (f : Core → Core) : (s.modCore k f).disp = s.disp := rfl
@[simp] theorem State.modCore_grids (s : State) (k : Nat) (f : Core → Core) : (s.modCore k f).grids = s.grids := rfl
@[simp] theorem State.modCore_gangs (s : State) (k : Nat) (f : Core → Core) : (s.modCore k f).gangs = s.gangs := rfl
@[simp] theorem State.modCore_teams (s : State) (k : Nat) (f : Core → Core) : (s.modCore k f).teams = s.teams := rfl
@[simp] theorem State.modCore_warps (s : State) (k : Nat) (f : Core → Core) : (s.modCore k f).warps = s.warps := rfl
@[simp] theorem State.modCore_bars (s : State) (k : Nat) (f : Core → Core) : (s.modCore k f).bars = s.bars := rfl
@[simp] theorem State.modCore_arrivals (s : State) (k : Nat) (f : Core → Core) : (s.modCore k f).arrivals = s.arrivals := rfl
@[simp] theorem State.modCore_exits (s : State) (k : Nat) (f : Core → Core) : (s.modCore k f).exits = s.exits := rfl
@[simp] theorem State.modCore_flight (s : State) (k : Nat) (f : Core → Core) : (s.modCore k f).flight = s.flight := rfl
@[simp] theorem State.modCore_clusters (s : State) (k : Nat) (f : Core → Core) : (s.modCore k f).clusters = s.clusters := rfl
@[simp] theorem State.modCore_dies (s : State) (k : Nat) (f : Core → Core) : (s.modCore k f).dies = s.dies := rfl
@[simp] theorem State.modCore_power (s : State) (k : Nat) (f : Core → Core) : (s.modCore k f).power = s.power := rfl
@[simp] theorem State.modCore_mloops (s : State) (k : Nat) (f : Core → Core) : (s.modCore k f).mloops = s.mloops := rfl
@[simp] theorem State.modCore_ops (s : State) (k : Nat) (f : Core → Core) : (s.modCore k f).ops = s.ops := rfl
@[simp] theorem State.modCore_groups (s : State) (k : Nat) (f : Core → Core) : (s.modCore k f).groups = s.groups := rfl
@[simp] theorem State.modCore_svcRing (s : State) (k : Nat) (f : Core → Core) : (s.modCore k f).svcRing = s.svcRing := rfl
@[simp] theorem State.modCore_errs (s : State) (k : Nat) (f : Core → Core) : (s.modCore k f).errs = s.errs := rfl
@[simp] theorem State.modCore_paging (s : State) (k : Nat) (f : Core → Core) : (s.modCore k f).paging = s.paging := rfl
@[simp] theorem State.modCore_pool (s : State) (k : Nat) (f : Core → Core) : (s.modCore k f).pool = s.pool := rfl
@[simp] theorem State.modCore_links (s : State) (k : Nat) (f : Core → Core) : (s.modCore k f).links = s.links := rfl
@[simp] theorem State.modCore_routes (s : State) (k : Nat) (f : Core → Core) : (s.modCore k f).routes = s.routes := rfl
@[simp] theorem State.modCore_acts (s : State) (k : Nat) (f : Core → Core) : (s.modCore k f).acts = s.acts := rfl
@[simp] theorem State.modCore_host (s : State) (k : Nat) (f : Core → Core) : (s.modCore k f).host = s.host := rfl
@[simp] theorem State.modCore_mem (s : State) (k : Nat) (f : Core → Core) : (s.modCore k f).mem = s.mem := rfl
@[simp] theorem State.modCore_hbmOld (s : State) (k : Nat) (f : Core → Core) : (s.modCore k f).hbmOld = s.hbmOld := rfl
@[simp] theorem State.modCore_llc (s : State) (k : Nat) (f : Core → Core) : (s.modCore k f).llc = s.llc := rfl
@[simp] theorem State.modCore_llcFills (s : State) (k : Nat) (f : Core → Core) : (s.modCore k f).llcFills = s.llcFills := rfl
@[simp] theorem State.modCore_poisonLines (s : State) (k : Nat) (f : Core → Core) : (s.modCore k f).poisonLines = s.poisonLines := rfl
@[simp] theorem State.modCore_spoiled (s : State) (k : Nat) (f : Core → Core) : (s.modCore k f).spoiled = s.spoiled := rfl
@[simp] theorem State.modCore_cur (s : State) (k : Nat) (f : Core → Core) : (s.modCore k f).cur = s.cur := rfl
@[simp] theorem State.modCore_agenda (s : State) (k : Nat) (f : Core → Core) : (s.modCore k f).agenda = s.agenda := rfl
@[simp] theorem State.modCore_fresh (s : State) (k : Nat) (f : Core → Core) : (s.modCore k f).fresh = s.fresh := rfl

/-! ## modCluster -/
@[simp] theorem State.modCluster_fused (s : State) (k : Nat) (f : Cluster → Cluster) : (s.modCluster k f).fused = s.fused := rfl
@[simp] theorem State.modCluster_boot (s : State) (k : Nat) (f : Cluster → Cluster) : (s.modCluster k f).boot = s.boot := rfl
@[simp] theorem State.modCluster_hc (s : State) (k : Nat) (f : Cluster → Cluster) : (s.modCluster k f).hc = s.hc := rfl
@[simp] theorem State.modCluster_lastSweep (s : State) (k : Nat) (f : Cluster → Cluster) : (s.modCluster k f).lastSweep = s.lastSweep := rfl
@[simp] theorem State.modCluster_counters (s : State) (k : Nat) (f : Cluster → Cluster) : (s.modCluster k f).counters = s.counters := rfl
@[simp] theorem State.modCluster_scls (s : State) (k : Nat) (f : Cluster → Cluster) : (s.modCluster k f).scls = s.scls := rfl
@[simp] theorem State.modCluster_ctxs (s : State) (k : Nat) (f : Cluster → Cluster) : (s.modCluster k f).ctxs = s.ctxs := rfl
@[simp] theorem State.modCluster_freedAt (s : State) (k : Nat) (f : Cluster → Cluster) : (s.modCluster k f).freedAt = s.freedAt := rfl
@[simp] theorem State.modCluster_queues (s : State) (k : Nat) (f : Cluster → Cluster) : (s.modCluster k f).queues = s.queues := rfl
@[simp] theorem State.modCluster_placer (s : State) (k : Nat) (f : Cluster → Cluster) : (s.modCluster k f).placer = s.placer := rfl
@[simp] theorem State.modCluster_disp (s : State) (k : Nat) (f : Cluster → Cluster) : (s.modCluster k f).disp = s.disp := rfl
@[simp] theorem State.modCluster_grids (s : State) (k : Nat) (f : Cluster → Cluster) : (s.modCluster k f).grids = s.grids := rfl
@[simp] theorem State.modCluster_gangs (s : State) (k : Nat) (f : Cluster → Cluster) : (s.modCluster k f).gangs = s.gangs := rfl
@[simp] theorem State.modCluster_teams (s : State) (k : Nat) (f : Cluster → Cluster) : (s.modCluster k f).teams = s.teams := rfl
@[simp] theorem State.modCluster_warps (s : State) (k : Nat) (f : Cluster → Cluster) : (s.modCluster k f).warps = s.warps := rfl
@[simp] theorem State.modCluster_bars (s : State) (k : Nat) (f : Cluster → Cluster) : (s.modCluster k f).bars = s.bars := rfl
@[simp] theorem State.modCluster_arrivals (s : State) (k : Nat) (f : Cluster → Cluster) : (s.modCluster k f).arrivals = s.arrivals := rfl
@[simp] theorem State.modCluster_exits (s : State) (k : Nat) (f : Cluster → Cluster) : (s.modCluster k f).exits = s.exits := rfl
@[simp] theorem State.modCluster_flight (s : State) (k : Nat) (f : Cluster → Cluster) : (s.modCluster k f).flight = s.flight := rfl
@[simp] theorem State.modCluster_cores (s : State) (k : Nat) (f : Cluster → Cluster) : (s.modCluster k f).cores = s.cores := rfl
@[simp] theorem State.modCluster_dies (s : State) (k : Nat) (f : Cluster → Cluster) : (s.modCluster k f).dies = s.dies := rfl
@[simp] theorem State.modCluster_power (s : State) (k : Nat) (f : Cluster → Cluster) : (s.modCluster k f).power = s.power := rfl
@[simp] theorem State.modCluster_mloops (s : State) (k : Nat) (f : Cluster → Cluster) : (s.modCluster k f).mloops = s.mloops := rfl
@[simp] theorem State.modCluster_ops (s : State) (k : Nat) (f : Cluster → Cluster) : (s.modCluster k f).ops = s.ops := rfl
@[simp] theorem State.modCluster_groups (s : State) (k : Nat) (f : Cluster → Cluster) : (s.modCluster k f).groups = s.groups := rfl
@[simp] theorem State.modCluster_svcRing (s : State) (k : Nat) (f : Cluster → Cluster) : (s.modCluster k f).svcRing = s.svcRing := rfl
@[simp] theorem State.modCluster_errs (s : State) (k : Nat) (f : Cluster → Cluster) : (s.modCluster k f).errs = s.errs := rfl
@[simp] theorem State.modCluster_paging (s : State) (k : Nat) (f : Cluster → Cluster) : (s.modCluster k f).paging = s.paging := rfl
@[simp] theorem State.modCluster_pool (s : State) (k : Nat) (f : Cluster → Cluster) : (s.modCluster k f).pool = s.pool := rfl
@[simp] theorem State.modCluster_links (s : State) (k : Nat) (f : Cluster → Cluster) : (s.modCluster k f).links = s.links := rfl
@[simp] theorem State.modCluster_routes (s : State) (k : Nat) (f : Cluster → Cluster) : (s.modCluster k f).routes = s.routes := rfl
@[simp] theorem State.modCluster_acts (s : State) (k : Nat) (f : Cluster → Cluster) : (s.modCluster k f).acts = s.acts := rfl
@[simp] theorem State.modCluster_host (s : State) (k : Nat) (f : Cluster → Cluster) : (s.modCluster k f).host = s.host := rfl
@[simp] theorem State.modCluster_mem (s : State) (k : Nat) (f : Cluster → Cluster) : (s.modCluster k f).mem = s.mem := rfl
@[simp] theorem State.modCluster_hbmOld (s : State) (k : Nat) (f : Cluster → Cluster) : (s.modCluster k f).hbmOld = s.hbmOld := rfl
@[simp] theorem State.modCluster_llc (s : State) (k : Nat) (f : Cluster → Cluster) : (s.modCluster k f).llc = s.llc := rfl
@[simp] theorem State.modCluster_llcFills (s : State) (k : Nat) (f : Cluster → Cluster) : (s.modCluster k f).llcFills = s.llcFills := rfl
@[simp] theorem State.modCluster_poisonLines (s : State) (k : Nat) (f : Cluster → Cluster) : (s.modCluster k f).poisonLines = s.poisonLines := rfl
@[simp] theorem State.modCluster_spoiled (s : State) (k : Nat) (f : Cluster → Cluster) : (s.modCluster k f).spoiled = s.spoiled := rfl
@[simp] theorem State.modCluster_cur (s : State) (k : Nat) (f : Cluster → Cluster) : (s.modCluster k f).cur = s.cur := rfl
@[simp] theorem State.modCluster_agenda (s : State) (k : Nat) (f : Cluster → Cluster) : (s.modCluster k f).agenda = s.agenda := rfl
@[simp] theorem State.modCluster_fresh (s : State) (k : Nat) (f : Cluster → Cluster) : (s.modCluster k f).fresh = s.fresh := rfl

/-! ## modDie -/
@[simp] theorem State.modDie_fused (s : State) (k : Nat) (f : Die → Die) : (s.modDie k f).fused = s.fused := rfl
@[simp] theorem State.modDie_boot (s : State) (k : Nat) (f : Die → Die) : (s.modDie k f).boot = s.boot := rfl
@[simp] theorem State.modDie_hc (s : State) (k : Nat) (f : Die → Die) : (s.modDie k f).hc = s.hc := rfl
@[simp] theorem State.modDie_lastSweep (s : State) (k : Nat) (f : Die → Die) : (s.modDie k f).lastSweep = s.lastSweep := rfl
@[simp] theorem State.modDie_counters (s : State) (k : Nat) (f : Die → Die) : (s.modDie k f).counters = s.counters := rfl
@[simp] theorem State.modDie_scls (s : State) (k : Nat) (f : Die → Die) : (s.modDie k f).scls = s.scls := rfl
@[simp] theorem State.modDie_ctxs (s : State) (k : Nat) (f : Die → Die) : (s.modDie k f).ctxs = s.ctxs := rfl
@[simp] theorem State.modDie_freedAt (s : State) (k : Nat) (f : Die → Die) : (s.modDie k f).freedAt = s.freedAt := rfl
@[simp] theorem State.modDie_queues (s : State) (k : Nat) (f : Die → Die) : (s.modDie k f).queues = s.queues := rfl
@[simp] theorem State.modDie_placer (s : State) (k : Nat) (f : Die → Die) : (s.modDie k f).placer = s.placer := rfl
@[simp] theorem State.modDie_disp (s : State) (k : Nat) (f : Die → Die) : (s.modDie k f).disp = s.disp := rfl
@[simp] theorem State.modDie_grids (s : State) (k : Nat) (f : Die → Die) : (s.modDie k f).grids = s.grids := rfl
@[simp] theorem State.modDie_gangs (s : State) (k : Nat) (f : Die → Die) : (s.modDie k f).gangs = s.gangs := rfl
@[simp] theorem State.modDie_teams (s : State) (k : Nat) (f : Die → Die) : (s.modDie k f).teams = s.teams := rfl
@[simp] theorem State.modDie_warps (s : State) (k : Nat) (f : Die → Die) : (s.modDie k f).warps = s.warps := rfl
@[simp] theorem State.modDie_bars (s : State) (k : Nat) (f : Die → Die) : (s.modDie k f).bars = s.bars := rfl
@[simp] theorem State.modDie_arrivals (s : State) (k : Nat) (f : Die → Die) : (s.modDie k f).arrivals = s.arrivals := rfl
@[simp] theorem State.modDie_exits (s : State) (k : Nat) (f : Die → Die) : (s.modDie k f).exits = s.exits := rfl
@[simp] theorem State.modDie_flight (s : State) (k : Nat) (f : Die → Die) : (s.modDie k f).flight = s.flight := rfl
@[simp] theorem State.modDie_cores (s : State) (k : Nat) (f : Die → Die) : (s.modDie k f).cores = s.cores := rfl
@[simp] theorem State.modDie_clusters (s : State) (k : Nat) (f : Die → Die) : (s.modDie k f).clusters = s.clusters := rfl
@[simp] theorem State.modDie_power (s : State) (k : Nat) (f : Die → Die) : (s.modDie k f).power = s.power := rfl
@[simp] theorem State.modDie_mloops (s : State) (k : Nat) (f : Die → Die) : (s.modDie k f).mloops = s.mloops := rfl
@[simp] theorem State.modDie_ops (s : State) (k : Nat) (f : Die → Die) : (s.modDie k f).ops = s.ops := rfl
@[simp] theorem State.modDie_groups (s : State) (k : Nat) (f : Die → Die) : (s.modDie k f).groups = s.groups := rfl
@[simp] theorem State.modDie_svcRing (s : State) (k : Nat) (f : Die → Die) : (s.modDie k f).svcRing = s.svcRing := rfl
@[simp] theorem State.modDie_errs (s : State) (k : Nat) (f : Die → Die) : (s.modDie k f).errs = s.errs := rfl
@[simp] theorem State.modDie_paging (s : State) (k : Nat) (f : Die → Die) : (s.modDie k f).paging = s.paging := rfl
@[simp] theorem State.modDie_pool (s : State) (k : Nat) (f : Die → Die) : (s.modDie k f).pool = s.pool := rfl
@[simp] theorem State.modDie_links (s : State) (k : Nat) (f : Die → Die) : (s.modDie k f).links = s.links := rfl
@[simp] theorem State.modDie_routes (s : State) (k : Nat) (f : Die → Die) : (s.modDie k f).routes = s.routes := rfl
@[simp] theorem State.modDie_acts (s : State) (k : Nat) (f : Die → Die) : (s.modDie k f).acts = s.acts := rfl
@[simp] theorem State.modDie_host (s : State) (k : Nat) (f : Die → Die) : (s.modDie k f).host = s.host := rfl
@[simp] theorem State.modDie_mem (s : State) (k : Nat) (f : Die → Die) : (s.modDie k f).mem = s.mem := rfl
@[simp] theorem State.modDie_hbmOld (s : State) (k : Nat) (f : Die → Die) : (s.modDie k f).hbmOld = s.hbmOld := rfl
@[simp] theorem State.modDie_llc (s : State) (k : Nat) (f : Die → Die) : (s.modDie k f).llc = s.llc := rfl
@[simp] theorem State.modDie_llcFills (s : State) (k : Nat) (f : Die → Die) : (s.modDie k f).llcFills = s.llcFills := rfl
@[simp] theorem State.modDie_poisonLines (s : State) (k : Nat) (f : Die → Die) : (s.modDie k f).poisonLines = s.poisonLines := rfl
@[simp] theorem State.modDie_spoiled (s : State) (k : Nat) (f : Die → Die) : (s.modDie k f).spoiled = s.spoiled := rfl
@[simp] theorem State.modDie_cur (s : State) (k : Nat) (f : Die → Die) : (s.modDie k f).cur = s.cur := rfl
@[simp] theorem State.modDie_agenda (s : State) (k : Nat) (f : Die → Die) : (s.modDie k f).agenda = s.agenda := rfl
@[simp] theorem State.modDie_fresh (s : State) (k : Nat) (f : Die → Die) : (s.modDie k f).fresh = s.fresh := rfl

/-! ## modGang -/
@[simp] theorem State.modGang_fused (s : State) (k : Nat) (f : Gang → Gang) : (s.modGang k f).fused = s.fused := rfl
@[simp] theorem State.modGang_boot (s : State) (k : Nat) (f : Gang → Gang) : (s.modGang k f).boot = s.boot := rfl
@[simp] theorem State.modGang_hc (s : State) (k : Nat) (f : Gang → Gang) : (s.modGang k f).hc = s.hc := rfl
@[simp] theorem State.modGang_lastSweep (s : State) (k : Nat) (f : Gang → Gang) : (s.modGang k f).lastSweep = s.lastSweep := rfl
@[simp] theorem State.modGang_counters (s : State) (k : Nat) (f : Gang → Gang) : (s.modGang k f).counters = s.counters := rfl
@[simp] theorem State.modGang_scls (s : State) (k : Nat) (f : Gang → Gang) : (s.modGang k f).scls = s.scls := rfl
@[simp] theorem State.modGang_ctxs (s : State) (k : Nat) (f : Gang → Gang) : (s.modGang k f).ctxs = s.ctxs := rfl
@[simp] theorem State.modGang_freedAt (s : State) (k : Nat) (f : Gang → Gang) : (s.modGang k f).freedAt = s.freedAt := rfl
@[simp] theorem State.modGang_queues (s : State) (k : Nat) (f : Gang → Gang) : (s.modGang k f).queues = s.queues := rfl
@[simp] theorem State.modGang_placer (s : State) (k : Nat) (f : Gang → Gang) : (s.modGang k f).placer = s.placer := rfl
@[simp] theorem State.modGang_disp (s : State) (k : Nat) (f : Gang → Gang) : (s.modGang k f).disp = s.disp := rfl
@[simp] theorem State.modGang_grids (s : State) (k : Nat) (f : Gang → Gang) : (s.modGang k f).grids = s.grids := rfl
@[simp] theorem State.modGang_teams (s : State) (k : Nat) (f : Gang → Gang) : (s.modGang k f).teams = s.teams := rfl
@[simp] theorem State.modGang_warps (s : State) (k : Nat) (f : Gang → Gang) : (s.modGang k f).warps = s.warps := rfl
@[simp] theorem State.modGang_bars (s : State) (k : Nat) (f : Gang → Gang) : (s.modGang k f).bars = s.bars := rfl
@[simp] theorem State.modGang_arrivals (s : State) (k : Nat) (f : Gang → Gang) : (s.modGang k f).arrivals = s.arrivals := rfl
@[simp] theorem State.modGang_exits (s : State) (k : Nat) (f : Gang → Gang) : (s.modGang k f).exits = s.exits := rfl
@[simp] theorem State.modGang_flight (s : State) (k : Nat) (f : Gang → Gang) : (s.modGang k f).flight = s.flight := rfl
@[simp] theorem State.modGang_cores (s : State) (k : Nat) (f : Gang → Gang) : (s.modGang k f).cores = s.cores := rfl
@[simp] theorem State.modGang_clusters (s : State) (k : Nat) (f : Gang → Gang) : (s.modGang k f).clusters = s.clusters := rfl
@[simp] theorem State.modGang_dies (s : State) (k : Nat) (f : Gang → Gang) : (s.modGang k f).dies = s.dies := rfl
@[simp] theorem State.modGang_power (s : State) (k : Nat) (f : Gang → Gang) : (s.modGang k f).power = s.power := rfl
@[simp] theorem State.modGang_mloops (s : State) (k : Nat) (f : Gang → Gang) : (s.modGang k f).mloops = s.mloops := rfl
@[simp] theorem State.modGang_ops (s : State) (k : Nat) (f : Gang → Gang) : (s.modGang k f).ops = s.ops := rfl
@[simp] theorem State.modGang_groups (s : State) (k : Nat) (f : Gang → Gang) : (s.modGang k f).groups = s.groups := rfl
@[simp] theorem State.modGang_svcRing (s : State) (k : Nat) (f : Gang → Gang) : (s.modGang k f).svcRing = s.svcRing := rfl
@[simp] theorem State.modGang_errs (s : State) (k : Nat) (f : Gang → Gang) : (s.modGang k f).errs = s.errs := rfl
@[simp] theorem State.modGang_paging (s : State) (k : Nat) (f : Gang → Gang) : (s.modGang k f).paging = s.paging := rfl
@[simp] theorem State.modGang_pool (s : State) (k : Nat) (f : Gang → Gang) : (s.modGang k f).pool = s.pool := rfl
@[simp] theorem State.modGang_links (s : State) (k : Nat) (f : Gang → Gang) : (s.modGang k f).links = s.links := rfl
@[simp] theorem State.modGang_routes (s : State) (k : Nat) (f : Gang → Gang) : (s.modGang k f).routes = s.routes := rfl
@[simp] theorem State.modGang_acts (s : State) (k : Nat) (f : Gang → Gang) : (s.modGang k f).acts = s.acts := rfl
@[simp] theorem State.modGang_host (s : State) (k : Nat) (f : Gang → Gang) : (s.modGang k f).host = s.host := rfl
@[simp] theorem State.modGang_mem (s : State) (k : Nat) (f : Gang → Gang) : (s.modGang k f).mem = s.mem := rfl
@[simp] theorem State.modGang_hbmOld (s : State) (k : Nat) (f : Gang → Gang) : (s.modGang k f).hbmOld = s.hbmOld := rfl
@[simp] theorem State.modGang_llc (s : State) (k : Nat) (f : Gang → Gang) : (s.modGang k f).llc = s.llc := rfl
@[simp] theorem State.modGang_llcFills (s : State) (k : Nat) (f : Gang → Gang) : (s.modGang k f).llcFills = s.llcFills := rfl
@[simp] theorem State.modGang_poisonLines (s : State) (k : Nat) (f : Gang → Gang) : (s.modGang k f).poisonLines = s.poisonLines := rfl
@[simp] theorem State.modGang_spoiled (s : State) (k : Nat) (f : Gang → Gang) : (s.modGang k f).spoiled = s.spoiled := rfl
@[simp] theorem State.modGang_cur (s : State) (k : Nat) (f : Gang → Gang) : (s.modGang k f).cur = s.cur := rfl
@[simp] theorem State.modGang_agenda (s : State) (k : Nat) (f : Gang → Gang) : (s.modGang k f).agenda = s.agenda := rfl
@[simp] theorem State.modGang_fresh (s : State) (k : Nat) (f : Gang → Gang) : (s.modGang k f).fresh = s.fresh := rfl

/-! ## modTeam -/
@[simp] theorem State.modTeam_fused (s : State) (k : Nat) (f : Team → Team) : (s.modTeam k f).fused = s.fused := rfl
@[simp] theorem State.modTeam_boot (s : State) (k : Nat) (f : Team → Team) : (s.modTeam k f).boot = s.boot := rfl
@[simp] theorem State.modTeam_hc (s : State) (k : Nat) (f : Team → Team) : (s.modTeam k f).hc = s.hc := rfl
@[simp] theorem State.modTeam_lastSweep (s : State) (k : Nat) (f : Team → Team) : (s.modTeam k f).lastSweep = s.lastSweep := rfl
@[simp] theorem State.modTeam_counters (s : State) (k : Nat) (f : Team → Team) : (s.modTeam k f).counters = s.counters := rfl
@[simp] theorem State.modTeam_scls (s : State) (k : Nat) (f : Team → Team) : (s.modTeam k f).scls = s.scls := rfl
@[simp] theorem State.modTeam_ctxs (s : State) (k : Nat) (f : Team → Team) : (s.modTeam k f).ctxs = s.ctxs := rfl
@[simp] theorem State.modTeam_freedAt (s : State) (k : Nat) (f : Team → Team) : (s.modTeam k f).freedAt = s.freedAt := rfl
@[simp] theorem State.modTeam_queues (s : State) (k : Nat) (f : Team → Team) : (s.modTeam k f).queues = s.queues := rfl
@[simp] theorem State.modTeam_placer (s : State) (k : Nat) (f : Team → Team) : (s.modTeam k f).placer = s.placer := rfl
@[simp] theorem State.modTeam_disp (s : State) (k : Nat) (f : Team → Team) : (s.modTeam k f).disp = s.disp := rfl
@[simp] theorem State.modTeam_grids (s : State) (k : Nat) (f : Team → Team) : (s.modTeam k f).grids = s.grids := rfl
@[simp] theorem State.modTeam_gangs (s : State) (k : Nat) (f : Team → Team) : (s.modTeam k f).gangs = s.gangs := rfl
@[simp] theorem State.modTeam_warps (s : State) (k : Nat) (f : Team → Team) : (s.modTeam k f).warps = s.warps := rfl
@[simp] theorem State.modTeam_bars (s : State) (k : Nat) (f : Team → Team) : (s.modTeam k f).bars = s.bars := rfl
@[simp] theorem State.modTeam_arrivals (s : State) (k : Nat) (f : Team → Team) : (s.modTeam k f).arrivals = s.arrivals := rfl
@[simp] theorem State.modTeam_exits (s : State) (k : Nat) (f : Team → Team) : (s.modTeam k f).exits = s.exits := rfl
@[simp] theorem State.modTeam_flight (s : State) (k : Nat) (f : Team → Team) : (s.modTeam k f).flight = s.flight := rfl
@[simp] theorem State.modTeam_cores (s : State) (k : Nat) (f : Team → Team) : (s.modTeam k f).cores = s.cores := rfl
@[simp] theorem State.modTeam_clusters (s : State) (k : Nat) (f : Team → Team) : (s.modTeam k f).clusters = s.clusters := rfl
@[simp] theorem State.modTeam_dies (s : State) (k : Nat) (f : Team → Team) : (s.modTeam k f).dies = s.dies := rfl
@[simp] theorem State.modTeam_power (s : State) (k : Nat) (f : Team → Team) : (s.modTeam k f).power = s.power := rfl
@[simp] theorem State.modTeam_mloops (s : State) (k : Nat) (f : Team → Team) : (s.modTeam k f).mloops = s.mloops := rfl
@[simp] theorem State.modTeam_ops (s : State) (k : Nat) (f : Team → Team) : (s.modTeam k f).ops = s.ops := rfl
@[simp] theorem State.modTeam_groups (s : State) (k : Nat) (f : Team → Team) : (s.modTeam k f).groups = s.groups := rfl
@[simp] theorem State.modTeam_svcRing (s : State) (k : Nat) (f : Team → Team) : (s.modTeam k f).svcRing = s.svcRing := rfl
@[simp] theorem State.modTeam_errs (s : State) (k : Nat) (f : Team → Team) : (s.modTeam k f).errs = s.errs := rfl
@[simp] theorem State.modTeam_paging (s : State) (k : Nat) (f : Team → Team) : (s.modTeam k f).paging = s.paging := rfl
@[simp] theorem State.modTeam_pool (s : State) (k : Nat) (f : Team → Team) : (s.modTeam k f).pool = s.pool := rfl
@[simp] theorem State.modTeam_links (s : State) (k : Nat) (f : Team → Team) : (s.modTeam k f).links = s.links := rfl
@[simp] theorem State.modTeam_routes (s : State) (k : Nat) (f : Team → Team) : (s.modTeam k f).routes = s.routes := rfl
@[simp] theorem State.modTeam_acts (s : State) (k : Nat) (f : Team → Team) : (s.modTeam k f).acts = s.acts := rfl
@[simp] theorem State.modTeam_host (s : State) (k : Nat) (f : Team → Team) : (s.modTeam k f).host = s.host := rfl
@[simp] theorem State.modTeam_mem (s : State) (k : Nat) (f : Team → Team) : (s.modTeam k f).mem = s.mem := rfl
@[simp] theorem State.modTeam_hbmOld (s : State) (k : Nat) (f : Team → Team) : (s.modTeam k f).hbmOld = s.hbmOld := rfl
@[simp] theorem State.modTeam_llc (s : State) (k : Nat) (f : Team → Team) : (s.modTeam k f).llc = s.llc := rfl
@[simp] theorem State.modTeam_llcFills (s : State) (k : Nat) (f : Team → Team) : (s.modTeam k f).llcFills = s.llcFills := rfl
@[simp] theorem State.modTeam_poisonLines (s : State) (k : Nat) (f : Team → Team) : (s.modTeam k f).poisonLines = s.poisonLines := rfl
@[simp] theorem State.modTeam_spoiled (s : State) (k : Nat) (f : Team → Team) : (s.modTeam k f).spoiled = s.spoiled := rfl
@[simp] theorem State.modTeam_cur (s : State) (k : Nat) (f : Team → Team) : (s.modTeam k f).cur = s.cur := rfl
@[simp] theorem State.modTeam_agenda (s : State) (k : Nat) (f : Team → Team) : (s.modTeam k f).agenda = s.agenda := rfl
@[simp] theorem State.modTeam_fresh (s : State) (k : Nat) (f : Team → Team) : (s.modTeam k f).fresh = s.fresh := rfl

/-! ## modGrid -/
@[simp] theorem State.modGrid_fused (s : State) (k : Word) (f : Grid → Grid) : (s.modGrid k f).fused = s.fused := rfl
@[simp] theorem State.modGrid_boot (s : State) (k : Word) (f : Grid → Grid) : (s.modGrid k f).boot = s.boot := rfl
@[simp] theorem State.modGrid_hc (s : State) (k : Word) (f : Grid → Grid) : (s.modGrid k f).hc = s.hc := rfl
@[simp] theorem State.modGrid_lastSweep (s : State) (k : Word) (f : Grid → Grid) : (s.modGrid k f).lastSweep = s.lastSweep := rfl
@[simp] theorem State.modGrid_counters (s : State) (k : Word) (f : Grid → Grid) : (s.modGrid k f).counters = s.counters := rfl
@[simp] theorem State.modGrid_scls (s : State) (k : Word) (f : Grid → Grid) : (s.modGrid k f).scls = s.scls := rfl
@[simp] theorem State.modGrid_ctxs (s : State) (k : Word) (f : Grid → Grid) : (s.modGrid k f).ctxs = s.ctxs := rfl
@[simp] theorem State.modGrid_freedAt (s : State) (k : Word) (f : Grid → Grid) : (s.modGrid k f).freedAt = s.freedAt := rfl
@[simp] theorem State.modGrid_queues (s : State) (k : Word) (f : Grid → Grid) : (s.modGrid k f).queues = s.queues := rfl
@[simp] theorem State.modGrid_placer (s : State) (k : Word) (f : Grid → Grid) : (s.modGrid k f).placer = s.placer := rfl
@[simp] theorem State.modGrid_disp (s : State) (k : Word) (f : Grid → Grid) : (s.modGrid k f).disp = s.disp := rfl
@[simp] theorem State.modGrid_gangs (s : State) (k : Word) (f : Grid → Grid) : (s.modGrid k f).gangs = s.gangs := rfl
@[simp] theorem State.modGrid_teams (s : State) (k : Word) (f : Grid → Grid) : (s.modGrid k f).teams = s.teams := rfl
@[simp] theorem State.modGrid_warps (s : State) (k : Word) (f : Grid → Grid) : (s.modGrid k f).warps = s.warps := rfl
@[simp] theorem State.modGrid_bars (s : State) (k : Word) (f : Grid → Grid) : (s.modGrid k f).bars = s.bars := rfl
@[simp] theorem State.modGrid_arrivals (s : State) (k : Word) (f : Grid → Grid) : (s.modGrid k f).arrivals = s.arrivals := rfl
@[simp] theorem State.modGrid_exits (s : State) (k : Word) (f : Grid → Grid) : (s.modGrid k f).exits = s.exits := rfl
@[simp] theorem State.modGrid_flight (s : State) (k : Word) (f : Grid → Grid) : (s.modGrid k f).flight = s.flight := rfl
@[simp] theorem State.modGrid_cores (s : State) (k : Word) (f : Grid → Grid) : (s.modGrid k f).cores = s.cores := rfl
@[simp] theorem State.modGrid_clusters (s : State) (k : Word) (f : Grid → Grid) : (s.modGrid k f).clusters = s.clusters := rfl
@[simp] theorem State.modGrid_dies (s : State) (k : Word) (f : Grid → Grid) : (s.modGrid k f).dies = s.dies := rfl
@[simp] theorem State.modGrid_power (s : State) (k : Word) (f : Grid → Grid) : (s.modGrid k f).power = s.power := rfl
@[simp] theorem State.modGrid_mloops (s : State) (k : Word) (f : Grid → Grid) : (s.modGrid k f).mloops = s.mloops := rfl
@[simp] theorem State.modGrid_ops (s : State) (k : Word) (f : Grid → Grid) : (s.modGrid k f).ops = s.ops := rfl
@[simp] theorem State.modGrid_groups (s : State) (k : Word) (f : Grid → Grid) : (s.modGrid k f).groups = s.groups := rfl
@[simp] theorem State.modGrid_svcRing (s : State) (k : Word) (f : Grid → Grid) : (s.modGrid k f).svcRing = s.svcRing := rfl
@[simp] theorem State.modGrid_errs (s : State) (k : Word) (f : Grid → Grid) : (s.modGrid k f).errs = s.errs := rfl
@[simp] theorem State.modGrid_paging (s : State) (k : Word) (f : Grid → Grid) : (s.modGrid k f).paging = s.paging := rfl
@[simp] theorem State.modGrid_pool (s : State) (k : Word) (f : Grid → Grid) : (s.modGrid k f).pool = s.pool := rfl
@[simp] theorem State.modGrid_links (s : State) (k : Word) (f : Grid → Grid) : (s.modGrid k f).links = s.links := rfl
@[simp] theorem State.modGrid_routes (s : State) (k : Word) (f : Grid → Grid) : (s.modGrid k f).routes = s.routes := rfl
@[simp] theorem State.modGrid_acts (s : State) (k : Word) (f : Grid → Grid) : (s.modGrid k f).acts = s.acts := rfl
@[simp] theorem State.modGrid_host (s : State) (k : Word) (f : Grid → Grid) : (s.modGrid k f).host = s.host := rfl
@[simp] theorem State.modGrid_mem (s : State) (k : Word) (f : Grid → Grid) : (s.modGrid k f).mem = s.mem := rfl
@[simp] theorem State.modGrid_hbmOld (s : State) (k : Word) (f : Grid → Grid) : (s.modGrid k f).hbmOld = s.hbmOld := rfl
@[simp] theorem State.modGrid_llc (s : State) (k : Word) (f : Grid → Grid) : (s.modGrid k f).llc = s.llc := rfl
@[simp] theorem State.modGrid_llcFills (s : State) (k : Word) (f : Grid → Grid) : (s.modGrid k f).llcFills = s.llcFills := rfl
@[simp] theorem State.modGrid_poisonLines (s : State) (k : Word) (f : Grid → Grid) : (s.modGrid k f).poisonLines = s.poisonLines := rfl
@[simp] theorem State.modGrid_spoiled (s : State) (k : Word) (f : Grid → Grid) : (s.modGrid k f).spoiled = s.spoiled := rfl
@[simp] theorem State.modGrid_cur (s : State) (k : Word) (f : Grid → Grid) : (s.modGrid k f).cur = s.cur := rfl
@[simp] theorem State.modGrid_agenda (s : State) (k : Word) (f : Grid → Grid) : (s.modGrid k f).agenda = s.agenda := rfl
@[simp] theorem State.modGrid_fresh (s : State) (k : Word) (f : Grid → Grid) : (s.modGrid k f).fresh = s.fresh := rfl

/-! ## modCtx -/
@[simp] theorem State.modCtx_fused (s : State) (k : Nat) (f : Ctx → Ctx) : (s.modCtx k f).fused = s.fused := rfl
@[simp] theorem State.modCtx_boot (s : State) (k : Nat) (f : Ctx → Ctx) : (s.modCtx k f).boot = s.boot := rfl
@[simp] theorem State.modCtx_hc (s : State) (k : Nat) (f : Ctx → Ctx) : (s.modCtx k f).hc = s.hc := rfl
@[simp] theorem State.modCtx_lastSweep (s : State) (k : Nat) (f : Ctx → Ctx) : (s.modCtx k f).lastSweep = s.lastSweep := rfl
@[simp] theorem State.modCtx_counters (s : State) (k : Nat) (f : Ctx → Ctx) : (s.modCtx k f).counters = s.counters := rfl
@[simp] theorem State.modCtx_scls (s : State) (k : Nat) (f : Ctx → Ctx) : (s.modCtx k f).scls = s.scls := rfl
@[simp] theorem State.modCtx_freedAt (s : State) (k : Nat) (f : Ctx → Ctx) : (s.modCtx k f).freedAt = s.freedAt := rfl
@[simp] theorem State.modCtx_queues (s : State) (k : Nat) (f : Ctx → Ctx) : (s.modCtx k f).queues = s.queues := rfl
@[simp] theorem State.modCtx_placer (s : State) (k : Nat) (f : Ctx → Ctx) : (s.modCtx k f).placer = s.placer := rfl
@[simp] theorem State.modCtx_disp (s : State) (k : Nat) (f : Ctx → Ctx) : (s.modCtx k f).disp = s.disp := rfl
@[simp] theorem State.modCtx_grids (s : State) (k : Nat) (f : Ctx → Ctx) : (s.modCtx k f).grids = s.grids := rfl
@[simp] theorem State.modCtx_gangs (s : State) (k : Nat) (f : Ctx → Ctx) : (s.modCtx k f).gangs = s.gangs := rfl
@[simp] theorem State.modCtx_teams (s : State) (k : Nat) (f : Ctx → Ctx) : (s.modCtx k f).teams = s.teams := rfl
@[simp] theorem State.modCtx_warps (s : State) (k : Nat) (f : Ctx → Ctx) : (s.modCtx k f).warps = s.warps := rfl
@[simp] theorem State.modCtx_bars (s : State) (k : Nat) (f : Ctx → Ctx) : (s.modCtx k f).bars = s.bars := rfl
@[simp] theorem State.modCtx_arrivals (s : State) (k : Nat) (f : Ctx → Ctx) : (s.modCtx k f).arrivals = s.arrivals := rfl
@[simp] theorem State.modCtx_exits (s : State) (k : Nat) (f : Ctx → Ctx) : (s.modCtx k f).exits = s.exits := rfl
@[simp] theorem State.modCtx_flight (s : State) (k : Nat) (f : Ctx → Ctx) : (s.modCtx k f).flight = s.flight := rfl
@[simp] theorem State.modCtx_cores (s : State) (k : Nat) (f : Ctx → Ctx) : (s.modCtx k f).cores = s.cores := rfl
@[simp] theorem State.modCtx_clusters (s : State) (k : Nat) (f : Ctx → Ctx) : (s.modCtx k f).clusters = s.clusters := rfl
@[simp] theorem State.modCtx_dies (s : State) (k : Nat) (f : Ctx → Ctx) : (s.modCtx k f).dies = s.dies := rfl
@[simp] theorem State.modCtx_power (s : State) (k : Nat) (f : Ctx → Ctx) : (s.modCtx k f).power = s.power := rfl
@[simp] theorem State.modCtx_mloops (s : State) (k : Nat) (f : Ctx → Ctx) : (s.modCtx k f).mloops = s.mloops := rfl
@[simp] theorem State.modCtx_ops (s : State) (k : Nat) (f : Ctx → Ctx) : (s.modCtx k f).ops = s.ops := rfl
@[simp] theorem State.modCtx_groups (s : State) (k : Nat) (f : Ctx → Ctx) : (s.modCtx k f).groups = s.groups := rfl
@[simp] theorem State.modCtx_svcRing (s : State) (k : Nat) (f : Ctx → Ctx) : (s.modCtx k f).svcRing = s.svcRing := rfl
@[simp] theorem State.modCtx_errs (s : State) (k : Nat) (f : Ctx → Ctx) : (s.modCtx k f).errs = s.errs := rfl
@[simp] theorem State.modCtx_paging (s : State) (k : Nat) (f : Ctx → Ctx) : (s.modCtx k f).paging = s.paging := rfl
@[simp] theorem State.modCtx_pool (s : State) (k : Nat) (f : Ctx → Ctx) : (s.modCtx k f).pool = s.pool := rfl
@[simp] theorem State.modCtx_links (s : State) (k : Nat) (f : Ctx → Ctx) : (s.modCtx k f).links = s.links := rfl
@[simp] theorem State.modCtx_routes (s : State) (k : Nat) (f : Ctx → Ctx) : (s.modCtx k f).routes = s.routes := rfl
@[simp] theorem State.modCtx_acts (s : State) (k : Nat) (f : Ctx → Ctx) : (s.modCtx k f).acts = s.acts := rfl
@[simp] theorem State.modCtx_host (s : State) (k : Nat) (f : Ctx → Ctx) : (s.modCtx k f).host = s.host := rfl
@[simp] theorem State.modCtx_mem (s : State) (k : Nat) (f : Ctx → Ctx) : (s.modCtx k f).mem = s.mem := rfl
@[simp] theorem State.modCtx_hbmOld (s : State) (k : Nat) (f : Ctx → Ctx) : (s.modCtx k f).hbmOld = s.hbmOld := rfl
@[simp] theorem State.modCtx_llc (s : State) (k : Nat) (f : Ctx → Ctx) : (s.modCtx k f).llc = s.llc := rfl
@[simp] theorem State.modCtx_llcFills (s : State) (k : Nat) (f : Ctx → Ctx) : (s.modCtx k f).llcFills = s.llcFills := rfl
@[simp] theorem State.modCtx_poisonLines (s : State) (k : Nat) (f : Ctx → Ctx) : (s.modCtx k f).poisonLines = s.poisonLines := rfl
@[simp] theorem State.modCtx_spoiled (s : State) (k : Nat) (f : Ctx → Ctx) : (s.modCtx k f).spoiled = s.spoiled := rfl
@[simp] theorem State.modCtx_cur (s : State) (k : Nat) (f : Ctx → Ctx) : (s.modCtx k f).cur = s.cur := rfl
@[simp] theorem State.modCtx_agenda (s : State) (k : Nat) (f : Ctx → Ctx) : (s.modCtx k f).agenda = s.agenda := rfl
@[simp] theorem State.modCtx_fresh (s : State) (k : Nat) (f : Ctx → Ctx) : (s.modCtx k f).fresh = s.fresh := rfl

/-! ## modQueue -/
@[simp] theorem State.modQueue_fused (s : State) (k : Nat) (f : Queue → Queue) : (s.modQueue k f).fused = s.fused := rfl
@[simp] theorem State.modQueue_boot (s : State) (k : Nat) (f : Queue → Queue) : (s.modQueue k f).boot = s.boot := rfl
@[simp] theorem State.modQueue_hc (s : State) (k : Nat) (f : Queue → Queue) : (s.modQueue k f).hc = s.hc := rfl
@[simp] theorem State.modQueue_lastSweep (s : State) (k : Nat) (f : Queue → Queue) : (s.modQueue k f).lastSweep = s.lastSweep := rfl
@[simp] theorem State.modQueue_counters (s : State) (k : Nat) (f : Queue → Queue) : (s.modQueue k f).counters = s.counters := rfl
@[simp] theorem State.modQueue_scls (s : State) (k : Nat) (f : Queue → Queue) : (s.modQueue k f).scls = s.scls := rfl
@[simp] theorem State.modQueue_ctxs (s : State) (k : Nat) (f : Queue → Queue) : (s.modQueue k f).ctxs = s.ctxs := rfl
@[simp] theorem State.modQueue_freedAt (s : State) (k : Nat) (f : Queue → Queue) : (s.modQueue k f).freedAt = s.freedAt := rfl
@[simp] theorem State.modQueue_placer (s : State) (k : Nat) (f : Queue → Queue) : (s.modQueue k f).placer = s.placer := rfl
@[simp] theorem State.modQueue_disp (s : State) (k : Nat) (f : Queue → Queue) : (s.modQueue k f).disp = s.disp := rfl
@[simp] theorem State.modQueue_grids (s : State) (k : Nat) (f : Queue → Queue) : (s.modQueue k f).grids = s.grids := rfl
@[simp] theorem State.modQueue_gangs (s : State) (k : Nat) (f : Queue → Queue) : (s.modQueue k f).gangs = s.gangs := rfl
@[simp] theorem State.modQueue_teams (s : State) (k : Nat) (f : Queue → Queue) : (s.modQueue k f).teams = s.teams := rfl
@[simp] theorem State.modQueue_warps (s : State) (k : Nat) (f : Queue → Queue) : (s.modQueue k f).warps = s.warps := rfl
@[simp] theorem State.modQueue_bars (s : State) (k : Nat) (f : Queue → Queue) : (s.modQueue k f).bars = s.bars := rfl
@[simp] theorem State.modQueue_arrivals (s : State) (k : Nat) (f : Queue → Queue) : (s.modQueue k f).arrivals = s.arrivals := rfl
@[simp] theorem State.modQueue_exits (s : State) (k : Nat) (f : Queue → Queue) : (s.modQueue k f).exits = s.exits := rfl
@[simp] theorem State.modQueue_flight (s : State) (k : Nat) (f : Queue → Queue) : (s.modQueue k f).flight = s.flight := rfl
@[simp] theorem State.modQueue_cores (s : State) (k : Nat) (f : Queue → Queue) : (s.modQueue k f).cores = s.cores := rfl
@[simp] theorem State.modQueue_clusters (s : State) (k : Nat) (f : Queue → Queue) : (s.modQueue k f).clusters = s.clusters := rfl
@[simp] theorem State.modQueue_dies (s : State) (k : Nat) (f : Queue → Queue) : (s.modQueue k f).dies = s.dies := rfl
@[simp] theorem State.modQueue_power (s : State) (k : Nat) (f : Queue → Queue) : (s.modQueue k f).power = s.power := rfl
@[simp] theorem State.modQueue_mloops (s : State) (k : Nat) (f : Queue → Queue) : (s.modQueue k f).mloops = s.mloops := rfl
@[simp] theorem State.modQueue_ops (s : State) (k : Nat) (f : Queue → Queue) : (s.modQueue k f).ops = s.ops := rfl
@[simp] theorem State.modQueue_groups (s : State) (k : Nat) (f : Queue → Queue) : (s.modQueue k f).groups = s.groups := rfl
@[simp] theorem State.modQueue_svcRing (s : State) (k : Nat) (f : Queue → Queue) : (s.modQueue k f).svcRing = s.svcRing := rfl
@[simp] theorem State.modQueue_errs (s : State) (k : Nat) (f : Queue → Queue) : (s.modQueue k f).errs = s.errs := rfl
@[simp] theorem State.modQueue_paging (s : State) (k : Nat) (f : Queue → Queue) : (s.modQueue k f).paging = s.paging := rfl
@[simp] theorem State.modQueue_pool (s : State) (k : Nat) (f : Queue → Queue) : (s.modQueue k f).pool = s.pool := rfl
@[simp] theorem State.modQueue_links (s : State) (k : Nat) (f : Queue → Queue) : (s.modQueue k f).links = s.links := rfl
@[simp] theorem State.modQueue_routes (s : State) (k : Nat) (f : Queue → Queue) : (s.modQueue k f).routes = s.routes := rfl
@[simp] theorem State.modQueue_acts (s : State) (k : Nat) (f : Queue → Queue) : (s.modQueue k f).acts = s.acts := rfl
@[simp] theorem State.modQueue_host (s : State) (k : Nat) (f : Queue → Queue) : (s.modQueue k f).host = s.host := rfl
@[simp] theorem State.modQueue_mem (s : State) (k : Nat) (f : Queue → Queue) : (s.modQueue k f).mem = s.mem := rfl
@[simp] theorem State.modQueue_hbmOld (s : State) (k : Nat) (f : Queue → Queue) : (s.modQueue k f).hbmOld = s.hbmOld := rfl
@[simp] theorem State.modQueue_llc (s : State) (k : Nat) (f : Queue → Queue) : (s.modQueue k f).llc = s.llc := rfl
@[simp] theorem State.modQueue_llcFills (s : State) (k : Nat) (f : Queue → Queue) : (s.modQueue k f).llcFills = s.llcFills := rfl
@[simp] theorem State.modQueue_poisonLines (s : State) (k : Nat) (f : Queue → Queue) : (s.modQueue k f).poisonLines = s.poisonLines := rfl
@[simp] theorem State.modQueue_spoiled (s : State) (k : Nat) (f : Queue → Queue) : (s.modQueue k f).spoiled = s.spoiled := rfl
@[simp] theorem State.modQueue_cur (s : State) (k : Nat) (f : Queue → Queue) : (s.modQueue k f).cur = s.cur := rfl
@[simp] theorem State.modQueue_agenda (s : State) (k : Nat) (f : Queue → Queue) : (s.modQueue k f).agenda = s.agenda := rfl
@[simp] theorem State.modQueue_fresh (s : State) (k : Nat) (f : Queue → Queue) : (s.modQueue k f).fresh = s.fresh := rfl

/-! ## modLink -/
@[simp] theorem State.modLink_fused (s : State) (k : Nat) (f : LinkS → LinkS) : (s.modLink k f).fused = s.fused := rfl
@[simp] theorem State.modLink_boot (s : State) (k : Nat) (f : LinkS → LinkS) : (s.modLink k f).boot = s.boot := rfl
@[simp] theorem State.modLink_hc (s : State) (k : Nat) (f : LinkS → LinkS) : (s.modLink k f).hc = s.hc := rfl
@[simp] theorem State.modLink_lastSweep (s : State) (k : Nat) (f : LinkS → LinkS) : (s.modLink k f).lastSweep = s.lastSweep := rfl
@[simp] theorem State.modLink_counters (s : State) (k : Nat) (f : LinkS → LinkS) : (s.modLink k f).counters = s.counters := rfl
@[simp] theorem State.modLink_scls (s : State) (k : Nat) (f : LinkS → LinkS) : (s.modLink k f).scls = s.scls := rfl
@[simp] theorem State.modLink_ctxs (s : State) (k : Nat) (f : LinkS → LinkS) : (s.modLink k f).ctxs = s.ctxs := rfl
@[simp] theorem State.modLink_freedAt (s : State) (k : Nat) (f : LinkS → LinkS) : (s.modLink k f).freedAt = s.freedAt := rfl
@[simp] theorem State.modLink_queues (s : State) (k : Nat) (f : LinkS → LinkS) : (s.modLink k f).queues = s.queues := rfl
@[simp] theorem State.modLink_placer (s : State) (k : Nat) (f : LinkS → LinkS) : (s.modLink k f).placer = s.placer := rfl
@[simp] theorem State.modLink_disp (s : State) (k : Nat) (f : LinkS → LinkS) : (s.modLink k f).disp = s.disp := rfl
@[simp] theorem State.modLink_grids (s : State) (k : Nat) (f : LinkS → LinkS) : (s.modLink k f).grids = s.grids := rfl
@[simp] theorem State.modLink_gangs (s : State) (k : Nat) (f : LinkS → LinkS) : (s.modLink k f).gangs = s.gangs := rfl
@[simp] theorem State.modLink_teams (s : State) (k : Nat) (f : LinkS → LinkS) : (s.modLink k f).teams = s.teams := rfl
@[simp] theorem State.modLink_warps (s : State) (k : Nat) (f : LinkS → LinkS) : (s.modLink k f).warps = s.warps := rfl
@[simp] theorem State.modLink_bars (s : State) (k : Nat) (f : LinkS → LinkS) : (s.modLink k f).bars = s.bars := rfl
@[simp] theorem State.modLink_arrivals (s : State) (k : Nat) (f : LinkS → LinkS) : (s.modLink k f).arrivals = s.arrivals := rfl
@[simp] theorem State.modLink_exits (s : State) (k : Nat) (f : LinkS → LinkS) : (s.modLink k f).exits = s.exits := rfl
@[simp] theorem State.modLink_flight (s : State) (k : Nat) (f : LinkS → LinkS) : (s.modLink k f).flight = s.flight := rfl
@[simp] theorem State.modLink_cores (s : State) (k : Nat) (f : LinkS → LinkS) : (s.modLink k f).cores = s.cores := rfl
@[simp] theorem State.modLink_clusters (s : State) (k : Nat) (f : LinkS → LinkS) : (s.modLink k f).clusters = s.clusters := rfl
@[simp] theorem State.modLink_dies (s : State) (k : Nat) (f : LinkS → LinkS) : (s.modLink k f).dies = s.dies := rfl
@[simp] theorem State.modLink_power (s : State) (k : Nat) (f : LinkS → LinkS) : (s.modLink k f).power = s.power := rfl
@[simp] theorem State.modLink_mloops (s : State) (k : Nat) (f : LinkS → LinkS) : (s.modLink k f).mloops = s.mloops := rfl
@[simp] theorem State.modLink_ops (s : State) (k : Nat) (f : LinkS → LinkS) : (s.modLink k f).ops = s.ops := rfl
@[simp] theorem State.modLink_groups (s : State) (k : Nat) (f : LinkS → LinkS) : (s.modLink k f).groups = s.groups := rfl
@[simp] theorem State.modLink_svcRing (s : State) (k : Nat) (f : LinkS → LinkS) : (s.modLink k f).svcRing = s.svcRing := rfl
@[simp] theorem State.modLink_errs (s : State) (k : Nat) (f : LinkS → LinkS) : (s.modLink k f).errs = s.errs := rfl
@[simp] theorem State.modLink_paging (s : State) (k : Nat) (f : LinkS → LinkS) : (s.modLink k f).paging = s.paging := rfl
@[simp] theorem State.modLink_pool (s : State) (k : Nat) (f : LinkS → LinkS) : (s.modLink k f).pool = s.pool := rfl
@[simp] theorem State.modLink_routes (s : State) (k : Nat) (f : LinkS → LinkS) : (s.modLink k f).routes = s.routes := rfl
@[simp] theorem State.modLink_acts (s : State) (k : Nat) (f : LinkS → LinkS) : (s.modLink k f).acts = s.acts := rfl
@[simp] theorem State.modLink_host (s : State) (k : Nat) (f : LinkS → LinkS) : (s.modLink k f).host = s.host := rfl
@[simp] theorem State.modLink_mem (s : State) (k : Nat) (f : LinkS → LinkS) : (s.modLink k f).mem = s.mem := rfl
@[simp] theorem State.modLink_hbmOld (s : State) (k : Nat) (f : LinkS → LinkS) : (s.modLink k f).hbmOld = s.hbmOld := rfl
@[simp] theorem State.modLink_llc (s : State) (k : Nat) (f : LinkS → LinkS) : (s.modLink k f).llc = s.llc := rfl
@[simp] theorem State.modLink_llcFills (s : State) (k : Nat) (f : LinkS → LinkS) : (s.modLink k f).llcFills = s.llcFills := rfl
@[simp] theorem State.modLink_poisonLines (s : State) (k : Nat) (f : LinkS → LinkS) : (s.modLink k f).poisonLines = s.poisonLines := rfl
@[simp] theorem State.modLink_spoiled (s : State) (k : Nat) (f : LinkS → LinkS) : (s.modLink k f).spoiled = s.spoiled := rfl
@[simp] theorem State.modLink_cur (s : State) (k : Nat) (f : LinkS → LinkS) : (s.modLink k f).cur = s.cur := rfl
@[simp] theorem State.modLink_agenda (s : State) (k : Nat) (f : LinkS → LinkS) : (s.modLink k f).agenda = s.agenda := rfl
@[simp] theorem State.modLink_fresh (s : State) (k : Nat) (f : LinkS → LinkS) : (s.modLink k f).fresh = s.fresh := rfl

/-! ## modOp -/
@[simp] theorem State.modOp_fused (s : State) (k : Nat) (f : EngOp → EngOp) : (s.modOp k f).fused = s.fused := rfl
@[simp] theorem State.modOp_boot (s : State) (k : Nat) (f : EngOp → EngOp) : (s.modOp k f).boot = s.boot := rfl
@[simp] theorem State.modOp_hc (s : State) (k : Nat) (f : EngOp → EngOp) : (s.modOp k f).hc = s.hc := rfl
@[simp] theorem State.modOp_lastSweep (s : State) (k : Nat) (f : EngOp → EngOp) : (s.modOp k f).lastSweep = s.lastSweep := rfl
@[simp] theorem State.modOp_counters (s : State) (k : Nat) (f : EngOp → EngOp) : (s.modOp k f).counters = s.counters := rfl
@[simp] theorem State.modOp_scls (s : State) (k : Nat) (f : EngOp → EngOp) : (s.modOp k f).scls = s.scls := rfl
@[simp] theorem State.modOp_ctxs (s : State) (k : Nat) (f : EngOp → EngOp) : (s.modOp k f).ctxs = s.ctxs := rfl
@[simp] theorem State.modOp_freedAt (s : State) (k : Nat) (f : EngOp → EngOp) : (s.modOp k f).freedAt = s.freedAt := rfl
@[simp] theorem State.modOp_queues (s : State) (k : Nat) (f : EngOp → EngOp) : (s.modOp k f).queues = s.queues := rfl
@[simp] theorem State.modOp_placer (s : State) (k : Nat) (f : EngOp → EngOp) : (s.modOp k f).placer = s.placer := rfl
@[simp] theorem State.modOp_disp (s : State) (k : Nat) (f : EngOp → EngOp) : (s.modOp k f).disp = s.disp := rfl
@[simp] theorem State.modOp_grids (s : State) (k : Nat) (f : EngOp → EngOp) : (s.modOp k f).grids = s.grids := rfl
@[simp] theorem State.modOp_gangs (s : State) (k : Nat) (f : EngOp → EngOp) : (s.modOp k f).gangs = s.gangs := rfl
@[simp] theorem State.modOp_teams (s : State) (k : Nat) (f : EngOp → EngOp) : (s.modOp k f).teams = s.teams := rfl
@[simp] theorem State.modOp_warps (s : State) (k : Nat) (f : EngOp → EngOp) : (s.modOp k f).warps = s.warps := rfl
@[simp] theorem State.modOp_bars (s : State) (k : Nat) (f : EngOp → EngOp) : (s.modOp k f).bars = s.bars := rfl
@[simp] theorem State.modOp_arrivals (s : State) (k : Nat) (f : EngOp → EngOp) : (s.modOp k f).arrivals = s.arrivals := rfl
@[simp] theorem State.modOp_exits (s : State) (k : Nat) (f : EngOp → EngOp) : (s.modOp k f).exits = s.exits := rfl
@[simp] theorem State.modOp_flight (s : State) (k : Nat) (f : EngOp → EngOp) : (s.modOp k f).flight = s.flight := rfl
@[simp] theorem State.modOp_cores (s : State) (k : Nat) (f : EngOp → EngOp) : (s.modOp k f).cores = s.cores := rfl
@[simp] theorem State.modOp_clusters (s : State) (k : Nat) (f : EngOp → EngOp) : (s.modOp k f).clusters = s.clusters := rfl
@[simp] theorem State.modOp_dies (s : State) (k : Nat) (f : EngOp → EngOp) : (s.modOp k f).dies = s.dies := rfl
@[simp] theorem State.modOp_power (s : State) (k : Nat) (f : EngOp → EngOp) : (s.modOp k f).power = s.power := rfl
@[simp] theorem State.modOp_mloops (s : State) (k : Nat) (f : EngOp → EngOp) : (s.modOp k f).mloops = s.mloops := rfl
@[simp] theorem State.modOp_groups (s : State) (k : Nat) (f : EngOp → EngOp) : (s.modOp k f).groups = s.groups := rfl
@[simp] theorem State.modOp_svcRing (s : State) (k : Nat) (f : EngOp → EngOp) : (s.modOp k f).svcRing = s.svcRing := rfl
@[simp] theorem State.modOp_errs (s : State) (k : Nat) (f : EngOp → EngOp) : (s.modOp k f).errs = s.errs := rfl
@[simp] theorem State.modOp_paging (s : State) (k : Nat) (f : EngOp → EngOp) : (s.modOp k f).paging = s.paging := rfl
@[simp] theorem State.modOp_pool (s : State) (k : Nat) (f : EngOp → EngOp) : (s.modOp k f).pool = s.pool := rfl
@[simp] theorem State.modOp_links (s : State) (k : Nat) (f : EngOp → EngOp) : (s.modOp k f).links = s.links := rfl
@[simp] theorem State.modOp_routes (s : State) (k : Nat) (f : EngOp → EngOp) : (s.modOp k f).routes = s.routes := rfl
@[simp] theorem State.modOp_acts (s : State) (k : Nat) (f : EngOp → EngOp) : (s.modOp k f).acts = s.acts := rfl
@[simp] theorem State.modOp_host (s : State) (k : Nat) (f : EngOp → EngOp) : (s.modOp k f).host = s.host := rfl
@[simp] theorem State.modOp_mem (s : State) (k : Nat) (f : EngOp → EngOp) : (s.modOp k f).mem = s.mem := rfl
@[simp] theorem State.modOp_hbmOld (s : State) (k : Nat) (f : EngOp → EngOp) : (s.modOp k f).hbmOld = s.hbmOld := rfl
@[simp] theorem State.modOp_llc (s : State) (k : Nat) (f : EngOp → EngOp) : (s.modOp k f).llc = s.llc := rfl
@[simp] theorem State.modOp_llcFills (s : State) (k : Nat) (f : EngOp → EngOp) : (s.modOp k f).llcFills = s.llcFills := rfl
@[simp] theorem State.modOp_poisonLines (s : State) (k : Nat) (f : EngOp → EngOp) : (s.modOp k f).poisonLines = s.poisonLines := rfl
@[simp] theorem State.modOp_spoiled (s : State) (k : Nat) (f : EngOp → EngOp) : (s.modOp k f).spoiled = s.spoiled := rfl
@[simp] theorem State.modOp_cur (s : State) (k : Nat) (f : EngOp → EngOp) : (s.modOp k f).cur = s.cur := rfl
@[simp] theorem State.modOp_agenda (s : State) (k : Nat) (f : EngOp → EngOp) : (s.modOp k f).agenda = s.agenda := rfl
@[simp] theorem State.modOp_fresh (s : State) (k : Nat) (f : EngOp → EngOp) : (s.modOp k f).fresh = s.fresh := rfl

/-! ## modBar -/
@[simp] theorem State.modBar_fused (s : State) (k : Nat) (f : Bar → Bar) : (s.modBar k f).fused = s.fused := rfl
@[simp] theorem State.modBar_boot (s : State) (k : Nat) (f : Bar → Bar) : (s.modBar k f).boot = s.boot := rfl
@[simp] theorem State.modBar_hc (s : State) (k : Nat) (f : Bar → Bar) : (s.modBar k f).hc = s.hc := rfl
@[simp] theorem State.modBar_lastSweep (s : State) (k : Nat) (f : Bar → Bar) : (s.modBar k f).lastSweep = s.lastSweep := rfl
@[simp] theorem State.modBar_counters (s : State) (k : Nat) (f : Bar → Bar) : (s.modBar k f).counters = s.counters := rfl
@[simp] theorem State.modBar_scls (s : State) (k : Nat) (f : Bar → Bar) : (s.modBar k f).scls = s.scls := rfl
@[simp] theorem State.modBar_ctxs (s : State) (k : Nat) (f : Bar → Bar) : (s.modBar k f).ctxs = s.ctxs := rfl
@[simp] theorem State.modBar_freedAt (s : State) (k : Nat) (f : Bar → Bar) : (s.modBar k f).freedAt = s.freedAt := rfl
@[simp] theorem State.modBar_queues (s : State) (k : Nat) (f : Bar → Bar) : (s.modBar k f).queues = s.queues := rfl
@[simp] theorem State.modBar_placer (s : State) (k : Nat) (f : Bar → Bar) : (s.modBar k f).placer = s.placer := rfl
@[simp] theorem State.modBar_disp (s : State) (k : Nat) (f : Bar → Bar) : (s.modBar k f).disp = s.disp := rfl
@[simp] theorem State.modBar_grids (s : State) (k : Nat) (f : Bar → Bar) : (s.modBar k f).grids = s.grids := rfl
@[simp] theorem State.modBar_gangs (s : State) (k : Nat) (f : Bar → Bar) : (s.modBar k f).gangs = s.gangs := rfl
@[simp] theorem State.modBar_teams (s : State) (k : Nat) (f : Bar → Bar) : (s.modBar k f).teams = s.teams := rfl
@[simp] theorem State.modBar_warps (s : State) (k : Nat) (f : Bar → Bar) : (s.modBar k f).warps = s.warps := rfl
@[simp] theorem State.modBar_arrivals (s : State) (k : Nat) (f : Bar → Bar) : (s.modBar k f).arrivals = s.arrivals := rfl
@[simp] theorem State.modBar_exits (s : State) (k : Nat) (f : Bar → Bar) : (s.modBar k f).exits = s.exits := rfl
@[simp] theorem State.modBar_flight (s : State) (k : Nat) (f : Bar → Bar) : (s.modBar k f).flight = s.flight := rfl
@[simp] theorem State.modBar_cores (s : State) (k : Nat) (f : Bar → Bar) : (s.modBar k f).cores = s.cores := rfl
@[simp] theorem State.modBar_clusters (s : State) (k : Nat) (f : Bar → Bar) : (s.modBar k f).clusters = s.clusters := rfl
@[simp] theorem State.modBar_dies (s : State) (k : Nat) (f : Bar → Bar) : (s.modBar k f).dies = s.dies := rfl
@[simp] theorem State.modBar_power (s : State) (k : Nat) (f : Bar → Bar) : (s.modBar k f).power = s.power := rfl
@[simp] theorem State.modBar_mloops (s : State) (k : Nat) (f : Bar → Bar) : (s.modBar k f).mloops = s.mloops := rfl
@[simp] theorem State.modBar_ops (s : State) (k : Nat) (f : Bar → Bar) : (s.modBar k f).ops = s.ops := rfl
@[simp] theorem State.modBar_groups (s : State) (k : Nat) (f : Bar → Bar) : (s.modBar k f).groups = s.groups := rfl
@[simp] theorem State.modBar_svcRing (s : State) (k : Nat) (f : Bar → Bar) : (s.modBar k f).svcRing = s.svcRing := rfl
@[simp] theorem State.modBar_errs (s : State) (k : Nat) (f : Bar → Bar) : (s.modBar k f).errs = s.errs := rfl
@[simp] theorem State.modBar_paging (s : State) (k : Nat) (f : Bar → Bar) : (s.modBar k f).paging = s.paging := rfl
@[simp] theorem State.modBar_pool (s : State) (k : Nat) (f : Bar → Bar) : (s.modBar k f).pool = s.pool := rfl
@[simp] theorem State.modBar_links (s : State) (k : Nat) (f : Bar → Bar) : (s.modBar k f).links = s.links := rfl
@[simp] theorem State.modBar_routes (s : State) (k : Nat) (f : Bar → Bar) : (s.modBar k f).routes = s.routes := rfl
@[simp] theorem State.modBar_acts (s : State) (k : Nat) (f : Bar → Bar) : (s.modBar k f).acts = s.acts := rfl
@[simp] theorem State.modBar_host (s : State) (k : Nat) (f : Bar → Bar) : (s.modBar k f).host = s.host := rfl
@[simp] theorem State.modBar_mem (s : State) (k : Nat) (f : Bar → Bar) : (s.modBar k f).mem = s.mem := rfl
@[simp] theorem State.modBar_hbmOld (s : State) (k : Nat) (f : Bar → Bar) : (s.modBar k f).hbmOld = s.hbmOld := rfl
@[simp] theorem State.modBar_llc (s : State) (k : Nat) (f : Bar → Bar) : (s.modBar k f).llc = s.llc := rfl
@[simp] theorem State.modBar_llcFills (s : State) (k : Nat) (f : Bar → Bar) : (s.modBar k f).llcFills = s.llcFills := rfl
@[simp] theorem State.modBar_poisonLines (s : State) (k : Nat) (f : Bar → Bar) : (s.modBar k f).poisonLines = s.poisonLines := rfl
@[simp] theorem State.modBar_spoiled (s : State) (k : Nat) (f : Bar → Bar) : (s.modBar k f).spoiled = s.spoiled := rfl
@[simp] theorem State.modBar_cur (s : State) (k : Nat) (f : Bar → Bar) : (s.modBar k f).cur = s.cur := rfl
@[simp] theorem State.modBar_agenda (s : State) (k : Nat) (f : Bar → Bar) : (s.modBar k f).agenda = s.agenda := rfl
@[simp] theorem State.modBar_fresh (s : State) (k : Nat) (f : Bar → Bar) : (s.modBar k f).fresh = s.fresh := rfl

/-! ## memFill -/
@[simp] theorem State.memFill_fused (s : State) (loc : Nat) (bs : List Byte) : (s.memFill loc bs).fused = s.fused := rfl
@[simp] theorem State.memFill_boot (s : State) (loc : Nat) (bs : List Byte) : (s.memFill loc bs).boot = s.boot := rfl
@[simp] theorem State.memFill_hc (s : State) (loc : Nat) (bs : List Byte) : (s.memFill loc bs).hc = s.hc := rfl
@[simp] theorem State.memFill_lastSweep (s : State) (loc : Nat) (bs : List Byte) : (s.memFill loc bs).lastSweep = s.lastSweep := rfl
@[simp] theorem State.memFill_counters (s : State) (loc : Nat) (bs : List Byte) : (s.memFill loc bs).counters = s.counters := rfl
@[simp] theorem State.memFill_scls (s : State) (loc : Nat) (bs : List Byte) : (s.memFill loc bs).scls = s.scls := rfl
@[simp] theorem State.memFill_ctxs (s : State) (loc : Nat) (bs : List Byte) : (s.memFill loc bs).ctxs = s.ctxs := rfl
@[simp] theorem State.memFill_freedAt (s : State) (loc : Nat) (bs : List Byte) : (s.memFill loc bs).freedAt = s.freedAt := rfl
@[simp] theorem State.memFill_queues (s : State) (loc : Nat) (bs : List Byte) : (s.memFill loc bs).queues = s.queues := rfl
@[simp] theorem State.memFill_placer (s : State) (loc : Nat) (bs : List Byte) : (s.memFill loc bs).placer = s.placer := rfl
@[simp] theorem State.memFill_disp (s : State) (loc : Nat) (bs : List Byte) : (s.memFill loc bs).disp = s.disp := rfl
@[simp] theorem State.memFill_grids (s : State) (loc : Nat) (bs : List Byte) : (s.memFill loc bs).grids = s.grids := rfl
@[simp] theorem State.memFill_gangs (s : State) (loc : Nat) (bs : List Byte) : (s.memFill loc bs).gangs = s.gangs := rfl
@[simp] theorem State.memFill_teams (s : State) (loc : Nat) (bs : List Byte) : (s.memFill loc bs).teams = s.teams := rfl
@[simp] theorem State.memFill_warps (s : State) (loc : Nat) (bs : List Byte) : (s.memFill loc bs).warps = s.warps := rfl
@[simp] theorem State.memFill_bars (s : State) (loc : Nat) (bs : List Byte) : (s.memFill loc bs).bars = s.bars := rfl
@[simp] theorem State.memFill_arrivals (s : State) (loc : Nat) (bs : List Byte) : (s.memFill loc bs).arrivals = s.arrivals := rfl
@[simp] theorem State.memFill_exits (s : State) (loc : Nat) (bs : List Byte) : (s.memFill loc bs).exits = s.exits := rfl
@[simp] theorem State.memFill_flight (s : State) (loc : Nat) (bs : List Byte) : (s.memFill loc bs).flight = s.flight := rfl
@[simp] theorem State.memFill_cores (s : State) (loc : Nat) (bs : List Byte) : (s.memFill loc bs).cores = s.cores := rfl
@[simp] theorem State.memFill_clusters (s : State) (loc : Nat) (bs : List Byte) : (s.memFill loc bs).clusters = s.clusters := rfl
@[simp] theorem State.memFill_dies (s : State) (loc : Nat) (bs : List Byte) : (s.memFill loc bs).dies = s.dies := rfl
@[simp] theorem State.memFill_power (s : State) (loc : Nat) (bs : List Byte) : (s.memFill loc bs).power = s.power := rfl
@[simp] theorem State.memFill_mloops (s : State) (loc : Nat) (bs : List Byte) : (s.memFill loc bs).mloops = s.mloops := rfl
@[simp] theorem State.memFill_ops (s : State) (loc : Nat) (bs : List Byte) : (s.memFill loc bs).ops = s.ops := rfl
@[simp] theorem State.memFill_groups (s : State) (loc : Nat) (bs : List Byte) : (s.memFill loc bs).groups = s.groups := rfl
@[simp] theorem State.memFill_svcRing (s : State) (loc : Nat) (bs : List Byte) : (s.memFill loc bs).svcRing = s.svcRing := rfl
@[simp] theorem State.memFill_errs (s : State) (loc : Nat) (bs : List Byte) : (s.memFill loc bs).errs = s.errs := rfl
@[simp] theorem State.memFill_paging (s : State) (loc : Nat) (bs : List Byte) : (s.memFill loc bs).paging = s.paging := rfl
@[simp] theorem State.memFill_pool (s : State) (loc : Nat) (bs : List Byte) : (s.memFill loc bs).pool = s.pool := rfl
@[simp] theorem State.memFill_links (s : State) (loc : Nat) (bs : List Byte) : (s.memFill loc bs).links = s.links := rfl
@[simp] theorem State.memFill_routes (s : State) (loc : Nat) (bs : List Byte) : (s.memFill loc bs).routes = s.routes := rfl
@[simp] theorem State.memFill_acts (s : State) (loc : Nat) (bs : List Byte) : (s.memFill loc bs).acts = s.acts := rfl
@[simp] theorem State.memFill_host (s : State) (loc : Nat) (bs : List Byte) : (s.memFill loc bs).host = s.host := rfl
@[simp] theorem State.memFill_hbmOld (s : State) (loc : Nat) (bs : List Byte) : (s.memFill loc bs).hbmOld = s.hbmOld := rfl
@[simp] theorem State.memFill_llc (s : State) (loc : Nat) (bs : List Byte) : (s.memFill loc bs).llc = s.llc := rfl
@[simp] theorem State.memFill_llcFills (s : State) (loc : Nat) (bs : List Byte) : (s.memFill loc bs).llcFills = s.llcFills := rfl
@[simp] theorem State.memFill_poisonLines (s : State) (loc : Nat) (bs : List Byte) : (s.memFill loc bs).poisonLines = s.poisonLines := rfl
@[simp] theorem State.memFill_spoiled (s : State) (loc : Nat) (bs : List Byte) : (s.memFill loc bs).spoiled = s.spoiled := rfl
@[simp] theorem State.memFill_cur (s : State) (loc : Nat) (bs : List Byte) : (s.memFill loc bs).cur = s.cur := rfl
@[simp] theorem State.memFill_agenda (s : State) (loc : Nat) (bs : List Byte) : (s.memFill loc bs).agenda = s.agenda := rfl
@[simp] theorem State.memFill_fresh (s : State) (loc : Nat) (bs : List Byte) : (s.memFill loc bs).fresh = s.fresh := rfl

/-! ## raiseCtx -/
@[simp] theorem State.raiseCtx_fused (s : State) (k : Nat) : (s.raiseCtx k).fused = s.fused := rfl
@[simp] theorem State.raiseCtx_boot (s : State) (k : Nat) : (s.raiseCtx k).boot = s.boot := rfl
@[simp] theorem State.raiseCtx_hc (s : State) (k : Nat) : (s.raiseCtx k).hc = s.hc := rfl
@[simp] theorem State.raiseCtx_lastSweep (s : State) (k : Nat) : (s.raiseCtx k).lastSweep = s.lastSweep := rfl
@[simp] theorem State.raiseCtx_counters (s : State) (k : Nat) : (s.raiseCtx k).counters = s.counters := rfl
@[simp] theorem State.raiseCtx_scls (s : State) (k : Nat) : (s.raiseCtx k).scls = s.scls := rfl
@[simp] theorem State.raiseCtx_freedAt (s : State) (k : Nat) : (s.raiseCtx k).freedAt = s.freedAt := rfl
@[simp] theorem State.raiseCtx_queues (s : State) (k : Nat) : (s.raiseCtx k).queues = s.queues := rfl
@[simp] theorem State.raiseCtx_placer (s : State) (k : Nat) : (s.raiseCtx k).placer = s.placer := rfl
@[simp] theorem State.raiseCtx_disp (s : State) (k : Nat) : (s.raiseCtx k).disp = s.disp := rfl
@[simp] theorem State.raiseCtx_grids (s : State) (k : Nat) : (s.raiseCtx k).grids = s.grids := rfl
@[simp] theorem State.raiseCtx_gangs (s : State) (k : Nat) : (s.raiseCtx k).gangs = s.gangs := rfl
@[simp] theorem State.raiseCtx_teams (s : State) (k : Nat) : (s.raiseCtx k).teams = s.teams := rfl
@[simp] theorem State.raiseCtx_warps (s : State) (k : Nat) : (s.raiseCtx k).warps = s.warps := rfl
@[simp] theorem State.raiseCtx_bars (s : State) (k : Nat) : (s.raiseCtx k).bars = s.bars := rfl
@[simp] theorem State.raiseCtx_arrivals (s : State) (k : Nat) : (s.raiseCtx k).arrivals = s.arrivals := rfl
@[simp] theorem State.raiseCtx_exits (s : State) (k : Nat) : (s.raiseCtx k).exits = s.exits := rfl
@[simp] theorem State.raiseCtx_flight (s : State) (k : Nat) : (s.raiseCtx k).flight = s.flight := rfl
@[simp] theorem State.raiseCtx_cores (s : State) (k : Nat) : (s.raiseCtx k).cores = s.cores := rfl
@[simp] theorem State.raiseCtx_clusters (s : State) (k : Nat) : (s.raiseCtx k).clusters = s.clusters := rfl
@[simp] theorem State.raiseCtx_dies (s : State) (k : Nat) : (s.raiseCtx k).dies = s.dies := rfl
@[simp] theorem State.raiseCtx_power (s : State) (k : Nat) : (s.raiseCtx k).power = s.power := rfl
@[simp] theorem State.raiseCtx_mloops (s : State) (k : Nat) : (s.raiseCtx k).mloops = s.mloops := rfl
@[simp] theorem State.raiseCtx_ops (s : State) (k : Nat) : (s.raiseCtx k).ops = s.ops := rfl
@[simp] theorem State.raiseCtx_groups (s : State) (k : Nat) : (s.raiseCtx k).groups = s.groups := rfl
@[simp] theorem State.raiseCtx_svcRing (s : State) (k : Nat) : (s.raiseCtx k).svcRing = s.svcRing := rfl
@[simp] theorem State.raiseCtx_errs (s : State) (k : Nat) : (s.raiseCtx k).errs = s.errs := rfl
@[simp] theorem State.raiseCtx_paging (s : State) (k : Nat) : (s.raiseCtx k).paging = s.paging := rfl
@[simp] theorem State.raiseCtx_pool (s : State) (k : Nat) : (s.raiseCtx k).pool = s.pool := rfl
@[simp] theorem State.raiseCtx_links (s : State) (k : Nat) : (s.raiseCtx k).links = s.links := rfl
@[simp] theorem State.raiseCtx_routes (s : State) (k : Nat) : (s.raiseCtx k).routes = s.routes := rfl
@[simp] theorem State.raiseCtx_acts (s : State) (k : Nat) : (s.raiseCtx k).acts = s.acts := rfl
@[simp] theorem State.raiseCtx_host (s : State) (k : Nat) : (s.raiseCtx k).host = s.host := rfl
@[simp] theorem State.raiseCtx_mem (s : State) (k : Nat) : (s.raiseCtx k).mem = s.mem := rfl
@[simp] theorem State.raiseCtx_hbmOld (s : State) (k : Nat) : (s.raiseCtx k).hbmOld = s.hbmOld := rfl
@[simp] theorem State.raiseCtx_llc (s : State) (k : Nat) : (s.raiseCtx k).llc = s.llc := rfl
@[simp] theorem State.raiseCtx_llcFills (s : State) (k : Nat) : (s.raiseCtx k).llcFills = s.llcFills := rfl
@[simp] theorem State.raiseCtx_poisonLines (s : State) (k : Nat) : (s.raiseCtx k).poisonLines = s.poisonLines := rfl
@[simp] theorem State.raiseCtx_spoiled (s : State) (k : Nat) : (s.raiseCtx k).spoiled = s.spoiled := rfl
@[simp] theorem State.raiseCtx_cur (s : State) (k : Nat) : (s.raiseCtx k).cur = s.cur := rfl
@[simp] theorem State.raiseCtx_agenda (s : State) (k : Nat) : (s.raiseCtx k).agenda = s.agenda := rfl
@[simp] theorem State.raiseCtx_fresh (s : State) (k : Nat) : (s.raiseCtx k).fresh = s.fresh := rfl

/-! ## retire -/
@[simp] theorem State.retire_fused (s : State) (i : Issue) : (s.retire i).fused = s.fused := rfl
@[simp] theorem State.retire_boot (s : State) (i : Issue) : (s.retire i).boot = s.boot := rfl
@[simp] theorem State.retire_hc (s : State) (i : Issue) : (s.retire i).hc = s.hc := rfl
@[simp] theorem State.retire_lastSweep (s : State) (i : Issue) : (s.retire i).lastSweep = s.lastSweep := rfl
@[simp] theorem State.retire_counters (s : State) (i : Issue) : (s.retire i).counters = s.counters := rfl
@[simp] theorem State.retire_scls (s : State) (i : Issue) : (s.retire i).scls = s.scls := rfl
@[simp] theorem State.retire_ctxs (s : State) (i : Issue) : (s.retire i).ctxs = s.ctxs := rfl
@[simp] theorem State.retire_freedAt (s : State) (i : Issue) : (s.retire i).freedAt = s.freedAt := rfl
@[simp] theorem State.retire_queues (s : State) (i : Issue) : (s.retire i).queues = s.queues := rfl
@[simp] theorem State.retire_placer (s : State) (i : Issue) : (s.retire i).placer = s.placer := rfl
@[simp] theorem State.retire_disp (s : State) (i : Issue) : (s.retire i).disp = s.disp := rfl
@[simp] theorem State.retire_grids (s : State) (i : Issue) : (s.retire i).grids = s.grids := rfl
@[simp] theorem State.retire_gangs (s : State) (i : Issue) : (s.retire i).gangs = s.gangs := rfl
@[simp] theorem State.retire_teams (s : State) (i : Issue) : (s.retire i).teams = s.teams := rfl
@[simp] theorem State.retire_bars (s : State) (i : Issue) : (s.retire i).bars = s.bars := rfl
@[simp] theorem State.retire_arrivals (s : State) (i : Issue) : (s.retire i).arrivals = s.arrivals := rfl
@[simp] theorem State.retire_exits (s : State) (i : Issue) : (s.retire i).exits = s.exits := rfl
@[simp] theorem State.retire_flight (s : State) (i : Issue) : (s.retire i).flight = s.flight := rfl
@[simp] theorem State.retire_cores (s : State) (i : Issue) : (s.retire i).cores = s.cores := rfl
@[simp] theorem State.retire_clusters (s : State) (i : Issue) : (s.retire i).clusters = s.clusters := rfl
@[simp] theorem State.retire_dies (s : State) (i : Issue) : (s.retire i).dies = s.dies := rfl
@[simp] theorem State.retire_power (s : State) (i : Issue) : (s.retire i).power = s.power := rfl
@[simp] theorem State.retire_mloops (s : State) (i : Issue) : (s.retire i).mloops = s.mloops := rfl
@[simp] theorem State.retire_ops (s : State) (i : Issue) : (s.retire i).ops = s.ops := rfl
@[simp] theorem State.retire_groups (s : State) (i : Issue) : (s.retire i).groups = s.groups := rfl
@[simp] theorem State.retire_svcRing (s : State) (i : Issue) : (s.retire i).svcRing = s.svcRing := rfl
@[simp] theorem State.retire_errs (s : State) (i : Issue) : (s.retire i).errs = s.errs := rfl
@[simp] theorem State.retire_paging (s : State) (i : Issue) : (s.retire i).paging = s.paging := rfl
@[simp] theorem State.retire_pool (s : State) (i : Issue) : (s.retire i).pool = s.pool := rfl
@[simp] theorem State.retire_links (s : State) (i : Issue) : (s.retire i).links = s.links := rfl
@[simp] theorem State.retire_routes (s : State) (i : Issue) : (s.retire i).routes = s.routes := rfl
@[simp] theorem State.retire_acts (s : State) (i : Issue) : (s.retire i).acts = s.acts := rfl
@[simp] theorem State.retire_host (s : State) (i : Issue) : (s.retire i).host = s.host := rfl
@[simp] theorem State.retire_mem (s : State) (i : Issue) : (s.retire i).mem = s.mem := rfl
@[simp] theorem State.retire_hbmOld (s : State) (i : Issue) : (s.retire i).hbmOld = s.hbmOld := rfl
@[simp] theorem State.retire_llc (s : State) (i : Issue) : (s.retire i).llc = s.llc := rfl
@[simp] theorem State.retire_llcFills (s : State) (i : Issue) : (s.retire i).llcFills = s.llcFills := rfl
@[simp] theorem State.retire_poisonLines (s : State) (i : Issue) : (s.retire i).poisonLines = s.poisonLines := rfl
@[simp] theorem State.retire_spoiled (s : State) (i : Issue) : (s.retire i).spoiled = s.spoiled := rfl
@[simp] theorem State.retire_cur (s : State) (i : Issue) : (s.retire i).cur = s.cur := rfl
@[simp] theorem State.retire_agenda (s : State) (i : Issue) : (s.retire i).agenda = s.agenda := rfl
@[simp] theorem State.retire_fresh (s : State) (i : Issue) : (s.retire i).fresh = s.fresh := rfl

/-! ## giveBack -/
@[simp] theorem State.giveBack_fused (s : State) : (s.giveBack ).fused = s.fused := rfl
@[simp] theorem State.giveBack_boot (s : State) : (s.giveBack ).boot = s.boot := rfl
@[simp] theorem State.giveBack_hc (s : State) : (s.giveBack ).hc = s.hc := rfl
@[simp] theorem State.giveBack_lastSweep (s : State) : (s.giveBack ).lastSweep = s.lastSweep := rfl
@[simp] theorem State.giveBack_counters (s : State) : (s.giveBack ).counters = s.counters := rfl
@[simp] theorem State.giveBack_scls (s : State) : (s.giveBack ).scls = s.scls := rfl
@[simp] theorem State.giveBack_ctxs (s : State) : (s.giveBack ).ctxs = s.ctxs := rfl
@[simp] theorem State.giveBack_freedAt (s : State) : (s.giveBack ).freedAt = s.freedAt := rfl
@[simp] theorem State.giveBack_queues (s : State) : (s.giveBack ).queues = s.queues := rfl
@[simp] theorem State.giveBack_placer (s : State) : (s.giveBack ).placer = s.placer := rfl
@[simp] theorem State.giveBack_disp (s : State) : (s.giveBack ).disp = s.disp := rfl
@[simp] theorem State.giveBack_grids (s : State) : (s.giveBack ).grids = s.grids := rfl
@[simp] theorem State.giveBack_gangs (s : State) : (s.giveBack ).gangs = s.gangs := rfl
@[simp] theorem State.giveBack_teams (s : State) : (s.giveBack ).teams = s.teams := rfl
@[simp] theorem State.giveBack_warps (s : State) : (s.giveBack ).warps = s.warps := rfl
@[simp] theorem State.giveBack_bars (s : State) : (s.giveBack ).bars = s.bars := rfl
@[simp] theorem State.giveBack_arrivals (s : State) : (s.giveBack ).arrivals = s.arrivals := rfl
@[simp] theorem State.giveBack_exits (s : State) : (s.giveBack ).exits = s.exits := rfl
@[simp] theorem State.giveBack_flight (s : State) : (s.giveBack ).flight = s.flight := rfl
@[simp] theorem State.giveBack_cores (s : State) : (s.giveBack ).cores = s.cores := rfl
@[simp] theorem State.giveBack_clusters (s : State) : (s.giveBack ).clusters = s.clusters := rfl
@[simp] theorem State.giveBack_dies (s : State) : (s.giveBack ).dies = s.dies := rfl
@[simp] theorem State.giveBack_power (s : State) : (s.giveBack ).power = s.power := rfl
@[simp] theorem State.giveBack_mloops (s : State) : (s.giveBack ).mloops = s.mloops := rfl
@[simp] theorem State.giveBack_ops (s : State) : (s.giveBack ).ops = s.ops := rfl
@[simp] theorem State.giveBack_groups (s : State) : (s.giveBack ).groups = s.groups := rfl
@[simp] theorem State.giveBack_svcRing (s : State) : (s.giveBack ).svcRing = s.svcRing := rfl
@[simp] theorem State.giveBack_errs (s : State) : (s.giveBack ).errs = s.errs := rfl
@[simp] theorem State.giveBack_paging (s : State) : (s.giveBack ).paging = s.paging := rfl
@[simp] theorem State.giveBack_pool (s : State) : (s.giveBack ).pool = s.pool := rfl
@[simp] theorem State.giveBack_links (s : State) : (s.giveBack ).links = s.links := rfl
@[simp] theorem State.giveBack_routes (s : State) : (s.giveBack ).routes = s.routes := rfl
@[simp] theorem State.giveBack_acts (s : State) : (s.giveBack ).acts = s.acts := rfl
@[simp] theorem State.giveBack_host (s : State) : (s.giveBack ).host = s.host := rfl
@[simp] theorem State.giveBack_mem (s : State) : (s.giveBack ).mem = s.mem := rfl
@[simp] theorem State.giveBack_hbmOld (s : State) : (s.giveBack ).hbmOld = s.hbmOld := rfl
@[simp] theorem State.giveBack_llc (s : State) : (s.giveBack ).llc = s.llc := rfl
@[simp] theorem State.giveBack_llcFills (s : State) : (s.giveBack ).llcFills = s.llcFills := rfl
@[simp] theorem State.giveBack_poisonLines (s : State) : (s.giveBack ).poisonLines = s.poisonLines := rfl
@[simp] theorem State.giveBack_spoiled (s : State) : (s.giveBack ).spoiled = s.spoiled := rfl
@[simp] theorem State.giveBack_agenda (s : State) : (s.giveBack ).agenda = s.agenda := rfl
@[simp] theorem State.giveBack_fresh (s : State) : (s.giveBack ).fresh = s.fresh := rfl

/-! ## tick -/
@[simp] theorem State.tick_fused (s : State) : (s.tick ).fused = s.fused := rfl
@[simp] theorem State.tick_boot (s : State) : (s.tick ).boot = s.boot := rfl
@[simp] theorem State.tick_hc (s : State) : (s.tick ).hc = s.hc := rfl
@[simp] theorem State.tick_lastSweep (s : State) : (s.tick ).lastSweep = s.lastSweep := rfl
@[simp] theorem State.tick_counters (s : State) : (s.tick ).counters = s.counters := rfl
@[simp] theorem State.tick_scls (s : State) : (s.tick ).scls = s.scls := rfl
@[simp] theorem State.tick_ctxs (s : State) : (s.tick ).ctxs = s.ctxs := rfl
@[simp] theorem State.tick_freedAt (s : State) : (s.tick ).freedAt = s.freedAt := rfl
@[simp] theorem State.tick_queues (s : State) : (s.tick ).queues = s.queues := rfl
@[simp] theorem State.tick_placer (s : State) : (s.tick ).placer = s.placer := rfl
@[simp] theorem State.tick_disp (s : State) : (s.tick ).disp = s.disp := rfl
@[simp] theorem State.tick_grids (s : State) : (s.tick ).grids = s.grids := rfl
@[simp] theorem State.tick_gangs (s : State) : (s.tick ).gangs = s.gangs := rfl
@[simp] theorem State.tick_teams (s : State) : (s.tick ).teams = s.teams := rfl
@[simp] theorem State.tick_warps (s : State) : (s.tick ).warps = s.warps := rfl
@[simp] theorem State.tick_bars (s : State) : (s.tick ).bars = s.bars := rfl
@[simp] theorem State.tick_arrivals (s : State) : (s.tick ).arrivals = s.arrivals := rfl
@[simp] theorem State.tick_exits (s : State) : (s.tick ).exits = s.exits := rfl
@[simp] theorem State.tick_flight (s : State) : (s.tick ).flight = s.flight := rfl
@[simp] theorem State.tick_cores (s : State) : (s.tick ).cores = s.cores := rfl
@[simp] theorem State.tick_clusters (s : State) : (s.tick ).clusters = s.clusters := rfl
@[simp] theorem State.tick_dies (s : State) : (s.tick ).dies = s.dies := rfl
@[simp] theorem State.tick_power (s : State) : (s.tick ).power = s.power := rfl
@[simp] theorem State.tick_mloops (s : State) : (s.tick ).mloops = s.mloops := rfl
@[simp] theorem State.tick_ops (s : State) : (s.tick ).ops = s.ops := rfl
@[simp] theorem State.tick_groups (s : State) : (s.tick ).groups = s.groups := rfl
@[simp] theorem State.tick_svcRing (s : State) : (s.tick ).svcRing = s.svcRing := rfl
@[simp] theorem State.tick_errs (s : State) : (s.tick ).errs = s.errs := rfl
@[simp] theorem State.tick_paging (s : State) : (s.tick ).paging = s.paging := rfl
@[simp] theorem State.tick_pool (s : State) : (s.tick ).pool = s.pool := rfl
@[simp] theorem State.tick_links (s : State) : (s.tick ).links = s.links := rfl
@[simp] theorem State.tick_routes (s : State) : (s.tick ).routes = s.routes := rfl
@[simp] theorem State.tick_acts (s : State) : (s.tick ).acts = s.acts := rfl
@[simp] theorem State.tick_host (s : State) : (s.tick ).host = s.host := rfl
@[simp] theorem State.tick_mem (s : State) : (s.tick ).mem = s.mem := rfl
@[simp] theorem State.tick_hbmOld (s : State) : (s.tick ).hbmOld = s.hbmOld := rfl
@[simp] theorem State.tick_llc (s : State) : (s.tick ).llc = s.llc := rfl
@[simp] theorem State.tick_llcFills (s : State) : (s.tick ).llcFills = s.llcFills := rfl
@[simp] theorem State.tick_poisonLines (s : State) : (s.tick ).poisonLines = s.poisonLines := rfl
@[simp] theorem State.tick_spoiled (s : State) : (s.tick ).spoiled = s.spoiled := rfl
@[simp] theorem State.tick_cur (s : State) : (s.tick ).cur = s.cur := rfl
@[simp] theorem State.tick_agenda (s : State) : (s.tick ).agenda = s.agenda := rfl

/-! ## Warp.setV -/
@[simp] theorem Warp.setV_team (w : Warp) (r lane : Nat) (x : Word) : (w.setV r lane x).team = w.team := rfl
@[simp] theorem Warp.setV_no (w : Warp) (r lane : Nat) (x : Word) : (w.setV r lane x).no = w.no := rfl
@[simp] theorem Warp.setV_slot (w : Warp) (r lane : Nat) (x : Word) : (w.setV r lane x).slot = w.slot := rfl
@[simp] theorem Warp.setV_gen (w : Warp) (r lane : Nat) (x : Word) : (w.setV r lane x).gen = w.gen := rfl
@[simp] theorem Warp.setV_va (w : Warp) (r lane : Nat) (x : Word) : (w.setV r lane x).va = w.va := rfl
@[simp] theorem Warp.setV_sa (w : Warp) (r lane : Nat) (x : Word) : (w.setV r lane x).sa = w.sa := rfl
@[simp] theorem Warp.setV_ta (w : Warp) (r lane : Nat) (x : Word) : (w.setV r lane x).ta = w.ta := rfl
@[simp] theorem Warp.setV_aa (w : Warp) (r lane : Nat) (x : Word) : (w.setV r lane x).aa = w.aa := rfl
@[simp] theorem Warp.setV_pcv (w : Warp) (r lane : Nat) (x : Word) : (w.setV r lane x).pcv = w.pcv := rfl
@[simp] theorem Warp.setV_exited (w : Warp) (r lane : Nat) (x : Word) : (w.setV r lane x).exited = w.exited := rfl
@[simp] theorem Warp.setV_demoted (w : Warp) (r lane : Nat) (x : Word) : (w.setV r lane x).demoted = w.demoted := rfl
@[simp] theorem Warp.setV_entering (w : Warp) (r lane : Nat) (x : Word) : (w.setV r lane x).entering = w.entering := rfl
@[simp] theorem Warp.setV_inside (w : Warp) (r lane : Nat) (x : Word) : (w.setV r lane x).inside = w.inside := rfl
@[simp] theorem Warp.setV_wake (w : Warp) (r lane : Nat) (x : Word) : (w.setV r lane x).wake = w.wake := rfl
@[simp] theorem Warp.setV_pins (w : Warp) (r lane : Nat) (x : Word) : (w.setV r lane x).pins = w.pins := rfl
@[simp] theorem Warp.setV_handler (w : Warp) (r lane : Nat) (x : Word) : (w.setV r lane x).handler = w.handler := rfl
@[simp] theorem Warp.setV_traps (w : Warp) (r lane : Nat) (x : Word) : (w.setV r lane x).traps = w.traps := rfl
@[simp] theorem Warp.setV_bpExempt (w : Warp) (r lane : Nat) (x : Word) : (w.setV r lane x).bpExempt = w.bpExempt := rfl
@[simp] theorem Warp.setV_fairTimer (w : Warp) (r lane : Nat) (x : Word) : (w.setV r lane x).fairTimer = w.fairTimer := rfl
@[simp] theorem Warp.setV_fairLeft (w : Warp) (r lane : Nat) (x : Word) : (w.setV r lane x).fairLeft = w.fairLeft := rfl
@[simp] theorem Warp.setV_fairPath (w : Warp) (r lane : Nat) (x : Word) : (w.setV r lane x).fairPath = w.fairPath := rfl
@[simp] theorem Warp.setV_fairNext (w : Warp) (r lane : Nat) (x : Word) : (w.setV r lane x).fairNext = w.fairNext := rfl
@[simp] theorem Warp.setV_yieldUntil (w : Warp) (r lane : Nat) (x : Word) : (w.setV r lane x).yieldUntil = w.yieldUntil := rfl
@[simp] theorem Warp.setV_tempoSince (w : Warp) (r lane : Nat) (x : Word) : (w.setV r lane x).tempoSince = w.tempoSince := rfl
@[simp] theorem Warp.setV_u (w : Warp) (r lane : Nat) (x : Word) : (w.setV r lane x).u = w.u := rfl
@[simp] theorem Warp.setV_p (w : Warp) (r lane : Nat) (x : Word) : (w.setV r lane x).p = w.p := rfl
@[simp] theorem Warp.setV_tiles (w : Warp) (r lane : Nat) (x : Word) : (w.setV r lane x).tiles = w.tiles := rfl
@[simp] theorem Warp.setV_accs (w : Warp) (r lane : Nat) (x : Word) : (w.setV r lane x).accs = w.accs := rfl
@[simp] theorem Warp.setV_laccs (w : Warp) (r lane : Nat) (x : Word) : (w.setV r lane x).laccs = w.laccs := rfl
@[simp] theorem Warp.setV_fut (w : Warp) (r lane : Nat) (x : Word) : (w.setV r lane x).fut = w.fut := rfl
@[simp] theorem Warp.setV_log (w : Warp) (r lane : Nat) (x : Word) : (w.setV r lane x).log = w.log := rfl
@[simp] theorem Warp.setV_fifo (w : Warp) (r lane : Nat) (x : Word) : (w.setV r lane x).fifo = w.fifo := rfl
@[simp] theorem Warp.setV_outClosed (w : Warp) (r lane : Nat) (x : Word) : (w.setV r lane x).outClosed = w.outClosed := rfl
@[simp] theorem Warp.setV_resv (w : Warp) (r lane : Nat) (x : Word) : (w.setV r lane x).resv = w.resv := rfl
@[simp] theorem Warp.setV_svcs (w : Warp) (r lane : Nat) (x : Word) : (w.setV r lane x).svcs = w.svcs := rfl
@[simp] theorem Warp.setV_held (w : Warp) (r lane : Nat) (x : Word) : (w.setV r lane x).held = w.held := rfl

/-! ## Warp.setU -/
@[simp] theorem Warp.setU_team (w : Warp) (r : Nat) (x : Word) : (w.setU r x).team = w.team := rfl
@[simp] theorem Warp.setU_no (w : Warp) (r : Nat) (x : Word) : (w.setU r x).no = w.no := rfl
@[simp] theorem Warp.setU_slot (w : Warp) (r : Nat) (x : Word) : (w.setU r x).slot = w.slot := rfl
@[simp] theorem Warp.setU_gen (w : Warp) (r : Nat) (x : Word) : (w.setU r x).gen = w.gen := rfl
@[simp] theorem Warp.setU_va (w : Warp) (r : Nat) (x : Word) : (w.setU r x).va = w.va := rfl
@[simp] theorem Warp.setU_sa (w : Warp) (r : Nat) (x : Word) : (w.setU r x).sa = w.sa := rfl
@[simp] theorem Warp.setU_ta (w : Warp) (r : Nat) (x : Word) : (w.setU r x).ta = w.ta := rfl
@[simp] theorem Warp.setU_aa (w : Warp) (r : Nat) (x : Word) : (w.setU r x).aa = w.aa := rfl
@[simp] theorem Warp.setU_pcv (w : Warp) (r : Nat) (x : Word) : (w.setU r x).pcv = w.pcv := rfl
@[simp] theorem Warp.setU_exited (w : Warp) (r : Nat) (x : Word) : (w.setU r x).exited = w.exited := rfl
@[simp] theorem Warp.setU_demoted (w : Warp) (r : Nat) (x : Word) : (w.setU r x).demoted = w.demoted := rfl
@[simp] theorem Warp.setU_entering (w : Warp) (r : Nat) (x : Word) : (w.setU r x).entering = w.entering := rfl
@[simp] theorem Warp.setU_inside (w : Warp) (r : Nat) (x : Word) : (w.setU r x).inside = w.inside := rfl
@[simp] theorem Warp.setU_wake (w : Warp) (r : Nat) (x : Word) : (w.setU r x).wake = w.wake := rfl
@[simp] theorem Warp.setU_pins (w : Warp) (r : Nat) (x : Word) : (w.setU r x).pins = w.pins := rfl
@[simp] theorem Warp.setU_handler (w : Warp) (r : Nat) (x : Word) : (w.setU r x).handler = w.handler := rfl
@[simp] theorem Warp.setU_traps (w : Warp) (r : Nat) (x : Word) : (w.setU r x).traps = w.traps := rfl
@[simp] theorem Warp.setU_bpExempt (w : Warp) (r : Nat) (x : Word) : (w.setU r x).bpExempt = w.bpExempt := rfl
@[simp] theorem Warp.setU_fairTimer (w : Warp) (r : Nat) (x : Word) : (w.setU r x).fairTimer = w.fairTimer := rfl
@[simp] theorem Warp.setU_fairLeft (w : Warp) (r : Nat) (x : Word) : (w.setU r x).fairLeft = w.fairLeft := rfl
@[simp] theorem Warp.setU_fairPath (w : Warp) (r : Nat) (x : Word) : (w.setU r x).fairPath = w.fairPath := rfl
@[simp] theorem Warp.setU_fairNext (w : Warp) (r : Nat) (x : Word) : (w.setU r x).fairNext = w.fairNext := rfl
@[simp] theorem Warp.setU_yieldUntil (w : Warp) (r : Nat) (x : Word) : (w.setU r x).yieldUntil = w.yieldUntil := rfl
@[simp] theorem Warp.setU_tempoSince (w : Warp) (r : Nat) (x : Word) : (w.setU r x).tempoSince = w.tempoSince := rfl
@[simp] theorem Warp.setU_v (w : Warp) (r : Nat) (x : Word) : (w.setU r x).v = w.v := rfl
@[simp] theorem Warp.setU_p (w : Warp) (r : Nat) (x : Word) : (w.setU r x).p = w.p := rfl
@[simp] theorem Warp.setU_tiles (w : Warp) (r : Nat) (x : Word) : (w.setU r x).tiles = w.tiles := rfl
@[simp] theorem Warp.setU_accs (w : Warp) (r : Nat) (x : Word) : (w.setU r x).accs = w.accs := rfl
@[simp] theorem Warp.setU_laccs (w : Warp) (r : Nat) (x : Word) : (w.setU r x).laccs = w.laccs := rfl
@[simp] theorem Warp.setU_fut (w : Warp) (r : Nat) (x : Word) : (w.setU r x).fut = w.fut := rfl
@[simp] theorem Warp.setU_log (w : Warp) (r : Nat) (x : Word) : (w.setU r x).log = w.log := rfl
@[simp] theorem Warp.setU_fifo (w : Warp) (r : Nat) (x : Word) : (w.setU r x).fifo = w.fifo := rfl
@[simp] theorem Warp.setU_outClosed (w : Warp) (r : Nat) (x : Word) : (w.setU r x).outClosed = w.outClosed := rfl
@[simp] theorem Warp.setU_resv (w : Warp) (r : Nat) (x : Word) : (w.setU r x).resv = w.resv := rfl
@[simp] theorem Warp.setU_svcs (w : Warp) (r : Nat) (x : Word) : (w.setU r x).svcs = w.svcs := rfl
@[simp] theorem Warp.setU_held (w : Warp) (r : Nat) (x : Word) : (w.setU r x).held = w.held := rfl

/-! ## Warp.setPcs -/
@[simp] theorem Warp.setPcs_team (w : Warp) (m : LaneMask) (x : Word) : (w.setPcs m x).team = w.team := rfl
@[simp] theorem Warp.setPcs_no (w : Warp) (m : LaneMask) (x : Word) : (w.setPcs m x).no = w.no := rfl
@[simp] theorem Warp.setPcs_slot (w : Warp) (m : LaneMask) (x : Word) : (w.setPcs m x).slot = w.slot := rfl
@[simp] theorem Warp.setPcs_gen (w : Warp) (m : LaneMask) (x : Word) : (w.setPcs m x).gen = w.gen := rfl
@[simp] theorem Warp.setPcs_va (w : Warp) (m : LaneMask) (x : Word) : (w.setPcs m x).va = w.va := rfl
@[simp] theorem Warp.setPcs_sa (w : Warp) (m : LaneMask) (x : Word) : (w.setPcs m x).sa = w.sa := rfl
@[simp] theorem Warp.setPcs_ta (w : Warp) (m : LaneMask) (x : Word) : (w.setPcs m x).ta = w.ta := rfl
@[simp] theorem Warp.setPcs_aa (w : Warp) (m : LaneMask) (x : Word) : (w.setPcs m x).aa = w.aa := rfl
@[simp] theorem Warp.setPcs_exited (w : Warp) (m : LaneMask) (x : Word) : (w.setPcs m x).exited = w.exited := rfl
@[simp] theorem Warp.setPcs_demoted (w : Warp) (m : LaneMask) (x : Word) : (w.setPcs m x).demoted = w.demoted := rfl
@[simp] theorem Warp.setPcs_entering (w : Warp) (m : LaneMask) (x : Word) : (w.setPcs m x).entering = w.entering := rfl
@[simp] theorem Warp.setPcs_inside (w : Warp) (m : LaneMask) (x : Word) : (w.setPcs m x).inside = w.inside := rfl
@[simp] theorem Warp.setPcs_wake (w : Warp) (m : LaneMask) (x : Word) : (w.setPcs m x).wake = w.wake := rfl
@[simp] theorem Warp.setPcs_pins (w : Warp) (m : LaneMask) (x : Word) : (w.setPcs m x).pins = w.pins := rfl
@[simp] theorem Warp.setPcs_handler (w : Warp) (m : LaneMask) (x : Word) : (w.setPcs m x).handler = w.handler := rfl
@[simp] theorem Warp.setPcs_traps (w : Warp) (m : LaneMask) (x : Word) : (w.setPcs m x).traps = w.traps := rfl
@[simp] theorem Warp.setPcs_bpExempt (w : Warp) (m : LaneMask) (x : Word) : (w.setPcs m x).bpExempt = w.bpExempt := rfl
@[simp] theorem Warp.setPcs_fairTimer (w : Warp) (m : LaneMask) (x : Word) : (w.setPcs m x).fairTimer = w.fairTimer := rfl
@[simp] theorem Warp.setPcs_fairLeft (w : Warp) (m : LaneMask) (x : Word) : (w.setPcs m x).fairLeft = w.fairLeft := rfl
@[simp] theorem Warp.setPcs_fairPath (w : Warp) (m : LaneMask) (x : Word) : (w.setPcs m x).fairPath = w.fairPath := rfl
@[simp] theorem Warp.setPcs_fairNext (w : Warp) (m : LaneMask) (x : Word) : (w.setPcs m x).fairNext = w.fairNext := rfl
@[simp] theorem Warp.setPcs_yieldUntil (w : Warp) (m : LaneMask) (x : Word) : (w.setPcs m x).yieldUntil = w.yieldUntil := rfl
@[simp] theorem Warp.setPcs_tempoSince (w : Warp) (m : LaneMask) (x : Word) : (w.setPcs m x).tempoSince = w.tempoSince := rfl
@[simp] theorem Warp.setPcs_v (w : Warp) (m : LaneMask) (x : Word) : (w.setPcs m x).v = w.v := rfl
@[simp] theorem Warp.setPcs_u (w : Warp) (m : LaneMask) (x : Word) : (w.setPcs m x).u = w.u := rfl
@[simp] theorem Warp.setPcs_p (w : Warp) (m : LaneMask) (x : Word) : (w.setPcs m x).p = w.p := rfl
@[simp] theorem Warp.setPcs_tiles (w : Warp) (m : LaneMask) (x : Word) : (w.setPcs m x).tiles = w.tiles := rfl
@[simp] theorem Warp.setPcs_accs (w : Warp) (m : LaneMask) (x : Word) : (w.setPcs m x).accs = w.accs := rfl
@[simp] theorem Warp.setPcs_laccs (w : Warp) (m : LaneMask) (x : Word) : (w.setPcs m x).laccs = w.laccs := rfl
@[simp] theorem Warp.setPcs_marks (w : Warp) (m : LaneMask) (x : Word) : (w.setPcs m x).marks = w.marks := rfl
@[simp] theorem Warp.setPcs_fut (w : Warp) (m : LaneMask) (x : Word) : (w.setPcs m x).fut = w.fut := rfl
@[simp] theorem Warp.setPcs_log (w : Warp) (m : LaneMask) (x : Word) : (w.setPcs m x).log = w.log := rfl
@[simp] theorem Warp.setPcs_fifo (w : Warp) (m : LaneMask) (x : Word) : (w.setPcs m x).fifo = w.fifo := rfl
@[simp] theorem Warp.setPcs_outClosed (w : Warp) (m : LaneMask) (x : Word) : (w.setPcs m x).outClosed = w.outClosed := rfl
@[simp] theorem Warp.setPcs_resv (w : Warp) (m : LaneMask) (x : Word) : (w.setPcs m x).resv = w.resv := rfl
@[simp] theorem Warp.setPcs_svcs (w : Warp) (m : LaneMask) (x : Word) : (w.setPcs m x).svcs = w.svcs := rfl
@[simp] theorem Warp.setPcs_held (w : Warp) (m : LaneMask) (x : Word) : (w.setPcs m x).held = w.held := rfl

/-! ## Warp.setFifo -/
@[simp] theorem Warp.setFifo_team (w : Warp) (q : Port) (lane : Nat) (f : Fifo) : (w.setFifo q lane f).team = w.team := rfl
@[simp] theorem Warp.setFifo_no (w : Warp) (q : Port) (lane : Nat) (f : Fifo) : (w.setFifo q lane f).no = w.no := rfl
@[simp] theorem Warp.setFifo_slot (w : Warp) (q : Port) (lane : Nat) (f : Fifo) : (w.setFifo q lane f).slot = w.slot := rfl
@[simp] theorem Warp.setFifo_gen (w : Warp) (q : Port) (lane : Nat) (f : Fifo) : (w.setFifo q lane f).gen = w.gen := rfl
@[simp] theorem Warp.setFifo_va (w : Warp) (q : Port) (lane : Nat) (f : Fifo) : (w.setFifo q lane f).va = w.va := rfl
@[simp] theorem Warp.setFifo_sa (w : Warp) (q : Port) (lane : Nat) (f : Fifo) : (w.setFifo q lane f).sa = w.sa := rfl
@[simp] theorem Warp.setFifo_ta (w : Warp) (q : Port) (lane : Nat) (f : Fifo) : (w.setFifo q lane f).ta = w.ta := rfl
@[simp] theorem Warp.setFifo_aa (w : Warp) (q : Port) (lane : Nat) (f : Fifo) : (w.setFifo q lane f).aa = w.aa := rfl
@[simp] theorem Warp.setFifo_pcv (w : Warp) (q : Port) (lane : Nat) (f : Fifo) : (w.setFifo q lane f).pcv = w.pcv := rfl
@[simp] theorem Warp.setFifo_exited (w : Warp) (q : Port) (lane : Nat) (f : Fifo) : (w.setFifo q lane f).exited = w.exited := rfl
@[simp] theorem Warp.setFifo_demoted (w : Warp) (q : Port) (lane : Nat) (f : Fifo) : (w.setFifo q lane f).demoted = w.demoted := rfl
@[simp] theorem Warp.setFifo_entering (w : Warp) (q : Port) (lane : Nat) (f : Fifo) : (w.setFifo q lane f).entering = w.entering := rfl
@[simp] theorem Warp.setFifo_inside (w : Warp) (q : Port) (lane : Nat) (f : Fifo) : (w.setFifo q lane f).inside = w.inside := rfl
@[simp] theorem Warp.setFifo_wake (w : Warp) (q : Port) (lane : Nat) (f : Fifo) : (w.setFifo q lane f).wake = w.wake := rfl
@[simp] theorem Warp.setFifo_pins (w : Warp) (q : Port) (lane : Nat) (f : Fifo) : (w.setFifo q lane f).pins = w.pins := rfl
@[simp] theorem Warp.setFifo_handler (w : Warp) (q : Port) (lane : Nat) (f : Fifo) : (w.setFifo q lane f).handler = w.handler := rfl
@[simp] theorem Warp.setFifo_traps (w : Warp) (q : Port) (lane : Nat) (f : Fifo) : (w.setFifo q lane f).traps = w.traps := rfl
@[simp] theorem Warp.setFifo_bpExempt (w : Warp) (q : Port) (lane : Nat) (f : Fifo) : (w.setFifo q lane f).bpExempt = w.bpExempt := rfl
@[simp] theorem Warp.setFifo_fairTimer (w : Warp) (q : Port) (lane : Nat) (f : Fifo) : (w.setFifo q lane f).fairTimer = w.fairTimer := rfl
@[simp] theorem Warp.setFifo_fairLeft (w : Warp) (q : Port) (lane : Nat) (f : Fifo) : (w.setFifo q lane f).fairLeft = w.fairLeft := rfl
@[simp] theorem Warp.setFifo_fairPath (w : Warp) (q : Port) (lane : Nat) (f : Fifo) : (w.setFifo q lane f).fairPath = w.fairPath := rfl
@[simp] theorem Warp.setFifo_fairNext (w : Warp) (q : Port) (lane : Nat) (f : Fifo) : (w.setFifo q lane f).fairNext = w.fairNext := rfl
@[simp] theorem Warp.setFifo_yieldUntil (w : Warp) (q : Port) (lane : Nat) (f : Fifo) : (w.setFifo q lane f).yieldUntil = w.yieldUntil := rfl
@[simp] theorem Warp.setFifo_tempoSince (w : Warp) (q : Port) (lane : Nat) (f : Fifo) : (w.setFifo q lane f).tempoSince = w.tempoSince := rfl
@[simp] theorem Warp.setFifo_v (w : Warp) (q : Port) (lane : Nat) (f : Fifo) : (w.setFifo q lane f).v = w.v := rfl
@[simp] theorem Warp.setFifo_u (w : Warp) (q : Port) (lane : Nat) (f : Fifo) : (w.setFifo q lane f).u = w.u := rfl
@[simp] theorem Warp.setFifo_p (w : Warp) (q : Port) (lane : Nat) (f : Fifo) : (w.setFifo q lane f).p = w.p := rfl
@[simp] theorem Warp.setFifo_tiles (w : Warp) (q : Port) (lane : Nat) (f : Fifo) : (w.setFifo q lane f).tiles = w.tiles := rfl
@[simp] theorem Warp.setFifo_accs (w : Warp) (q : Port) (lane : Nat) (f : Fifo) : (w.setFifo q lane f).accs = w.accs := rfl
@[simp] theorem Warp.setFifo_laccs (w : Warp) (q : Port) (lane : Nat) (f : Fifo) : (w.setFifo q lane f).laccs = w.laccs := rfl
@[simp] theorem Warp.setFifo_marks (w : Warp) (q : Port) (lane : Nat) (f : Fifo) : (w.setFifo q lane f).marks = w.marks := rfl
@[simp] theorem Warp.setFifo_fut (w : Warp) (q : Port) (lane : Nat) (f : Fifo) : (w.setFifo q lane f).fut = w.fut := rfl
@[simp] theorem Warp.setFifo_log (w : Warp) (q : Port) (lane : Nat) (f : Fifo) : (w.setFifo q lane f).log = w.log := rfl
@[simp] theorem Warp.setFifo_outClosed (w : Warp) (q : Port) (lane : Nat) (f : Fifo) : (w.setFifo q lane f).outClosed = w.outClosed := rfl
@[simp] theorem Warp.setFifo_resv (w : Warp) (q : Port) (lane : Nat) (f : Fifo) : (w.setFifo q lane f).resv = w.resv := rfl
@[simp] theorem Warp.setFifo_svcs (w : Warp) (q : Port) (lane : Nat) (f : Fifo) : (w.setFifo q lane f).svcs = w.svcs := rfl
@[simp] theorem Warp.setFifo_held (w : Warp) (q : Port) (lane : Nat) (f : Fifo) : (w.setFifo q lane f).held = w.held := rfl

/-! ## Warp.unblock -/
@[simp] theorem Warp.unblock_team (w : Warp) (m : LaneMask) : (w.unblock m).team = w.team := rfl
@[simp] theorem Warp.unblock_no (w : Warp) (m : LaneMask) : (w.unblock m).no = w.no := rfl
@[simp] theorem Warp.unblock_slot (w : Warp) (m : LaneMask) : (w.unblock m).slot = w.slot := rfl
@[simp] theorem Warp.unblock_gen (w : Warp) (m : LaneMask) : (w.unblock m).gen = w.gen := rfl
@[simp] theorem Warp.unblock_va (w : Warp) (m : LaneMask) : (w.unblock m).va = w.va := rfl
@[simp] theorem Warp.unblock_sa (w : Warp) (m : LaneMask) : (w.unblock m).sa = w.sa := rfl
@[simp] theorem Warp.unblock_ta (w : Warp) (m : LaneMask) : (w.unblock m).ta = w.ta := rfl
@[simp] theorem Warp.unblock_aa (w : Warp) (m : LaneMask) : (w.unblock m).aa = w.aa := rfl
@[simp] theorem Warp.unblock_pcv (w : Warp) (m : LaneMask) : (w.unblock m).pcv = w.pcv := rfl
@[simp] theorem Warp.unblock_exited (w : Warp) (m : LaneMask) : (w.unblock m).exited = w.exited := rfl
@[simp] theorem Warp.unblock_demoted (w : Warp) (m : LaneMask) : (w.unblock m).demoted = w.demoted := rfl
@[simp] theorem Warp.unblock_entering (w : Warp) (m : LaneMask) : (w.unblock m).entering = w.entering := rfl
@[simp] theorem Warp.unblock_inside (w : Warp) (m : LaneMask) : (w.unblock m).inside = w.inside := rfl
@[simp] theorem Warp.unblock_pins (w : Warp) (m : LaneMask) : (w.unblock m).pins = w.pins := rfl
@[simp] theorem Warp.unblock_handler (w : Warp) (m : LaneMask) : (w.unblock m).handler = w.handler := rfl
@[simp] theorem Warp.unblock_traps (w : Warp) (m : LaneMask) : (w.unblock m).traps = w.traps := rfl
@[simp] theorem Warp.unblock_bpExempt (w : Warp) (m : LaneMask) : (w.unblock m).bpExempt = w.bpExempt := rfl
@[simp] theorem Warp.unblock_fairTimer (w : Warp) (m : LaneMask) : (w.unblock m).fairTimer = w.fairTimer := rfl
@[simp] theorem Warp.unblock_fairLeft (w : Warp) (m : LaneMask) : (w.unblock m).fairLeft = w.fairLeft := rfl
@[simp] theorem Warp.unblock_fairPath (w : Warp) (m : LaneMask) : (w.unblock m).fairPath = w.fairPath := rfl
@[simp] theorem Warp.unblock_fairNext (w : Warp) (m : LaneMask) : (w.unblock m).fairNext = w.fairNext := rfl
@[simp] theorem Warp.unblock_yieldUntil (w : Warp) (m : LaneMask) : (w.unblock m).yieldUntil = w.yieldUntil := rfl
@[simp] theorem Warp.unblock_tempoSince (w : Warp) (m : LaneMask) : (w.unblock m).tempoSince = w.tempoSince := rfl
@[simp] theorem Warp.unblock_v (w : Warp) (m : LaneMask) : (w.unblock m).v = w.v := rfl
@[simp] theorem Warp.unblock_u (w : Warp) (m : LaneMask) : (w.unblock m).u = w.u := rfl
@[simp] theorem Warp.unblock_p (w : Warp) (m : LaneMask) : (w.unblock m).p = w.p := rfl
@[simp] theorem Warp.unblock_tiles (w : Warp) (m : LaneMask) : (w.unblock m).tiles = w.tiles := rfl
@[simp] theorem Warp.unblock_accs (w : Warp) (m : LaneMask) : (w.unblock m).accs = w.accs := rfl
@[simp] theorem Warp.unblock_laccs (w : Warp) (m : LaneMask) : (w.unblock m).laccs = w.laccs := rfl
@[simp] theorem Warp.unblock_marks (w : Warp) (m : LaneMask) : (w.unblock m).marks = w.marks := rfl
@[simp] theorem Warp.unblock_fut (w : Warp) (m : LaneMask) : (w.unblock m).fut = w.fut := rfl
@[simp] theorem Warp.unblock_log (w : Warp) (m : LaneMask) : (w.unblock m).log = w.log := rfl
@[simp] theorem Warp.unblock_fifo (w : Warp) (m : LaneMask) : (w.unblock m).fifo = w.fifo := rfl
@[simp] theorem Warp.unblock_outClosed (w : Warp) (m : LaneMask) : (w.unblock m).outClosed = w.outClosed := rfl
@[simp] theorem Warp.unblock_resv (w : Warp) (m : LaneMask) : (w.unblock m).resv = w.resv := rfl
@[simp] theorem Warp.unblock_svcs (w : Warp) (m : LaneMask) : (w.unblock m).svcs = w.svcs := rfl
@[simp] theorem Warp.unblock_held (w : Warp) (m : LaneMask) : (w.unblock m).held = w.held := rfl

/-! ## Warp.dropEntry -/
@[simp] theorem Warp.dropEntry_team (w : Warp) (k : Nat) : (w.dropEntry k).team = w.team := rfl
@[simp] theorem Warp.dropEntry_no (w : Warp) (k : Nat) : (w.dropEntry k).no = w.no := rfl
@[simp] theorem Warp.dropEntry_slot (w : Warp) (k : Nat) : (w.dropEntry k).slot = w.slot := rfl
@[simp] theorem Warp.dropEntry_gen (w : Warp) (k : Nat) : (w.dropEntry k).gen = w.gen := rfl
@[simp] theorem Warp.dropEntry_va (w : Warp) (k : Nat) : (w.dropEntry k).va = w.va := rfl
@[simp] theorem Warp.dropEntry_sa (w : Warp) (k : Nat) : (w.dropEntry k).sa = w.sa := rfl
@[simp] theorem Warp.dropEntry_ta (w : Warp) (k : Nat) : (w.dropEntry k).ta = w.ta := rfl
@[simp] theorem Warp.dropEntry_aa (w : Warp) (k : Nat) : (w.dropEntry k).aa = w.aa := rfl
@[simp] theorem Warp.dropEntry_pcv (w : Warp) (k : Nat) : (w.dropEntry k).pcv = w.pcv := rfl
@[simp] theorem Warp.dropEntry_exited (w : Warp) (k : Nat) : (w.dropEntry k).exited = w.exited := rfl
@[simp] theorem Warp.dropEntry_demoted (w : Warp) (k : Nat) : (w.dropEntry k).demoted = w.demoted := rfl
@[simp] theorem Warp.dropEntry_entering (w : Warp) (k : Nat) : (w.dropEntry k).entering = w.entering := rfl
@[simp] theorem Warp.dropEntry_inside (w : Warp) (k : Nat) : (w.dropEntry k).inside = w.inside := rfl
@[simp] theorem Warp.dropEntry_pins (w : Warp) (k : Nat) : (w.dropEntry k).pins = w.pins := rfl
@[simp] theorem Warp.dropEntry_handler (w : Warp) (k : Nat) : (w.dropEntry k).handler = w.handler := rfl
@[simp] theorem Warp.dropEntry_traps (w : Warp) (k : Nat) : (w.dropEntry k).traps = w.traps := rfl
@[simp] theorem Warp.dropEntry_bpExempt (w : Warp) (k : Nat) : (w.dropEntry k).bpExempt = w.bpExempt := rfl
@[simp] theorem Warp.dropEntry_fairTimer (w : Warp) (k : Nat) : (w.dropEntry k).fairTimer = w.fairTimer := rfl
@[simp] theorem Warp.dropEntry_fairLeft (w : Warp) (k : Nat) : (w.dropEntry k).fairLeft = w.fairLeft := rfl
@[simp] theorem Warp.dropEntry_fairPath (w : Warp) (k : Nat) : (w.dropEntry k).fairPath = w.fairPath := rfl
@[simp] theorem Warp.dropEntry_fairNext (w : Warp) (k : Nat) : (w.dropEntry k).fairNext = w.fairNext := rfl
@[simp] theorem Warp.dropEntry_yieldUntil (w : Warp) (k : Nat) : (w.dropEntry k).yieldUntil = w.yieldUntil := rfl
@[simp] theorem Warp.dropEntry_tempoSince (w : Warp) (k : Nat) : (w.dropEntry k).tempoSince = w.tempoSince := rfl
@[simp] theorem Warp.dropEntry_v (w : Warp) (k : Nat) : (w.dropEntry k).v = w.v := rfl
@[simp] theorem Warp.dropEntry_u (w : Warp) (k : Nat) : (w.dropEntry k).u = w.u := rfl
@[simp] theorem Warp.dropEntry_p (w : Warp) (k : Nat) : (w.dropEntry k).p = w.p := rfl
@[simp] theorem Warp.dropEntry_tiles (w : Warp) (k : Nat) : (w.dropEntry k).tiles = w.tiles := rfl
@[simp] theorem Warp.dropEntry_accs (w : Warp) (k : Nat) : (w.dropEntry k).accs = w.accs := rfl
@[simp] theorem Warp.dropEntry_laccs (w : Warp) (k : Nat) : (w.dropEntry k).laccs = w.laccs := rfl
@[simp] theorem Warp.dropEntry_marks (w : Warp) (k : Nat) : (w.dropEntry k).marks = w.marks := rfl
@[simp] theorem Warp.dropEntry_fut (w : Warp) (k : Nat) : (w.dropEntry k).fut = w.fut := rfl
@[simp] theorem Warp.dropEntry_fifo (w : Warp) (k : Nat) : (w.dropEntry k).fifo = w.fifo := rfl
@[simp] theorem Warp.dropEntry_outClosed (w : Warp) (k : Nat) : (w.dropEntry k).outClosed = w.outClosed := rfl
@[simp] theorem Warp.dropEntry_resv (w : Warp) (k : Nat) : (w.dropEntry k).resv = w.resv := rfl
@[simp] theorem Warp.dropEntry_svcs (w : Warp) (k : Nat) : (w.dropEntry k).svcs = w.svcs := rfl
@[simp] theorem Warp.dropEntry_held (w : Warp) (k : Nat) : (w.dropEntry k).held = w.held := rfl

/-! ## Warp.tileWrite -/
@[simp] theorem Warp.tileWrite_team (w : Warp) (n off : Nat) (bs : List Byte) : (w.tileWrite n off bs).team = w.team := rfl
@[simp] theorem Warp.tileWrite_no (w : Warp) (n off : Nat) (bs : List Byte) : (w.tileWrite n off bs).no = w.no := rfl
@[simp] theorem Warp.tileWrite_slot (w : Warp) (n off : Nat) (bs : List Byte) : (w.tileWrite n off bs).slot = w.slot := rfl
@[simp] theorem Warp.tileWrite_gen (w : Warp) (n off : Nat) (bs : List Byte) : (w.tileWrite n off bs).gen = w.gen := rfl
@[simp] theorem Warp.tileWrite_va (w : Warp) (n off : Nat) (bs : List Byte) : (w.tileWrite n off bs).va = w.va := rfl
@[simp] theorem Warp.tileWrite_sa (w : Warp) (n off : Nat) (bs : List Byte) : (w.tileWrite n off bs).sa = w.sa := rfl
@[simp] theorem Warp.tileWrite_ta (w : Warp) (n off : Nat) (bs : List Byte) : (w.tileWrite n off bs).ta = w.ta := rfl
@[simp] theorem Warp.tileWrite_aa (w : Warp) (n off : Nat) (bs : List Byte) : (w.tileWrite n off bs).aa = w.aa := rfl
@[simp] theorem Warp.tileWrite_pcv (w : Warp) (n off : Nat) (bs : List Byte) : (w.tileWrite n off bs).pcv = w.pcv := rfl
@[simp] theorem Warp.tileWrite_exited (w : Warp) (n off : Nat) (bs : List Byte) : (w.tileWrite n off bs).exited = w.exited := rfl
@[simp] theorem Warp.tileWrite_demoted (w : Warp) (n off : Nat) (bs : List Byte) : (w.tileWrite n off bs).demoted = w.demoted := rfl
@[simp] theorem Warp.tileWrite_entering (w : Warp) (n off : Nat) (bs : List Byte) : (w.tileWrite n off bs).entering = w.entering := rfl
@[simp] theorem Warp.tileWrite_inside (w : Warp) (n off : Nat) (bs : List Byte) : (w.tileWrite n off bs).inside = w.inside := rfl
@[simp] theorem Warp.tileWrite_wake (w : Warp) (n off : Nat) (bs : List Byte) : (w.tileWrite n off bs).wake = w.wake := rfl
@[simp] theorem Warp.tileWrite_pins (w : Warp) (n off : Nat) (bs : List Byte) : (w.tileWrite n off bs).pins = w.pins := rfl
@[simp] theorem Warp.tileWrite_handler (w : Warp) (n off : Nat) (bs : List Byte) : (w.tileWrite n off bs).handler = w.handler := rfl
@[simp] theorem Warp.tileWrite_traps (w : Warp) (n off : Nat) (bs : List Byte) : (w.tileWrite n off bs).traps = w.traps := rfl
@[simp] theorem Warp.tileWrite_bpExempt (w : Warp) (n off : Nat) (bs : List Byte) : (w.tileWrite n off bs).bpExempt = w.bpExempt := rfl
@[simp] theorem Warp.tileWrite_fairTimer (w : Warp) (n off : Nat) (bs : List Byte) : (w.tileWrite n off bs).fairTimer = w.fairTimer := rfl
@[simp] theorem Warp.tileWrite_fairLeft (w : Warp) (n off : Nat) (bs : List Byte) : (w.tileWrite n off bs).fairLeft = w.fairLeft := rfl
@[simp] theorem Warp.tileWrite_fairPath (w : Warp) (n off : Nat) (bs : List Byte) : (w.tileWrite n off bs).fairPath = w.fairPath := rfl
@[simp] theorem Warp.tileWrite_fairNext (w : Warp) (n off : Nat) (bs : List Byte) : (w.tileWrite n off bs).fairNext = w.fairNext := rfl
@[simp] theorem Warp.tileWrite_yieldUntil (w : Warp) (n off : Nat) (bs : List Byte) : (w.tileWrite n off bs).yieldUntil = w.yieldUntil := rfl
@[simp] theorem Warp.tileWrite_tempoSince (w : Warp) (n off : Nat) (bs : List Byte) : (w.tileWrite n off bs).tempoSince = w.tempoSince := rfl
@[simp] theorem Warp.tileWrite_v (w : Warp) (n off : Nat) (bs : List Byte) : (w.tileWrite n off bs).v = w.v := rfl
@[simp] theorem Warp.tileWrite_u (w : Warp) (n off : Nat) (bs : List Byte) : (w.tileWrite n off bs).u = w.u := rfl
@[simp] theorem Warp.tileWrite_p (w : Warp) (n off : Nat) (bs : List Byte) : (w.tileWrite n off bs).p = w.p := rfl
@[simp] theorem Warp.tileWrite_accs (w : Warp) (n off : Nat) (bs : List Byte) : (w.tileWrite n off bs).accs = w.accs := rfl
@[simp] theorem Warp.tileWrite_laccs (w : Warp) (n off : Nat) (bs : List Byte) : (w.tileWrite n off bs).laccs = w.laccs := rfl
@[simp] theorem Warp.tileWrite_fut (w : Warp) (n off : Nat) (bs : List Byte) : (w.tileWrite n off bs).fut = w.fut := rfl
@[simp] theorem Warp.tileWrite_log (w : Warp) (n off : Nat) (bs : List Byte) : (w.tileWrite n off bs).log = w.log := rfl
@[simp] theorem Warp.tileWrite_fifo (w : Warp) (n off : Nat) (bs : List Byte) : (w.tileWrite n off bs).fifo = w.fifo := rfl
@[simp] theorem Warp.tileWrite_outClosed (w : Warp) (n off : Nat) (bs : List Byte) : (w.tileWrite n off bs).outClosed = w.outClosed := rfl
@[simp] theorem Warp.tileWrite_resv (w : Warp) (n off : Nat) (bs : List Byte) : (w.tileWrite n off bs).resv = w.resv := rfl
@[simp] theorem Warp.tileWrite_svcs (w : Warp) (n off : Nat) (bs : List Byte) : (w.tileWrite n off bs).svcs = w.svcs := rfl
@[simp] theorem Warp.tileWrite_held (w : Warp) (n off : Nat) (bs : List Byte) : (w.tileWrite n off bs).held = w.held := rfl

/-! ## Warp.accFill -/
@[simp] theorem Warp.accFill_team (w : Warp) (a : Nat) (xs : List Word) : (w.accFill a xs).team = w.team := rfl
@[simp] theorem Warp.accFill_no (w : Warp) (a : Nat) (xs : List Word) : (w.accFill a xs).no = w.no := rfl
@[simp] theorem Warp.accFill_slot (w : Warp) (a : Nat) (xs : List Word) : (w.accFill a xs).slot = w.slot := rfl
@[simp] theorem Warp.accFill_gen (w : Warp) (a : Nat) (xs : List Word) : (w.accFill a xs).gen = w.gen := rfl
@[simp] theorem Warp.accFill_va (w : Warp) (a : Nat) (xs : List Word) : (w.accFill a xs).va = w.va := rfl
@[simp] theorem Warp.accFill_sa (w : Warp) (a : Nat) (xs : List Word) : (w.accFill a xs).sa = w.sa := rfl
@[simp] theorem Warp.accFill_ta (w : Warp) (a : Nat) (xs : List Word) : (w.accFill a xs).ta = w.ta := rfl
@[simp] theorem Warp.accFill_aa (w : Warp) (a : Nat) (xs : List Word) : (w.accFill a xs).aa = w.aa := rfl
@[simp] theorem Warp.accFill_pcv (w : Warp) (a : Nat) (xs : List Word) : (w.accFill a xs).pcv = w.pcv := rfl
@[simp] theorem Warp.accFill_exited (w : Warp) (a : Nat) (xs : List Word) : (w.accFill a xs).exited = w.exited := rfl
@[simp] theorem Warp.accFill_demoted (w : Warp) (a : Nat) (xs : List Word) : (w.accFill a xs).demoted = w.demoted := rfl
@[simp] theorem Warp.accFill_entering (w : Warp) (a : Nat) (xs : List Word) : (w.accFill a xs).entering = w.entering := rfl
@[simp] theorem Warp.accFill_inside (w : Warp) (a : Nat) (xs : List Word) : (w.accFill a xs).inside = w.inside := rfl
@[simp] theorem Warp.accFill_wake (w : Warp) (a : Nat) (xs : List Word) : (w.accFill a xs).wake = w.wake := rfl
@[simp] theorem Warp.accFill_pins (w : Warp) (a : Nat) (xs : List Word) : (w.accFill a xs).pins = w.pins := rfl
@[simp] theorem Warp.accFill_handler (w : Warp) (a : Nat) (xs : List Word) : (w.accFill a xs).handler = w.handler := rfl
@[simp] theorem Warp.accFill_traps (w : Warp) (a : Nat) (xs : List Word) : (w.accFill a xs).traps = w.traps := rfl
@[simp] theorem Warp.accFill_bpExempt (w : Warp) (a : Nat) (xs : List Word) : (w.accFill a xs).bpExempt = w.bpExempt := rfl
@[simp] theorem Warp.accFill_fairTimer (w : Warp) (a : Nat) (xs : List Word) : (w.accFill a xs).fairTimer = w.fairTimer := rfl
@[simp] theorem Warp.accFill_fairLeft (w : Warp) (a : Nat) (xs : List Word) : (w.accFill a xs).fairLeft = w.fairLeft := rfl
@[simp] theorem Warp.accFill_fairPath (w : Warp) (a : Nat) (xs : List Word) : (w.accFill a xs).fairPath = w.fairPath := rfl
@[simp] theorem Warp.accFill_fairNext (w : Warp) (a : Nat) (xs : List Word) : (w.accFill a xs).fairNext = w.fairNext := rfl
@[simp] theorem Warp.accFill_yieldUntil (w : Warp) (a : Nat) (xs : List Word) : (w.accFill a xs).yieldUntil = w.yieldUntil := rfl
@[simp] theorem Warp.accFill_tempoSince (w : Warp) (a : Nat) (xs : List Word) : (w.accFill a xs).tempoSince = w.tempoSince := rfl
@[simp] theorem Warp.accFill_v (w : Warp) (a : Nat) (xs : List Word) : (w.accFill a xs).v = w.v := rfl
@[simp] theorem Warp.accFill_u (w : Warp) (a : Nat) (xs : List Word) : (w.accFill a xs).u = w.u := rfl
@[simp] theorem Warp.accFill_p (w : Warp) (a : Nat) (xs : List Word) : (w.accFill a xs).p = w.p := rfl
@[simp] theorem Warp.accFill_tiles (w : Warp) (a : Nat) (xs : List Word) : (w.accFill a xs).tiles = w.tiles := rfl
@[simp] theorem Warp.accFill_laccs (w : Warp) (a : Nat) (xs : List Word) : (w.accFill a xs).laccs = w.laccs := rfl
@[simp] theorem Warp.accFill_fut (w : Warp) (a : Nat) (xs : List Word) : (w.accFill a xs).fut = w.fut := rfl
@[simp] theorem Warp.accFill_log (w : Warp) (a : Nat) (xs : List Word) : (w.accFill a xs).log = w.log := rfl
@[simp] theorem Warp.accFill_fifo (w : Warp) (a : Nat) (xs : List Word) : (w.accFill a xs).fifo = w.fifo := rfl
@[simp] theorem Warp.accFill_outClosed (w : Warp) (a : Nat) (xs : List Word) : (w.accFill a xs).outClosed = w.outClosed := rfl
@[simp] theorem Warp.accFill_resv (w : Warp) (a : Nat) (xs : List Word) : (w.accFill a xs).resv = w.resv := rfl
@[simp] theorem Warp.accFill_svcs (w : Warp) (a : Nat) (xs : List Word) : (w.accFill a xs).svcs = w.svcs := rfl
@[simp] theorem Warp.accFill_held (w : Warp) (a : Nat) (xs : List Word) : (w.accFill a xs).held = w.held := rfl

/-! ## Warp.laccFill -/
@[simp] theorem Warp.laccFill_team (w : Warp) (a : Nat) (xs : List LongEntry) : (w.laccFill a xs).team = w.team := rfl
@[simp] theorem Warp.laccFill_no (w : Warp) (a : Nat) (xs : List LongEntry) : (w.laccFill a xs).no = w.no := rfl
@[simp] theorem Warp.laccFill_slot (w : Warp) (a : Nat) (xs : List LongEntry) : (w.laccFill a xs).slot = w.slot := rfl
@[simp] theorem Warp.laccFill_gen (w : Warp) (a : Nat) (xs : List LongEntry) : (w.laccFill a xs).gen = w.gen := rfl
@[simp] theorem Warp.laccFill_va (w : Warp) (a : Nat) (xs : List LongEntry) : (w.laccFill a xs).va = w.va := rfl
@[simp] theorem Warp.laccFill_sa (w : Warp) (a : Nat) (xs : List LongEntry) : (w.laccFill a xs).sa = w.sa := rfl
@[simp] theorem Warp.laccFill_ta (w : Warp) (a : Nat) (xs : List LongEntry) : (w.laccFill a xs).ta = w.ta := rfl
@[simp] theorem Warp.laccFill_aa (w : Warp) (a : Nat) (xs : List LongEntry) : (w.laccFill a xs).aa = w.aa := rfl
@[simp] theorem Warp.laccFill_pcv (w : Warp) (a : Nat) (xs : List LongEntry) : (w.laccFill a xs).pcv = w.pcv := rfl
@[simp] theorem Warp.laccFill_exited (w : Warp) (a : Nat) (xs : List LongEntry) : (w.laccFill a xs).exited = w.exited := rfl
@[simp] theorem Warp.laccFill_demoted (w : Warp) (a : Nat) (xs : List LongEntry) : (w.laccFill a xs).demoted = w.demoted := rfl
@[simp] theorem Warp.laccFill_entering (w : Warp) (a : Nat) (xs : List LongEntry) : (w.laccFill a xs).entering = w.entering := rfl
@[simp] theorem Warp.laccFill_inside (w : Warp) (a : Nat) (xs : List LongEntry) : (w.laccFill a xs).inside = w.inside := rfl
@[simp] theorem Warp.laccFill_wake (w : Warp) (a : Nat) (xs : List LongEntry) : (w.laccFill a xs).wake = w.wake := rfl
@[simp] theorem Warp.laccFill_pins (w : Warp) (a : Nat) (xs : List LongEntry) : (w.laccFill a xs).pins = w.pins := rfl
@[simp] theorem Warp.laccFill_handler (w : Warp) (a : Nat) (xs : List LongEntry) : (w.laccFill a xs).handler = w.handler := rfl
@[simp] theorem Warp.laccFill_traps (w : Warp) (a : Nat) (xs : List LongEntry) : (w.laccFill a xs).traps = w.traps := rfl
@[simp] theorem Warp.laccFill_bpExempt (w : Warp) (a : Nat) (xs : List LongEntry) : (w.laccFill a xs).bpExempt = w.bpExempt := rfl
@[simp] theorem Warp.laccFill_fairTimer (w : Warp) (a : Nat) (xs : List LongEntry) : (w.laccFill a xs).fairTimer = w.fairTimer := rfl
@[simp] theorem Warp.laccFill_fairLeft (w : Warp) (a : Nat) (xs : List LongEntry) : (w.laccFill a xs).fairLeft = w.fairLeft := rfl
@[simp] theorem Warp.laccFill_fairPath (w : Warp) (a : Nat) (xs : List LongEntry) : (w.laccFill a xs).fairPath = w.fairPath := rfl
@[simp] theorem Warp.laccFill_fairNext (w : Warp) (a : Nat) (xs : List LongEntry) : (w.laccFill a xs).fairNext = w.fairNext := rfl
@[simp] theorem Warp.laccFill_yieldUntil (w : Warp) (a : Nat) (xs : List LongEntry) : (w.laccFill a xs).yieldUntil = w.yieldUntil := rfl
@[simp] theorem Warp.laccFill_tempoSince (w : Warp) (a : Nat) (xs : List LongEntry) : (w.laccFill a xs).tempoSince = w.tempoSince := rfl
@[simp] theorem Warp.laccFill_v (w : Warp) (a : Nat) (xs : List LongEntry) : (w.laccFill a xs).v = w.v := rfl
@[simp] theorem Warp.laccFill_u (w : Warp) (a : Nat) (xs : List LongEntry) : (w.laccFill a xs).u = w.u := rfl
@[simp] theorem Warp.laccFill_p (w : Warp) (a : Nat) (xs : List LongEntry) : (w.laccFill a xs).p = w.p := rfl
@[simp] theorem Warp.laccFill_tiles (w : Warp) (a : Nat) (xs : List LongEntry) : (w.laccFill a xs).tiles = w.tiles := rfl
@[simp] theorem Warp.laccFill_accs (w : Warp) (a : Nat) (xs : List LongEntry) : (w.laccFill a xs).accs = w.accs := rfl
@[simp] theorem Warp.laccFill_fut (w : Warp) (a : Nat) (xs : List LongEntry) : (w.laccFill a xs).fut = w.fut := rfl
@[simp] theorem Warp.laccFill_log (w : Warp) (a : Nat) (xs : List LongEntry) : (w.laccFill a xs).log = w.log := rfl
@[simp] theorem Warp.laccFill_fifo (w : Warp) (a : Nat) (xs : List LongEntry) : (w.laccFill a xs).fifo = w.fifo := rfl
@[simp] theorem Warp.laccFill_outClosed (w : Warp) (a : Nat) (xs : List LongEntry) : (w.laccFill a xs).outClosed = w.outClosed := rfl
@[simp] theorem Warp.laccFill_resv (w : Warp) (a : Nat) (xs : List LongEntry) : (w.laccFill a xs).resv = w.resv := rfl
@[simp] theorem Warp.laccFill_svcs (w : Warp) (a : Nat) (xs : List LongEntry) : (w.laccFill a xs).svcs = w.svcs := rfl
@[simp] theorem Warp.laccFill_held (w : Warp) (a : Nat) (xs : List LongEntry) : (w.laccFill a xs).held = w.held := rfl

/-! ## Warp.jump -/
@[simp] theorem Warp.jump_team (w : Warp) (m : LaneMask) (x : Word) : (w.jump m x).team = w.team := rfl
@[simp] theorem Warp.jump_no (w : Warp) (m : LaneMask) (x : Word) : (w.jump m x).no = w.no := rfl
@[simp] theorem Warp.jump_slot (w : Warp) (m : LaneMask) (x : Word) : (w.jump m x).slot = w.slot := rfl
@[simp] theorem Warp.jump_gen (w : Warp) (m : LaneMask) (x : Word) : (w.jump m x).gen = w.gen := rfl
@[simp] theorem Warp.jump_va (w : Warp) (m : LaneMask) (x : Word) : (w.jump m x).va = w.va := rfl
@[simp] theorem Warp.jump_sa (w : Warp) (m : LaneMask) (x : Word) : (w.jump m x).sa = w.sa := rfl
@[simp] theorem Warp.jump_ta (w : Warp) (m : LaneMask) (x : Word) : (w.jump m x).ta = w.ta := rfl
@[simp] theorem Warp.jump_aa (w : Warp) (m : LaneMask) (x : Word) : (w.jump m x).aa = w.aa := rfl
@[simp] theorem Warp.jump_exited (w : Warp) (m : LaneMask) (x : Word) : (w.jump m x).exited = w.exited := rfl
@[simp] theorem Warp.jump_demoted (w : Warp) (m : LaneMask) (x : Word) : (w.jump m x).demoted = w.demoted := rfl
@[simp] theorem Warp.jump_wake (w : Warp) (m : LaneMask) (x : Word) : (w.jump m x).wake = w.wake := rfl
@[simp] theorem Warp.jump_pins (w : Warp) (m : LaneMask) (x : Word) : (w.jump m x).pins = w.pins := rfl
@[simp] theorem Warp.jump_handler (w : Warp) (m : LaneMask) (x : Word) : (w.jump m x).handler = w.handler := rfl
@[simp] theorem Warp.jump_traps (w : Warp) (m : LaneMask) (x : Word) : (w.jump m x).traps = w.traps := rfl
@[simp] theorem Warp.jump_fairTimer (w : Warp) (m : LaneMask) (x : Word) : (w.jump m x).fairTimer = w.fairTimer := rfl
@[simp] theorem Warp.jump_fairLeft (w : Warp) (m : LaneMask) (x : Word) : (w.jump m x).fairLeft = w.fairLeft := rfl
@[simp] theorem Warp.jump_fairPath (w : Warp) (m : LaneMask) (x : Word) : (w.jump m x).fairPath = w.fairPath := rfl
@[simp] theorem Warp.jump_fairNext (w : Warp) (m : LaneMask) (x : Word) : (w.jump m x).fairNext = w.fairNext := rfl
@[simp] theorem Warp.jump_yieldUntil (w : Warp) (m : LaneMask) (x : Word) : (w.jump m x).yieldUntil = w.yieldUntil := rfl
@[simp] theorem Warp.jump_tempoSince (w : Warp) (m : LaneMask) (x : Word) : (w.jump m x).tempoSince = w.tempoSince := rfl
@[simp] theorem Warp.jump_v (w : Warp) (m : LaneMask) (x : Word) : (w.jump m x).v = w.v := rfl
@[simp] theorem Warp.jump_u (w : Warp) (m : LaneMask) (x : Word) : (w.jump m x).u = w.u := rfl
@[simp] theorem Warp.jump_p (w : Warp) (m : LaneMask) (x : Word) : (w.jump m x).p = w.p := rfl
@[simp] theorem Warp.jump_tiles (w : Warp) (m : LaneMask) (x : Word) : (w.jump m x).tiles = w.tiles := rfl
@[simp] theorem Warp.jump_accs (w : Warp) (m : LaneMask) (x : Word) : (w.jump m x).accs = w.accs := rfl
@[simp] theorem Warp.jump_laccs (w : Warp) (m : LaneMask) (x : Word) : (w.jump m x).laccs = w.laccs := rfl
@[simp] theorem Warp.jump_marks (w : Warp) (m : LaneMask) (x : Word) : (w.jump m x).marks = w.marks := rfl
@[simp] theorem Warp.jump_fut (w : Warp) (m : LaneMask) (x : Word) : (w.jump m x).fut = w.fut := rfl
@[simp] theorem Warp.jump_log (w : Warp) (m : LaneMask) (x : Word) : (w.jump m x).log = w.log := rfl
@[simp] theorem Warp.jump_fifo (w : Warp) (m : LaneMask) (x : Word) : (w.jump m x).fifo = w.fifo := rfl
@[simp] theorem Warp.jump_outClosed (w : Warp) (m : LaneMask) (x : Word) : (w.jump m x).outClosed = w.outClosed := rfl
@[simp] theorem Warp.jump_resv (w : Warp) (m : LaneMask) (x : Word) : (w.jump m x).resv = w.resv := rfl
@[simp] theorem Warp.jump_svcs (w : Warp) (m : LaneMask) (x : Word) : (w.jump m x).svcs = w.svcs := rfl
@[simp] theorem Warp.jump_held (w : Warp) (m : LaneMask) (x : Word) : (w.jump m x).held = w.held := rfl

end Sys2Proof.Machine
end

