-- ==== Sys2Proof/Laws/Registers.lean ====
section
/-! SUPPORT. Laws of the accessors: what a warp, a core, a register, a predicate, a port queue and a byte of memory
read as after each named update. -/

namespace Sys2Proof.Machine

/-! ## Objects of the state -/

theorem State.get?_modWarp (s : State) (k x : Nat) (f : Warp → Warp) :
    (s.modWarp k f).warps.get? x = if x = k then (s.warps.get? k).map f else s.warps.get? x :=
  Tab.get?_modify s.warps k x f

theorem State.core_modCore (s : State) (k x : Nat) (f : Core → Core) :
    (s.modCore k f).core x = if x = k then f (s.core k) else s.core x := by
  simp only [State.core, State.modCore, Tab.getD_put]

theorem State.core_of_cores {s t : State} (h : t.cores = s.cores) (k : Nat) : t.core k = s.core k := by
  simp only [State.core, h]

theorem State.get?_modGrid (s : State) (k : Word) (x : Nat) (f : Grid → Grid) :
    (s.modGrid k f).grids.get? x = if x = k.toNat then (s.grids.get? k.toNat).map f else s.grids.get? x :=
  Tab.get?_modify s.grids k.toNat x f

theorem State.get?_modGang (s : State) (k x : Nat) (f : Gang → Gang) :
    (s.modGang k f).gangs.get? x = if x = k then (s.gangs.get? k).map f else s.gangs.get? x :=
  Tab.get?_modify s.gangs k x f

theorem State.get?_modBar (s : State) (k x : Nat) (f : Bar → Bar) :
    (s.modBar k f).bars.get? x = if x = k then (s.bars.get? k).map f else s.bars.get? x :=
  Tab.get?_modify s.bars k x f

theorem State.get?_modCtx (s : State) (k x : Nat) (f : Ctx → Ctx) :
    (s.modCtx k f).ctxs.get? x = if x = k then (s.ctxs.get? k).map f else s.ctxs.get? x :=
  Tab.get?_modify s.ctxs k x f

theorem State.queue_modQueue (s : State) (k x : Nat) (f : Queue → Queue) :
    (s.modQueue k f).queue x = if x = k then f (s.queue k) else s.queue x := by
  simp only [State.queue, State.modQueue, Tab.getD_put]

theorem State.cluster_modCluster (s : State) (k x : Nat) (f : Cluster → Cluster) :
    (s.modCluster k f).cluster x = if x = k then f (s.cluster k) else s.cluster x := by
  simp only [State.cluster, State.modCluster, Tab.getD_put]

theorem State.link_modLink (s : State) (k x : Nat) (f : LinkS → LinkS) :
    (s.modLink k f).link x = if x = k then f (s.link k) else s.link x := by
  simp only [State.link, State.modLink, Tab.getD_put]

/-- The issuing warp is listed, under the key of its place. -/
theorem State.place?_warp {s : State} {k : Nat} {p : Place} (h : s.place? k = some p) :
    p.key = k ∧ s.warps.get? k = some p.w := by
  unfold State.place? at h
  split at h
  · cases h
  · split at h
    · cases h
    · split at h
      · cases h
      · split at h
        · cases h
        · cases h; exact ⟨rfl, ‹_›⟩

/-! ## Registers -/

theorem Warp.getV_setV (w : Warp) (r l q m : Nat) (x : Word) (hl : l < 32) (hm : m < 32) :
    (w.setV r l x).getV q m = if q = r ∧ m = l then x else w.getV q m := by
  simp only [Warp.getV, Warp.setV, Sparse.get_set, vKey]
  by_cases h : 32 * q + m = 32 * r + l
  · rw [if_pos h, if_pos (by omega)]
  · rw [if_neg h, if_neg (by omega)]

@[simp] theorem Warp.getU_setV (w : Warp) (r l q : Nat) (x : Word) : (w.setV r l x).getU q = w.getU q := rfl
@[simp] theorem Warp.getV_setU (w : Warp) (r q l : Nat) (x : Word) : (w.setU r x).getV q l = w.getV q l := rfl

theorem Warp.getU_setU (w : Warp) (r q : Nat) (x : Word) : (w.setU r x).getU q = if q = r then x else w.getU q := by
  simp only [Warp.getU, Warp.setU, Sparse.get_set]

theorem Warp.getP_setP (w : Warp) (r q : Fin 8) (x : LaneMask) :
    (w.setP r x).getP q = if q = r ∧ r ≠ 7 then x else w.getP q := by
  unfold Warp.setP
  by_cases hr : r = 7
  · simp [hr]
  · simp only [hr, if_false, Warp.getP, Sparse.get_set]
    by_cases hq : q = 7
    · subst hq; rw [if_pos rfl, if_neg (fun h => hr h.1.symm), if_pos rfl]
    · simp only [hq, if_false]
      by_cases h : q = r
      · subst h; simp [hr]
      · rw [if_neg (fun hv => h (Fin.ext hv)), if_neg (fun hv => h hv.1)]

theorem Warp.getFifo_setFifo (w : Warp) (q r : Port) (l m : Nat) (f : Fifo) (hl : l < 32) (hm : m < 32) :
    (w.setFifo q l f).getFifo r m = if r = q ∧ m = l then f else w.getFifo r m := by
  have hk : fifoKey r m = fifoKey q l ↔ r = q ∧ m = l := by
    constructor
    · intro h
      unfold fifoKey at h
      have h2 : r.code = q.code ∧ m = l := by omega
      refine ⟨?_, h2.2⟩
      have := h2.1; revert this; cases r <;> cases q <;> decide
    · rintro ⟨rfl, rfl⟩; rfl
  simp only [Warp.getFifo, Warp.setFifo, Tab.getD]
  split
  · rw [Tab.get?_del]
    by_cases h : fifoKey r m = fifoKey q l
    · rw [if_pos h, if_pos (hk.1 h)]; simp_all
    · rw [if_neg h, if_neg (fun g => h (hk.2 g))]
  · rw [Tab.get?_put]
    by_cases h : fifoKey r m = fifoKey q l
    · rw [if_pos h, if_pos (hk.1 h)]; rfl
    · rw [if_neg h, if_neg (fun g => h (hk.2 g))]

theorem Warp.pc_setPcs (w : Warp) (m : LaneMask) (x : Word) (l : Nat) (hl : l < 32) :
    (w.setPcs m x).pc l = if m.getLsbD l then x else w.pc l := by
  simp [Warp.setPcs, Warp.pc, List.getD, hl]

/-! ## Bytes of memory -/

theorem State.byteAt_memFill (s : State) (loc x : Nat) (bs : List Byte) :
    (s.memFill loc bs).byteAt x = if loc ≤ x ∧ x < loc + bs.length then bs.getD (x - loc) 0#8 else s.byteAt x := by
  simp only [State.byteAt, State.memFill, Sparse.get_fill]

/-- A fill changes the LLC and what HBM holds, no byte at its point of coherence. -/
theorem State.llcFill_rest (s : State) (f : Filler) (line : Nat) :
    let t := s.llcFill f line
    t = { s with llc := t.llc, hbmOld := t.hbmOld, llcFills := t.llcFills } := by
  simp only [State.llcFill]
  split <;> rfl

@[simp] theorem State.llcFill_mem (s : State) (f : Filler) (line : Nat) : (s.llcFill f line).mem = s.mem := by
  rw [State.llcFill_rest]

/-- Taking a line from the stashes changes gangs alone. -/
theorem State.takeLine_rest (s : State) (gid : Option Nat) (line : Nat) :
    s.takeLine gid line = { s with gangs := (s.takeLine gid line).gangs } := by
  unfold State.takeLine
  split <;> rfl

@[simp] theorem wakeSigLine_mem (s : State) (line : Nat) : (wakeSigLine s line).mem = s.mem := rfl

@[simp] theorem State.storeLoc_mem (s : State) (loc : Nat) (bs : List Byte) (who : Option (Nat × Nat)) (f : Filler)
    (gid : Option Nat) : (s.storeLoc loc bs who f gid).mem = (s.memFill loc bs).mem := by
  simp only [State.storeLoc, wakeSigLine_mem]
  rw [State.takeLine_rest]
  simp only [State.memFill, State.llcFill_mem]

theorem Memory.wf_iff (m : List Host.Cell) : Memory.wf m = true ↔ Sparse.wf 0#8 m := by
  induction m with
  | nil => simp [Memory.wf, Sparse.wf, Tab.Sorted]
  | cons a m ih =>
    obtain ⟨x, b⟩ := a
    cases m with
    | nil => simp [Memory.wf, Sparse.wf, Tab.Sorted]
    | cons c m =>
      obtain ⟨y, e⟩ := c
      simp only [Memory.wf, Bool.and_eq_true, ih, Sparse.wf, Tab.Sorted, List.mem_cons, forall_eq_or_imp,
        decide_eq_true_eq]
      constructor
      · rintro ⟨⟨h1, h2⟩, h3, h4, h5⟩; exact ⟨⟨h2, h3⟩, h1, h4, h5⟩
      · rintro ⟨⟨h2, h3⟩, h1, h4, h5⟩; exact ⟨⟨h1, h2⟩, h3, h4, h5⟩

/-- The plain write keeps the canonical form. -/
theorem State.wf_memFill (s : State) (loc : Nat) (bs : List Byte) (h : Memory.wf s.mem = true) :
    Memory.wf (s.memFill loc bs).mem = true :=
  (Memory.wf_iff _).2 (Sparse.wf_fill 0#8 s.mem loc bs ((Memory.wf_iff _).1 h))

/-- A store keeps the canonical form. -/
theorem State.wf_storeLoc (s : State) (loc : Nat) (bs : List Byte) (who : Option (Nat × Nat)) (f : Filler)
    (gid : Option Nat) (h : Memory.wf s.mem = true) : Memory.wf (s.storeLoc loc bs who f gid).mem = true := by
  rw [State.storeLoc_mem]
  exact s.wf_memFill loc bs h

end Sys2Proof.Machine
end

