-- ==== Sys2Proof/Laws/Operands.lean ====
section
/-! SUPPORT. The shared frame of an instruction that computes: with its operands ready every check passes and its
effect is taken. -/

namespace Sys2Proof.Machine

theorem mem_lanesOf (m : LaneMask) (l : Nat) : l ∈ lanesOf m ↔ l < 32 ∧ m.getLsbD l = true := by
  simp [lanesOf]

theorem each_ok {α : Type} (xs : List α) (f : α → Except Stop Unit) (h : ∀ x ∈ xs, f x = .ok ()) :
    each xs f = .ok () := by
  induction xs with
  | nil => rfl
  | cons x xs ih =>
    simp only [each, h x List.mem_cons_self]
    exact ih fun y hy => h y (List.mem_cons_of_mem _ hy)

theorem lanesOf_zero : lanesOf 0#32 = [] := by decide

/-- With every entry at hand and no link closed no port is dead. -/
theorem checkDead_ok {p : Place} {m : LaneMask} {srcs : List Src} {dsts : List (Operand × Nat)}
    (hf : ∀ q l, l ∈ lanesOf m → portCount q srcs ≤ (p.w.getFifo q l).q.length)
    (ho : ∀ q n, (Operand.port q, n) ∈ dsts → m &&& Sparse.get 0#32 p.w.outClosed q.code = 0#32) :
    checkDead p m srcs dsts = .ok () := by
  have h : deadPorts p m srcs dsts = [] := by
    unfold deadPorts
    rw [List.append_eq_nil_iff]
    constructor
    · rw [List.flatMap_eq_nil_iff]
      intro q _
      have : deadLanes p m q (portCount q srcs) = [] := by
        unfold deadLanes
        rw [List.filter_eq_nil_iff]
        intro l hl
        have := hf q l hl
        simp only [Bool.and_eq_true, decide_eq_true_eq, not_and]
        intro hlt; omega
      rw [this]; rfl
    · rw [List.flatMap_eq_nil_iff]
      rintro ⟨o, n⟩ hd
      cases o with
      | port q => simp only [ho q n hd, lanesOf_zero, List.map_nil]
      | _ => rfl
  unfold checkDead
  rw [h]
  rfl

/-- With its operands ready the frame of an instruction takes its effect. -/
theorem withOperands_ready {s : State} {p : Place} {i : Issue} {g : Guard} {srcs : List Src}
    {dsts : List (Operand × Nat)} (h : Ready s p i g srcs dsts) (k : LaneMask → Except Stop State) :
    withOperands s p i g srcs dsts k = (k (activeOf p i g)).map (supersedeLog p i (activeOf p i g) dsts) := by
  have hregs : checkRegs p i (srcRegs srcs ++ dsts) = .ok () := by
    unfold checkRegs
    rw [if_pos]
    exact List.all_eq_true.2 h.regs
  have hbound : checkBound p (srcs.map (·.o) ++ dsts.map (·.1)) = .ok () := by
    unfold checkBound
    rw [if_pos]
    refine List.all_eq_true.2 fun o ho => ?_
    cases o with
    | port q =>
      refine h.bound q ?_
      rw [List.map_append]
      have : (srcRegs srcs).map (·.1) = srcs.map (·.o) := by simp [srcRegs]
      rw [this]; exact ho
    | _ => rfl
  have hdead : checkDead p (activeOf p i g) srcs dsts = .ok () := checkDead_ok h.fed h.out
  have hfut : ∀ k ∈ (srcRegs srcs ++ dsts).flatMap (fun x => futsOf x.1 x.2), p.w.fut.get? k.val = none := by
    intro k hk
    obtain ⟨x, hx, hk⟩ := List.mem_flatMap.1 hk
    exact h.futs x hx k hk
  have hfd : checkFutDead p (activeOf p i g) ((srcRegs srcs ++ dsts).flatMap fun x => futsOf x.1 x.2) = .ok () := by
    unfold checkFutDead
    split
    · rename_i heq
      obtain ⟨k, hk, hf⟩ := List.exists_of_findSome?_eq_some heq
      rw [hfut k hk] at hf; cases hf
    · rfl
  have hfw : checkFutWait p i ((srcRegs srcs ++ dsts).flatMap fun x => futsOf x.1 x.2) = .ok () := by
    unfold checkFutWait
    have : ((srcRegs srcs ++ dsts).flatMap fun x => futsOf x.1 x.2).find? (fun k => p.w.fut.has k.val) = none := by
      rw [List.find?_eq_none]
      intro k hk; simp [Tab.has, hfut k hk]
    rw [this]
  have hlog : checkLog p i (activeOf p i g) (srcRegs srcs) dsts = .ok () := by
    unfold checkLog
    have : (p.w.log.filter fun ke => ke.2.readBy (activeOf p i g) (srcRegs srcs) || ke.2.reusedBy (activeOf p i g) dsts)
        = [] := by
      rw [List.filter_eq_nil_iff]
      intro ke hk
      simp [h.log ke hk]
    rw [this]
  have harv : checkArv s p (srcRegs srcs ++ dsts) = .ok () := by
    unfold checkArv
    rw [if_neg]
    simp only [List.any_eq_true (l := s.arrivals), Bool.and_eq_true, decide_eq_true_eq, not_exists, not_and]
    intro a ha hw hd
    split at hd
    · obtain ⟨x, hx, hm⟩ := List.any_eq_true.1 hd
      rw [h.arv a ha hw _ ‹_› x hx] at hm; cases hm
    · cases hd
  have hfence : checkPushFence p i (activeOf p i g) dsts = .ok () := by
    unfold checkPushFence
    rw [if_neg]
    rw [Bool.and_eq_true, not_and, List.any_eq_true]
    rintro ⟨x, hx, hp⟩
    rw [h.behind x hx hp]
    exact Bool.false_ne_true
  have hrd : (each (srcPorts srcs) fun q => checkPortRd p i (activeOf p i g) q (portCount q srcs)) = .ok () := by
    refine each_ok _ _ fun q _ => ?_
    unfold checkPortRd
    rw [if_pos]
    exact List.all_eq_true.2 fun l hl => decide_eq_true (h.fed q l hl)
  have hwr : (each dsts fun d => checkPortWr s p i (activeOf p i g) d) = .ok () := by
    refine each_ok _ _ fun d hd => ?_
    obtain ⟨o, n⟩ := d
    unfold checkPortWr
    cases o with
    | port q =>
      simp only; rw [if_pos]
      exact List.all_eq_true.2 fun l hl => h.room q n hd l hl
    | _ => rfl
  unfold withOperands
  rw [hregs]
  simp only
  rw [if_neg h.active, hbound]
  simp only
  have hw : checkWaits s p i (activeOf p i g) srcs dsts = .ok () := by
    unfold checkWaits
    simp only [hdead, hfd, hfw, hlog, harv, hfence, hrd, hwr]
  rw [hw]

/-- A superseded result is the only trace that a write leaves in the operand log. -/
theorem logKept_mapV (l : Tab LogEntry) (f : Nat → LogEntry → LogEntry)
    (hf : ∀ k e, ∃ d, f k e = { e with dead := d }) : LogKept l (l.mapV f) := by
  intro k
  rw [Tab.get?_mapV]
  cases h : l.get? k with
  | none => exact ⟨[], rfl⟩
  | some e =>
    obtain ⟨d, hd⟩ := hf k e
    exact ⟨d, congrArg some hd⟩

theorem logKept_refl (l : Tab LogEntry) : LogKept l l := fun k => by
  cases h : l.get? k with
  | none => exact ⟨[], rfl⟩
  | some e => exact ⟨e.dead, rfl⟩

/-- What superseding changes: of the warp itself the operand log, in which it marks results as superseded. -/
theorem supersedeLog_spec (p : Place) (i : Issue) (m : LaneMask) (dsts : List (Operand × Nat)) (t : State) :
    let u := supersedeLog p i m dsts t
    u = { t with warps := u.warps } ∧ (∀ k, k ≠ p.key → u.warps.get? k = t.warps.get? k)
    ∧ ∀ w, t.warps.get? p.key = some w → ∃ l, u.warps.get? p.key = some { w with log := l } ∧ LogKept w.log l := by
  intro u
  simp only [u, supersedeLog]
  split
  · exact ⟨rfl, fun _ _ => rfl, fun w h => ⟨w.log, h, logKept_refl _⟩⟩
  · refine ⟨rfl, fun k hk => by rw [State.get?_modWarp, if_neg hk], fun w h => ?_⟩
    rw [State.get?_modWarp, if_pos rfl, h]
    simp only [Option.map_some]
    split
    · exact ⟨w.log, rfl, logKept_refl _⟩
    · refine ⟨_, rfl, logKept_mapV _ _ fun k e => ?_⟩
      split
      · exact ⟨_, rfl⟩
      · exact ⟨e.dead, rfl⟩

/-- An issuing path settles as its instruction says. -/
theorem settle_issuing {s : State} {p : Place} {i : Issue} (h : Issuing s p i) (f : Place → Issue → Except Stop State) :
    settle s f = match f p i with
      | .ok t => .next t
      | .error e => .next (applyStop s p i e) := by
  unfold settle
  rw [h.1]; simp only [h.2] <;> cases f p i <;> rfl

end Sys2Proof.Machine
end

