-- ==== Sys2Proof/Laws/Consume.lean ====
section
/-! SUPPORT. What reading the sources, counting events, writing a destination, drawing a price and retiring do,
each said once. -/

namespace Sys2Proof.Machine

theorem nodup_lanesOf (m : LaneMask) : (lanesOf m).Nodup := List.Pairwise.filter _ List.nodup_range
theorem nodup_srcPorts (xs : List Src) : (srcPorts xs).Nodup := List.Pairwise.filter _ (by decide)

/-! ## Ports popped -/

theorem popLanes_getFifo (q : Port) (n : Nat) (ls : List Nat) (hn : ls.Nodup) (hl : ∀ l ∈ ls, l < 32) (w : Warp)
    (r : Port) (m : Nat) (hm : m < 32) :
    (ls.foldl (fun w l =>
      let f := w.getFifo q l
      w.setFifo q l { f with q := f.q.drop n }) w).getFifo r m
      = { w.getFifo r m with q := (w.getFifo r m).q.drop (if r = q ∧ m ∈ ls then n else 0) } := by
  induction ls generalizing w with
  | nil => simp
  | cons a ls ih =>
    have ha := hl a List.mem_cons_self
    rw [List.nodup_cons] at hn
    simp only [List.foldl_cons]
    rw [ih hn.2 (fun l h => hl l (List.mem_cons_of_mem _ h)), Warp.getFifo_setFifo w q r a m _ ha hm]
    by_cases h : r = q ∧ m = a
    · obtain ⟨rfl, rfl⟩ := h
      simp [hn.1]
    · rw [if_neg h]
      have : (r = q ∧ m ∈ ls) ↔ (r = q ∧ m ∈ a :: ls) := by
        simp only [List.mem_cons]
        constructor
        · rintro ⟨h1, h2⟩; exact ⟨h1, .inr h2⟩
        · rintro ⟨h1, h2 | h2⟩
          · exact absurd ⟨h1, h2⟩ h
          · exact ⟨h1, h2⟩
      simp only [this]

theorem popLanes_rest (q : Port) (n : Nat) (ls : List Nat) (w : Warp) :
    (ls.foldl (fun w l =>
      let f := w.getFifo q l
      w.setFifo q l { f with q := f.q.drop n }) w)
      = { w with fifo := (ls.foldl (fun w l =>
          let f := w.getFifo q l
          w.setFifo q l { f with q := f.q.drop n }) w).fifo } := by
  induction ls generalizing w with
  | nil => rfl
  | cons a ls ih => simp only [List.foldl_cons]; exact ih _

theorem popSrcs_rest (w : Warp) (m : LaneMask) (xs : List Src) :
    popSrcs w m xs = { w with fifo := (popSrcs w m xs).fifo } := by
  unfold popSrcs
  generalize srcPorts xs = ps
  induction ps generalizing w with
  | nil => rfl
  | cons q ps ih =>
    simp only [List.foldl_cons]
    rw [ih, popLanes_rest]

theorem popSrcs_getFifo (w : Warp) (m : LaneMask) (xs : List Src) (r : Port) (l : Nat) (hl : l < 32) :
    (popSrcs w m xs).getFifo r l
      = { w.getFifo r l with q := (w.getFifo r l).q.drop (if m.getLsbD l then portCount r xs else 0) } := by
  have gen : ∀ (ps : List Port) (w : Warp), ps.Nodup → (ps.foldl (fun w q => (lanesOf m).foldl (fun w l =>
      let f := w.getFifo q l
      w.setFifo q l { f with q := f.q.drop (portCount q xs) }) w) w).getFifo r l
        = { w.getFifo r l with q := (w.getFifo r l).q.drop (if r ∈ ps ∧ m.getLsbD l = true then portCount r xs else 0) } := by
    intro ps
    induction ps with
    | nil => intro w _; simp
    | cons q ps ih =>
      intro w hn
      rw [List.nodup_cons] at hn
      simp only [List.foldl_cons]
      rw [ih _ hn.2, popLanes_getFifo q _ _ (nodup_lanesOf m) (fun l h => ((mem_lanesOf m l).1 h).1) w r l hl]
      by_cases hq : r = q
      · subst hq
        by_cases hm : m.getLsbD l = true
        · simp [hn.1, mem_lanesOf, hl, hm]
        · simp [mem_lanesOf, hm]
      · simp [hq]
  unfold popSrcs
  rw [gen _ w (nodup_srcPorts xs)]
  by_cases hm : m.getLsbD l = true
  · by_cases hc : portCount r xs = 0
    · simp [hc]
    · have : r ∈ srcPorts xs := by
        simp only [srcPorts, List.mem_filter, decide_eq_true_eq]
        exact ⟨by cases r <;> decide, hc⟩
      simp [hm, this]
  · simp [hm]

/-! ## Sources read -/

theorem consume_spec {s : State} {p : Place} {w0 : Warp} (m : LaneMask) (xs : List Src)
    (hw : s.warps.get? p.key = some w0) :
    let t := s.consume p m xs
    (∃ w, t.warps.get? p.key = some w ∧ w = { w0 with fifo := w.fifo, marks := w.marks }
      ∧ ∀ q l, l < 32 → w.getFifo q l
          = { w0.getFifo q l with q := (w0.getFifo q l).q.drop (if m.getLsbD l then portCount q xs else 0) })
    ∧ (∀ k, k ≠ p.key → t.warps.get? k = s.warps.get? k)
    ∧ t = { s with warps := t.warps, cores := t.cores, grids := t.grids }
    ∧ (∀ k, k ≠ p.t.core → t.core k = s.core k)
    ∧ t.core p.t.core = { s.core p.t.core with
        bgwait := (t.core p.t.core).bgwait, grants := (t.core p.t.core).grants, poison := (t.core p.t.core).poison }
    ∧ ∀ k, ∃ n, t.grids.get? k = (s.grids.get? k).map fun g => { g with poison := n } := by
  intro t
  -- the three stages
  let s1 : State := if grantNeed xs = 0 then s
    else s.modCore p.t.core fun c => c.takeGrants (s.coreCc p.t.core) (grantLimit s p.t.core) (grantNeed xs)
  let s2 : State := if srcPorts xs = [] then s1 else s1.modWarp p.key fun w => popSrcs w m xs
  have ht : t = s2.readMarks p (xs.flatMap (srcMarks m)) := rfl
  have h1w : s1.warps = s.warps := by simp only [s1]; split <;> rfl
  have h1r : s1 = { s with cores := s1.cores } := by simp only [s1]; split <;> rfl
  have h1c : ∀ k, k ≠ p.t.core → s1.core k = s.core k := by
    intro k hk; simp only [s1]; split
    · rfl
    · rw [State.core_modCore, if_neg hk]
  have h1d : s1.core p.t.core = { s.core p.t.core with
      bgwait := (s1.core p.t.core).bgwait, grants := (s1.core p.t.core).grants } := by
    simp only [s1]; split
    · rfl
    · rw [State.core_modCore, if_pos rfl]; rfl
  have h2r : s2 = { s1 with warps := s2.warps } := by simp only [s2]; split <;> rfl
  have h2w : ∃ w, s2.warps.get? p.key = some w ∧ w = { w0 with fifo := w.fifo }
      ∧ ∀ q l, l < 32 → w.getFifo q l
          = { w0.getFifo q l with q := (w0.getFifo q l).q.drop (if m.getLsbD l then portCount q xs else 0) } := by
    simp only [s2]; split
    · refine ⟨w0, by rw [h1w]; exact hw, rfl, ?_⟩
      intro q l hl
      have : portCount q xs = 0 := by
        apply Classical.byContradiction; intro hc
        have : q ∈ srcPorts xs := by
          simp only [srcPorts, List.mem_filter, decide_eq_true_eq]
          exact ⟨by cases q <;> decide, hc⟩
        rw [‹srcPorts xs = []›] at this; cases this
      simp [this]
    · refine ⟨popSrcs w0 m xs, ?_, popSrcs_rest w0 m xs, fun q l hl => popSrcs_getFifo w0 m xs q l hl⟩
      rw [State.get?_modWarp, if_pos rfl, h1w, hw]; rfl
  have h2k : ∀ k, k ≠ p.key → s2.warps.get? k = s.warps.get? k := by
    intro k hk; simp only [s2]; split
    · rw [h1w]
    · rw [State.get?_modWarp, if_neg hk, h1w]
  have h2c : s2.cores = s1.cores := by rw [h2r]
  have h2g : s2.grids = s.grids := by rw [h2r]; simp only; rw [h1r]
  obtain ⟨w2, hw2, hr2, hf2⟩ := h2w
  by_cases hm : p.w.marks = []
  · have ht2 : t = s2 := by rw [ht]; unfold State.readMarks; rw [if_pos hm]
    rw [ht2]
    refine ⟨⟨w2, hw2, ?_, hf2⟩, h2k, ?_, ?_, ?_, ?_⟩
    · have : w2.marks = w0.marks := by rw [hr2]
      rw [this]; exact hr2
    · have : s2 = { s with warps := s2.warps, cores := s2.cores } := by
        conv => lhs; rw [h2r, h1r]
        rw [h2c]
      rw [h2g]; exact this
    · intro k hk; rw [State.core_of_cores h2c]; exact h1c k hk
    · rw [State.core_of_cores h2c]
      have : (s1.core p.t.core).poison = (s.core p.t.core).poison := by rw [h1d]
      rw [this]; exact h1d
    · intro k; rw [h2g]
      cases hg : s.grids.get? k with
      | none => exact ⟨0, rfl⟩
      | some g => exact ⟨g.poison, rfl⟩
  · -- marks are read
    let hit := p.w.marks.keys.filter (xs.flatMap (srcMarks m)).contains
    let s3 : State := s2.modWarp p.key fun w => { w with marks := hit.foldl (fun t k => t.del k) w.marks }
    have ht3 : t = s3.addPoison p.t.core p.g.grid hit.length := by rw [ht]; unfold State.readMarks; rw [if_neg hm]
    have h3w : s3.warps.get? p.key = some { w2 with marks := hit.foldl (fun t k => t.del k) w2.marks } := by
      simp only [s3]; rw [State.get?_modWarp, if_pos rfl, hw2]; rfl
    have h3k : ∀ k, k ≠ p.key → s3.warps.get? k = s.warps.get? k := by
      intro k hk; simp only [s3]; rw [State.get?_modWarp, if_neg hk]; exact h2k k hk
    have htw : t.warps = s3.warps := by
      rw [ht3]; unfold State.addPoison; split <;> rfl
    have htr : t = { s3 with cores := t.cores, grids := t.grids } := by
      rw [ht3]; unfold State.addPoison; split <;> rfl
    have htc : ∀ k, k ≠ p.t.core → t.core k = s3.core k := by
      intro k hk; rw [ht3]; unfold State.addPoison; split
      · rfl
      · rw [State.core_of_cores (State.modGrid_cores _ _ _), State.core_modCore, if_neg hk]
    have htd : t.core p.t.core = { s3.core p.t.core with poison := (t.core p.t.core).poison } := by
      rw [ht3]; unfold State.addPoison; split
      · rfl
      · rw [State.core_of_cores (State.modGrid_cores _ _ _), State.core_modCore, if_pos rfl]
    have htg : ∀ k, ∃ n, t.grids.get? k = (s3.grids.get? k).map fun g => { g with poison := n } := by
      intro k
      have keep : ∃ n, s3.grids.get? k = (s3.grids.get? k).map fun g => { g with poison := n } := by
        cases hg : s3.grids.get? k with
        | none => exact ⟨0, rfl⟩
        | some g => exact ⟨g.poison, rfl⟩
      rw [ht3]; unfold State.addPoison; split
      · exact keep
      · rw [State.get?_modGrid]; split
        · subst_vars
          simp only [State.modCore_grids]
          cases hg : s3.grids.get? p.g.grid.toNat with
          | none => exact ⟨0, rfl⟩
          | some g => exact ⟨_, rfl⟩
        · simp only [State.modCore_grids]; exact keep
    have h3c : s3.cores = s1.cores := by simp only [s3]; exact h2c
    have h3g : s3.grids = s.grids := by simp only [s3]; exact h2g
    have h3r : s3 = { s with warps := s3.warps, cores := s3.cores } := by
      have : s3 = { s2 with warps := s3.warps } := rfl
      conv => lhs; rw [this, h2r, h1r]
      rw [h3c]
    refine ⟨⟨_, by rw [htw]; exact h3w, ?_, ?_⟩, ?_, ?_, ?_, ?_, ?_⟩
    · rw [hr2]
    · intro q l hl
      exact hf2 q l hl
    · intro k hk; rw [htw]; exact h3k k hk
    · conv => lhs; rw [htr, h3r]
      rw [htw]
    · intro k hk; rw [htc k hk, State.core_of_cores h3c]; exact h1c k hk
    · rw [htd, State.core_of_cores h3c, h1d]
    · intro k
      obtain ⟨n, hn⟩ := htg k
      exact ⟨n, by rw [hn, h3g]⟩

end Sys2Proof.Machine
end

