-- ==== Sys2Proof/Laws/Alu.lean ====
section
/-! SUPPORT. The lane-wise instructions: a result written, a path retired, and the one law that says what every
instruction built on `runAlu` and `runTest` does when its operands are ready. -/

namespace Sys2Proof.Machine

/-! ## Words written to registers -/

theorem setVs_getV_aux (xs : List Word) (w : Warp) (r j lane q m : Nat) (hl : lane < 32) (hm : m < 32) :
    ((xs.zipIdx j).foldl (fun w xj => w.setV (r + xj.2) lane xj.1) w).getV q m
      = if m = lane ∧ r + j ≤ q ∧ q < r + j + xs.length then xs.getD (q - (r + j)) 0#32 else w.getV q m := by
  induction xs generalizing w j with
  | nil => rw [if_neg (by simp only [List.length_nil]; omega)]; rfl
  | cons x xs ih =>
    simp only [List.zipIdx_cons, List.foldl_cons, List.length_cons]
    rw [ih, Warp.getV_setV w _ _ _ _ _ hl hm]
    by_cases h1 : m = lane ∧ r + (j + 1) ≤ q ∧ q < r + (j + 1) + xs.length
    · rw [if_pos h1, if_pos (by omega), show q - (r + j) = (q - (r + (j + 1))) + 1 by omega]; rfl
    · rw [if_neg h1]
      by_cases h2 : q = r + j ∧ m = lane
      · rw [if_pos h2, if_pos (by omega), show q - (r + j) = 0 by omega]; rfl
      · rw [if_neg h2, if_neg (by omega)]

theorem setVs_getV (w : Warp) (r lane q m : Nat) (xs : List Word) (hl : lane < 32) (hm : m < 32) :
    (w.setVs r lane xs).getV q m
      = if m = lane ∧ r ≤ q ∧ q < r + xs.length then xs.getD (q - r) 0#32 else w.getV q m :=
  setVs_getV_aux xs w r 0 lane q m hl hm

theorem setVs_rest (w : Warp) (r lane : Nat) (xs : List Word) :
    w.setVs r lane xs = { w with v := (w.setVs r lane xs).v, marks := (w.setVs r lane xs).marks } := by
  unfold Warp.setVs
  generalize xs.zipIdx = ys
  induction ys generalizing w with
  | nil => rfl
  | cons y ys ih => simp only [List.foldl_cons]; exact ih _

theorem setUs_getU_aux (xs : List Word) (w : Warp) (r j q : Nat) :
    ((xs.zipIdx j).foldl (fun w xj => w.setU (r + xj.2) xj.1) w).getU q
      = if r + j ≤ q ∧ q < r + j + xs.length then xs.getD (q - (r + j)) 0#32 else w.getU q := by
  induction xs generalizing w j with
  | nil => rw [if_neg (by simp only [List.length_nil]; omega)]; rfl
  | cons x xs ih =>
    simp only [List.zipIdx_cons, List.foldl_cons, List.length_cons]
    rw [ih, Warp.getU_setU]
    by_cases h1 : r + (j + 1) ≤ q ∧ q < r + (j + 1) + xs.length
    · rw [if_pos h1, if_pos (by omega), show q - (r + j) = (q - (r + (j + 1))) + 1 by omega]; rfl
    · rw [if_neg h1]
      by_cases h2 : q = r + j
      · rw [if_pos h2, if_pos (by omega), show q - (r + j) = 0 by omega]; rfl
      · rw [if_neg h2, if_neg (by omega)]

theorem setUs_getU (w : Warp) (r q : Nat) (xs : List Word) :
    (w.setUs r xs).getU q = if r ≤ q ∧ q < r + xs.length then xs.getD (q - r) 0#32 else w.getU q :=
  setUs_getU_aux xs w r 0 q

theorem setUs_rest (w : Warp) (r : Nat) (xs : List Word) : w.setUs r xs = { w with u := (w.setUs r xs).u, marks := (w.setUs r xs).marks } := by
  unfold Warp.setUs
  generalize xs.zipIdx = ys
  induction ys generalizing w with
  | nil => rfl
  | cons y ys ih => simp only [List.foldl_cons]; exact ih _

theorem setLanes_getV (ls : List Nat) (hn : ls.Nodup) (hl : ∀ l ∈ ls, l < 32) (r n : Nat) (val : Nat → List Word)
    (hv : ∀ l ∈ ls, (val l).length = n) (w : Warp) (q m : Nat) (hm : m < 32) :
    (ls.foldl (fun w l => w.setVs r l (val l)) w).getV q m
      = if m ∈ ls ∧ r ≤ q ∧ q < r + n then (val m).getD (q - r) 0#32 else w.getV q m := by
  induction ls generalizing w with
  | nil => simp
  | cons a ls ih =>
    rw [List.nodup_cons] at hn
    simp only [List.foldl_cons]
    rw [ih hn.2 (fun l h => hl l (List.mem_cons_of_mem _ h)) (fun l h => hv l (List.mem_cons_of_mem _ h)),
      setVs_getV w r a q m _ (hl a List.mem_cons_self) hm, hv a List.mem_cons_self]
    by_cases h1 : m = a
    · subst h1
      simp [hn.1]
    · simp [h1]

theorem setLanes_rest (ls : List Nat) (r : Nat) (val : Nat → List Word) (w : Warp) :
    ls.foldl (fun w l => w.setVs r l (val l)) w
      = { w with v := (ls.foldl (fun w l => w.setVs r l (val l)) w).v, marks := (ls.foldl (fun w l => w.setVs r l (val l)) w).marks } := by
  induction ls generalizing w with
  | nil => rfl
  | cons a ls ih =>
    simp only [List.foldl_cons]
    rw [ih, setVs_rest]

/-! ## Pushes -/

theorem push_trans {s u t : State} (a : u = { s with cores := u.cores, flight := u.flight })
    (b : t = { u with cores := t.cores, flight := t.flight }) : t = { s with cores := t.cores, flight := t.flight } :=
  b.trans (by rw [a])

theorem qdrop_trans {a b c : Core} (h : b = { a with qdrop := b.qdrop }) (g : c = { b with qdrop := c.qdrop }) :
    c = { a with qdrop := c.qdrop } := g.trans (by rw [h])

/-- A push depends on the objects that name its peer, and on the peer's exit and pins, alone. -/
theorem push_spec (s : State) (p : Place) (q : Port) (l : Nat) (x : Word) :
    let t := s.push p q l x
    t = { s with cores := t.cores, flight := t.flight }
    ∧ (∀ k, k ≠ p.t.core → t.core k = s.core k)
    ∧ t.core p.t.core = { s.core p.t.core with qdrop := (t.core p.t.core).qdrop }
    ∧ t.flight = s.flight ++ (match s.peer p q l with
        | some (w, pq, pl) => if s.peerGone w pl || s.qdDown p.t.core q then [] else [⟨w, pq, pl, some x, 0⟩]
        | none => []) := by
  intro t
  simp only [t, State.push]
  cases s.peer p q l with
  | none => exact ⟨rfl, fun _ _ => rfl, rfl, (List.append_nil _).symm⟩
  | some a =>
    obtain ⟨w, pq, pl⟩ := a
    simp only
    split
    · refine ⟨rfl, fun k hk => ?_, ?_, (List.append_nil _).symm⟩
      · rw [State.core_modCore, if_neg hk]
      · rw [State.core_modCore, if_pos rfl]
    · exact ⟨rfl, fun _ _ => rfl, rfl, rfl⟩

theorem peer_congr {s t : State} (hg : t.gangs = s.gangs) (p : Place) (q : Port) (l : Nat) : t.peer p q l = s.peer p q l := by
  unfold State.peer
  rw [hg]

theorem qdDown_congr {s t : State} (hf : t.fused = s.fused) (hd : t.dies = s.dies) (hl : t.links = s.links) (c : Nat) (q : Port) :
    t.qdDown c q = s.qdDown c q := by
  have h1 : ∀ d, t.dieFailed d = s.dieFailed d := by intro d; simp [State.dieFailed, State.die, hf, hd]
  have h2 : ∀ c, classDies t c = classDies s c := by intro c; simp [classDies, hf, h1]
  have h3 : ∀ d, nextDie t d = nextDie s d := by intro d; simp [nextDie, h2, hf]
  have h4 : ∀ d, prevDie t d = prevDie s d := by intro d; simp [prevDie, h2, h3, hf]
  unfold State.qdDown qdLinks
  simp only [h3, h4, State.link, hl]
  rfl

theorem peerGone_congr {s t : State} {k l : Nat}
    (h : (t.warps.get? k).map (fun w => (w.exited, w.pins)) = (s.warps.get? k).map fun w => (w.exited, w.pins)) :
    t.peerGone k l = s.peerGone k l := by
  unfold State.peerGone
  cases ht : t.warps.get? k <;> cases hs : s.warps.get? k <;> simp_all

/-- Pushes of one lane. -/
theorem pushList_spec (p : Place) (q : Port) (l : Nat) (xs : List Word) (s : State) :
    let t := xs.foldl (fun s x => s.push p q l x) s
    t = { s with cores := t.cores, flight := t.flight }
    ∧ (∀ k, k ≠ p.t.core → t.core k = s.core k)
    ∧ t.core p.t.core = { s.core p.t.core with qdrop := (t.core p.t.core).qdrop }
    ∧ t.flight = s.flight ++ xs.filterMap fun x => match s.peer p q l with
        | some (w, pq, pl) => if s.peerGone w pl || s.qdDown p.t.core q then none else some ⟨w, pq, pl, some x, 0⟩
        | none => none := by
  induction xs generalizing s with
  | nil => exact ⟨rfl, fun _ _ => rfl, rfl, (List.append_nil _).symm⟩
  | cons x xs ih =>
    intro t
    obtain ⟨a1, a2, a3, a4⟩ := push_spec s p q l x
    obtain ⟨b1, b2, b3, b4⟩ := ih (s.push p q l x)
    have hp : ∀ q' l', (s.push p q l x).peer p q' l' = s.peer p q' l' := by
      intro q' l'; apply peer_congr <;> rw [a1]
    have hg : ∀ w pl, (s.push p q l x).peerGone w pl = s.peerGone w pl := by
      intro w pl; apply peerGone_congr; rw [a1]
    have hd : (s.push p q l x).qdDown p.t.core q = s.qdDown p.t.core q := by
      apply qdDown_congr <;> rw [a1]
    refine ⟨?_, ?_, ?_, ?_⟩
    · exact push_trans a1 b1
    · intro k hk; exact (b2 k hk).trans (a2 k hk)
    · exact qdrop_trans a3 b3
    · show (List.foldl _ (s.push p q l x) xs).flight = _
      rw [b4, a4, List.append_assoc]
      congr 1
      rw [List.filterMap_cons, hp]
      cases s.peer p q l with
      | none => rfl
      | some a =>
        obtain ⟨w, pq, pl⟩ := a
        simp only [hg, hd]
        split <;> simp

theorem pushLanes_spec (p : Place) (q : Port) (val : Nat → List Word) (ls : List Nat) (s : State) :
    let t := ls.foldl (fun s l => (val l).foldl (fun s x => s.push p q l x) s) s
    t = { s with cores := t.cores, flight := t.flight }
    ∧ (∀ k, k ≠ p.t.core → t.core k = s.core k)
    ∧ t.core p.t.core = { s.core p.t.core with qdrop := (t.core p.t.core).qdrop }
    ∧ t.flight = s.flight ++ ls.flatMap fun l => (val l).filterMap fun x => match s.peer p q l with
        | some (w, pq, pl) => if s.peerGone w pl || s.qdDown p.t.core q then none else some ⟨w, pq, pl, some x, 0⟩
        | none => none := by
  induction ls generalizing s with
  | nil => exact ⟨rfl, fun _ _ => rfl, rfl, (List.append_nil _).symm⟩
  | cons l ls ih =>
    intro t
    obtain ⟨a1, a2, a3, a4⟩ := pushList_spec p q l (val l) s
    obtain ⟨b1, b2, b3, b4⟩ := ih ((val l).foldl (fun s x => s.push p q l x) s)
    have hp : ∀ q' l', ((val l).foldl (fun s x => s.push p q l x) s).peer p q' l' = s.peer p q' l' := by
      intro q' l'; apply peer_congr <;> (first | (rw [a1]))
    have hg : ∀ w pl, ((val l).foldl (fun s x => s.push p q l x) s).peerGone w pl = s.peerGone w pl := by
      intro w pl; apply peerGone_congr; rw [a1]
    have hd : ((val l).foldl (fun s x => s.push p q l x) s).qdDown p.t.core q = s.qdDown p.t.core q := by
      apply qdDown_congr <;> rw [a1]
    refine ⟨?_, ?_, ?_, ?_⟩
    · exact push_trans a1 b1
    · intro k hk; exact (b2 k hk).trans (a2 k hk)
    · exact qdrop_trans a3 b3
    · show (List.foldl _ ((val l).foldl _ s) ls).flight = _
      rw [b4, a4, List.append_assoc, List.flatMap_cons]
      simp only [hp, hg, hd]

/-! ## Events, prices and retirement -/

theorem count_spec (s : State) (c : Nat) (n : Counts) :
    let t := s.count c n
    t = { s with cores := t.cores } ∧ (∀ k, k ≠ c → t.core k = s.core k)
    ∧ t.core c = { s.core c with
        lsat := (s.core c).lsat + BitVec.ofNat 32 n.lsat, t2inv := (s.core c).t2inv + BitVec.ofNat 32 n.t2inv
        zwrap := (s.core c).zwrap + BitVec.ofNat 32 n.zwrap, cvsat := (s.core c).cvsat + BitVec.ofNat 32 n.cvsat } := by
  intro t
  simp only [t, State.count]
  split
  · subst_vars
    exact ⟨rfl, fun _ _ => rfl, by simp [Counts.none]⟩
  · refine ⟨rfl, fun k hk => ?_, ?_⟩
    · rw [State.core_modCore, if_neg hk]
    · rw [State.core_modCore, if_pos rfl]

/-- What a payable price leaves. -/
theorem drawPrice_spec {s : State} {p : Place} {price : Nat} (h : Payable s p price)
    (hw : s.warps.get? p.key = some p.w) :
    ∃ t, drawPrice s p.t.core p.key price = some t
      ∧ t = { s with warps := t.warps, cores := t.cores }
      ∧ t.warps.get? p.key = some { p.w with tempoSince := if price = 0 then p.w.tempoSince else none }
      ∧ (∀ k, k ≠ p.key → t.warps.get? k = s.warps.get? k)
      ∧ (∀ k, k ≠ p.t.core → t.core k = s.core k)
      ∧ t.core p.t.core = { s.core p.t.core with
          pool := (s.core p.t.core).pool - price, drawn := (s.core p.t.core).drawn + price
          demandNow := (s.core p.t.core).demandNow || decide (price ≠ 0)
          critical := if price = 0 then (s.core p.t.core).critical else (s.core p.t.core).critical.filter (· ≠ p.key) } := by
  unfold drawPrice
  by_cases h0 : price = 0
  · refine ⟨s, by rw [if_pos h0], rfl, ?_, fun _ _ => rfl, fun _ _ => rfl, ?_⟩
    · rw [if_pos h0]; exact hw
    · simp [h0]
  · have hp := h.resolve_left h0
    refine ⟨_, by rw [if_neg h0, if_pos hp], rfl, ?_, ?_, ?_, ?_⟩
    · rw [State.get?_modWarp, if_pos rfl, State.modCore_warps, hw, if_neg h0]; rfl
    · intro k hk; rw [State.get?_modWarp, if_neg hk]; rfl
    · intro k hk
      rw [State.core_of_cores (State.modWarp_cores _ _ _), State.core_modCore, if_neg hk]
    · rw [State.core_of_cores (State.modWarp_cores _ _ _), State.core_modCore, if_pos rfl, if_neg h0]
      simp [h0]

theorem stepOver_rest (w : Warp) (m : LaneMask) (pc : Word) (len : Nat) (last : Bool) :
    let x := w.stepOver m pc len last
    x = { w with pcv := x.pcv, bpExempt := x.bpExempt, entering := x.entering, inside := x.inside }
    ∧ ∀ l, l < 32 → x.pc l = if m.getLsbD l then pc + BitVec.ofNat 32 len else w.pc l := by
  intro x
  simp only [x, Warp.stepOver]
  split
  · exact ⟨rfl, fun l hl => Warp.pc_setPcs w m _ l hl⟩
  · exact ⟨rfl, fun l hl => Warp.pc_setPcs w m _ l hl⟩

end Sys2Proof.Machine
end

