-- ==== Sys2Proof/Laws/Compute.lean ====
section
/-! SUPPORT. The one law of the instructions that compute: with operands ready and the price payable they answer a
next state, and `Computed` says what it holds. -/

namespace Sys2Proof.Machine

theorem push_warps {s t : State} (h : t = { s with cores := t.cores, flight := t.flight }) : t.warps = s.warps := by
  rw [h]

theorem push_weaken {s t : State} (h : t = { s with cores := t.cores, flight := t.flight }) :
    t = { s with warps := t.warps, cores := t.cores, flight := t.flight } := by
  have := push_warps h
  exact h.trans (by rw [this])

/-- What a write of a destination does. -/
theorem writeOp_spec {s : State} {p : Place} {w0 : Warp} (active : LaneMask) (d : Operand) (n : Nat)
    (val : Nat → List Word) (hw : s.warps.get? p.key = some w0) (ha : active ≠ 0#32)
    (hn : ∀ l ∈ lanesOf active, (val l).length = n) :
    let t := s.writeOp p active d val
    t = { s with warps := t.warps, cores := t.cores, flight := t.flight }
    ∧ (∀ k, k ≠ p.key → t.warps.get? k = s.warps.get? k)
    ∧ (∀ k, k ≠ p.t.core → t.core k = s.core k)
    ∧ t.core p.t.core = { s.core p.t.core with qdrop := (t.core p.t.core).qdrop }
    ∧ t.flight = s.flight ++ portPushes s p active d val
    ∧ ∃ w, t.warps.get? p.key = some w ∧ w = { w0 with v := w.v, u := w.u, marks := w.marks }
      ∧ (∀ q l, l < 32 → w.getV q l = match d with
          | .v r => if active.getLsbD l ∧ r.val ≤ q ∧ q < r.val + n then (val l).getD (q - r.val) 0#32 else w0.getV q l
          | _ => w0.getV q l)
      ∧ (∀ q, w.getU q = match d with
          | .s r => if r.val ≤ q ∧ q < r.val + n then (val (lowLane active)).getD (q - r.val) 0#32 else w0.getU q
          | _ => w0.getU q) := by
  intro t
  cases d with
  | v r =>
    simp only [t, State.writeOp, portPushes]
    refine ⟨rfl, ?_, fun _ _ => rfl, rfl, (List.append_nil _).symm, (lanesOf active).foldl (fun w l => w.setVs r.val l (val l)) w0, ?_, ?_, ?_, ?_⟩
    · intro k hk; rw [State.get?_modWarp, if_neg hk]
    · rw [State.get?_modWarp, if_pos rfl, hw]; rfl
    · rw [setLanes_rest]
    · intro q l hl
      rw [setLanes_getV _ (nodup_lanesOf _) (fun l h => ((mem_lanesOf active l).1 h).1) _ n _ hn _ q l hl]
      simp only [mem_lanesOf, hl, true_and]
    · intro q; rw [setLanes_rest]; rfl
  | s r =>
    simp only [t, State.writeOp, portPushes]
    refine ⟨rfl, ?_, fun _ _ => rfl, rfl, (List.append_nil _).symm, w0.setUs r.val (val (lowLane active)), ?_, ?_, ?_, ?_⟩
    · intro k hk; rw [State.get?_modWarp, if_neg hk]
    · rw [State.get?_modWarp, if_pos rfl, hw]; rfl
    · rw [setUs_rest]
    · intro q l hl; rw [setUs_rest]; rfl
    · intro q
      rw [setUs_getU]
      have hlow : lowLane active ∈ lanesOf active := by
        unfold lowLane
        cases hm : lanesOf active with
        | nil =>
          exfalso; apply ha
          apply BitVec.eq_of_getLsbD_eq
          intro i hi
          have hni : i ∉ lanesOf active := by rw [hm]; exact List.not_mem_nil
          rw [mem_lanesOf] at hni
          simp only [hi, true_and, Bool.not_eq_true] at hni
          rw [hni]; simp
        | cons a l => exact List.mem_cons_self
      rw [hn _ hlow]
  | port q =>
    obtain ⟨a1, a2, a3, a4⟩ := pushLanes_spec p q val (lanesOf active) s
    refine ⟨?_, ?_, a2, a3, a4, w0, ?_, rfl, fun _ _ _ => rfl, fun _ => rfl⟩
    · exact push_weaken a1
    · intro k _; exact congrArg (Tab.get? · k) (push_warps a1)
    · exact (congrArg (Tab.get? · p.key) (push_warps a1)).trans hw
  | spec y =>
    exact ⟨rfl, fun _ _ => rfl, fun _ _ => rfl, rfl, (List.append_nil _).symm, w0, hw, rfl, fun _ _ _ => rfl, fun _ => rfl⟩
  | imm y =>
    exact ⟨rfl, fun _ _ => rfl, fun _ _ => rfl, rfl, (List.append_nil _).symm, w0, hw, rfl, fun _ _ _ => rfl, fun _ => rfl⟩

/-- The state after drawing the price. -/
structure Drawn (s t : State) (p : Place) (price : Nat) : Prop where
  rest : t = { s with warps := t.warps, cores := t.cores }
  warp : t.warps.get? p.key = some { p.w with tempoSince := if price = 0 then p.w.tempoSince else none }
  warps : ∀ k, k ≠ p.key → t.warps.get? k = s.warps.get? k
  cores : ∀ k, k ≠ p.t.core → t.core k = s.core k
  core : t.core p.t.core = { s.core p.t.core with
    pool := (s.core p.t.core).pool - price, drawn := (s.core p.t.core).drawn + price
    demandNow := (s.core p.t.core).demandNow || decide (price ≠ 0)
    critical := if price = 0 then (s.core p.t.core).critical else (s.core p.t.core).critical.filter (· ≠ p.key) }

/-- Two states in which the gangs, the links and the exits and pins of warps are the same send the same entries. -/
theorem portPushes_congr {s t : State} {p : Place} (hf : t.fused = s.fused) (hd : t.dies = s.dies) (hl : t.links = s.links)
    (hg : t.gangs = s.gangs)
    (hw : ∀ k, (t.warps.get? k).map (fun w => (w.exited, w.pins)) = (s.warps.get? k).map fun w => (w.exited, w.pins))
    (active : LaneMask) (d : Operand) (val : Nat → List Word) : portPushes t p active d val = portPushes s p active d val := by
  unfold portPushes
  have h1 := fun q l => peer_congr (p := p) hg q l
  have h2 := fun w l => peerGone_congr (s := s) (t := t) (k := w) (l := l) (hw w)
  have h3 := qdDown_congr hf hd hl
  cases d <;> simp only [h1, h2, h3]

/-- The result of reading sources, counting events, writing one destination and retiring. -/
theorem computed_of_drawn {s s' : State} {p : Place} {i : Issue} {price : Nat} (hd : Drawn s s' p price)
    (hkey : i.w = p.key) (hps : s.warps.get? p.key = some p.w)
    (active rd : LaneMask) (ha : active ≠ 0#32) (srcs : List Src) (d : Operand) (n : Nat) (val : Nat → List Word)
    (hn : ∀ l ∈ lanesOf active, (val l).length = n) (ev : Counts) :
    Computed s ((((s'.consume p rd srcs).count p.t.core ev).writeOp p active d val).retire i)
      p i active rd srcs d n val 7 0#32 price ev := by
  obtain ⟨⟨w1, hw1, hr1, hf1⟩, hk1, hs1, hc1, hd1, hg1⟩ := consume_spec rd srcs hd.warp
  obtain ⟨hs2, hc2, hd2⟩ := count_spec (s'.consume p rd srcs) p.t.core ev
  generalize h1 : s'.consume p rd srcs = s1 at *
  generalize h2 : s1.count p.t.core ev = s2 at *
  have hw2 : s2.warps.get? p.key = some w1 := by rw [hs2]; exact hw1
  obtain ⟨hs3, hk3, hc3, hd3, hfl3, w3, hw3, hr3, hv3, hu3⟩ := writeOp_spec active d n val hw2 ha hn
  generalize h3 : s2.writeOp p active d val = s3 at *
  have hst := stepOver_rest w3 i.path i.pc i.len i.last
  generalize hx : w3.stepOver i.path i.pc i.len i.last = w4 at *
  obtain ⟨hr4, hpc⟩ := hst
  have hw4 : (s3.retire i).warps.get? p.key = some w4 := by
    unfold State.retire; rw [State.get?_modWarp, if_pos hkey.symm, hkey, hw3, ← hx]; rfl
  have hs4 : s3.retire i = { s3 with warps := (s3.retire i).warps } := rfl
  have hcores : ∀ k, (s3.retire i).core k = s3.core k := fun k => rfl
  have hflight : s2.flight = s.flight := by rw [hs2]; simp only; rw [hs1]; simp only; rw [hd.rest]
  have hgrids : (s3.retire i).grids = s1.grids := by
    show s3.grids = _; rw [hs3]; simp only; rw [hs2]
  refine ⟨⟨?_, ?_, ?_, ?_, ?_⟩, ?_, w4, hw4, ?_, ?_, ?_, ?_, ?_, ?_⟩
  · -- everything else
    have e3 : s3 = { s2 with warps := s3.warps, cores := s3.cores, flight := s3.flight } := hs3
    have key : ∀ t : State, t = { s3 with warps := t.warps } →
        t = { s with warps := t.warps, cores := t.cores, grids := t.grids, flight := t.flight, fresh := t.fresh } := by
      intro t htt
      have a1 : t = { s2 with warps := t.warps, cores := t.cores, flight := t.flight } := by
        rw [htt]; simp only; rw [e3]
      have a2 : t = { s1 with warps := t.warps, cores := t.cores, flight := t.flight } := a1.trans (by rw [hs2])
      have a3 : t = { s' with warps := t.warps, cores := t.cores, grids := t.grids, flight := t.flight } := by
        have : t.grids = s1.grids := by rw [a2]
        exact a2.trans (by rw [this]; conv => lhs; rw [hs1])
      have a4 : t = { s with warps := t.warps, cores := t.cores, grids := t.grids, flight := t.flight } :=
        a3.trans (by rw [hd.rest])
      have : t.fresh = s.fresh := by rw [a4]
      exact a4.trans (by rw [this])
    exact key _ hs4
  · intro k hk
    have h4 : (s3.retire i).warps.get? k = s3.warps.get? k := by
      unfold State.retire; rw [State.get?_modWarp, if_neg (by rw [hkey]; exact hk)]
    rw [h4, hk3 k hk]
    have : s2.warps = s1.warps := by rw [hs2]
    rw [this, hk1 k hk]; exact hd.warps k hk
  · intro k hk
    rw [hcores, hc3 k hk, hc2 k hk, hc1 k hk]; exact hd.cores k hk
  · -- the core
    rw [hcores]
    have hq : (s3.core p.t.core) = { s2.core p.t.core with qdrop := (s3.core p.t.core).qdrop } := hd3
    have hb : (s3.core p.t.core).bgwait = (s1.core p.t.core).bgwait := by rw [hq, hd2]
    have hpo : (s3.core p.t.core).poison = (s1.core p.t.core).poison := by rw [hq, hd2]
    have hgr : (s3.core p.t.core).grants = (s1.core p.t.core).grants := by rw [hq, hd2]
    generalize (s3.core p.t.core).qdrop = q at hq ⊢
    rw [hb, hpo, hgr, hq, hd2]
    generalize (s1.core p.t.core).bgwait = b at hd1 ⊢
    generalize (s1.core p.t.core).poison = pz at hd1 ⊢
    generalize (s1.core p.t.core).grants = gr at hd1 ⊢
    rw [hd1, hd.core]
  · intro k
    obtain ⟨m, hm⟩ := hg1 k
    refine ⟨m, ?_⟩
    rw [hgrids, hm]
    have : s'.grids = s.grids := by rw [hd.rest]
    rw [this]
  · -- the pushes
    show s3.flight = _
    rw [hfl3, hflight]
    congr 1
    apply portPushes_congr
    · rw [hs2]; simp only; rw [hs1]; simp only; rw [hd.rest]
    · rw [hs2]; simp only; rw [hs1]; simp only; rw [hd.rest]
    · rw [hs2]; simp only; rw [hs1]; simp only; rw [hd.rest]
    · rw [hs2]; simp only; rw [hs1]; simp only; rw [hd.rest]
    · intro k
      by_cases hk : k = p.key
      · subst hk
        rw [hw2, hps]
        simp only [Option.map_some]; rw [hr1]
      · have : s2.warps = s1.warps := by rw [hs2]
        rw [this, hk1 k hk, hd.warps k hk]
  · have hlog : w4.log = p.w.log := by
      have h1 : w4.log = w3.log := by rw [hr4]
      have h2 : w3.log = w1.log := by rw [hr3]
      have h3 : w1.log = p.w.log := by rw [hr1]
      rw [h1, h2, h3]
    refine ⟨?_, hlog ▸ logKept_refl _⟩
    have a1 : w4 = { w1 with v := w4.v, u := w4.u, marks := w4.marks, pcv := w4.pcv, bpExempt := w4.bpExempt
                             entering := w4.entering, inside := w4.inside } := by
      have hv : w4.v = w3.v := by rw [hr4]
      have hu : w4.u = w3.u := by rw [hr4]
      have hm : w4.marks = w3.marks := by rw [hr4]
      rw [hv, hu, hm]
      exact hr4.trans (by rw [hr3])
    have hf : w4.fifo = w1.fifo := by rw [a1]
    have hp : w4.p = p.w.p := by rw [a1]; simp only; rw [hr1]
    rw [hf, hp, hlog]
    refine a1.trans ?_
    generalize w1.fifo = ff at hr1 ⊢
    generalize w4.marks = mm
    rw [hr1]
  · intro q l hl
    have : w4.getV q l = w3.getV q l := by rw [hr4]; rfl
    rw [this, hv3 q l hl]
    have : w1.getV q l = p.w.getV q l := by rw [hr1]; rfl
    rw [this]; cases d <;> rfl
  · intro q
    have : w4.getU q = w3.getU q := by rw [hr4]; rfl
    rw [this, hu3 q]
    have : w1.getU q = p.w.getU q := by rw [hr1]; rfl
    rw [this]; cases d <;> rfl
  · intro r
    rw [if_neg (by rintro ⟨h, h'⟩; exact h' h)]
    have h1 : w4.p = w1.p := by rw [hr4]; simp only; rw [hr3]
    have h2 : w1.p = p.w.p := by rw [hr1]
    unfold Warp.getP; rw [h1, h2]
  · intro q l hl
    have h1 : w4.fifo = w1.fifo := by rw [hr4]; simp only; rw [hr3]
    have h2 : w4.getFifo q l = w1.getFifo q l := by unfold Warp.getFifo; rw [h1]
    rw [h2, hf1 q l hl]
    exact ⟨rfl, rfl⟩
  · intro l hl
    rw [hpc l hl]
    have h1 : w3.pcv = w1.pcv := by rw [hr3]
    have h2 : w1.pcv = p.w.pcv := by rw [hr1]
    unfold Warp.pc; rw [h1, h2]

/-- Superseding adds nothing to what a computation leaves. -/
theorem Computed.superseded {s t : State} {p : Place} {i : Issue} {active rd : LaneMask} {srcs : List Src} {d : Operand}
    {n : Nat} {val : Nat → List Word} {pd : Fin 8} {m : LaneMask} {price : Nat} {ev : Counts}
    (h : Computed s t p i active rd srcs d n val pd m price ev) (q : LaneMask) (dsts : List (Operand × Nat)) :
    Computed s (supersedeLog p i q dsts t) p i active rd srcs d n val pd m price ev := by
  obtain ⟨hu, hk, hw⟩ := supersedeLog_spec p i q dsts t
  obtain ⟨w, h1, ⟨h2, h2l⟩, h3, h4, h5, h6, h7⟩ := h.warp
  obtain ⟨l, hl1, hl2⟩ := hw w h1
  generalize supersedeLog p i q dsts t = u at *
  have hc : ∀ k, u.core k = t.core k := fun k => State.core_of_cores (by rw [hu]) k
  have hg : u.grids = t.grids := by rw [hu]
  have hf : u.flight = t.flight := by rw [hu]
  have hfr : u.fresh = t.fresh := by rw [hu]
  have hco : u.cores = t.cores := by rw [hu]
  refine ⟨⟨?_, fun k hk' => (hk k hk').trans (h.only.warps k hk'), fun k hk' => (hc k).trans (h.only.cores k hk'), ?_, ?_⟩,
    hf.trans h.flight, { w with log := l }, hl1, ⟨?_, ?_⟩, fun q l hl => ?_, fun q => ?_, h5, h6, h7⟩
  · rw [hco, hg, hf, hfr]
    conv => lhs; rw [hu, h.only.rest]
  · rw [hc]; exact h.only.core
  · intro k; rw [hg]; exact h.only.grids k
  · simp only
    conv => lhs; rw [h2]
  · intro k
    obtain ⟨d1, e1⟩ := h2l k
    obtain ⟨d2, e2⟩ := hl2 k
    refine ⟨d2, ?_⟩
    show l.get? k = _
    rw [e2, e1]
    cases p.w.log.get? k <;> rfl
  · have := h3 q l hl
    cases d <;> exact this
  · have := h4 q
    cases d <;> exact this

theorem drawn_of_payable {s : State} {p : Place} {price : Nat} (h : Payable s p price)
    (hw : s.warps.get? p.key = some p.w) :
    ∃ t, drawPrice s p.t.core p.key price = some t ∧ Drawn s t p price := by
  obtain ⟨t, h0, h1, h2, h3, h4, h5⟩ := drawPrice_spec h hw
  exact ⟨t, h0, h1, h2, h3, h4, h5⟩

/-- What sources supply does not depend on tempi. -/
theorem srcVals_congr {s t : State} (hf : t.fused = s.fused) (hc : t.clusters = s.clusters) (hh : t.hc = s.hc)
    (p : Place) (l : Nat) (before xs : List Src) : srcVals t p l before xs = srcVals s p l before xs := by
  have h1 : ∀ x, specialVal t p l x = specialVal s p l x := by
    intro x
    cases x <;> simp [specialVal, hf, State.coreCc, State.clusterCc, State.cluster, hc, hh]
  induction xs generalizing before with
  | nil => rfl
  | cons x xs ih =>
    simp only [srcVals, ih]
    congr 1
    unfold opWordsOf
    cases x.o <;> simp [h1]

/-- THE LAW of the lane-wise instructions. -/
theorem runAlu_ready {s : State} {p : Place} {i : Issue} {price : Nat} {h : Hd} {srcs : List Src} {d : Operand} {nd : Nat}
    {f : LaneFn} (hi : Issuing s p i) (hr : Ready s p i h.g srcs [(d, nd)]) (hp : Payable s p price)
    (hn : ∀ l ∈ lanesOf (activeOf p i h.g),
      (f p (laneFor h (activeOf p i h.g) l) (srcVals s p (laneFor h (activeOf p i h.g) l) [] srcs)).1.length = nd) :
    ∃ t, runAlu price h srcs d nd f s = .next t
      ∧ Computed s t p i (activeOf p i h.g) (readLanes h (activeOf p i h.g)) srcs d nd
          (fun l => (f p (laneFor h (activeOf p i h.g) l) (srcVals s p (laneFor h (activeOf p i h.g) l) [] srcs)).1)
          7 0#32 price
          (sumCounts (readLanes h (activeOf p i h.g))
            fun l => (f p (laneFor h (activeOf p i h.g) l) (srcVals s p (laneFor h (activeOf p i h.g) l) [] srcs)).2) := by
  obtain ⟨hkey, hwp⟩ := State.place?_warp hi.2
  have hps : s.warps.get? p.key = some p.w := by rw [hkey]; exact hwp
  obtain ⟨s', hdraw, hd⟩ := drawn_of_payable hp hps
  have hsv : ∀ l, srcVals s' p l [] srcs = srcVals s p l [] srcs := by
    intro l; apply srcVals_congr <;> rw [hd.rest]
  refine ⟨_, ?_, (computed_of_drawn hd hkey.symm hps _ _ hr.active srcs d nd _ hn _).superseded (activeOf p i h.g) [(d, nd)]⟩
  unfold runAlu
  rw [settle_issuing hi]
  unfold withPrice withPriceAfter
  have hregs : checkRegs p i (srcRegs srcs ++ [(d, nd)]) = .ok () := by
    unfold checkRegs; rw [if_pos (List.all_eq_true.2 hr.regs)]
  rw [hregs]
  simp only
  rw [if_neg hr.active, withOperands_ready hr]
  simp only [hdraw, aluResult, hsv, Except.map]
  rfl

end Sys2Proof.Machine
end

