-- ==== Sys2Proof/Laws/Computes.lean ====
section
/-! SUPPORT. From the one law to the statements `Computes` and `Tests`: what is left to show of an instruction is
what its words are. -/

namespace Sys2Proof.Machine

theorem lanesOf_one (l : Nat) (h : l < 32) : lanesOf (maskOf [l]) = [l] := by
  have : ∀ l : Fin 32, lanesOf (maskOf [l.val]) = [l.val] := by decide
  exact this ⟨l, h⟩

theorem lowLane_mem {m : LaneMask} (h : m ≠ 0#32) : lowLane m ∈ lanesOf m := by
  unfold lowLane
  cases hm : lanesOf m with
  | nil =>
    exfalso; apply h
    apply BitVec.eq_of_getLsbD_eq
    intro i hi
    have hni : i ∉ lanesOf m := by rw [hm]; exact List.not_mem_nil
    rw [mem_lanesOf] at hni
    simp only [hi, true_and, Bool.not_eq_true] at hni
    rw [hni]; simp
  | cons a l => exact List.mem_cons_self

/-- The lanes read are their own representatives. -/
theorem laneFor_of_read {h : Hd} {m : LaneMask} (hm : m ≠ 0#32) {l : Nat} (hl : l ∈ lanesOf (readLanes h m)) :
    laneFor h m l = l := by
  unfold readLanes at hl
  unfold laneFor
  split
  · rename_i hu
    rw [if_pos hu, lanesOf_one _ ((mem_lanesOf m _).1 (lowLane_mem hm)).1] at hl
    exact (List.mem_singleton.1 hl).symm
  · rfl

theorem foldl_congr_mem {α β : Type} (f g : β → α → β) (xs : List α) (b : β) (h : ∀ b, ∀ x ∈ xs, f b x = g b x) :
    xs.foldl f b = xs.foldl g b := by
  induction xs generalizing b with
  | nil => rfl
  | cons x xs ih =>
    simp only [List.foldl_cons]
    rw [h b x List.mem_cons_self]
    exact ih _ fun b y hy => h b y (List.mem_cons_of_mem _ hy)

/-- An instruction whose meaning is a lane-wise form computes what the form's function computes. -/
theorem computes_of_runAlu {ins : Instr} {f : Form} {price : Nat} {g : LaneFn}
    {R : Place → Nat → List (List Word) → List Word → Counts → Prop}
    (hex : ∀ s, exec ins s = runAlu price f.h f.srcs f.d f.n g s)
    (hlen : ∀ p l vs, (g p l vs).1.length = f.n)
    (hR : ∀ p l vs, R p l vs (g p l vs).1 (g p l vs).2) : Computes ins f price R := by
  intro s p i hi hr hp
  obtain ⟨t, ht, hc⟩ := runAlu_ready (f := g) hi hr hp (fun l _ => hlen _ _ _)
  refine ⟨t, _, fun l => (g p l (srcVals s p l [] f.srcs)).2, by rw [hex]; exact ht, ?_, fun l _ => ⟨hlen _ _ _, hR _ _ _⟩⟩
  have hsum : sumCounts (readLanes f.h (activeOf p i f.h.g))
      (fun l => (g p (laneFor f.h (activeOf p i f.h.g) l) (srcVals s p (laneFor f.h (activeOf p i f.h.g) l) [] f.srcs)).2)
      = sumCounts (readLanes f.h (activeOf p i f.h.g)) fun l => (g p l (srcVals s p l [] f.srcs)).2 := by
    unfold sumCounts
    apply foldl_congr_mem
    intro b l hl
    simp only [laneFor_of_read hr.active hl]
  rw [hsum] at hc
  exact hc

/-- What a write of a predicate leaves. -/
theorem getP_writeP (w : Warp) (r q : Fin 8) (active m : LaneMask) :
    (w.writeP r active m).getP q = if q = r ∧ q ≠ 7 then (w.getP q &&& ~~~ active) ||| (m &&& active) else w.getP q := by
  unfold Warp.writeP
  rw [Warp.getP_setP]
  by_cases h : q = r
  · subst h; rfl
  · simp [h]

theorem writeP_rest (w : Warp) (r : Fin 8) (active m : LaneMask) :
    w.writeP r active m = { w with p := (w.writeP r active m).p } := by
  unfold Warp.writeP Warp.setP; split <;> rfl

/-- The result of reading sources, writing one predicate and retiring. -/
theorem computed_pred {s : State} {p : Place} {i : Issue} (hkey : i.w = p.key)
    (hps : s.warps.get? p.key = some p.w) (active rd : LaneMask) (srcs : List Src) (pd : Fin 8) (m : LaneMask) :
    Computed s (((s.consume p rd srcs).modWarp p.key fun w => w.writeP pd active m).retire i)
      p i active rd srcs (.imm 0) 0 (fun _ => []) pd m 0 Counts.none := by
  obtain ⟨⟨w1, hw1, hr1, hf1⟩, hk1, hs1, hc1, hd1, hg1⟩ := consume_spec rd srcs hps
  generalize h1 : s.consume p rd srcs = s1 at *
  generalize ht : (s1.modWarp p.key fun w => w.writeP pd active m).retire i = t
  have hst := stepOver_rest (w1.writeP pd active m) i.path i.pc i.len i.last
  generalize hx : (w1.writeP pd active m).stepOver i.path i.pc i.len i.last = w4 at *
  obtain ⟨hr4, hpc⟩ := hst
  have hw4 : t.warps.get? p.key = some w4 := by
    rw [← ht]; unfold State.retire
    rw [State.get?_modWarp, if_pos hkey.symm, hkey, State.get?_modWarp, if_pos rfl, hw1, ← hx]; rfl
  have hts : t = { s1 with warps := t.warps } := by rw [← ht]; rfl
  have htk : ∀ k, k ≠ p.key → t.warps.get? k = s1.warps.get? k := by
    intro k hk
    rw [← ht]; unfold State.retire
    rw [State.get?_modWarp, if_neg (by rw [hkey]; exact hk), State.get?_modWarp, if_neg hk]
  have hcore : ∀ k, t.core k = s1.core k := fun k => State.core_of_cores (by rw [hts]) k
  have hwp : w1.writeP pd active m = { w1 with p := (w1.writeP pd active m).p } := writeP_rest _ _ _ _
  refine ⟨⟨?_, ?_, ?_, ?_, ?_⟩, ?_, w4, hw4, ?_, ?_, ?_, ?_, ?_, ?_⟩
  · have a1 : t = { s with warps := t.warps, cores := t.cores, grids := t.grids } := by
      have c : t.cores = s1.cores := by rw [hts]
      have g : t.grids = s1.grids := by rw [hts]
      rw [c, g]
      exact hts.trans (by conv => lhs; rw [hs1])
    have hf : t.flight = s.flight := by rw [a1]
    have hfr : t.fresh = s.fresh := by rw [a1]
    rw [hf, hfr]
    exact a1
  · intro k hk; rw [htk k hk, hk1 k hk]
  · intro k hk; rw [hcore, hc1 k hk]
  · rw [hcore]
    generalize hz : s1.core p.t.core = z at *
    rw [hd1]
    simp [Counts.none]
  · intro k
    obtain ⟨n, hn⟩ := hg1 k
    refine ⟨n, ?_⟩
    have : t.grids = s1.grids := by rw [hts]
    rw [this, hn]
  · have : t.flight = s.flight := by rw [hts]; simp only; rw [hs1]
    rw [this]; exact (List.append_nil _).symm
  · have hlog : w4.log = p.w.log := by rw [hr4]; simp only; rw [hwp]; simp only; rw [hr1]
    refine ⟨?_, hlog ▸ logKept_refl _⟩
    have a1 : w4 = { w1 with p := w4.p, pcv := w4.pcv, bpExempt := w4.bpExempt, entering := w4.entering
                             inside := w4.inside } := by
      have hp : w4.p = (w1.writeP pd active m).p := by rw [hr4]
      rw [hp]
      exact hr4.trans (by rw [hwp])
    have hf : w4.fifo = w1.fifo := by rw [a1]
    have hm : w4.marks = w1.marks := by rw [a1]
    have hv : w4.v = p.w.v := by rw [a1]; simp only; rw [hr1]
    have hu : w4.u = p.w.u := by rw [a1]; simp only; rw [hr1]
    rw [hf, hm, hv, hu, hlog, if_pos rfl]
    refine a1.trans ?_
    generalize w1.fifo = ff at hr1 ⊢
    generalize w1.marks = mm at hr1 ⊢
    rw [hr1]
  · intro q l _
    have hv : w4.v = p.w.v := by rw [hr4]; simp only; rw [hwp]; simp only; rw [hr1]
    show w4.getV q l = p.w.getV q l
    unfold Warp.getV; rw [hv]
  · intro q
    have hu : w4.u = p.w.u := by rw [hr4]; simp only; rw [hwp]; simp only; rw [hr1]
    show w4.getU q = p.w.getU q
    unfold Warp.getU; rw [hu]
  · intro r
    have h1 : w4.getP r = (w1.writeP pd active m).getP r := by
      have : w4.p = (w1.writeP pd active m).p := by rw [hr4]
      unfold Warp.getP; rw [this]
    have h2 : w1.getP r = p.w.getP r := by
      have : w1.p = p.w.p := by rw [hr1]
      unfold Warp.getP; rw [this]
    rw [h1, getP_writeP, h2]
  · intro q l hl
    have h1 : w4.fifo = w1.fifo := by rw [hr4]; simp only; rw [hwp]
    have h2 : w4.getFifo q l = w1.getFifo q l := by unfold Warp.getFifo; rw [h1]
    rw [h2, hf1 q l hl]
    exact ⟨rfl, rfl⟩
  · intro l hl
    rw [hpc l hl]
    have h1 : (w1.writeP pd active m).pcv = p.w.pcv := by rw [hwp]; simp only; rw [hr1]
    unfold Warp.pc; rw [h1]

theorem getLsbD_maskOf_aux (ls : List Nat) (m : LaneMask) (l : Nat) (hl : l < 32) :
    (ls.foldl (fun m i => m ||| (1#32 <<< i)) m).getLsbD l = (m.getLsbD l || ls.contains l) := by
  induction ls generalizing m with
  | nil => simp
  | cons a ls ih =>
    simp only [List.foldl_cons]
    rw [ih]
    have : (1#32 <<< a).getLsbD l = decide (l = a) := by
      simp only [BitVec.getLsbD_shiftLeft, hl, decide_true, Bool.true_and]
      by_cases h : l = a
      · subst h; simp
      · by_cases h2 : l < a
        · simp [h2, h]
        · have : l - a ≠ 0 := by omega
          simp [h2, h, BitVec.getLsbD_one, this]
    rw [BitVec.getLsbD_or, this]
    simp only [List.contains_cons, Bool.or_assoc]
    congr 1

theorem getLsbD_maskOf (ls : List Nat) (l : Nat) (hl : l < 32) : (maskOf ls).getLsbD l = ls.contains l := by
  unfold maskOf; rw [getLsbD_maskOf_aux ls _ l hl]; simp

/-- An instruction whose meaning is a lane-wise test writes what the test says. -/
theorem tests_of_runTest {ins : Instr} {h : Hd} {srcs : List Src} {pd : Fin 8}
    {R : Place → Nat → List (List Word) → Bool}
    (hex : ∀ s, exec ins s = runTest h srcs pd R s) : Tests ins h srcs pd R := by
  intro s p i hi hr
  obtain ⟨hkey, hwp⟩ := State.place?_warp hi.2
  have hps : s.warps.get? p.key = some p.w := by rw [hkey]; exact hwp
  refine ⟨_, maskOf ((lanesOf (activeOf p i h.g)).filter fun l =>
      R p (laneFor h (activeOf p i h.g) l) (srcVals s p (laneFor h (activeOf p i h.g) l) [] srcs)), ?_,
    (computed_pred hkey.symm hps _ _ srcs pd _).superseded (activeOf p i h.g) [], ?_⟩
  · rw [hex]; unfold runTest
    rw [settle_issuing hi, withOperands_ready hr]
    rfl
  · intro l hl
    have hl32 := ((mem_lanesOf _ l).1 hl).1
    rw [getLsbD_maskOf _ l hl32]
    by_cases hb : R p (laneFor h (activeOf p i h.g) l) (srcVals s p (laneFor h (activeOf p i h.g) l) [] srcs) = true
    · rw [hb]; exact List.contains_iff_mem.2 (List.mem_filter.2 ⟨hl, hb⟩)
    · rw [Bool.not_eq_true] at hb
      rw [hb, Bool.eq_false_iff]
      intro hc
      have := (List.mem_filter.1 (List.contains_iff_mem.1 hc)).2
      rw [hb] at this; cases this

end Sys2Proof.Machine
end

