-- ==== Sys2Proof/Laws/PerInstr.lean ====
section
/-! SUPPORT. The family `Words` of statements about every instruction as syntax: the opcode in an instruction's first
word says how many words it has (12 R305, R306). -/

open Sys2Proof

theorem Sys2Proof.Port.code_lt (q : Port) : q.code < 7 := by cases q <;> decide

theorem Sys2Proof.Operand.code_lt (o : Operand) : o.code < 128 := by
  cases o with
  | port q => have := q.code_lt; simp only [Operand.code]; omega
  | spec x => cases x <;> decide
  | _ => simp only [Operand.code]; omega

theorem Sys2Proof.Pair.code_lt (x : Pair) : x.code < 128 := by
  cases x <;> simp only [Pair.code] <;> omega

theorem Sys2Proof.hdBit_lt (h : Hd) : hdBit h < 2 := by
  obtain ⟨u, g⟩ := h
  cases u <;> simp [hdBit, Bool.toBit]

theorem Sys2Proof.portCode_lt (q : Port) : portCode q < 128 := by
  have := q.code_lt
  simp only [portCode]
  omega

theorem Sys2Proof.futCode_lt (f : Fin 8) : futCode f < 128 := by simp only [futCode]; omega
theorem Sys2Proof.grpCode_lt (g : Fin 4) : grpCode g < 128 := by simp only [grpCode]; omega
theorem Sys2Proof.optCode_lt (o : Option Operand) : (o.map Operand.code).getD 0 < 128 := by
  cases o <;> first | decide | exact Operand.code_lt _

/-- The opcode of an I-word whose fields have their widths (12 R307). -/
theorem Sys2Proof.iword_op (op : Nat) {u d a b : Nat} (g : Guard) (hu : u < 2) (hd : d < 128) (ha : a < 128)
    (hb : b < 128) : iword op u g d a b / 2 ^ 26 = op := by
  have hp := g.p.isLt
  have hn : g.neg.toBit < 2 := by cases g.neg <;> decide
  simp only [iword]
  omega

/-- The family: a well-formed instruction's first word says by its opcode how many words it has. -/
def Sys2Proof.Laws.Words.Statement (i : Instr) : Prop :=
  ∀ ws, i.wf = true → encode i = some ws → ∃ w, ws.head? = some w ∧ ws.length = opWords (w / 2 ^ 26)

theorem Sys2Proof.Laws.Words.of {op u d a b : Nat} {g : Guard} {tail ws : List Nat}
    (h : some (iword op u g d a b :: tail) = some ws) (hl : tail.length + 1 = opWords op)
    (hu : u < 2 := by first | omega | exact hdBit_lt _)
    (hd : d < 128 := by first | omega | exact Operand.code_lt _ | exact futCode_lt _)
    (ha : a < 128 := by
      first
      | omega
      | exact Operand.code_lt _
      | exact Pair.code_lt _
      | exact portCode_lt _
      | exact futCode_lt _
      | exact grpCode_lt _)
    (hb : b < 128 := by first | omega | exact Operand.code_lt _ | exact optCode_lt _) :
    ∃ w, ws.head? = some w ∧ ws.length = opWords (w / 2 ^ 26) := by
  cases h
  exact ⟨_, rfl, by rw [iword_op op g hu hd ha hb, ← hl, List.length_cons]⟩

/-- Every case at once; the lemmas by name follow. -/
theorem Sys2Proof.Laws.Words.all (i : Instr) : Sys2Proof.Laws.Words.Statement i := by
  cases i <;> intro _ _ h
  case add => exact Laws.Words.of h rfl
  case sub => exact Laws.Words.of h rfl
  case and => exact Laws.Words.of h rfl
  case or => exact Laws.Words.of h rfl
  case xor => exact Laws.Words.of h rfl
  case shl => exact Laws.Words.of h rfl
  case shr => exact Laws.Words.of h rfl
  case sra => exact Laws.Words.of h rfl
  case mov => exact Laws.Words.of h rfl
  case fadd => exact Laws.Words.of h rfl
  case fmul => exact Laws.Words.of h rfl
  case nop => exact Laws.Words.of h rfl
  case exit => exact Laws.Words.of h rfl
  case ret => exact Laws.Words.of h rfl
  case yield => exact Laws.Words.of h rfl
  case movi => exact Laws.Words.of h rfl
  case br =>
    change (if _ % 4 = 0 then _ else none) = _ at h
    split at h
    · exact Laws.Words.of h rfl
    · cases h
  case call =>
    change (if _ % 4 = 0 then _ else none) = _ at h
    split at h
    · exact Laws.Words.of h rfl
    · cases h
  case trap => exact Laws.Words.of h rfl
  case addImm => exact Laws.Words.of h rfl
  case andImm => exact Laws.Words.of h rfl
  case orImm => exact Laws.Words.of h rfl
  case xorImm => exact Laws.Words.of h rfl
  case addXm => exact Laws.Words.of h rfl
  case subXm => exact Laws.Words.of h rfl
  case mul => exact Laws.Words.of h rfl
  case mulh => exact Laws.Words.of h rfl
  case div => exact Laws.Words.of h rfl
  case rem => exact Laws.Words.of h rfl
  case min => exact Laws.Words.of h rfl
  case max => exact Laws.Words.of h rfl
  case andXm => exact Laws.Words.of h rfl
  case orXm => exact Laws.Words.of h rfl
  case xorXm => exact Laws.Words.of h rfl
  case andn => exact Laws.Words.of h rfl
  case shlXm => exact Laws.Words.of h rfl
  case shrXm => exact Laws.Words.of h rfl
  case sraXm => exact Laws.Words.of h rfl
  case rol => exact Laws.Words.of h rfl
  case addSat => exact Laws.Words.of h rfl
  case subSat => exact Laws.Words.of h rfl
  case mulSat => exact Laws.Words.of h rfl
  case divSat => exact Laws.Words.of h rfl
  case abs => exact Laws.Words.of h rfl
  case neg => exact Laws.Words.of h rfl
  case not => exact Laws.Words.of h rfl
  case clz => exact Laws.Words.of h rfl
  case ctz => exact Laws.Words.of h rfl
  case popc => exact Laws.Words.of h rfl
  case brev => exact Laws.Words.of h rfl
  case movXm => exact Laws.Words.of h rfl
  case absSat => exact Laws.Words.of h rfl
  case negSat => exact Laws.Words.of h rfl
  case mad => exact Laws.Words.of h rfl
  case madSat => exact Laws.Words.of h rfl
  case addc => exact Laws.Words.of h rfl
  case bfx => exact Laws.Words.of h rfl
  case bfi => exact Laws.Words.of h rfl
  case sel => exact Laws.Words.of h rfl
  case lea => exact Laws.Words.of h rfl
  case cmp => exact Laws.Words.of h rfl
  case pand => exact Laws.Words.of h rfl
  case por => exact Laws.Words.of h rfl
  case pxor => exact Laws.Words.of h rfl
  case pnot => exact Laws.Words.of h rfl
  case pmovToPred => exact Laws.Words.of h rfl
  case pmovFromPred => exact Laws.Words.of h rfl
  case pcnt => exact Laws.Words.of h rfl
  case brx => exact Laws.Words.of h rfl
  case voteOr => exact Laws.Words.of h rfl
  case voteAnd => exact Laws.Words.of h rfl
  case voteMask => exact Laws.Words.of h rfl
  case voteSame => exact Laws.Words.of h rfl
  case getpc => exact Laws.Words.of h rfl
  case faddXm => exact Laws.Words.of h rfl
  case fsub => exact Laws.Words.of h rfl
  case fmulXm => exact Laws.Words.of h rfl
  case ffma => exact Laws.Words.of h rfl
  case fdiv => exact Laws.Words.of h rfl
  case fmin => exact Laws.Words.of h rfl
  case fmax => exact Laws.Words.of h rfl
  case frnd => exact Laws.Words.of h rfl
  case frcp => exact Laws.Words.of h rfl
  case frsq => exact Laws.Words.of h rfl
  case fsqrt => exact Laws.Words.of h rfl
  case fex2 => exact Laws.Words.of h rfl
  case flg2 => exact Laws.Words.of h rfl
  case fsin => exact Laws.Words.of h rfl
  case fcos => exact Laws.Words.of h rfl
  case fcls => exact Laws.Words.of h rfl
  case fcmp => exact Laws.Words.of h rfl
  case lmul => exact Laws.Words.of h rfl
  case ldiv => exact Laws.Words.of h rfl
  case ladd => exact Laws.Words.of h rfl
  case lsub => exact Laws.Words.of h rfl
  case tdot => exact Laws.Words.of h rfl
  case smul => exact Laws.Words.of h rfl
  case sgen => exact Laws.Words.of h rfl
  case cvt => exact Laws.Words.of h rfl
  case mxq => exact Laws.Words.of h rfl
  case mxdq => exact Laws.Words.of h rfl
  case zq => exact Laws.Words.of h rfl
  case zdq => exact Laws.Words.of h rfl
  case tpk => exact Laws.Words.of h rfl
  case tunp => exact Laws.Words.of h rfl
  case shflSel => exact Laws.Words.of h rfl
  case shflLo => exact Laws.Words.of h rfl
  case shflHi => exact Laws.Words.of h rfl
  case shflFlip => exact Laws.Words.of h rfl
  case bcast => exact Laws.Words.of h rfl
  case lred => exact Laws.Words.of h rfl
  case lscan => exact Laws.Words.of h rfl
  case ld => exact Laws.Words.of h rfl
  case ldPoll => exact Laws.Words.of h rfl
  case ldu => exact Laws.Words.of h rfl
  case st => exact Laws.Words.of h rfl
  case stu => exact Laws.Words.of h rfl
  case atomAdd => exact Laws.Words.of h rfl
  case atomSub => exact Laws.Words.of h rfl
  case atomMin => exact Laws.Words.of h rfl
  case atomMax => exact Laws.Words.of h rfl
  case atomAnd => exact Laws.Words.of h rfl
  case atomOr => exact Laws.Words.of h rfl
  case atomXor => exact Laws.Words.of h rfl
  case atomExch => exact Laws.Words.of h rfl
  case cas => exact Laws.Words.of h rfl
  case ldr => exact Laws.Words.of h rfl
  case stc => exact Laws.Words.of h rfl
  case rst => exact Laws.Words.of h rfl
  case rld => exact Laws.Words.of h rfl
  case fence => exact Laws.Words.of h rfl
  case sfl => exact Laws.Words.of h rfl
  case sinv => exact Laws.Words.of h rfl
  case spf => exact Laws.Words.of h rfl
  case icinv => exact Laws.Words.of h rfl
  case sig => exact Laws.Words.of h rfl
  case sigw => exact Laws.Words.of h rfl
  case qstat => exact Laws.Words.of h rfl
  case qclose => exact Laws.Words.of h rfl
  case qpeek => exact Laws.Words.of h rfl
  case mma => exact Laws.Words.of h rfl
  case mmas => exact Laws.Words.of h rfl
  case mmsp => exact Laws.Words.of h rfl
  case mloop => exact Laws.Words.of h rfl
  case mloopS => exact Laws.Words.of h rfl
  case mloopSp => exact Laws.Words.of h rfl
  case tld => exact Laws.Words.of h rfl
  case tst => exact Laws.Words.of h rfl
  case ttr => exact Laws.Words.of h rfl
  case amov => exact Laws.Words.of h rfl
  case aset => exact Laws.Words.of h rfl
  case azero => exact Laws.Words.of h rfl
  case ard => exact Laws.Words.of h rfl
  case scb => exact Laws.Words.of h rfl
  case scinv => exact Laws.Words.of h rfl
  case copy => exact Laws.Words.of h rfl
  case gath => exact Laws.Words.of h rfl
  case scat => exact Laws.Words.of h rfl
  case coll => exact Laws.Words.of h rfl
  case cmpr => exact Laws.Words.of h rfl
  case fwait => exact Laws.Words.of h rfl
  case ftest => exact Laws.Words.of h rfl
  case fcancel => exact Laws.Words.of h rfl
  case arv => exact Laws.Words.of h rfl
  case bwait => exact Laws.Words.of h rfl
  case bsync => exact Laws.Words.of h rfl
  case launch => exact Laws.Words.of h rfl
  case svc => exact Laws.Words.of h rfl
  case rte => exact Laws.Words.of h rfl
  case csrr => exact Laws.Words.of h rfl
  case csrw => exact Laws.Words.of h rfl
  case tokq => exact Laws.Words.of h rfl
  case hint x _ _ =>
    cases h
    have := x.iw.isLt
    exact ⟨_, rfl, by rw [show (_ : Nat) / 2 ^ 26 = 0x38 by omega]; rfl⟩
  case voteCnt => exact Laws.Words.of h rfl
  case ffmaUnf => exact Laws.Words.of h rfl
  case shflWide => exact Laws.Words.of h rfl
  case ldNc => exact Laws.Words.of h rfl
  case mmaTf32 x _ _ =>
    cases h
    have := x.iw.isLt
    exact ⟨_, rfl, by rw [show (_ : Nat) / 2 ^ 26 = 0x2F by omega]; rfl⟩
  case clauseEntry => cases h
  case clauseConditionsMet => cases h
  case fairnessTimerExpires => cases h
  case fairnessPathEnds => cases h
  case yieldEnds => cases h
  case reservationExpires => cases h
  case memoryReturn => cases h
  case storePerformed => cases h
  case outstandingAck => cases h
  case ontouchWriteback => cases h
  case portDelivery => cases h
  case svcReply => cases h
  case sigwRetest => cases h
  case walkCompletes => cases h
  case freplyRetry => cases h
  case freplyHold => cases h
  case fringHeadWrite => cases h
  case warpBecomesCritical => cases h
  case poolRefill => cases h
  case revolution => cases h
  case slewBoundary => cases h
  case matrixStepEnds => cases h
  case mloopPly => cases h
  case droopAlarm => cases h
  case droopRationingEnds => cases h
  case quiescePoint => cases h
  case rampEnds => cases h
  case barrierArrival => cases h
  case releaseEnds => cases h
  case exitReachesBarrier => cases h
  case engineOpStarts => cases h
  case engineOpCompletes => cases h
  case collCreditGrant => cases h
  case collDataArrives => cases h
  case ontiaDatagram => cases h
  case placerDecision => cases h
  case placerSweep => cases h
  case recordReserved => cases h
  case allotmentComplete => cases h
  case stageInCompletes => cases h
  case gangEvictionStart => cases h
  case gangEvictionComplete => cases h
  case restoreBegins => cases h
  case imageIsLoaded => cases h
  case retireWritebackComplete => cases h
  case gridCompletes => cases h
  case gridKilledReport => cases h
  case completionDelivery => cases h
  case journalCheckpoint => cases h
  case quiesceCompletes => cases h
  case standbyTakeover => cases h
  case correctableError => cases h
  case uncorrectableError => cases h
  case trainingSucceeds => cases h
  case trainingFails => cases h
  case widthIsLost => cases h
  case linkIsLost => cases h
  case podRequest => cases h
  case endpointRead => cases h
  case rdmaWrite => cases h
  case rdmaRead => cases h
  case edwickFrameDropped => cases h
  case coldReset => cases h
  case createQueue => cases h
  case enableQueue => cases h
  case disableQueue => cases h
  case freeQueue => cases h
  case enqueueRecord => cases h
  case queryQueue => cases h
  case setOntiaUdpPort => cases h
  case createContext => cases h
  case activateContext => cases h
  case quiesceContext => cases h
  case resumeContext => cases h
  case destroyContext => cases h
  case setServiceClass => cases h
  case setPhase => cases h
  case queryContext => cases h
  case writeServiceClass => cases h
  case clearContextError => cases h
  case evictGang => cases h
  case invalidateTranslations => cases h
  case writeStackAct => cases h
  case writeRouteEntry => cases h
  case resetLink => cases h
  case queryLink => cases h
  case queryPower => cases h
  case setClusterClass => cases h
  case writeCollectiveGroup => cases h
  case queryPins => cases h
  case releasePinRetry => cases h
  case releasePinSkip => cases h
  case killGrid => cases h
  case readErrorLog => cases h
  case queryErrorCounters => cases h
  case writeSignalSet => cases h
  case writeSignalAdd => cases h
  case writeSpecial => cases h
  case readSpecial => cases h
  case setSavePool => cases h
  case setFaultRing => cases h
  case attest => cases h
  case queryBootStatus => cases h
  case warmReset => cases h
  case unknownCmd => cases h
  case ecnMarkedPacket => cases h

theorem Sys2Proof.Laws.Words.add (x : Sh3) : Sys2Proof.Laws.Words.Statement (.add x) := Laws.Words.all _
theorem Sys2Proof.Laws.Words.sub (x : Sh3) : Sys2Proof.Laws.Words.Statement (.sub x) := Laws.Words.all _
theorem Sys2Proof.Laws.Words.and (x : Sh3) : Sys2Proof.Laws.Words.Statement (.and x) := Laws.Words.all _
theorem Sys2Proof.Laws.Words.or (x : Sh3) : Sys2Proof.Laws.Words.Statement (.or x) := Laws.Words.all _
theorem Sys2Proof.Laws.Words.xor (x : Sh3) : Sys2Proof.Laws.Words.Statement (.xor x) := Laws.Words.all _
theorem Sys2Proof.Laws.Words.shl (x : Sh3) : Sys2Proof.Laws.Words.Statement (.shl x) := Laws.Words.all _
theorem Sys2Proof.Laws.Words.shr (x : Sh3) : Sys2Proof.Laws.Words.Statement (.shr x) := Laws.Words.all _
theorem Sys2Proof.Laws.Words.sra (x : Sh3) : Sys2Proof.Laws.Words.Statement (.sra x) := Laws.Words.all _
theorem Sys2Proof.Laws.Words.mov (x : Sh2) : Sys2Proof.Laws.Words.Statement (.mov x) := Laws.Words.all _
theorem Sys2Proof.Laws.Words.fadd (x : Sh3) : Sys2Proof.Laws.Words.Statement (.fadd x) := Laws.Words.all _
theorem Sys2Proof.Laws.Words.fmul (x : Sh3) : Sys2Proof.Laws.Words.Statement (.fmul x) := Laws.Words.all _
theorem Sys2Proof.Laws.Words.nop (x : Gd) : Sys2Proof.Laws.Words.Statement (.nop x) := Laws.Words.all _
theorem Sys2Proof.Laws.Words.exit (x : Gd) : Sys2Proof.Laws.Words.Statement (.exit x) := Laws.Words.all _
theorem Sys2Proof.Laws.Words.ret (x : RetF) : Sys2Proof.Laws.Words.Statement (.ret x) := Laws.Words.all _
theorem Sys2Proof.Laws.Words.yield (x : Gd) : Sys2Proof.Laws.Words.Statement (.yield x) := Laws.Words.all _
theorem Sys2Proof.Laws.Words.movi (x : MoviF) : Sys2Proof.Laws.Words.Statement (.movi x) := Laws.Words.all _
theorem Sys2Proof.Laws.Words.br (x : BrF) : Sys2Proof.Laws.Words.Statement (.br x) := Laws.Words.all _
theorem Sys2Proof.Laws.Words.call (x : CallF) : Sys2Proof.Laws.Words.Statement (.call x) := Laws.Words.all _
theorem Sys2Proof.Laws.Words.trap (x : TrapF) : Sys2Proof.Laws.Words.Statement (.trap x) := Laws.Words.all _
theorem Sys2Proof.Laws.Words.addImm (x : ImmF) : Sys2Proof.Laws.Words.Statement (.addImm x) := Laws.Words.all _
theorem Sys2Proof.Laws.Words.andImm (x : ImmF) : Sys2Proof.Laws.Words.Statement (.andImm x) := Laws.Words.all _
theorem Sys2Proof.Laws.Words.orImm (x : ImmF) : Sys2Proof.Laws.Words.Statement (.orImm x) := Laws.Words.all _
theorem Sys2Proof.Laws.Words.xorImm (x : ImmF) : Sys2Proof.Laws.Words.Statement (.xorImm x) := Laws.Words.all _
theorem Sys2Proof.Laws.Words.addXm (x : Bin) : Sys2Proof.Laws.Words.Statement (.addXm x) := Laws.Words.all _
theorem Sys2Proof.Laws.Words.subXm (x : Bin) : Sys2Proof.Laws.Words.Statement (.subXm x) := Laws.Words.all _
theorem Sys2Proof.Laws.Words.mul (x : Bin) : Sys2Proof.Laws.Words.Statement (.mul x) := Laws.Words.all _
theorem Sys2Proof.Laws.Words.mulh (x : Bin) : Sys2Proof.Laws.Words.Statement (.mulh x) := Laws.Words.all _
theorem Sys2Proof.Laws.Words.div (x : Bin) : Sys2Proof.Laws.Words.Statement (.div x) := Laws.Words.all _
theorem Sys2Proof.Laws.Words.rem (x : Bin) : Sys2Proof.Laws.Words.Statement (.rem x) := Laws.Words.all _
theorem Sys2Proof.Laws.Words.min (x : Bin) : Sys2Proof.Laws.Words.Statement (.min x) := Laws.Words.all _
theorem Sys2Proof.Laws.Words.max (x : Bin) : Sys2Proof.Laws.Words.Statement (.max x) := Laws.Words.all _
theorem Sys2Proof.Laws.Words.andXm (x : Bin) : Sys2Proof.Laws.Words.Statement (.andXm x) := Laws.Words.all _
theorem Sys2Proof.Laws.Words.orXm (x : Bin) : Sys2Proof.Laws.Words.Statement (.orXm x) := Laws.Words.all _
theorem Sys2Proof.Laws.Words.xorXm (x : Bin) : Sys2Proof.Laws.Words.Statement (.xorXm x) := Laws.Words.all _
theorem Sys2Proof.Laws.Words.andn (x : Bin) : Sys2Proof.Laws.Words.Statement (.andn x) := Laws.Words.all _
theorem Sys2Proof.Laws.Words.shlXm (x : Bin) : Sys2Proof.Laws.Words.Statement (.shlXm x) := Laws.Words.all _
theorem Sys2Proof.Laws.Words.shrXm (x : Bin) : Sys2Proof.Laws.Words.Statement (.shrXm x) := Laws.Words.all _
theorem Sys2Proof.Laws.Words.sraXm (x : Bin) : Sys2Proof.Laws.Words.Statement (.sraXm x) := Laws.Words.all _
theorem Sys2Proof.Laws.Words.rol (x : Bin) : Sys2Proof.Laws.Words.Statement (.rol x) := Laws.Words.all _
theorem Sys2Proof.Laws.Words.addSat (x : Bin) : Sys2Proof.Laws.Words.Statement (.addSat x) := Laws.Words.all _
theorem Sys2Proof.Laws.Words.subSat (x : Bin) : Sys2Proof.Laws.Words.Statement (.subSat x) := Laws.Words.all _
theorem Sys2Proof.Laws.Words.mulSat (x : Bin) : Sys2Proof.Laws.Words.Statement (.mulSat x) := Laws.Words.all _
theorem Sys2Proof.Laws.Words.divSat (x : Bin) : Sys2Proof.Laws.Words.Statement (.divSat x) := Laws.Words.all _
theorem Sys2Proof.Laws.Words.abs (x : Un) : Sys2Proof.Laws.Words.Statement (.abs x) := Laws.Words.all _
theorem Sys2Proof.Laws.Words.neg (x : Un) : Sys2Proof.Laws.Words.Statement (.neg x) := Laws.Words.all _
theorem Sys2Proof.Laws.Words.not (x : Un) : Sys2Proof.Laws.Words.Statement (.not x) := Laws.Words.all _
theorem Sys2Proof.Laws.Words.clz (x : Un) : Sys2Proof.Laws.Words.Statement (.clz x) := Laws.Words.all _
theorem Sys2Proof.Laws.Words.ctz (x : Un) : Sys2Proof.Laws.Words.Statement (.ctz x) := Laws.Words.all _
theorem Sys2Proof.Laws.Words.popc (x : Un) : Sys2Proof.Laws.Words.Statement (.popc x) := Laws.Words.all _
theorem Sys2Proof.Laws.Words.brev (x : Un) : Sys2Proof.Laws.Words.Statement (.brev x) := Laws.Words.all _
theorem Sys2Proof.Laws.Words.movXm (x : Un) : Sys2Proof.Laws.Words.Statement (.movXm x) := Laws.Words.all _
theorem Sys2Proof.Laws.Words.absSat (x : Un) : Sys2Proof.Laws.Words.Statement (.absSat x) := Laws.Words.all _
theorem Sys2Proof.Laws.Words.negSat (x : Un) : Sys2Proof.Laws.Words.Statement (.negSat x) := Laws.Words.all _
theorem Sys2Proof.Laws.Words.mad (x : Tern) : Sys2Proof.Laws.Words.Statement (.mad x) := Laws.Words.all _
theorem Sys2Proof.Laws.Words.madSat (x : Tern) : Sys2Proof.Laws.Words.Statement (.madSat x) := Laws.Words.all _
theorem Sys2Proof.Laws.Words.addc (x : AddcF) : Sys2Proof.Laws.Words.Statement (.addc x) := Laws.Words.all _
theorem Sys2Proof.Laws.Words.bfx (x : BfxF) : Sys2Proof.Laws.Words.Statement (.bfx x) := Laws.Words.all _
theorem Sys2Proof.Laws.Words.bfi (x : BfiF) : Sys2Proof.Laws.Words.Statement (.bfi x) := Laws.Words.all _
theorem Sys2Proof.Laws.Words.sel (x : SelF) : Sys2Proof.Laws.Words.Statement (.sel x) := Laws.Words.all _
theorem Sys2Proof.Laws.Words.lea (x : LeaF) : Sys2Proof.Laws.Words.Statement (.lea x) := Laws.Words.all _
theorem Sys2Proof.Laws.Words.cmp (x : CmpF) : Sys2Proof.Laws.Words.Statement (.cmp x) := Laws.Words.all _
theorem Sys2Proof.Laws.Words.pand (x : P3) : Sys2Proof.Laws.Words.Statement (.pand x) := Laws.Words.all _
theorem Sys2Proof.Laws.Words.por (x : P3) : Sys2Proof.Laws.Words.Statement (.por x) := Laws.Words.all _
theorem Sys2Proof.Laws.Words.pxor (x : P3) : Sys2Proof.Laws.Words.Statement (.pxor x) := Laws.Words.all _
theorem Sys2Proof.Laws.Words.pnot (x : P2) : Sys2Proof.Laws.Words.Statement (.pnot x) := Laws.Words.all _
theorem Sys2Proof.Laws.Words.pmovToPred (x : PToF) : Sys2Proof.Laws.Words.Statement (.pmovToPred x) := Laws.Words.all _
theorem Sys2Proof.Laws.Words.pmovFromPred (x : PFromF) : Sys2Proof.Laws.Words.Statement (.pmovFromPred x) := Laws.Words.all _
theorem Sys2Proof.Laws.Words.pcnt (x : PFromF) : Sys2Proof.Laws.Words.Statement (.pcnt x) := Laws.Words.all _
theorem Sys2Proof.Laws.Words.brx (x : RetF) : Sys2Proof.Laws.Words.Statement (.brx x) := Laws.Words.all _
theorem Sys2Proof.Laws.Words.voteOr (x : VoteP) : Sys2Proof.Laws.Words.Statement (.voteOr x) := Laws.Words.all _
theorem Sys2Proof.Laws.Words.voteAnd (x : VoteP) : Sys2Proof.Laws.Words.Statement (.voteAnd x) := Laws.Words.all _
theorem Sys2Proof.Laws.Words.voteMask (x : VoteM) : Sys2Proof.Laws.Words.Statement (.voteMask x) := Laws.Words.all _
theorem Sys2Proof.Laws.Words.voteSame (x : VoteS) : Sys2Proof.Laws.Words.Statement (.voteSame x) := Laws.Words.all _
theorem Sys2Proof.Laws.Words.getpc (x : GDst) : Sys2Proof.Laws.Words.Statement (.getpc x) := Laws.Words.all _
theorem Sys2Proof.Laws.Words.faddXm (x : FBin) : Sys2Proof.Laws.Words.Statement (.faddXm x) := Laws.Words.all _
theorem Sys2Proof.Laws.Words.fsub (x : FBin) : Sys2Proof.Laws.Words.Statement (.fsub x) := Laws.Words.all _
theorem Sys2Proof.Laws.Words.fmulXm (x : FBin) : Sys2Proof.Laws.Words.Statement (.fmulXm x) := Laws.Words.all _
theorem Sys2Proof.Laws.Words.ffma (x : FTern) : Sys2Proof.Laws.Words.Statement (.ffma x) := Laws.Words.all _
theorem Sys2Proof.Laws.Words.fdiv (x : FBin) : Sys2Proof.Laws.Words.Statement (.fdiv x) := Laws.Words.all _
theorem Sys2Proof.Laws.Words.fmin (x : Bin) : Sys2Proof.Laws.Words.Statement (.fmin x) := Laws.Words.all _
theorem Sys2Proof.Laws.Words.fmax (x : Bin) : Sys2Proof.Laws.Words.Statement (.fmax x) := Laws.Words.all _
theorem Sys2Proof.Laws.Words.frnd (x : FUn) : Sys2Proof.Laws.Words.Statement (.frnd x) := Laws.Words.all _
theorem Sys2Proof.Laws.Words.frcp (x : FUn) : Sys2Proof.Laws.Words.Statement (.frcp x) := Laws.Words.all _
theorem Sys2Proof.Laws.Words.frsq (x : FUn) : Sys2Proof.Laws.Words.Statement (.frsq x) := Laws.Words.all _
theorem Sys2Proof.Laws.Words.fsqrt (x : FUn) : Sys2Proof.Laws.Words.Statement (.fsqrt x) := Laws.Words.all _
theorem Sys2Proof.Laws.Words.fex2 (x : FUn) : Sys2Proof.Laws.Words.Statement (.fex2 x) := Laws.Words.all _
theorem Sys2Proof.Laws.Words.flg2 (x : FUn) : Sys2Proof.Laws.Words.Statement (.flg2 x) := Laws.Words.all _
theorem Sys2Proof.Laws.Words.fsin (x : FUn) : Sys2Proof.Laws.Words.Statement (.fsin x) := Laws.Words.all _
theorem Sys2Proof.Laws.Words.fcos (x : FUn) : Sys2Proof.Laws.Words.Statement (.fcos x) := Laws.Words.all _
theorem Sys2Proof.Laws.Words.fcls (x : Un) : Sys2Proof.Laws.Words.Statement (.fcls x) := Laws.Words.all _
theorem Sys2Proof.Laws.Words.fcmp (x : FCmpF) : Sys2Proof.Laws.Words.Statement (.fcmp x) := Laws.Words.all _
theorem Sys2Proof.Laws.Words.lmul (x : LBin) : Sys2Proof.Laws.Words.Statement (.lmul x) := Laws.Words.all _
theorem Sys2Proof.Laws.Words.ldiv (x : LBin) : Sys2Proof.Laws.Words.Statement (.ldiv x) := Laws.Words.all _
theorem Sys2Proof.Laws.Words.ladd (x : LBin) : Sys2Proof.Laws.Words.Statement (.ladd x) := Laws.Words.all _
theorem Sys2Proof.Laws.Words.lsub (x : LBin) : Sys2Proof.Laws.Words.Statement (.lsub x) := Laws.Words.all _
theorem Sys2Proof.Laws.Words.tdot (x : TdotF) : Sys2Proof.Laws.Words.Statement (.tdot x) := Laws.Words.all _
theorem Sys2Proof.Laws.Words.smul (x : SmulF) : Sys2Proof.Laws.Words.Statement (.smul x) := Laws.Words.all _
theorem Sys2Proof.Laws.Words.sgen (x : SgenF) : Sys2Proof.Laws.Words.Statement (.sgen x) := Laws.Words.all _
theorem Sys2Proof.Laws.Words.cvt (x : CvtF) : Sys2Proof.Laws.Words.Statement (.cvt x) := Laws.Words.all _
theorem Sys2Proof.Laws.Words.mxq (x : ConvF) : Sys2Proof.Laws.Words.Statement (.mxq x) := Laws.Words.all _
theorem Sys2Proof.Laws.Words.mxdq (x : ConvF) : Sys2Proof.Laws.Words.Statement (.mxdq x) := Laws.Words.all _
theorem Sys2Proof.Laws.Words.zq (x : ConvF) : Sys2Proof.Laws.Words.Statement (.zq x) := Laws.Words.all _
theorem Sys2Proof.Laws.Words.zdq (x : ConvF) : Sys2Proof.Laws.Words.Statement (.zdq x) := Laws.Words.all _
theorem Sys2Proof.Laws.Words.tpk (x : ConvF) : Sys2Proof.Laws.Words.Statement (.tpk x) := Laws.Words.all _
theorem Sys2Proof.Laws.Words.tunp (x : ConvF) : Sys2Proof.Laws.Words.Statement (.tunp x) := Laws.Words.all _
theorem Sys2Proof.Laws.Words.shflSel (x : ShflF) : Sys2Proof.Laws.Words.Statement (.shflSel x) := Laws.Words.all _
theorem Sys2Proof.Laws.Words.shflLo (x : ShflF) : Sys2Proof.Laws.Words.Statement (.shflLo x) := Laws.Words.all _
theorem Sys2Proof.Laws.Words.shflHi (x : ShflF) : Sys2Proof.Laws.Words.Statement (.shflHi x) := Laws.Words.all _
theorem Sys2Proof.Laws.Words.shflFlip (x : ShflF) : Sys2Proof.Laws.Words.Statement (.shflFlip x) := Laws.Words.all _
theorem Sys2Proof.Laws.Words.bcast (x : ShflF) : Sys2Proof.Laws.Words.Statement (.bcast x) := Laws.Words.all _
theorem Sys2Proof.Laws.Words.lred (x : LredF) : Sys2Proof.Laws.Words.Statement (.lred x) := Laws.Words.all _
theorem Sys2Proof.Laws.Words.lscan (x : LscanF) : Sys2Proof.Laws.Words.Statement (.lscan x) := Laws.Words.all _
theorem Sys2Proof.Laws.Words.ld (x : LdF) : Sys2Proof.Laws.Words.Statement (.ld x) := Laws.Words.all _
theorem Sys2Proof.Laws.Words.ldPoll (x : LdF) : Sys2Proof.Laws.Words.Statement (.ldPoll x) := Laws.Words.all _
theorem Sys2Proof.Laws.Words.ldu (x : LdF) : Sys2Proof.Laws.Words.Statement (.ldu x) := Laws.Words.all _
theorem Sys2Proof.Laws.Words.st (x : StF) : Sys2Proof.Laws.Words.Statement (.st x) := Laws.Words.all _
theorem Sys2Proof.Laws.Words.stu (x : StF) : Sys2Proof.Laws.Words.Statement (.stu x) := Laws.Words.all _
theorem Sys2Proof.Laws.Words.atomAdd (x : AtomF) : Sys2Proof.Laws.Words.Statement (.atomAdd x) := Laws.Words.all _
theorem Sys2Proof.Laws.Words.atomSub (x : AtomF) : Sys2Proof.Laws.Words.Statement (.atomSub x) := Laws.Words.all _
theorem Sys2Proof.Laws.Words.atomMin (x : AtomF) : Sys2Proof.Laws.Words.Statement (.atomMin x) := Laws.Words.all _
theorem Sys2Proof.Laws.Words.atomMax (x : AtomF) : Sys2Proof.Laws.Words.Statement (.atomMax x) := Laws.Words.all _
theorem Sys2Proof.Laws.Words.atomAnd (x : AtomF) : Sys2Proof.Laws.Words.Statement (.atomAnd x) := Laws.Words.all _
theorem Sys2Proof.Laws.Words.atomOr (x : AtomF) : Sys2Proof.Laws.Words.Statement (.atomOr x) := Laws.Words.all _
theorem Sys2Proof.Laws.Words.atomXor (x : AtomF) : Sys2Proof.Laws.Words.Statement (.atomXor x) := Laws.Words.all _
theorem Sys2Proof.Laws.Words.atomExch (x : AtomF) : Sys2Proof.Laws.Words.Statement (.atomExch x) := Laws.Words.all _
theorem Sys2Proof.Laws.Words.cas (x : CasF) : Sys2Proof.Laws.Words.Statement (.cas x) := Laws.Words.all _
theorem Sys2Proof.Laws.Words.ldr (x : LdF) : Sys2Proof.Laws.Words.Statement (.ldr x) := Laws.Words.all _
theorem Sys2Proof.Laws.Words.stc (x : AtomF) : Sys2Proof.Laws.Words.Statement (.stc x) := Laws.Words.all _
theorem Sys2Proof.Laws.Words.rst (x : RstF) : Sys2Proof.Laws.Words.Statement (.rst x) := Laws.Words.all _
theorem Sys2Proof.Laws.Words.rld (x : RldF) : Sys2Proof.Laws.Words.Statement (.rld x) := Laws.Words.all _
theorem Sys2Proof.Laws.Words.fence (x : FenceF) : Sys2Proof.Laws.Words.Statement (.fence x) := Laws.Words.all _
theorem Sys2Proof.Laws.Words.sfl (x : MaintF) : Sys2Proof.Laws.Words.Statement (.sfl x) := Laws.Words.all _
theorem Sys2Proof.Laws.Words.sinv (x : MaintF) : Sys2Proof.Laws.Words.Statement (.sinv x) := Laws.Words.all _
theorem Sys2Proof.Laws.Words.spf (x : MaintF) : Sys2Proof.Laws.Words.Statement (.spf x) := Laws.Words.all _
theorem Sys2Proof.Laws.Words.icinv (x : MaintF) : Sys2Proof.Laws.Words.Statement (.icinv x) := Laws.Words.all _
theorem Sys2Proof.Laws.Words.sig (x : SigF) : Sys2Proof.Laws.Words.Statement (.sig x) := Laws.Words.all _
theorem Sys2Proof.Laws.Words.sigw (x : SigF) : Sys2Proof.Laws.Words.Statement (.sigw x) := Laws.Words.all _
theorem Sys2Proof.Laws.Words.qstat (x : PortDF) : Sys2Proof.Laws.Words.Statement (.qstat x) := Laws.Words.all _
theorem Sys2Proof.Laws.Words.qclose (x : PortF) : Sys2Proof.Laws.Words.Statement (.qclose x) := Laws.Words.all _
theorem Sys2Proof.Laws.Words.qpeek (x : PortDF) : Sys2Proof.Laws.Words.Statement (.qpeek x) := Laws.Words.all _
theorem Sys2Proof.Laws.Words.mma (x : MmaF) : Sys2Proof.Laws.Words.Statement (.mma x) := Laws.Words.all _
theorem Sys2Proof.Laws.Words.mmas (x : MmasF) : Sys2Proof.Laws.Words.Statement (.mmas x) := Laws.Words.all _
theorem Sys2Proof.Laws.Words.mmsp (x : MmspF) : Sys2Proof.Laws.Words.Statement (.mmsp x) := Laws.Words.all _
theorem Sys2Proof.Laws.Words.mloop (x : MloopF) : Sys2Proof.Laws.Words.Statement (.mloop x) := Laws.Words.all _
theorem Sys2Proof.Laws.Words.mloopS (x : MloopF) : Sys2Proof.Laws.Words.Statement (.mloopS x) := Laws.Words.all _
theorem Sys2Proof.Laws.Words.mloopSp (x : MloopSpF) : Sys2Proof.Laws.Words.Statement (.mloopSp x) := Laws.Words.all _
theorem Sys2Proof.Laws.Words.tld (x : TldF) : Sys2Proof.Laws.Words.Statement (.tld x) := Laws.Words.all _
theorem Sys2Proof.Laws.Words.tst (x : TldF) : Sys2Proof.Laws.Words.Statement (.tst x) := Laws.Words.all _
theorem Sys2Proof.Laws.Words.ttr (x : TtrF) : Sys2Proof.Laws.Words.Statement (.ttr x) := Laws.Words.all _
theorem Sys2Proof.Laws.Words.amov (x : AmovF) : Sys2Proof.Laws.Words.Statement (.amov x) := Laws.Words.all _
theorem Sys2Proof.Laws.Words.aset (x : AsetF) : Sys2Proof.Laws.Words.Statement (.aset x) := Laws.Words.all _
theorem Sys2Proof.Laws.Words.azero (x : AzeroF) : Sys2Proof.Laws.Words.Statement (.azero x) := Laws.Words.all _
theorem Sys2Proof.Laws.Words.ard (x : ArdF) : Sys2Proof.Laws.Words.Statement (.ard x) := Laws.Words.all _
theorem Sys2Proof.Laws.Words.scb (x : ScbF) : Sys2Proof.Laws.Words.Statement (.scb x) := Laws.Words.all _
theorem Sys2Proof.Laws.Words.scinv (x : Gd) : Sys2Proof.Laws.Words.Statement (.scinv x) := Laws.Words.all _
theorem Sys2Proof.Laws.Words.copy (x : EngF) : Sys2Proof.Laws.Words.Statement (.copy x) := Laws.Words.all _
theorem Sys2Proof.Laws.Words.gath (x : EngF) : Sys2Proof.Laws.Words.Statement (.gath x) := Laws.Words.all _
theorem Sys2Proof.Laws.Words.scat (x : EngF) : Sys2Proof.Laws.Words.Statement (.scat x) := Laws.Words.all _
theorem Sys2Proof.Laws.Words.coll (x : EngF) : Sys2Proof.Laws.Words.Statement (.coll x) := Laws.Words.all _
theorem Sys2Proof.Laws.Words.cmpr (x : EngF) : Sys2Proof.Laws.Words.Statement (.cmpr x) := Laws.Words.all _
theorem Sys2Proof.Laws.Words.fwait (x : FutF) : Sys2Proof.Laws.Words.Statement (.fwait x) := Laws.Words.all _
theorem Sys2Proof.Laws.Words.ftest (x : FtestF) : Sys2Proof.Laws.Words.Statement (.ftest x) := Laws.Words.all _
theorem Sys2Proof.Laws.Words.fcancel (x : FutF) : Sys2Proof.Laws.Words.Statement (.fcancel x) := Laws.Words.all _
theorem Sys2Proof.Laws.Words.arv (x : ArvF) : Sys2Proof.Laws.Words.Statement (.arv x) := Laws.Words.all _
theorem Sys2Proof.Laws.Words.bwait (x : BwaitF) : Sys2Proof.Laws.Words.Statement (.bwait x) := Laws.Words.all _
theorem Sys2Proof.Laws.Words.bsync (x : BsyncF) : Sys2Proof.Laws.Words.Statement (.bsync x) := Laws.Words.all _
theorem Sys2Proof.Laws.Words.launch (x : LaunchF) : Sys2Proof.Laws.Words.Statement (.launch x) := Laws.Words.all _
theorem Sys2Proof.Laws.Words.svc (x : SvcF) : Sys2Proof.Laws.Words.Statement (.svc x) := Laws.Words.all _
theorem Sys2Proof.Laws.Words.rte (x : Gd) : Sys2Proof.Laws.Words.Statement (.rte x) := Laws.Words.all _
theorem Sys2Proof.Laws.Words.csrr (x : CsrrF) : Sys2Proof.Laws.Words.Statement (.csrr x) := Laws.Words.all _
theorem Sys2Proof.Laws.Words.csrw (x : CsrwF) : Sys2Proof.Laws.Words.Statement (.csrw x) := Laws.Words.all _
theorem Sys2Proof.Laws.Words.tokq (x : GDst) : Sys2Proof.Laws.Words.Statement (.tokq x) := Laws.Words.all _
theorem Sys2Proof.Laws.Words.hint (x : HintF) : Sys2Proof.Laws.Words.Statement (.hint x) := Laws.Words.all _
theorem Sys2Proof.Laws.Words.voteCnt (x : VoteM) : Sys2Proof.Laws.Words.Statement (.voteCnt x) := Laws.Words.all _
theorem Sys2Proof.Laws.Words.ffmaUnf (x : FTern) : Sys2Proof.Laws.Words.Statement (.ffmaUnf x) := Laws.Words.all _
theorem Sys2Proof.Laws.Words.shflWide (x : WideF) : Sys2Proof.Laws.Words.Statement (.shflWide x) := Laws.Words.all _
theorem Sys2Proof.Laws.Words.ldNc (x : LdF) : Sys2Proof.Laws.Words.Statement (.ldNc x) := Laws.Words.all _
theorem Sys2Proof.Laws.Words.mmaTf32 (x : Tf32F) : Sys2Proof.Laws.Words.Statement (.mmaTf32 x) := Laws.Words.all _
theorem Sys2Proof.Laws.Words.clauseEntry : Sys2Proof.Laws.Words.Statement (.clauseEntry) := Laws.Words.all _
theorem Sys2Proof.Laws.Words.clauseConditionsMet (warp : Nat) (path : LaneMask) :
    Sys2Proof.Laws.Words.Statement (.clauseConditionsMet warp path) := Laws.Words.all _
theorem Sys2Proof.Laws.Words.fairnessTimerExpires (warp : Nat) :
    Sys2Proof.Laws.Words.Statement (.fairnessTimerExpires warp) := Laws.Words.all _
theorem Sys2Proof.Laws.Words.fairnessPathEnds (warp : Nat) :
    Sys2Proof.Laws.Words.Statement (.fairnessPathEnds warp) := Laws.Words.all _
theorem Sys2Proof.Laws.Words.yieldEnds (warp : Nat) : Sys2Proof.Laws.Words.Statement (.yieldEnds warp) := Laws.Words.all _
theorem Sys2Proof.Laws.Words.reservationExpires (warp lane : Nat) :
    Sys2Proof.Laws.Words.Statement (.reservationExpires warp lane) := Laws.Words.all _
theorem Sys2Proof.Laws.Words.memoryReturn (core slot gen idx : Nat) :
    Sys2Proof.Laws.Words.Statement (.memoryReturn core slot gen idx) := Laws.Words.all _
theorem Sys2Proof.Laws.Words.storePerformed (warp idx : Nat) :
    Sys2Proof.Laws.Words.Statement (.storePerformed warp idx) := Laws.Words.all _
theorem Sys2Proof.Laws.Words.outstandingAck (core : Nat) (grid : Word) :
    Sys2Proof.Laws.Words.Statement (.outstandingAck core grid) := Laws.Words.all _
theorem Sys2Proof.Laws.Words.ontouchWriteback (gang line : Nat) :
    Sys2Proof.Laws.Words.Statement (.ontouchWriteback gang line) := Laws.Words.all _
theorem Sys2Proof.Laws.Words.portDelivery (warp : Nat) (p : Port) (lane : Nat) :
    Sys2Proof.Laws.Words.Statement (.portDelivery warp p lane) := Laws.Words.all _
theorem Sys2Proof.Laws.Words.svcReply (warp : Nat) (path : LaneMask) (reply : List Word) :
    Sys2Proof.Laws.Words.Statement (.svcReply warp path reply) := Laws.Words.all _
theorem Sys2Proof.Laws.Words.sigwRetest (warp : Nat) (path : LaneMask) :
    Sys2Proof.Laws.Words.Statement (.sigwRetest warp path) := Laws.Words.all _
theorem Sys2Proof.Laws.Words.walkCompletes (die core ctx : Nat) (va : DWord) (acc : AccKind) :
    Sys2Proof.Laws.Words.Statement (.walkCompletes die core ctx va acc) := Laws.Words.all _
theorem Sys2Proof.Laws.Words.freplyRetry (die : Nat) (fnum : Word) :
    Sys2Proof.Laws.Words.Statement (.freplyRetry die fnum) := Laws.Words.all _
theorem Sys2Proof.Laws.Words.freplyHold (die : Nat) (fnum : Word) :
    Sys2Proof.Laws.Words.Statement (.freplyHold die fnum) := Laws.Words.all _
theorem Sys2Proof.Laws.Words.fringHeadWrite (head : BitVec 13) :
    Sys2Proof.Laws.Words.Statement (.fringHeadWrite head) := Laws.Words.all _
theorem Sys2Proof.Laws.Words.warpBecomesCritical (warp : Nat) :
    Sys2Proof.Laws.Words.Statement (.warpBecomesCritical warp) := Laws.Words.all _
theorem Sys2Proof.Laws.Words.poolRefill (die cluster : Nat) :
    Sys2Proof.Laws.Words.Statement (.poolRefill die cluster) := Laws.Words.all _
theorem Sys2Proof.Laws.Words.revolution (r : RevReading) : Sys2Proof.Laws.Words.Statement (.revolution r) := Laws.Words.all _
theorem Sys2Proof.Laws.Words.slewBoundary (die cluster : Nat) :
    Sys2Proof.Laws.Words.Statement (.slewBoundary die cluster) := Laws.Words.all _
theorem Sys2Proof.Laws.Words.matrixStepEnds (core : Nat) :
    Sys2Proof.Laws.Words.Statement (.matrixStepEnds core) := Laws.Words.all _
theorem Sys2Proof.Laws.Words.mloopPly (core seqId : Nat) :
    Sys2Proof.Laws.Words.Statement (.mloopPly core seqId) := Laws.Words.all _
theorem Sys2Proof.Laws.Words.droopAlarm (die cluster : Nat) :
    Sys2Proof.Laws.Words.Statement (.droopAlarm die cluster) := Laws.Words.all _
theorem Sys2Proof.Laws.Words.droopRationingEnds (die cluster : Nat) :
    Sys2Proof.Laws.Words.Statement (.droopRationingEnds die cluster) := Laws.Words.all _
theorem Sys2Proof.Laws.Words.quiescePoint (die cluster : Nat) :
    Sys2Proof.Laws.Words.Statement (.quiescePoint die cluster) := Laws.Words.all _
theorem Sys2Proof.Laws.Words.rampEnds (die cluster : Nat) :
    Sys2Proof.Laws.Words.Statement (.rampEnds die cluster) := Laws.Words.all _
theorem Sys2Proof.Laws.Words.barrierArrival (bar : Nat) :
    Sys2Proof.Laws.Words.Statement (.barrierArrival bar) := Laws.Words.all _
theorem Sys2Proof.Laws.Words.releaseEnds (bar : Nat) : Sys2Proof.Laws.Words.Statement (.releaseEnds bar) := Laws.Words.all _
theorem Sys2Proof.Laws.Words.exitReachesBarrier (bar warp : Nat) :
    Sys2Proof.Laws.Words.Statement (.exitReachesBarrier bar warp) := Laws.Words.all _
theorem Sys2Proof.Laws.Words.engineOpStarts (op : Nat) :
    Sys2Proof.Laws.Words.Statement (.engineOpStarts op) := Laws.Words.all _
theorem Sys2Proof.Laws.Words.engineOpCompletes (op : Nat) :
    Sys2Proof.Laws.Words.Statement (.engineOpCompletes op) := Laws.Words.all _
theorem Sys2Proof.Laws.Words.collCreditGrant (r : Grant) :
    Sys2Proof.Laws.Words.Statement (.collCreditGrant r) := Laws.Words.all _
theorem Sys2Proof.Laws.Words.collDataArrives (group rank seq : Nat) (data : List Byte) :
    Sys2Proof.Laws.Words.Statement (.collDataArrives group rank seq data) := Laws.Words.all _
theorem Sys2Proof.Laws.Words.ontiaDatagram (pseudo : List Nat) (h : UdpHeader) (payload : List Byte) :
    Sys2Proof.Laws.Words.Statement (.ontiaDatagram pseudo h payload) := Laws.Words.all _
theorem Sys2Proof.Laws.Words.placerDecision : Sys2Proof.Laws.Words.Statement (.placerDecision) := Laws.Words.all _
theorem Sys2Proof.Laws.Words.placerSweep : Sys2Proof.Laws.Words.Statement (.placerSweep) := Laws.Words.all _
theorem Sys2Proof.Laws.Words.recordReserved (queue : Nat) :
    Sys2Proof.Laws.Words.Statement (.recordReserved queue) := Laws.Words.all _
theorem Sys2Proof.Laws.Words.allotmentComplete (gang : Nat) :
    Sys2Proof.Laws.Words.Statement (.allotmentComplete gang) := Laws.Words.all _
theorem Sys2Proof.Laws.Words.stageInCompletes (gang : Nat) :
    Sys2Proof.Laws.Words.Statement (.stageInCompletes gang) := Laws.Words.all _
theorem Sys2Proof.Laws.Words.gangEvictionStart (gang : Nat) :
    Sys2Proof.Laws.Words.Statement (.gangEvictionStart gang) := Laws.Words.all _
theorem Sys2Proof.Laws.Words.gangEvictionComplete (gang : Nat) :
    Sys2Proof.Laws.Words.Statement (.gangEvictionComplete gang) := Laws.Words.all _
theorem Sys2Proof.Laws.Words.restoreBegins (gang : Nat) :
    Sys2Proof.Laws.Words.Statement (.restoreBegins gang) := Laws.Words.all _
theorem Sys2Proof.Laws.Words.imageIsLoaded (gang : Nat) :
    Sys2Proof.Laws.Words.Statement (.imageIsLoaded gang) := Laws.Words.all _
theorem Sys2Proof.Laws.Words.retireWritebackComplete (gang : Nat) :
    Sys2Proof.Laws.Words.Statement (.retireWritebackComplete gang) := Laws.Words.all _
theorem Sys2Proof.Laws.Words.gridCompletes (grid : Word) :
    Sys2Proof.Laws.Words.Statement (.gridCompletes grid) := Laws.Words.all _
theorem Sys2Proof.Laws.Words.gridKilledReport (grid : Word) :
    Sys2Proof.Laws.Words.Statement (.gridKilledReport grid) := Laws.Words.all _
theorem Sys2Proof.Laws.Words.completionDelivery : Sys2Proof.Laws.Words.Statement (.completionDelivery) := Laws.Words.all _
theorem Sys2Proof.Laws.Words.journalCheckpoint : Sys2Proof.Laws.Words.Statement (.journalCheckpoint) := Laws.Words.all _
theorem Sys2Proof.Laws.Words.quiesceCompletes (ctx : Nat) :
    Sys2Proof.Laws.Words.Statement (.quiesceCompletes ctx) := Laws.Words.all _
theorem Sys2Proof.Laws.Words.standbyTakeover : Sys2Proof.Laws.Words.Statement (.standbyTakeover) := Laws.Words.all _
theorem Sys2Proof.Laws.Words.correctableError (chan : Nat) (addr : DWord) :
    Sys2Proof.Laws.Words.Statement (.correctableError chan addr) := Laws.Words.all _
theorem Sys2Proof.Laws.Words.uncorrectableError (chan : Nat) (addr : DWord) (item : ErrItem) :
    Sys2Proof.Laws.Words.Statement (.uncorrectableError chan addr item) := Laws.Words.all _
theorem Sys2Proof.Laws.Words.trainingSucceeds (l : Link) (width : Nat) :
    Sys2Proof.Laws.Words.Statement (.trainingSucceeds l width) := Laws.Words.all _
theorem Sys2Proof.Laws.Words.trainingFails (l : Link) : Sys2Proof.Laws.Words.Statement (.trainingFails l) := Laws.Words.all _
theorem Sys2Proof.Laws.Words.widthIsLost (l : Link) (width : Nat) :
    Sys2Proof.Laws.Words.Statement (.widthIsLost l width) := Laws.Words.all _
theorem Sys2Proof.Laws.Words.linkIsLost (l : Link) : Sys2Proof.Laws.Words.Statement (.linkIsLost l) := Laws.Words.all _
theorem Sys2Proof.Laws.Words.podRequest (pa : Nat) (op : PodOp) :
    Sys2Proof.Laws.Words.Statement (.podRequest pa op) := Laws.Words.all _
theorem Sys2Proof.Laws.Words.endpointRead (reqPkg stack off size : Nat) :
    Sys2Proof.Laws.Words.Statement (.endpointRead reqPkg stack off size) := Laws.Words.all _
theorem Sys2Proof.Laws.Words.rdmaWrite (qp pa : Nat) (data : List Byte) :
    Sys2Proof.Laws.Words.Statement (.rdmaWrite qp pa data) := Laws.Words.all _
theorem Sys2Proof.Laws.Words.rdmaRead (qp pa size : Nat) :
    Sys2Proof.Laws.Words.Statement (.rdmaRead qp pa size) := Laws.Words.all _
theorem Sys2Proof.Laws.Words.edwickFrameDropped (src : Nat) (frame : BitVec 128) (bytes : Nat) :
    Sys2Proof.Laws.Words.Statement (.edwickFrameDropped src frame bytes) := Laws.Words.all _
theorem Sys2Proof.Laws.Words.coldReset : Sys2Proof.Laws.Words.Statement (.coldReset) := Laws.Words.all _
theorem Sys2Proof.Laws.Words.createQueue (e : Edw) (num : Nat) (desc : BitVec 256) :
    Sys2Proof.Laws.Words.Statement (.createQueue e num desc) := Laws.Words.all _
theorem Sys2Proof.Laws.Words.enableQueue (e : Edw) (num : Nat) :
    Sys2Proof.Laws.Words.Statement (.enableQueue e num) := Laws.Words.all _
theorem Sys2Proof.Laws.Words.disableQueue (e : Edw) (num : Nat) :
    Sys2Proof.Laws.Words.Statement (.disableQueue e num) := Laws.Words.all _
theorem Sys2Proof.Laws.Words.freeQueue (e : Edw) (num : Nat) :
    Sys2Proof.Laws.Words.Statement (.freeQueue e num) := Laws.Words.all _
theorem Sys2Proof.Laws.Words.enqueueRecord (e : Edw) (num : Nat) (rec : BitVec 1024) :
    Sys2Proof.Laws.Words.Statement (.enqueueRecord e num rec) := Laws.Words.all _
theorem Sys2Proof.Laws.Words.queryQueue (e : Edw) (num : Nat) :
    Sys2Proof.Laws.Words.Statement (.queryQueue e num) := Laws.Words.all _
theorem Sys2Proof.Laws.Words.setOntiaUdpPort (e : Edw) (port : BitVec 16) :
    Sys2Proof.Laws.Words.Statement (.setOntiaUdpPort e port) := Laws.Words.all _
theorem Sys2Proof.Laws.Words.createContext (e : Edw) (desc : BitVec 512) :
    Sys2Proof.Laws.Words.Statement (.createContext e desc) := Laws.Words.all _
theorem Sys2Proof.Laws.Words.activateContext (e : Edw) (num : Nat) :
    Sys2Proof.Laws.Words.Statement (.activateContext e num) := Laws.Words.all _
theorem Sys2Proof.Laws.Words.quiesceContext (e : Edw) (num : Nat) :
    Sys2Proof.Laws.Words.Statement (.quiesceContext e num) := Laws.Words.all _
theorem Sys2Proof.Laws.Words.resumeContext (e : Edw) (num : Nat) :
    Sys2Proof.Laws.Words.Statement (.resumeContext e num) := Laws.Words.all _
theorem Sys2Proof.Laws.Words.destroyContext (e : Edw) (num : Nat) :
    Sys2Proof.Laws.Words.Statement (.destroyContext e num) := Laws.Words.all _
theorem Sys2Proof.Laws.Words.setServiceClass (e : Edw) (num : Nat) (cls : BitVec 4) :
    Sys2Proof.Laws.Words.Statement (.setServiceClass e num cls) := Laws.Words.all _
theorem Sys2Proof.Laws.Words.setPhase (e : Edw) (num : Nat) (phase : BitVec 16) :
    Sys2Proof.Laws.Words.Statement (.setPhase e num phase) := Laws.Words.all _
theorem Sys2Proof.Laws.Words.queryContext (e : Edw) (num : Nat) :
    Sys2Proof.Laws.Words.Statement (.queryContext e num) := Laws.Words.all _
theorem Sys2Proof.Laws.Words.writeServiceClass (e : Edw) (cls : BitVec 4) (val : Word) :
    Sys2Proof.Laws.Words.Statement (.writeServiceClass e cls val) := Laws.Words.all _
theorem Sys2Proof.Laws.Words.clearContextError (e : Edw) (num : Nat) (val : Word) :
    Sys2Proof.Laws.Words.Statement (.clearContextError e num val) := Laws.Words.all _
theorem Sys2Proof.Laws.Words.evictGang (e : Edw) (grid : Word) (gang : Nat) :
    Sys2Proof.Laws.Words.Statement (.evictGang e grid gang) := Laws.Words.all _
theorem Sys2Proof.Laws.Words.invalidateTranslations (e : Edw) (ctx : Nat) (base len : DWord) :
    Sys2Proof.Laws.Words.Statement (.invalidateTranslations e ctx base len) := Laws.Words.all _
theorem Sys2Proof.Laws.Words.writeStackAct (e : Edw) (stack idx : Nat) (entry : DWord) :
    Sys2Proof.Laws.Words.Statement (.writeStackAct e stack idx entry) := Laws.Words.all _
theorem Sys2Proof.Laws.Words.writeRouteEntry (e : Edw) (pkg : Nat) (entry : DWord) :
    Sys2Proof.Laws.Words.Statement (.writeRouteEntry e pkg entry) := Laws.Words.all _
theorem Sys2Proof.Laws.Words.resetLink (e : Edw) (l : Link) (hold : Bool) :
    Sys2Proof.Laws.Words.Statement (.resetLink e l hold) := Laws.Words.all _
theorem Sys2Proof.Laws.Words.queryLink (e : Edw) (l : Link) :
    Sys2Proof.Laws.Words.Statement (.queryLink e l) := Laws.Words.all _
theorem Sys2Proof.Laws.Words.queryPower (e : Edw) : Sys2Proof.Laws.Words.Statement (.queryPower e) := Laws.Words.all _
theorem Sys2Proof.Laws.Words.setClusterClass (e : Edw) (die cluster : Nat) (cls : BitVec 2) :
    Sys2Proof.Laws.Words.Statement (.setClusterClass e die cluster cls) := Laws.Words.all _
theorem Sys2Proof.Laws.Words.writeCollectiveGroup (e : Edw) (group ctx : Nat) (members : List Nat) :
    Sys2Proof.Laws.Words.Statement (.writeCollectiveGroup e group ctx members) := Laws.Words.all _
theorem Sys2Proof.Laws.Words.queryPins (e : Edw) : Sys2Proof.Laws.Words.Statement (.queryPins e) := Laws.Words.all _
theorem Sys2Proof.Laws.Words.releasePinRetry (e : Edw) (pinid : DWord) :
    Sys2Proof.Laws.Words.Statement (.releasePinRetry e pinid) := Laws.Words.all _
theorem Sys2Proof.Laws.Words.releasePinSkip (e : Edw) (pinid : DWord) :
    Sys2Proof.Laws.Words.Statement (.releasePinSkip e pinid) := Laws.Words.all _
theorem Sys2Proof.Laws.Words.killGrid (e : Edw) (grid : Word) :
    Sys2Proof.Laws.Words.Statement (.killGrid e grid) := Laws.Words.all _
theorem Sys2Proof.Laws.Words.readErrorLog (e : Edw) (clear : Bool) :
    Sys2Proof.Laws.Words.Statement (.readErrorLog e clear) := Laws.Words.all _
theorem Sys2Proof.Laws.Words.queryErrorCounters (e : Edw) :
    Sys2Proof.Laws.Words.Statement (.queryErrorCounters e) := Laws.Words.all _
theorem Sys2Proof.Laws.Words.writeSignalSet (e : Edw) (mode ctx : Nat) (va val : DWord) :
    Sys2Proof.Laws.Words.Statement (.writeSignalSet e mode ctx va val) := Laws.Words.all _
theorem Sys2Proof.Laws.Words.writeSignalAdd (e : Edw) (ctx : Nat) (va val : DWord) :
    Sys2Proof.Laws.Words.Statement (.writeSignalAdd e ctx va val) := Laws.Words.all _
theorem Sys2Proof.Laws.Words.writeSpecial (e : Edw) (die core : Nat) (n : BitVec 12) (val : Word) :
    Sys2Proof.Laws.Words.Statement (.writeSpecial e die core n val) := Laws.Words.all _
theorem Sys2Proof.Laws.Words.readSpecial (e : Edw) (die core : Nat) (n : BitVec 12) :
    Sys2Proof.Laws.Words.Statement (.readSpecial e die core n) := Laws.Words.all _
theorem Sys2Proof.Laws.Words.setSavePool (e : Edw) (base len : DWord) :
    Sys2Proof.Laws.Words.Statement (.setSavePool e base len) := Laws.Words.all _
theorem Sys2Proof.Laws.Words.setFaultRing (e : Edw) (base : DWord) :
    Sys2Proof.Laws.Words.Statement (.setFaultRing e base) := Laws.Words.all _
theorem Sys2Proof.Laws.Words.attest (e : Edw) (nonce : List Byte) :
    Sys2Proof.Laws.Words.Statement (.attest e nonce) := Laws.Words.all _
theorem Sys2Proof.Laws.Words.queryBootStatus (e : Edw) :
    Sys2Proof.Laws.Words.Statement (.queryBootStatus e) := Laws.Words.all _
theorem Sys2Proof.Laws.Words.warmReset (e : Edw) : Sys2Proof.Laws.Words.Statement (.warmReset e) := Laws.Words.all _
theorem Sys2Proof.Laws.Words.unknownCmd (e : Edw) (cmd : FrameCmd) :
    Sys2Proof.Laws.Words.Statement (.unknownCmd e cmd) := Laws.Words.all _
theorem Sys2Proof.Laws.Words.ecnMarkedPacket (qp : Nat) :
    Sys2Proof.Laws.Words.Statement (.ecnMarkedPacket qp) := Laws.Words.all _
end

