-- ==== Sys2Proof/Laws/Ready.lean ====
section
/-! SUPPORT. The premises of statements as tests that can be run: the lemmas by which a concrete state is shown to have
operands at hand and accesses granted. -/

namespace Sys2Proof.Machine

/-- Everything `Ready` asks, run on a concrete state. -/
def readyB (s : State) (p : Place) (i : Issue) (g : Guard) (srcs : List Src) (dsts : List (Operand × Nat)) : Bool :=
  let m := activeOf p i g
  let rs := srcRegs srcs ++ dsts
  decide (m ≠ 0#32)
    && rs.all (fun x => inAllot p.w x.1 x.2)
    && (rs.map (·.1)).all (fun o => match o with | .port q => p.bound q | _ => true)
    && allPorts.all (fun q => (lanesOf m).all fun l => decide (portCount q srcs ≤ (p.w.getFifo q l).q.length))
    && dsts.all (fun x => match x.1 with
        | .port q => decide (m &&& Sparse.get 0#32 p.w.outClosed q.code = 0#32)
            && (lanesOf m).all fun l => s.portRoom p q l x.2
        | _ => true)
    && rs.all (fun x => (futsOf x.1 x.2).all fun k => (p.w.fut.get? k.val).isNone)
    && p.w.log.all (fun ke => !ke.2.readBy m (srcRegs srcs) && !ke.2.reusedBy m dsts)
    && dsts.all (fun x => !x.1.isPort || !fencePending isRelFence p.w m)
    && s.arrivals.all fun a => decide (a.warp ≠ p.key) || match a.d with
        | none => true
        | some d => rs.all fun x => !regsMeet x (d, 1)

theorem mem_allPorts (q : Port) : q ∈ allPorts := by cases q <;> decide

theorem ready_of {s : State} {p : Place} {i : Issue} {g : Guard} {srcs : List Src} {dsts : List (Operand × Nat)}
    (h : readyB s p i g srcs dsts = true) : Ready s p i g srcs dsts := by
  simp only [readyB, Bool.and_eq_true, List.all_eq_true, decide_eq_true_eq, Bool.or_eq_true] at h
  obtain ⟨⟨⟨⟨⟨⟨⟨⟨ha, hr⟩, hb⟩, hf⟩, ho⟩, hu⟩, hl⟩, hq⟩, hv⟩ := h
  have hp (q : Port) (n : Nat) (hq : (Operand.port q, n) ∈ dsts) :
      activeOf p i g &&& Sparse.get 0#32 p.w.outClosed q.code = 0#32
        ∧ ∀ l ∈ lanesOf (activeOf p i g), s.portRoom p q l n = true := by
    simpa [Bool.and_eq_true, List.all_eq_true] using ho _ hq
  refine ⟨ha, hr, fun q hq => hb _ hq, fun q l hl' => hf q (mem_allPorts q) l hl', fun q n hq => (hp q n hq).1,
    fun q n hq => (hp q n hq).2, fun x hx k hk => ?_, fun ke hk => ?_, fun x hx hp => ?_, fun a hm hw d hd x hx => ?_⟩
  · simpa using hu x hx k hk
  · simpa using hl ke hk
  · simpa [hp] using hq x hx
  · rcases hv a hm with h1 | h1
    · exact absurd hw h1
    · simp only [hd, List.all_eq_true, Bool.not_eq_true'] at h1
      exact h1 x hx

/-- The translation of an access that may perform at once. -/
def reachB (s : State) (p : Place) (acc : AccKind) (va : DWord) : Option Xlat :=
  match tlbLookup s (coreTlbs p.t.core) p.gr.ctx va.toNat with
  | none => none
  | some e =>
    let x := leafXlat e.pte e.size va.toNat e.srec
    if permOk e.pte acc && (!accWrites acc || e.pte.getLsbD 6) && decide (x.pkg = s.fused.pkg) && decide (x.ap ≠ 3)
        && (!accWrites acc || !x.cmp) && !s.surfLocked p.gr.ctx x.surf && !s.linePoisoned x.loc
        && !s.dieCut (coreDie p.t.core) then some x else none

theorem reach_of {s : State} {p : Place} {acc : AccKind} {va : DWord} {x : Xlat} (h : reachB s p acc va = some x) :
    Reach s p acc va x := by
  unfold reachB at h
  split at h
  · cases h
  · rename_i e he
    dsimp only at h
    split at h
    · rename_i hc
      simp only [Bool.and_eq_true, Bool.or_eq_true, Bool.not_eq_true', decide_eq_true_eq] at hc
      obtain ⟨⟨⟨⟨⟨⟨⟨h1, h2⟩, h3⟩, h4⟩, h5⟩, h6⟩, h7⟩, h8⟩ := hc
      cases h
      exact ⟨⟨e, he, h1, fun a => h2.resolve_left (by simp [a]), rfl⟩, h3, h4, fun a => h5.resolve_left (by simp [a]), h6, h7, h8⟩
    · cases h

/-- What an access reaches, where it does. -/
def reached (s : State) (p : Place) (acc : AccKind) (va : DWord) : Xlat := (reachB s p acc va).getD ⟨0, 0, 0, 0, 0#512, none⟩

theorem reach_reached {s : State} {p : Place} {acc : AccKind} {va : DWord} (h : (reachB s p acc va).isSome = true) :
    Reach s p acc va (reached s p acc va) := by
  obtain ⟨x, hx⟩ := Option.isSome_iff_exists.1 h
  unfold reached
  rw [hx]
  exact reach_of hx

def logFreeB (p : Place) (m : LaneMask) : Bool :=
  decide (p.w.log.length < 8) && p.w.log.all fun ke => decide (ke.2.active &&& ~~~ ke.2.done &&& m = 0#32)

theorem logFree_of {p : Place} {m : LaneMask} (h : logFreeB p m = true) : LogFree p m := by
  simpa [logFreeB, LogFree] using h

/-- Everything `AccessReady` asks, run on a concrete state. -/
def accessReadyB (s : State) (p : Place) (i : Issue) (o : MemOp) : Bool :=
  readyB s p i o.g o.srcs o.dsts && logFreeB p (activeOf p i o.g)
    && (lanesOf (o.lanes (activeOf p i o.g))).all fun l =>
      let va := (o.valsOf s p l).va
      regionOk p.gr p.g.num va.toNat o.bytes o.need && decide (va.toNat % o.bytes = 0)
        && !s.rangeLocked p.gr.ctx va.toNat o.bytes o.writes
        && !s.stashBusy p.gid (((regionOf p.gr.regions p.g.num va.toNat).map (·.1)).getD 0) o.bytes o.writes
        && (reachB s p o.acc va).isSome

theorem accessReady_of {s : State} {p : Place} {i : Issue} {o : MemOp} (h : accessReadyB s p i o = true) :
    AccessReady s p i o fun l => reached s p o.acc (o.valsOf s p l).va := by
  simp only [accessReadyB, Bool.and_eq_true, List.all_eq_true, decide_eq_true_eq, Bool.not_eq_true'] at h
  obtain ⟨⟨h1, h2⟩, h3⟩ := h
  refine ⟨ready_of h1, logFree_of h2, fun l hl => ?_⟩
  obtain ⟨⟨⟨⟨a, b⟩, c⟩, d⟩, e⟩ := h3 l hl
  exact ⟨a, b, c, d, reach_reached e⟩

/-- Everything `TargetReady` asks, run on a concrete state, and the place the lane reaches. -/
def targetReadyB (s : State) (p : Place) (n : Nat) (need : MemAcc) (write : Bool) (t : Target) : Bool :=
  !t.busy s n write && match t with
    | .outside => false
    | .scratch gid off => write || !scratchPoisoned s gid off
    | .region _ _ va mode => canonicalVa va && regionAdmits mode need && !s.rangeLocked p.gr.ctx va n write
        && (reachB s p (if write then .store else .load) (BitVec.ofNat 64 va)).isSome

def targetReached (s : State) (p : Place) (write : Bool) : Target → Xlat
  | .region _ _ va _ => reached s p (if write then .store else .load) (BitVec.ofNat 64 va)
  | _ => ⟨0, 0, 0, 0, 0#512, none⟩

theorem targetReady_of {s : State} {p : Place} {n : Nat} {need : MemAcc} {write : Bool} {t : Target}
    (h : targetReadyB s p n need write t = true) : TargetReady s p n need write t (targetReached s p write t) := by
  cases t <;> simp_all [targetReadyB, TargetReady, targetReached, reach_reached]

end Sys2Proof.Machine
end

