-- ==== Sys2Proof/Laws/Stops.lean ====
section
/-! SUPPORT. What the shared operations that end an instruction can change: retiring, blocking, pinning, taking a trap
and returning from it. -/

namespace Sys2Proof.Machine

theorem Tab.sorted_map_key {β γ : Type} (t : Tab β) (f : Nat × β → Nat × γ) (hf : ∀ kv, (f kv).1 = kv.1)
    (h : Tab.Sorted t) : Tab.Sorted (List.map f t : Tab γ) := by
  induction t with
  | nil => trivial
  | cons a t ih =>
    obtain ⟨k, v⟩ := a
    rw [Tab.sorted_cons] at h
    rw [List.map_cons, show f (k, v) = (k, (f (k, v)).2) from Prod.ext (hf _) rfl, Tab.sorted_cons]
    refine ⟨fun kv hkv => ?_, ih h.2⟩
    obtain ⟨x, hx, rfl⟩ := List.mem_map.1 hkv
    rw [hf]
    exact h.1 x hx

theorem Tab.sorted_modify {β : Type} (t : Tab β) (k : Nat) (f : β → β) (h : Tab.Sorted t) : Tab.Sorted (t.modify k f) :=
  Tab.sorted_map_key t _ (fun kv => by split <;> rfl) h

theorem Tab.sorted_mapV {β γ : Type} (t : Tab β) (f : Nat → β → γ) (h : Tab.Sorted t) : Tab.Sorted (t.mapV f) :=
  Tab.sorted_map_key t _ (fun _ => rfl) h

/-- Retiring moves the path of the issuing warp past its instruction and changes nothing else. -/
theorem State.retire_spec (s : State) (i : Issue) :
    s.retire i = { s with warps := (s.retire i).warps }
    ∧ ∀ x, (s.retire i).warps.get? x = if x = i.w then (s.warps.get? i.w).map fun w => w.stepOver i.path i.pc i.len i.last
        else s.warps.get? x :=
  ⟨rfl, fun x => State.get?_modWarp s i.w x _⟩

theorem State.dropWait_rest (s : State) (w core : Nat) :
    s.dropWait w core = { s with warps := (s.dropWait w core).warps, cores := (s.dropWait w core).cores } := rfl

/-- Blocking changes warps and cores alone. -/
theorem State.blockLanes_rest (s : State) (w core : Nat) (ws : List (Nat × Wake)) :
    let t := s.blockLanes w core ws
    t = { s with warps := t.warps, cores := t.cores } := by
  simp only [State.blockLanes]
  split
  · split <;> rfl
  · rfl

/-- Closing or breaking links changes what is in flight alone. -/
theorem State.closeLane_rest (s : State) (p : Place) (qs : List Port) (lane how : Nat) :
    s.closeLane p qs lane how = { s with flight := (s.closeLane p qs lane how).flight } := by
  unfold State.closeLane
  induction qs generalizing s with
  | nil => rfl
  | cons q qs ih =>
    rw [List.foldl_cons, ih]
    split <;> rfl

theorem State.closeLanes_rest (p : Place) (qs : List Port) (how : Nat) (ls : List Nat) (s : State) :
    let t := ls.foldl (fun s l => s.closeLane p qs l how) s
    t = { s with flight := t.flight } := by
  induction ls generalizing s with
  | nil => rfl
  | cons l ls ih =>
    simp only [List.foldl_cons]
    rw [ih, State.closeLane_rest]

theorem writePins_rest (s : State) : writePins s = { s with errs := { s.errs with pins := (writePins s).errs.pins } } := rfl

/-- A pin changes the context's error state, the list of pins, the number of the next pin, the warp, what is in flight,
and its core. -/
theorem State.pinWarp_rest (s : State) (p : Place) (lanes : LaneMask) (pc : Word) (len : Nat) (last : Bool)
    (cause : Nat) (addr : DWord) (entry : Option Nat) :
    let t := s.pinWarp p lanes pc len last cause addr entry
    t = { s with ctxs := t.ctxs, errs := t.errs, placer := t.placer, warps := t.warps, flight := t.flight
                 cores := t.cores } := by
  simp only [State.pinWarp]
  rw [State.dropWait_rest, State.closeLanes_rest]
  rfl

/-- A trap whose handler is found (06 R178): the warp alone changes, its path stands at the handler, and the handler state
says where and why. -/
theorem takeTrap_found {s : State} {p : Place} {i : Issue} {cause : Cause} {sub : Nat} {mask : LaneMask} {val : DWord}
    {t : State} {off : Word} (hm : p.w.handler.on = false) (hf : findHandler s p (causeCode cause) = .found t off) :
    takeTrap s p i cause sub mask val = t.modWarp p.key fun w =>
      { w.jump i.path off with
        handler := ⟨true, BitVec.ofNat 32 (sub * 256 + causeCode cause), i.pc, i.path, mask, BitVec.ofNat 32 (lowLane mask),
          loWord val, hiWord val⟩ } := by
  simp only [takeTrap, hm, hf]
  rfl

/-- A trap in handler mode pins the warp with P-NOHANDLER (06 R178). -/
theorem takeTrap_handler {s : State} {p : Place} {i : Issue} {cause : Cause} {sub : Nat} {mask : LaneMask} {val : DWord}
    (h : p.w.handler.on = true) :
    takeTrap s p i cause sub mask val = s.pinWarp p i.path i.pc i.len i.last pinNoHandler 0#64 none true := by
  simp [takeTrap, h]

/-- A trap without a handler pins the warp with P-NOHANDLER (06 R178), in the state in which the tables were read. -/
theorem takeTrap_none {s t : State} {p : Place} {i : Issue} {cause : Cause} {sub : Nat} {mask : LaneMask} {val : DWord}
    (hm : p.w.handler.on = false) (h : findHandler s p (causeCode cause) = .none t) :
    takeTrap s p i cause sub mask val = t.pinWarp p i.path i.pc i.len i.last pinNoHandler 0#64 none true := by
  simp [takeTrap, hm, h]

/-- The return (06 R178): every lane of `%tpath` that has not exited stands at `%epc`, and the other lanes stay. -/
theorem returnFromTrap_pc (w : Warp) (l : Nat) (hl : l < 32) :
    (returnFromTrap w).pc l
      = if (w.handler.tpath &&& ~~~ w.exited).getLsbD l then w.handler.epc else w.pc l :=
  Warp.pc_setPcs w _ _ l hl

theorem returnFromTrap_rest (w : Warp) :
    let x := returnFromTrap w
    x = { w with pcv := x.pcv, handler := { w.handler with on := false }, entering := x.entering, inside := x.inside,
                 bpExempt := x.bpExempt } := rfl

end Sys2Proof.Machine
end

