-- ==== Sys2Proof/Tests/Slice0.lean ====
section
/-! SUPPORT. The model's own tests, as named theorems: words written out from the encoding tables of spec/ decode to
their instructions, ill-formed terms are refused, and small witnesses that meet the hypotheses of each statement. -/

namespace Sys2Proof.Tests
set_option Elab.async false
open Machine

/-! ## A small machine: one warp on core 0 whose lanes 0 and 1 stand at the second word of a clause -/

/-- One region of 32 KiB at 0x2000, on-touch. -/
def tRegion : BitVec 256 := BitVec.ofNat 256 (0x2000 * 2 ^ 192 + 0x8000 * 2 ^ 160 + 1 * 2 ^ 144 + 1 * 2 ^ 80)

/-- A kernel of the given contract with that region. -/
def tGrid (contract : Nat) : Grid :=
  { oneGrid 3 with
    kcb := BitVec.ofNat 512 (4096 * 2 ^ 416 + 0x200 * 2 ^ 352 + 64 * 2 ^ 328 + 32 * 2 ^ 320 + 16 * 2 ^ 312 + 8 * 2 ^ 304
      + contract * 2 ^ 260 + 3 * 2 ^ 248 + 2 * 2 ^ 288)
    lrec := BitVec.ofNat 1024 (1 * 2 ^ 680)
    regions := [tRegion] }

def tLanes : LaneMask := 3#32

/-- v0: 5, −7; v1: 3, 9; the pair v2: 0x3000, 0x3040; the pair v4: two values; v6: 4, 4. s2: 0x3000; s4: 7. -/
def tWarp (g : Grid) : Warp :=
  { freshWarp g 0 0 0 0#8 with
    pcv := List.replicate 32 4#32
    exited := 0xFFFFFFFC#32
    entering := 0#32
    inside := [(0, 0#32), (1, 0#32)]
    v := [(0, 5#32), (1, 0xFFFFFFF9#32), (32, 3#32), (33, 9#32), (64, 0x3000#32), (65, 0x3040#32),
      (128, 0x11223344#32), (129, 0x55667788#32), (161, 1#32), (192, 4#32), (193, 4#32)]
    u := [(2, 0x3000#32), (4, 7#32)] }

def tIssue : Issue := ⟨0, tLanes, 4#32, 4, false⟩

def tGang : Gang := ⟨0#32, 0, .running, 0, 0, 0, [0], [1], 0, 0, false, false, false, [], [], 0, [], []⟩
def tTeam : Team := ⟨0, 0, 0, 1, 0#512, 0, false⟩

/-- A handler table at 0x200 that names offset 0x100 for every cause; page tables at 4,096 and 8,192 that map the
address space onto the package, readable, writable, executable; four bytes of data. -/
def tMem : List Host.Cell :=
  Sparse.fill 0#8 (Sparse.fill 0#8 (Sparse.fill 0#8 (Sparse.fill 0#8 []
    0x208 ((List.range 10).flatMap fun _ => bytesLE 8 (2 ^ 63 + 0x100)))
    4096 (bytesLE 8 (2 * 2 ^ 12 + 1))) 8192 (bytesLE 8 0x7F)) 0x3000 [1#8, 2#8, 3#8, 0x84#8]

def tState (gr : Grid) (w : Warp) : State :=
  { State.reset with
    hc := 100000
    ctxs := [(0, oneCtx 0)]
    grids := [(0, gr)]
    gangs := [(0, tGang)]
    teams := [(0, tTeam)]
    warps := [(0, w)]
    bars := [(0, ⟨.armed, false, 1, 0, [], 0, 0, 0, true, 32, [0], 0, none, 0, []⟩),
      (1, ⟨.armed, false, 1, 0, [], 0, 0, 0, true, 0, [0], 0, some 0, 0, []⟩)]
    paging := { State.reset.paging with tlb := [⟨0, 0, 0, 0, 39, 0x7F#64, 0#512⟩] }
    placer := { State.reset.placer with nextAge := 1, nextGang := 1, nextBar := 2 }
    mem := tMem
    cur := some tIssue }

def tPlace (gr : Grid) (w : Warp) : Place := ⟨0, w, tTeam, tGang, 0, gr⟩

def tS : State := tState (tGrid 0) (tWarp (tGrid 0))
def tP : Place := tPlace (tGrid 0) (tWarp (tGrid 0))
def tG : Guard := ⟨7, false⟩
def tH : Hd := ⟨false, tG⟩

theorem tIssuing (gr : Grid) (w : Warp) (hw : w.team = 0) : Issuing (tState gr w) (tPlace gr w) tIssue := by
  refine ⟨rfl, ?_⟩
  simp [State.place?, tState, tPlace, tIssue, Tab.get?, hw, tTeam, tGang]

/-! ## Ill-formed terms, one for each check (12 R309, R311 to R318), are refused -/

def tR : Hd := ⟨true, tG⟩

/-- No term of the list is well formed. -/
def refuses (is : List Instr) : Bool := is.all fun i => !i.wf

/-- Destinations that are specials or constants; a port under U; a uniform form. -/
theorem test_wf_short : refuses [
    .add ⟨tH, .spec .lane, .v 0, .v 1⟩, .add ⟨tH, .imm 3, .v 0, .v 1⟩, .add ⟨tR, .s 0, .port .qn, .s 1⟩,
    .mov ⟨tH, .spec .clk, .v 0⟩, .mov ⟨tR, .port .qn, .v 0⟩, .movi ⟨tH, .imm 0, 5⟩, .movi ⟨tR, .port .ql, 5⟩,
    .br ⟨tG, 2⟩, .call ⟨tG, .v 0, 6⟩, .call ⟨tG, .spec .lane, 8⟩,
    .addImm ⟨tH, .spec .warp, .v 0, 1⟩, .xorImm ⟨tR, .v 0, .port .qs, 1⟩] = true := by decide +kernel

/-- Types of the wrong class; wide operands that are no pairs; fields past the element. -/
theorem test_wf_integer : refuses [
    .addXm ⟨tH, .f32, .v 0, .v 2, .v 4⟩, .addXm ⟨tH, .i64, .v 1, .v 2, .v 4⟩, .addXm ⟨tH, .i64, .v 0, .v 3, .v 4⟩,
    .addXm ⟨tH, .i64, .v 0, .v 2, .v 5⟩, .addXm ⟨tR, .i32, .s 0, .s 1, .port .qe⟩, .abs ⟨tH, .bf16, .v 0, .v 1⟩,
    .abs ⟨tH, .n64, .v 1, .v 2⟩, .abs ⟨tH, .n64, .v 2, .v 1⟩, .abs ⟨tR, .i32, .s 0, .port .qw⟩,
    .mad ⟨tH, .t2, .v 0, .v 1, .v 2, .v 3⟩, .mad ⟨tH, .i64, .v 0, .v 2, .v 4, .v 7⟩, .mad ⟨tH, .i64, .v 0, .v 2, .v 5, .v 6⟩,
    .addc ⟨tH, .f16, .v 0, .v 1, .v 2, 0, 0⟩, .addc ⟨tR, .i32, .s 0, .port .qn, .s 1, 0, 0⟩, .addc ⟨tH, .i64, .v 0, .v 1, .v 2, 0, 0⟩,
    .bfx ⟨tH, .i32, .v 0, .v 1, 31, 1⟩, .bfx ⟨tH, .f32, .v 0, .v 1, 0, 0⟩, .bfx ⟨tH, .i8, .v 0, .v 1, 3, 5⟩,
    .bfi ⟨tH, .n16, .v 0, .v 1, .v 2, 8, 8⟩, .bfi ⟨tH, .z8, .v 0, .v 1, .v 2, 0, 0⟩, .sel ⟨tH, .e4m3, .v 0, .v 1, .v 2, false, 0⟩,
    .sel ⟨tH, .i64, .v 1, .v 2, .v 4, false, 0⟩, .lea ⟨tH, .i16, .v 0, .v 1, .v 2, 0⟩, .lea ⟨tH, .i32, .v 1, .v 1, .v 2, 0⟩,
    .cmp ⟨tH, .eq, .l16, 0, .v 0, .v 1⟩, .cmp ⟨tH, .eq, .i64, 0, .v 1, .v 2⟩, .cmp ⟨tR, .eq, .i32, 0, .port .qn, .v 2⟩,
    .pmovToPred ⟨tR, 0, .port .qn⟩, .pmovFromPred ⟨tH, .imm 1, 0⟩, .pcnt ⟨tR, .port .qd, 0⟩, .voteMask ⟨tG, .spec .gang, 0⟩,
    .getpc ⟨tG, .imm 0⟩, .tokq ⟨tG, .spec .die⟩] = true := by decide +kernel

theorem test_wf_float : refuses [
    .faddXm ⟨tH, .i32, .rne, .v 0, .v 1, .v 2⟩, .faddXm ⟨tH, .f32, .rne, .imm 0, .v 1, .v 2⟩, .fdiv ⟨tR, .f32, .rne, .s 0, .port .qn, .s 2⟩,
    .ffma ⟨tH, .e5m2, .rne, .v 0, .v 1, .v 2, .v 3⟩, .ffma ⟨tR, .f32, .rne, .s 0, .s 1, .s 2, .port .qn⟩, .fmin ⟨tH, .i8, .v 0, .v 1, .v 2⟩,
    .frcp ⟨tH, .l8, .rne, .v 0, .v 1⟩, .frcp ⟨tH, .f32, .rne, .spec .lane, .v 1⟩, .fcls ⟨tH, .mxi8, .v 0, .v 1⟩, .fcmp ⟨tH, .eq, .n32, 0, .v 0, .v 1⟩,
    .lmul ⟨tH, .f32, false, .v 0, .v 1, .v 2⟩, .lmul ⟨tH, .l16, false, .imm 1, .v 1, .v 2⟩, .tdot ⟨tH, .v 0, .v 1, .v 2, .v 3⟩,
    .tdot ⟨tH, .v 0, .v 1, .port .qn, .v 3⟩, .tdot ⟨tH, .imm 0, .v 1, .v 4, .v 3⟩, .smul ⟨tH, 5, .v 0, .v 1, .v 2⟩,
    .smul ⟨tH, 17, .v 0, .v 1, .v 2⟩, .sgen ⟨tH, 5, .v 0, .v 1⟩, .sgen ⟨tH, 17, .v 0, .v 1⟩, .sgen ⟨tH, 8, .spec .lane, .v 1⟩,
    .ffmaUnf ⟨tH, .i32, .rne, .v 0, .v 1, .v 2, .v 3⟩] = true := by decide +kernel

/-- Conversions: too many registers, B1 with wide elements, E→L outside F32 to L16, a zero point without a Z type and
the reverse, type pairs that a function does not convert, U with a block conversion. -/
theorem test_wf_conversion : refuses [
    .cvt ⟨tH, .i64, .b1, false, false, .rne, .v 0, .v 16, none⟩, .cvt ⟨tH, .b1, .f32, false, false, .rne, .v 0, .v 16, none⟩,
    .cvt ⟨tH, .i32, .i8, false, false, .rne, .v 2, .v 4, none⟩, .cvt ⟨tH, .i8, .i32, false, false, .rne, .v 4, .v 2, none⟩,
    .cvt ⟨tH, .bf16, .f32, true, false, .rne, .v 4, .v 2, none⟩, .cvt ⟨tH, .l16, .f32, true, false, .rtz, .v 4, .v 2, none⟩,
    .cvt ⟨tH, .i8, .z8, false, false, .rne, .v 4, .v 2, none⟩, .cvt ⟨tH, .i8, .n8, false, false, .rne, .v 4, .v 2, some (.v 3)⟩,
    .cvt ⟨tR, .f16, .bf16, false, false, .rne, .s 4, .port .qn, none⟩,
    .mxq ⟨tH, .f32, .e4m3, false, .rne, .v 0, .v 1⟩, .mxq ⟨tR, .e4m3, .f32, false, .rne, .s 0, .s 1⟩, .mxdq ⟨tH, .e4m3, .f32, false, .rne, .v 0, .v 1⟩,
    .zq ⟨tH, .f32, .z8, false, .rne, .v 0, .v 1⟩, .zdq ⟨tH, .z8, .f32, false, .rne, .v 0, .v 1⟩, .tpk ⟨tH, .t2, .bf16, false, .rne, .v 0, .v 1⟩,
    .tunp ⟨tH, .bf16, .t2, false, .rne, .v 0, .v 1⟩, .tunp ⟨tH, .f32, .t2, false, .rne, .imm 0, .v 1⟩] = true := by decide +kernel

/-- Lane operations; memory orders, scopes, types and destinations (12 R317; 15 R387). -/
theorem test_wf_lanes_memory : refuses [
    .shflSel ⟨tG, .bf16, .v 0, .v 1, .v 2⟩, .bcast ⟨tG, .i32, .imm 0, .v 1, .v 2⟩, .lred ⟨tG, .f32, .and, .v 0, .v 1⟩, .lred ⟨tG, .i64, .add, .v 0, .v 2⟩,
    .lscan ⟨tG, .f32, .xor, false, .v 0, .v 1⟩, .lscan ⟨tG, .i32, .add, false, .spec .lane, .v 1⟩, .shflWide ⟨tG, .v 1, .v 2, .v 4⟩, .shflWide ⟨tG, .v 0, .v 3, .v 4⟩,
    .ld ⟨tG, .rel, .gg, .i32, .v 0, .v 1, 0⟩, .ld ⟨tG, .plain, .gg, .i32, .v 0, .v 1, 0⟩, .ld ⟨tG, .plain, .wp, .t2, .v 0, .v 1, 0⟩,
    .ld ⟨tG, .plain, .wp, .i32, .port .qn, .v 1, 0⟩, .ld ⟨tG, .plain, .wp, .i64, .v 1, .v 1, 0⟩, .ldr ⟨tG, .plain, .wp, .i16, .v 0, .v 1, 0⟩,
    .ldNc ⟨tG, .rlx, .gg, .i32, .v 0, .v 1, 0⟩, .ldNc ⟨tG, .plain, .gg, .i32, .v 0, .v 1, 0⟩, .st ⟨tG, .acq, .gg, .i32, .v 1, .v 0, 0⟩,
    .st ⟨tG, .plain, .sy, .i32, .v 1, .v 0, 0⟩, .st ⟨tG, .plain, .wp, .i64, .v 1, .v 3, 0⟩, .atomAdd ⟨tG, .plain, .wp, .i32, .v 0, .v 1, .v 4, 0⟩,
    .atomAdd ⟨tG, .rlx, .gg, .i8, .v 0, .v 1, .v 4, 0⟩, .atomExch ⟨tG, .ar, .gg, .i32, .port .qe, .v 1, .v 4, 0⟩, .cas ⟨tG, .plain, .wp, .i32, .v 0, .v 1, .v 4, .v 5, 0⟩,
    .cas ⟨tG, .rlx, .gg, .i64, .v 0, .v 1, .v 4, .v 5, 0⟩, .stc ⟨tG, .acq, .gg, .i32, .v 0, .v 1, .v 4, 0⟩, .stc ⟨tG, .plain, .wp, .i32, .port .qn, .v 1, .v 4, 0⟩,
    .rst ⟨tG, .acq, .gg, .i32, .v 0, .v 1, .v 2⟩, .rld ⟨tG, .rel, .gg, .i32, .v 0, .v 1, .v 2⟩, .rld ⟨tG, .plain, .wp, .i32, .port .qn, .v 1, .v 2⟩,
    .fence ⟨tG, .plain, .wp⟩, .fence ⟨tG, .rlx, .gg⟩, .sig ⟨tG, .acq, .gg, .v 1, .v 4, 0⟩, .sig ⟨tG, .rel, .gg, .v 1, .v 5, 0⟩, .sigw ⟨tG, .rel, .gg, .v 1, .v 4, 0⟩,
    .qstat ⟨tG, .imm 0, .qn⟩, .qpeek ⟨tG, .spec .lane, .qn⟩] = true := by decide +kernel

theorem test_wf_matrix_engines : refuses [
    .mmsp ⟨tG, .i8, .i8, 0, 0, 1, 2, 3, .s 0⟩, .ttr ⟨tG, .b1, 0, 1⟩, .ard ⟨tG, .z8, .rne, 0, 1⟩, .ard ⟨tG, .i64, .rne, 0, 1⟩, .ard ⟨tG, .e8m0, .rne, 0, 1⟩, .ard ⟨tG, .b1, .rne, 0, 1⟩,
    .copy ⟨tG, 0, 0, 33, .wp⟩, .cmpr ⟨tG, 0, 0, 62, .wp⟩, .arv ⟨tG, .imm 0, .v 0, 5⟩, .svc ⟨tG, .spec .lane, .v 0, 5⟩,
    .csrr ⟨tG, .imm 0, 0⟩, .csrr ⟨tG, .v 0, 0x007⟩, .csrw ⟨tG, .v 0, 0xFFF⟩] = true := by decide +kernel

/-! ## Words: every row of the table, with fields written out from 12 R307, R310, R312, R315 to R317, R320, R322 to R325 -/

/-- Each pair of words is read, under its version, as its instruction. -/
def reads (rows : List (Nat × Nat × Nat × Instr)) : Bool :=
  rows.all fun (v, w, x, i) => match decodeWords v w x with
    | .ok j => decide (j = i)
    | .error _ => false

/-- Each pair of words is rejected with the name given. -/
def rejects (rows : List (Nat × Nat × Nat × DecodeError)) : Bool :=
  rows.all fun (v, w, x, e) => match decodeWords v w x with
    | .ok _ => false
    | .error f => decide (f = e)

theorem test_decode_short : reads [
    (3, 0b000001_0_111_0_0000001_1000001_1100000, 0, .add ⟨⟨false, ⟨7, false⟩⟩, .v 1, .s 1, .port .qn⟩),
    (3, 0b000010_0_111_0_0000010_1000001_1100001, 0, .sub ⟨⟨false, ⟨7, false⟩⟩, .v 2, .s 1, .port .qs⟩),
    (3, 0b000011_0_111_0_0000011_1000001_1100010, 0, .and ⟨⟨false, ⟨7, false⟩⟩, .v 3, .s 1, .port .qe⟩),
    (3, 0b000100_0_111_0_0000100_1000001_1100011, 0, .or ⟨⟨false, ⟨7, false⟩⟩, .v 4, .s 1, .port .qw⟩),
    (3, 0b000101_0_111_0_0000101_1000001_1100100, 0, .xor ⟨⟨false, ⟨7, false⟩⟩, .v 5, .s 1, .port .ql⟩),
    (3, 0b000110_0_111_0_0000110_1000001_1100101, 0, .shl ⟨⟨false, ⟨7, false⟩⟩, .v 6, .s 1, .port .qr⟩),
    (3, 0b000111_0_111_0_0000111_1000001_1100110, 0, .shr ⟨⟨false, ⟨7, false⟩⟩, .v 7, .s 1, .port .qd⟩),
    (3, 0b001000_0_111_0_0001000_1000001_1100000, 0, .sra ⟨⟨false, ⟨7, false⟩⟩, .v 8, .s 1, .port .qn⟩),
    (3, 0b001001_1_010_1_1000100_1101000_0000000, 0, .mov ⟨⟨true, ⟨2, true⟩⟩, .s 4, .spec .lane⟩),
    (3, 0b001010_0_111_0_0000001_0000010_1111111, 0, .fadd ⟨⟨false, ⟨7, false⟩⟩, .v 1, .v 2, .imm 15⟩),
    (3, 0b001011_0_111_0_1100110_0000010_1110000, 0, .fmul ⟨⟨false, ⟨7, false⟩⟩, .port .qd, .v 2, .imm 0⟩),
    (3, 0b001100_0_111_0_0000000_0000000_0000000, 0, .nop ⟨⟨7, false⟩⟩),
    (3, 0b001101_0_011_1_0000000_0000000_0000000, 0, .exit ⟨⟨3, true⟩⟩),
    (3, 0b001110_0_111_0_0000000_0000101_0000000, 0, .ret ⟨⟨7, false⟩, .v 5⟩),
    (3, 0b001111_0_111_0_0000000_0000000_0000000, 0, .yield ⟨⟨7, false⟩⟩)] = true := by decide +kernel

theorem test_decode_xi : reads [
    (3, 0b010000_0_111_0_1000000_0000000_0000000, 0x12345678, .movi ⟨⟨false, ⟨7, false⟩⟩, .s 0, 0x12345678⟩),
    (3, 0b010001_0_001_0_0000000_0000000_0000000, 0xFFFFFFC0, .br ⟨⟨1, false⟩, 0xFFFFFFC0⟩),
    (3, 0b010010_0_111_0_0111111_0000000_0000000, 0x00000100, .call ⟨⟨7, false⟩, .v 63, 0x100⟩),
    (3, 0b010011_0_111_0_0000000_0000000_0000000, 0xDEADBEEF, .trap ⟨⟨7, false⟩, 0xDEADBEEF⟩),
    (3, 0b010100_0_111_0_0000010_0000011_0000000, 0x80000000, .addImm ⟨⟨false, ⟨7, false⟩⟩, .v 2, .v 3, 0x80000000⟩),
    (3, 0b010101_0_111_0_0000011_0000100_0000000, 0x80000001, .andImm ⟨⟨false, ⟨7, false⟩⟩, .v 3, .v 4, 0x80000001⟩),
    (3, 0b010110_0_111_0_0000100_0000101_0000000, 0x80000002, .orImm ⟨⟨false, ⟨7, false⟩⟩, .v 4, .v 5, 0x80000002⟩),
    (3, 0b010111_0_111_0_0000101_0000110_0000000, 0x80000003, .xorImm ⟨⟨false, ⟨7, false⟩⟩, .v 5, .v 6, 0x80000003⟩)] = true := by decide +kernel

theorem test_decode_18 : reads [
    (3, 0b011000_0_111_0_0001000_0001010_0001100, 0b00000_00000000_0000000_000000000000, .addXm ⟨⟨false, ⟨7, false⟩⟩, .i32, .v 8, .v 10, .v 12⟩),
    (3, 0b011000_0_111_0_0001000_0001010_0001100, 0b00001_00000001_0000000_000000000000, .subXm ⟨⟨false, ⟨7, false⟩⟩, .n32, .v 8, .v 10, .v 12⟩),
    (3, 0b011000_0_111_0_0001000_0001010_0001100, 0b00010_00000010_0000000_000000000000, .mul ⟨⟨false, ⟨7, false⟩⟩, .i16, .v 8, .v 10, .v 12⟩),
    (3, 0b011000_0_111_0_0001000_0001010_0001100, 0b00011_00000011_0000000_000000000000, .mulh ⟨⟨false, ⟨7, false⟩⟩, .n16, .v 8, .v 10, .v 12⟩),
    (3, 0b011000_0_111_0_0001000_0001010_0001100, 0b00100_00000100_0000000_000000000000, .div ⟨⟨false, ⟨7, false⟩⟩, .i8, .v 8, .v 10, .v 12⟩),
    (3, 0b011000_0_111_0_0001000_0001010_0001100, 0b00101_00000101_0000000_000000000000, .rem ⟨⟨false, ⟨7, false⟩⟩, .n8, .v 8, .v 10, .v 12⟩),
    (3, 0b011000_0_111_0_0001000_0001010_0001100, 0b00110_00000110_0000000_000000000000, .min ⟨⟨false, ⟨7, false⟩⟩, .i64, .v 8, .v 10, .v 12⟩),
    (3, 0b011000_0_111_0_0001000_0001010_0001100, 0b00111_00000111_0000000_000000000000, .max ⟨⟨false, ⟨7, false⟩⟩, .n64, .v 8, .v 10, .v 12⟩),
    (3, 0b011000_0_111_0_0001000_0001010_0001100, 0b00000_00001000_0000000_000000000000, .andXm ⟨⟨false, ⟨7, false⟩⟩, .i32, .v 8, .v 10, .v 12⟩),
    (3, 0b011000_0_111_0_0001000_0001010_0001100, 0b00001_00001001_0000000_000000000000, .orXm ⟨⟨false, ⟨7, false⟩⟩, .n32, .v 8, .v 10, .v 12⟩),
    (3, 0b011000_0_111_0_0001000_0001010_0001100, 0b00010_00001010_0000000_000000000000, .xorXm ⟨⟨false, ⟨7, false⟩⟩, .i16, .v 8, .v 10, .v 12⟩),
    (3, 0b011000_0_111_0_0001000_0001010_0001100, 0b00011_00001011_0000000_000000000000, .andn ⟨⟨false, ⟨7, false⟩⟩, .n16, .v 8, .v 10, .v 12⟩),
    (3, 0b011000_0_111_0_0001000_0001010_0001100, 0b00100_00001100_0000000_000000000000, .shlXm ⟨⟨false, ⟨7, false⟩⟩, .i8, .v 8, .v 10, .v 12⟩),
    (3, 0b011000_0_111_0_0001000_0001010_0001100, 0b00101_00001101_0000000_000000000000, .shrXm ⟨⟨false, ⟨7, false⟩⟩, .n8, .v 8, .v 10, .v 12⟩),
    (3, 0b011000_0_111_0_0001000_0001010_0001100, 0b00110_00001110_0000000_000000000000, .sraXm ⟨⟨false, ⟨7, false⟩⟩, .i64, .v 8, .v 10, .v 12⟩),
    (3, 0b011000_0_111_0_0001000_0001010_0001100, 0b00111_00001111_0000000_000000000000, .rol ⟨⟨false, ⟨7, false⟩⟩, .n64, .v 8, .v 10, .v 12⟩),
    (3, 0b011000_0_111_0_0001000_0001010_0001100, 0b00000_00010000_0000000_000000000000, .addSat ⟨⟨false, ⟨7, false⟩⟩, .i32, .v 8, .v 10, .v 12⟩),
    (3, 0b011000_0_111_0_0001000_0001010_0001100, 0b00001_00010001_0000000_000000000000, .subSat ⟨⟨false, ⟨7, false⟩⟩, .n32, .v 8, .v 10, .v 12⟩),
    (3, 0b011000_0_111_0_0001000_0001010_0001100, 0b00010_00010010_0000000_000000000000, .mulSat ⟨⟨false, ⟨7, false⟩⟩, .i16, .v 8, .v 10, .v 12⟩),
    (3, 0b011000_0_111_0_0001000_0001010_0001100, 0b00100_00010100_0000000_000000000000, .divSat ⟨⟨false, ⟨7, false⟩⟩, .i8, .v 8, .v 10, .v 12⟩)] = true := by decide +kernel

theorem test_decode_19 : reads [
    (3, 0b011001_0_111_0_0001000_1000010_0000000, 0b00000_00000000_0000000_000000000000, .abs ⟨⟨false, ⟨7, false⟩⟩, .i32, .v 8, .s 2⟩),
    (3, 0b011001_0_111_0_0001000_1000010_0000000, 0b00001_00000001_0000000_000000000000, .neg ⟨⟨false, ⟨7, false⟩⟩, .n32, .v 8, .s 2⟩),
    (3, 0b011001_0_111_0_0001000_1000010_0000000, 0b00010_00000010_0000000_000000000000, .not ⟨⟨false, ⟨7, false⟩⟩, .i16, .v 8, .s 2⟩),
    (3, 0b011001_0_111_0_0001000_1000010_0000000, 0b00011_00000011_0000000_000000000000, .clz ⟨⟨false, ⟨7, false⟩⟩, .n16, .v 8, .s 2⟩),
    (3, 0b011001_0_111_0_0001000_1000010_0000000, 0b00100_00000100_0000000_000000000000, .ctz ⟨⟨false, ⟨7, false⟩⟩, .i8, .v 8, .s 2⟩),
    (3, 0b011001_0_111_0_0001000_1000010_0000000, 0b00101_00000101_0000000_000000000000, .popc ⟨⟨false, ⟨7, false⟩⟩, .n8, .v 8, .s 2⟩),
    (3, 0b011001_0_111_0_0001000_1000010_0000000, 0b00110_00000110_0000000_000000000000, .brev ⟨⟨false, ⟨7, false⟩⟩, .i64, .v 8, .s 2⟩),
    (3, 0b011001_0_111_0_0001000_1000010_0000000, 0b00111_00000111_0000000_000000000000, .movXm ⟨⟨false, ⟨7, false⟩⟩, .n64, .v 8, .s 2⟩),
    (3, 0b011001_0_111_0_0001000_1000010_0000000, 0b00000_00010000_0000000_000000000000, .absSat ⟨⟨false, ⟨7, false⟩⟩, .i32, .v 8, .s 2⟩),
    (3, 0b011001_0_111_0_0001000_1000010_0000000, 0b00001_00010001_0000000_000000000000, .negSat ⟨⟨false, ⟨7, false⟩⟩, .n32, .v 8, .s 2⟩)] = true := by decide +kernel

theorem test_decode_1A : reads [
    (3, 0b011010_0_111_0_0001000_0001010_0001100, 0b00110_00000000_0001110_000000000000, .mad ⟨⟨false, ⟨7, false⟩⟩, .i64, .v 8, .v 10, .v 12, .v 14⟩),
    (3, 0b011010_0_111_0_0001000_0001010_0001100, 0b00101_00010000_0001101_000000000000, .madSat ⟨⟨false, ⟨7, false⟩⟩, .n8, .v 8, .v 10, .v 12, .v 13⟩),
    (3, 0b011010_0_111_0_0001000_0001010_0001100, 0b00001_00000001_0000000_000001010110, .addc ⟨⟨false, ⟨7, false⟩⟩, .n32, .v 8, .v 10, .v 12, 5, 6⟩),
    (3, 0b011010_0_111_0_0001000_0001010_0000000, 0b00010_00000010_0000000_000111001000, .bfx ⟨⟨false, ⟨7, false⟩⟩, .i16, .v 8, .v 10, 7, 8⟩),
    (3, 0b011010_0_111_0_0000010_0000011_0000100, 0b00001_00000011_0000000_000111010000, .bfi ⟨⟨false, ⟨7, false⟩⟩, .n32, .v 2, .v 3, .v 4, 7, 16⟩),
    (3, 0b011010_0_111_0_0000010_0000011_0000100, 0b01001_00000100_0000000_000000001101, .sel ⟨⟨false, ⟨7, false⟩⟩, .bf16, .v 2, .v 3, .v 4, true, 5⟩),
    (3, 0b011010_0_111_0_0000010_1000010_0000100, 0b00000_00000101_0000000_000000000111, .lea ⟨⟨false, ⟨7, false⟩⟩, .i32, .v 2, .s 1, .v 4, 7⟩)] = true := by decide +kernel

theorem test_decode_1B : reads [
    (3, 0b011011_0_111_0_0000011_0000001_1000010, 0b00100_00000010_0000000_000000000000, .cmp ⟨⟨false, ⟨7, false⟩⟩, .lt, .i8, 3, .v 1, .s 2⟩),
    (3, 0b100000_0_111_0_0000000_0000001_0000010, 0b01010_00000110_0000000_000000000000, .fcmp ⟨⟨false, ⟨7, false⟩⟩, .un, .f16, 0, .v 1, .v 2⟩)] = true := by decide +kernel

theorem test_decode_1C : reads [
    (3, 0b011100_0_111_0_0000001_0000010_0000110, 0b00000_00000000_0000000_000000000000, .pand ⟨⟨false, ⟨7, false⟩⟩, 1, 2, 6⟩),
    (3, 0b011100_0_111_0_0000001_0000010_0000110, 0b00000_00000001_0000000_000000000000, .por ⟨⟨false, ⟨7, false⟩⟩, 1, 2, 6⟩),
    (3, 0b011100_0_111_0_0000001_0000010_0000110, 0b00000_00000010_0000000_000000000000, .pxor ⟨⟨false, ⟨7, false⟩⟩, 1, 2, 6⟩),
    (3, 0b011100_0_111_0_0000001_0000110_0000000, 0b00000_00000011_0000000_000000000000, .pnot ⟨⟨false, ⟨7, false⟩⟩, 1, 6⟩),
    (3, 0b011100_0_111_0_0000001_1000110_0000000, 0b00000_00000100_0000000_000000000000, .pmovToPred ⟨⟨false, ⟨7, false⟩⟩, 1, .s 6⟩),
    (3, 0b011100_0_111_0_0010001_0000110_0000000, 0b00000_00000101_0000000_000000000000, .pmovFromPred ⟨⟨false, ⟨7, false⟩⟩, .v 17, 6⟩),
    (3, 0b011100_0_111_0_0010001_0000110_0000000, 0b00000_00000110_0000000_000000000000, .pcnt ⟨⟨false, ⟨7, false⟩⟩, .v 17, 6⟩)] = true := by decide +kernel

theorem test_decode_1D : reads [
    (3, 0b011101_0_111_0_0000000_0001001_0000000, 0b00000_00000000_0000000_000000000000, .brx ⟨⟨7, false⟩, .v 9⟩),
    (3, 0b011101_0_111_0_0000100_0000010_0000000, 0b00000_00000001_0000000_000000000000, .voteOr ⟨⟨7, false⟩, 4, 2⟩),
    (3, 0b011101_0_111_0_0000100_0000010_0000000, 0b00000_00000010_0000000_000000000000, .voteAnd ⟨⟨7, false⟩, 4, 2⟩),
    (3, 0b011101_0_111_0_0001001_0000010_0000000, 0b00000_00000011_0000000_000000000000, .voteMask ⟨⟨7, false⟩, .v 9, 2⟩),
    (3, 0b011101_0_111_0_0000100_0001001_0000000, 0b00000_00000100_0000000_000000000000, .voteSame ⟨⟨7, false⟩, 4, .v 9⟩),
    (3, 0b011101_0_111_0_1001001_0000000_0000000, 0b00000_00001000_0000000_000000000000, .getpc ⟨⟨7, false⟩, .s 9⟩)] = true := by decide +kernel

theorem test_decode_1E : reads [
    (3, 0b011110_0_111_0_0000001_0000010_0000011, 0b01000_00000000_0000000_000000000000, .faddXm ⟨⟨false, ⟨7, false⟩⟩, .f32, .rne, .v 1, .v 2, .v 3⟩),
    (3, 0b011110_0_111_0_0000001_0000010_0000011, 0b01001_00000001_0000000_000000000001, .fsub ⟨⟨false, ⟨7, false⟩⟩, .bf16, .rtz, .v 1, .v 2, .v 3⟩),
    (3, 0b011110_0_111_0_0000001_0000010_0000011, 0b01010_00000010_0000000_000000000010, .fmulXm ⟨⟨false, ⟨7, false⟩⟩, .f16, .rdn, .v 1, .v 2, .v 3⟩),
    (3, 0b011110_0_111_0_0000001_0000010_0000011, 0b01001_00000100_0000000_000000000000, .fdiv ⟨⟨false, ⟨7, false⟩⟩, .bf16, .rne, .v 1, .v 2, .v 3⟩),
    (3, 0b011110_0_111_0_0000001_0000010_0000011, 0b01001_00000011_0000100_000000000011, .ffma ⟨⟨false, ⟨7, false⟩⟩, .bf16, .rup, .v 1, .v 2, .v 3, .v 4⟩),
    (3, 0b011110_0_111_0_0000001_0000010_0000011, 0b01010_00000101_0000000_000000000000, .fmin ⟨⟨false, ⟨7, false⟩⟩, .f16, .v 1, .v 2, .v 3⟩),
    (3, 0b011110_0_111_0_0000001_0000010_0000011, 0b01000_00000110_0000000_000000000000, .fmax ⟨⟨false, ⟨7, false⟩⟩, .f32, .v 1, .v 2, .v 3⟩),
    (3, 0b011110_0_111_0_0000001_0000010_0000000, 0b01000_00000111_0000000_000000000010, .frnd ⟨⟨false, ⟨7, false⟩⟩, .f32, .rdn, .v 1, .v 2⟩)] = true := by decide +kernel

theorem test_decode_1F : reads [
    (3, 0b011111_0_111_0_0000001_0000010_0000000, 0b01000_00000000_0000000_000000000000, .frcp ⟨⟨false, ⟨7, false⟩⟩, .f32, .rne, .v 1, .v 2⟩),
    (3, 0b011111_0_111_0_0000001_0000010_0000000, 0b01001_00000001_0000000_000000000001, .frsq ⟨⟨false, ⟨7, false⟩⟩, .bf16, .rtz, .v 1, .v 2⟩),
    (3, 0b011111_0_111_0_0000001_0000010_0000000, 0b01010_00000010_0000000_000000000010, .fsqrt ⟨⟨false, ⟨7, false⟩⟩, .f16, .rdn, .v 1, .v 2⟩),
    (3, 0b011111_0_111_0_0000001_0000010_0000000, 0b01000_00000011_0000000_000000000011, .fex2 ⟨⟨false, ⟨7, false⟩⟩, .f32, .rup, .v 1, .v 2⟩),
    (3, 0b011111_0_111_0_0000001_0000010_0000000, 0b01001_00000100_0000000_000000000000, .flg2 ⟨⟨false, ⟨7, false⟩⟩, .bf16, .rne, .v 1, .v 2⟩),
    (3, 0b011111_0_111_0_0000001_0000010_0000000, 0b01010_00000101_0000000_000000000001, .fsin ⟨⟨false, ⟨7, false⟩⟩, .f16, .rtz, .v 1, .v 2⟩),
    (3, 0b011111_0_111_0_0000001_0000010_0000000, 0b01000_00000110_0000000_000000000010, .fcos ⟨⟨false, ⟨7, false⟩⟩, .f32, .rdn, .v 1, .v 2⟩),
    (3, 0b011111_0_111_0_0000001_0000010_0000000, 0b01001_00000111_0000000_000000000000, .fcls ⟨⟨false, ⟨7, false⟩⟩, .bf16, .v 1, .v 2⟩)] = true := by decide +kernel

theorem test_decode_21 : reads [
    (3, 0b100001_0_111_0_0000011_0000100_0000101, 0b10010_00000000_0000000_000000000000, .lmul ⟨⟨false, ⟨7, false⟩⟩, .l16, false, .v 3, .v 4, .v 5⟩),
    (3, 0b100001_0_111_0_0000011_0000100_0000101, 0b10011_00000001_0000000_000000000000, .ldiv ⟨⟨false, ⟨7, false⟩⟩, .l8, false, .v 3, .v 4, .v 5⟩),
    (3, 0b100001_0_111_0_0000011_0000100_0000101, 0b10010_00000010_0000000_000000000001, .ladd ⟨⟨false, ⟨7, false⟩⟩, .l16, true, .v 3, .v 4, .v 5⟩),
    (3, 0b100001_0_111_0_0000011_0000100_0000101, 0b10011_00000011_0000000_000000000001, .lsub ⟨⟨false, ⟨7, false⟩⟩, .l8, true, .v 3, .v 4, .v 5⟩),
    (3, 0b100010_0_111_0_0000000_0000001_0000100, 0b10100_00000000_0001000_000000000000, .tdot ⟨⟨false, ⟨7, false⟩⟩, .v 0, .v 1, .v 4, .v 8⟩),
    (3, 0b100010_0_111_0_0000000_0000001_0000100, 0b00100_00000001_0000000_000000010000, .smul ⟨⟨false, ⟨7, false⟩⟩, 16, .v 0, .v 1, .v 4⟩),
    (3, 0b100010_0_111_0_0000000_0000001_0000000, 0b00100_00000010_0000000_000000000110, .sgen ⟨⟨false, ⟨7, false⟩⟩, 6, .v 0, .v 1⟩)] = true := by decide +kernel

theorem test_decode_23 : reads [
    (3, 0b100011_0_111_0_0000001_0000010_0000000, 0b10010_00000000_0000000_000100001000, .cvt ⟨⟨false, ⟨7, false⟩⟩, .l16, .f32, true, false, .rne, .v 1, .v 2, none⟩),
    (3, 0b100011_0_111_0_0000100_0000010_0000011, 0b00000_00000000_0000000_000011110000, .cvt ⟨⟨false, ⟨7, false⟩⟩, .i32, .z8, false, true, .rup, .v 4, .v 2, some (.v 3)⟩),
    (3, 0b100011_0_111_0_0000001_0000010_0000000, 0b01101_00000001_0000000_000000101001, .mxq ⟨⟨false, ⟨7, false⟩⟩, .e2m1, .bf16, false, .rtz, .v 1, .v 2⟩),
    (3, 0b100011_0_111_0_0000001_0000010_0000000, 0b01000_00000010_0000000_000000001011, .mxdq ⟨⟨false, ⟨7, false⟩⟩, .f32, .e4m3, false, .rne, .v 1, .v 2⟩),
    (3, 0b100011_0_111_0_0000001_0000010_0000000, 0b10001_00000011_0000000_000001001000, .zq ⟨⟨false, ⟨7, false⟩⟩, .z4, .f32, false, .rdn, .v 1, .v 2⟩),
    (3, 0b100011_0_111_0_0000001_0000010_0000000, 0b00000_00000100_0000000_000000010000, .zdq ⟨⟨false, ⟨7, false⟩⟩, .i32, .z8, false, .rne, .v 1, .v 2⟩),
    (3, 0b100011_0_111_0_0000001_0000010_0000000, 0b10100_00000101_0000000_000000001000, .tpk ⟨⟨false, ⟨7, false⟩⟩, .t2, .f32, false, .rne, .v 1, .v 2⟩),
    (3, 0b100011_0_111_0_0000001_0000010_0000000, 0b01000_00000110_0000000_000000010100, .tunp ⟨⟨false, ⟨7, false⟩⟩, .f32, .t2, false, .rne, .v 1, .v 2⟩)] = true := by decide +kernel

theorem test_decode_24 : reads [
    (3, 0b100100_0_111_0_0000110_0000111_1001000, 0b00000_00000000_0000000_000000000000, .shflSel ⟨⟨7, false⟩, .i32, .v 6, .v 7, .s 8⟩),
    (3, 0b100100_0_111_0_0000110_0000111_1001000, 0b00001_00000001_0000000_000000000000, .shflLo ⟨⟨7, false⟩, .n32, .v 6, .v 7, .s 8⟩),
    (3, 0b100100_0_111_0_0000110_0000111_1001000, 0b01000_00000010_0000000_000000000000, .shflHi ⟨⟨7, false⟩, .f32, .v 6, .v 7, .s 8⟩),
    (3, 0b100100_0_111_0_0000110_0000111_1001000, 0b00000_00000011_0000000_000000000000, .shflFlip ⟨⟨7, false⟩, .i32, .v 6, .v 7, .s 8⟩),
    (3, 0b100100_0_111_0_0000110_0000111_1001000, 0b00001_00000100_0000000_000000000000, .bcast ⟨⟨7, false⟩, .n32, .v 6, .v 7, .s 8⟩),
    (3, 0b100100_0_111_0_0000110_0000111_0000000, 0b01000_00000101_0000000_000000000001, .lred ⟨⟨7, false⟩, .f32, .min, .v 6, .v 7⟩),
    (3, 0b100100_0_111_0_0000110_0000111_0000000, 0b00000_00000110_0000000_000000010010, .lscan ⟨⟨7, false⟩, .i32, .max, true, .v 6, .v 7⟩)] = true := by decide +kernel

theorem test_decode_25 : reads [
    (3, 0b100101_0_111_0_0000010_1000010_0000000, 0b00110_10111000_0000000_011111111111, .ld ⟨⟨7, false⟩, .sc, .sy, .i64, .v 2, .s 1, 0x7FF⟩),
    (3, 0b100101_0_111_0_0000001_0000010_0000000, 0b00001_01001001_0000000_111111111100, .ldPoll ⟨⟨7, false⟩, .acq, .gg, .n32, .v 1, .v 1, 0xFFC⟩),
    (3, 0b100101_0_111_0_0000001_0000010_0000000, 0b00100_00101110_0000000_000000000000, .ldu ⟨⟨7, false⟩, .rlx, .cl, .i8, .v 1, .v 1, 0⟩),
    (3, 0b100110_0_111_0_0000000_1000010_0000100, 0b00110_00000000_0000000_000000001000, .st ⟨⟨7, false⟩, .plain, .wp, .i64, .s 1, .v 4, 8⟩),
    (3, 0b100110_0_111_0_0000000_0000010_0000101, 0b01001_01110101_0000000_000000001000, .stu ⟨⟨7, false⟩, .rel, .pk, .bf16, .v 1, .v 5, 8⟩)] = true := by decide +kernel

theorem test_decode_27 : reads [
    (3, 0b100111_0_111_0_0000010_0000100_0000110, 0b00000_00100000_0000000_100000000000, .atomAdd ⟨⟨7, false⟩, .rlx, .wp, .i32, .v 2, .v 2, .v 6, 2048⟩),
    (3, 0b100111_0_111_0_0000010_0000100_0000110, 0b00001_01000101_0000000_100000000001, .atomSub ⟨⟨7, false⟩, .acq, .tm, .n32, .v 2, .v 2, .v 6, 2049⟩),
    (3, 0b100111_0_111_0_0000010_0000100_0000110, 0b00110_01101010_0000000_100000000010, .atomMin ⟨⟨7, false⟩, .rel, .gg, .i64, .v 2, .v 2, .v 6, 2050⟩),
    (3, 0b100111_0_111_0_0000010_0000100_0000110, 0b00111_10001111_0000000_100000000011, .atomMax ⟨⟨7, false⟩, .ar, .cl, .n64, .v 2, .v 2, .v 6, 2051⟩),
    (3, 0b101000_0_111_0_0000010_0000100_0000110, 0b00111_01001100_0000000_000000000000, .atomAnd ⟨⟨7, false⟩, .acq, .cl, .n64, .v 2, .v 2, .v 6, 0⟩),
    (3, 0b101000_0_111_0_0000010_0000100_0000110, 0b00110_01110001_0000000_000000000001, .atomOr ⟨⟨7, false⟩, .rel, .di, .i64, .v 2, .v 2, .v 6, 1⟩),
    (3, 0b101000_0_111_0_0000010_0000100_0000110, 0b00001_10010110_0000000_000000000010, .atomXor ⟨⟨7, false⟩, .ar, .pk, .n32, .v 2, .v 2, .v 6, 2⟩),
    (3, 0b101000_0_111_0_0000010_0000100_0000110, 0b00000_10111011_0000000_000000000011, .atomExch ⟨⟨7, false⟩, .sc, .sy, .i32, .v 2, .v 2, .v 6, 3⟩)] = true := by decide +kernel

theorem test_decode_29 : reads [
    (3, 0b101001_0_111_0_0000001_0000010_0000011, 0b00000_10110100_0000100_000000000000, .cas ⟨⟨7, false⟩, .sc, .pk, .i32, .v 1, .v 1, .v 3, .v 4, 0⟩),
    (3, 0b101001_0_111_0_0000001_0000010_0000000, 0b00001_01000101_0000000_000000000100, .ldr ⟨⟨7, false⟩, .acq, .tm, .n32, .v 1, .v 1, 4⟩),
    (3, 0b101001_0_111_0_0000001_0000010_0000011, 0b00001_01100110_0000000_000000000100, .stc ⟨⟨7, false⟩, .rel, .tm, .n32, .v 1, .v 1, .v 3, 4⟩),
    (3, 0b101010_0_111_0_0000000_0000001_0000010, 0b00000_00000000_0000011_000000000000, .rst ⟨⟨7, false⟩, .plain, .wp, .i32, .v 1, .v 2, .v 3⟩),
    (3, 0b101010_0_111_0_0000100_0000001_0000000, 0b01000_00000001_0000011_000000000000, .rld ⟨⟨7, false⟩, .plain, .wp, .f32, .v 4, .v 1, .v 3⟩)] = true := by decide +kernel

theorem test_decode_2B : reads [
    (3, 0b101011_0_111_0_0000000_0000000_0000000, 0b00000_10110000_0000000_000000000000, .fence ⟨⟨7, false⟩, .sc, .di⟩),
    (3, 0b101100_0_111_0_0000000_1000010_0000100, 0b00000_00001100_0000000_000000000000, .sfl ⟨⟨7, false⟩, .cl, .s 1, .v 4⟩),
    (3, 0b101100_0_111_0_0000000_1000010_0000100, 0b00000_00110000_0000000_000000000000, .sinv ⟨⟨7, false⟩, .di, .s 1, .v 4⟩),
    (3, 0b101100_0_111_0_0000000_1000010_0000100, 0b00000_01010100_0000000_000000000000, .spf ⟨⟨7, false⟩, .pk, .s 1, .v 4⟩),
    (3, 0b101100_0_111_0_0000000_1000010_0000100, 0b00000_01111000_0000000_000000000000, .icinv ⟨⟨7, false⟩, .sy, .s 1, .v 4⟩),
    (3, 0b101101_0_111_0_0000000_0000010_0000100, 0b00000_01101100_0000000_000000010000, .sig ⟨⟨7, false⟩, .rel, .cl, .v 1, .v 4, 16⟩),
    (3, 0b101101_0_111_0_0000000_0000010_0000100, 0b00000_01011001_0000000_000000010000, .sigw ⟨⟨7, false⟩, .acq, .sy, .v 1, .v 4, 16⟩),
    (3, 0b101110_0_111_0_0000001_1100001_0000000, 0b00000_00000000_0000000_000000000000, .qstat ⟨⟨7, false⟩, .v 1, .qs⟩),
    (3, 0b101110_0_111_0_0000000_1100110_0000000, 0b00000_00000001_0000000_000000000000, .qclose ⟨⟨7, false⟩, .qd⟩),
    (3, 0b101110_0_111_0_0000001_1100100_0000000, 0b00000_00000010_0000000_000000000000, .qpeek ⟨⟨7, false⟩, .v 1, .ql⟩)] = true := by decide +kernel

theorem test_decode_2F : reads [
    (3, 0b101111_0_111_0_0000001_0000010_0000011, 0b01001_00000000_1000100_100000001001, .mma ⟨⟨7, false⟩, .bf16, .bf16, 8, 1, 2, 3, .s 4⟩),
    (3, 0b101111_0_111_0_0000001_0000010_0000011, 0b01011_00000001_0000000_000000001100, .mmas ⟨⟨7, false⟩, .e4m3, .e5m2, 0, 1, 2, 3⟩),
    (3, 0b101111_0_111_0_0000001_0000010_0000011, 0b00100_00000010_0001000_000001100100, .mmsp ⟨⟨7, false⟩, .i8, .i8, 0, 3, 1, 2, 3, .v 8⟩),
    (3, 0b110000_0_111_0_1011001_1001000_0000010, 0b00100_00000000_0000000_000000000100, .mloop ⟨⟨7, false⟩, .i8, .i8, 0, 1, 1, 2⟩),
    (3, 0b110000_0_111_0_1011111_1011000_0000111, 0b01111_00000001_0000000_000000001011, .mloopS ⟨⟨7, false⟩, .mxi8, .e4m3, 0, 7, 3, 7⟩),
    (3, 0b110000_0_111_0_1011001_1001000_0000010, 0b00100_00000010_0000100_000000000100, .mloopSp ⟨⟨7, false⟩, .i8, .i8, 0, 1, 1, 2, .v 2⟩)] = true := by decide +kernel

theorem test_decode_31 : reads [
    (3, 0b110001_0_111_0_0000101_1000010_0000000, 0b01000_00000000_0000000_000001000000, .tld ⟨⟨7, false⟩, .f32, 5, .s 1, 64⟩),
    (3, 0b110001_0_111_0_0000000_0000010_0000101, 0b01011_00000001_0000000_000001000000, .tst ⟨⟨7, false⟩, .e4m3, 5, .v 1, 64⟩),
    (3, 0b110001_0_111_0_0000101_0001111_0000000, 0b01001_00000010_0000000_000000000000, .ttr ⟨⟨7, false⟩, .bf16, 5, 15⟩),
    (3, 0b110010_0_111_0_0000001_0000111_0000000, 0b01000_00000000_0000000_000000000000, .amov ⟨⟨7, false⟩, .f32, 1, 7⟩),
    (3, 0b110010_0_111_0_0000001_0000111_0000000, 0b01000_00000001_0000000_000000000000, .aset ⟨⟨7, false⟩, .f32, 1, .v 7⟩),
    (3, 0b110010_0_111_0_0000001_0000000_0000000, 0b00000_00000010_0000000_000000000000, .azero ⟨⟨7, false⟩, .i32, 1⟩),
    (3, 0b110010_0_111_0_0000001_0000011_0000000, 0b01001_00000011_0000000_000000000010, .ard ⟨⟨7, false⟩, .bf16, .rdn, 1, 3⟩),
    (3, 0b110011_0_111_0_0000000_0000110_1000001, 0b00000_00000000_0000000_000000000001, .scb ⟨⟨7, false⟩, true, .v 3, .s 1⟩),
    (3, 0b110011_0_111_0_0000000_0000000_0000000, 0b00000_00000001_0000000_000000000000, .scinv ⟨⟨7, false⟩⟩)] = true := by decide +kernel

theorem test_decode_34 : reads [
    (3, 0b110100_0_111_0_1011000_1000000_0000000, 0b00000_00000000_0000000_000000000110, .copy ⟨⟨7, false⟩, 0, 0, 0, .sy⟩),
    (3, 0b110100_0_111_0_1011001_1001000_0000000, 0b00000_00000001_0000000_000100000100, .gath ⟨⟨7, false⟩, 1, 1, 32, .di⟩),
    (3, 0b110100_0_111_0_1011010_1010000_0000000, 0b00000_00000010_0000000_000111111011, .scat ⟨⟨7, false⟩, 2, 2, 63, .cl⟩),
    (3, 0b110100_0_111_0_1011011_1011000_0000000, 0b00000_00000011_0000000_000011111101, .coll ⟨⟨7, false⟩, 3, 3, 31, .pk⟩),
    (3, 0b110100_0_111_0_1011100_1000000_0000000, 0b00000_00000100_0000000_000000001000, .cmpr ⟨⟨7, false⟩, 4, 0, 1, .wp⟩),
    (3, 0b110101_0_111_0_0000000_1011010_0000000, 0b00000_00000000_0000000_000000000000, .fwait ⟨⟨7, false⟩, 2⟩),
    (3, 0b110101_0_111_0_0000010_1011000_0000000, 0b00000_00000001_0000000_000000000000, .ftest ⟨⟨7, false⟩, 2, 0⟩),
    (3, 0b110101_0_111_0_0000000_1011111_0000000, 0b00000_00000010_0000000_000000000000, .fcancel ⟨⟨7, false⟩, 7⟩)] = true := by decide +kernel

theorem test_decode_36 : reads [
    (3, 0b110110_0_111_0_0000001_0000010_0000000, 0b00000_00000000_0000000_000000000101, .arv ⟨⟨7, false⟩, .v 1, .v 2, 5⟩),
    (3, 0b110110_0_111_0_0000000_0000010_0000000, 0b00000_00000001_0000000_000000111111, .bwait ⟨⟨7, false⟩, .v 2, 63⟩),
    (3, 0b110110_0_111_0_0000000_0000000_0000000, 0b00000_00000010_0000000_000000100000, .bsync ⟨⟨7, false⟩, 32⟩),
    (3, 0b110111_0_111_0_1011010_1000000_1000011, 0b00000_00000000_0000000_000000000000, .launch ⟨⟨7, false⟩, 2, 0, .s 3⟩),
    (3, 0b110111_0_111_0_0001000_0001001_0000000, 0b00000_00000001_0000000_100000000001, .svc ⟨⟨7, false⟩, .v 8, .v 9, 0x801⟩)] = true := by decide +kernel

theorem test_decode_38 : reads [
    (3, 0b111000_0_111_0_0000000_0000000_0000000, 0b00000_00000000_0000000_000000000000, .rte ⟨⟨7, false⟩⟩),
    (3, 0b111000_0_111_0_0000000_0000000_0000000, 0b00000_00000001_0000000_000000010111, .csrr ⟨⟨7, false⟩, .v 0, 0x017⟩),
    (3, 0b111000_0_111_0_0000000_1000001_0000000, 0b00000_00000010_0000000_000001000000, .csrw ⟨⟨7, false⟩, .s 1, 0x040⟩),
    (3, 0b111000_0_111_0_1000010_0000000_0000000, 0b00000_00000011_0000000_000000000000, .tokq ⟨⟨7, false⟩, .s 2⟩),
    (3, 0b111000_1_010_1_0000001_0000010_0000011, 0b11111_11111111_1111111_111111111111, .hint ⟨31, 0x2A04103, 31, 0x7FFFF⟩)] = true := by decide +kernel

theorem test_decode_retired : reads [
    (2, 0b011101_0_111_0_0001001_0000010_0000000, 0b00000_00000101_0000000_000000000000, .voteCnt ⟨⟨7, false⟩, .v 9, 2⟩),
    (2, 0b011110_0_111_0_0000001_0000010_0000011, 0b01000_00001000_0000100_000000000001, .ffmaUnf ⟨⟨false, ⟨7, false⟩⟩, .f32, .rtz, .v 1, .v 2, .v 3, .v 4⟩),
    (2, 0b100100_0_111_0_0000010_0000100_0000111, 0b00000_00000111_0000000_000000000000, .shflWide ⟨⟨7, false⟩, .v 2, .v 4, .v 7⟩),
    (1, 0b100101_0_111_0_0000001_0000010_0000000, 0b00000_00000011_0000000_000000000000, .ldNc ⟨⟨7, false⟩, .plain, .wp, .i32, .v 1, .v 1, 0⟩),
    (1, 0b101111_0_111_0_0000001_0000010_0000011, 0b01000_00000011_0000000_000000000000, .mmaTf32 ⟨0x1c04103, 8, 0⟩)] = true := by decide +kernel

/-- The words that the examples of the spec give: 01 Example 1; 12 Examples 1 and 2; 13 Examples 1 and 2; 14 Examples 1, 2
and 5; 15 Examples 1 and 3; 16 Examples 1 and 2; 17 Example 1. -/
theorem test_decode_examples : reads [
    (3, 0x0481E1E2, 0, .add ⟨⟨false, ⟨2, false⟩⟩, .v 7, .s 3, .port .qe⟩),
    (3, 0x95C10400, 0x02400010, .ld ⟨tG, .acq, .gg, .i32, .v 4, .v 4, 16⟩),
    (3, 0x41C04000, 0, .movi ⟨tH, .v 1, 0⟩), (3, 0x05C040F1, 0, .add ⟨tH, .v 1, .v 1, .imm 1⟩),
    (3, 0x6DC040F8, 0x00100000, .cmp ⟨tH, .lt, .i32, 1, .v 1, .imm 8⟩), (3, 0x44400000, 0xFFFFFFF0, .br ⟨⟨1, false⟩, 0xFFFFFFF0⟩),
    (3, 0x61C04103, 0x20800000, .addSat ⟨tH, .i8, .v 1, .v 2, .v 3⟩),
    (3, 0x69C18104, 0x08080020, .addc ⟨tH, .n32, .v 6, .v 2, .v 4, 2, 0⟩), (3, 0x69C1C185, 0x08080072, .addc ⟨tH, .n32, .v 7, .v 3, .v 5, 7, 2⟩),
    (3, 0x79C04103, 0x40184000, .ffma ⟨tH, .f32, .rne, .v 1, .v 2, .v 3, .v 4⟩), (3, 0x85C0C205, 0x90000000, .lmul ⟨tH, .l16, false, .v 3, .v 4, .v 5⟩),
    (3, 0x90414300, 0x40280000, .lred ⟨⟨1, false⟩, .f32, .add, .v 5, .v 6⟩),
    (3, 0xA5C10405, 0x02406000, .cas ⟨tG, .acq, .gg, .i32, .v 4, .v 4, .v 5, .v 6, 0⟩),
    (3, 0x99C00470, 0x03400000, .st ⟨tG, .rel, .gg, .i32, .v 4, .imm 0, 0⟩), (3, 0xB9C03100, 0x00080000, .qclose ⟨tG, .qe⟩),
    (3, 0xB9C0F180, 0, .qstat ⟨tG, .v 3, .qw⟩), (3, 0xBDC04103, 0x48045009, .mma ⟨tG, .bf16, .bf16, 0, 1, 2, 3, .s 5⟩),
    (3, 0xC1D62400, 0x48000009, .mloop ⟨tG, .bf16, .bf16, 0, 0, 1, 0⟩), (3, 0xD1D62400, 0x000001FA, .copy ⟨tG, 0, 1, 63, .gg⟩)] = true := by
  decide +kernel

/-- 12 R318 and Example 1: words that are no instruction, by name; one word of the table's padding under another version. -/
theorem test_decode_rejects : rejects [
    (3, 0, 0, .illegal), (3, 0x95C10400, 0x02E00010, .illegal), (3, 0x9C000000, 0, .illegal), (3, 0xFC000000, 0, .illegal),
    (3, 0x05C07382, 0, .illegal), (3, 0x25C04101, 0, .resv), (3, 0x61C04103, 0x20800001, .resv), (3, 0x61C04103, 0x70800000, .illegal),
    (3, 0x61C04103, 0x20980000, .illegal), (3, 0x44400000, 0xFFFFFFF2, .resv), (1, 0x29C04101, 0, .illegal), (3, 0x95C04100, 0x00180000, .illegal),
    (3, 0x75C24100, 0x00280000, .illegal), (3, 0x30400001, 0, .resv), (3, 0x36000000, 0, .illegal)] = true := by decide +kernel

/-! ## The worked examples of the spec -/

/-- The value that both codes of a table row name: rounding halfway cases (02 Example 1), saturation (02 Example 2). -/
theorem test_rounding_and_saturation :
    [RMode.rne, .rtz, .rdn, .rup].map (fun m => convElem .f32 .bf16 0 0 m false 0x3F808000)
        = [(0x3F80, 0), (0x3F80, 0), (0x3F80, 0), (0x3F81, 0)]
      ∧ convElem .f32 .bf16 0 0 .rne false 0x3F80C000 = (0x3F81, 0)
      ∧ convElem .f32 .e4m3 0 0 .rne false 0x43FA0000 = (0x7E, 1) ∧ convElem .f32 .e4m3 0 0 .rne true 0x43FA0000 = (0x7F, 1)
      ∧ convElem .f32 .e4m3 0 0 .rne false 0xC3FA0000 = (0xFE, 1) := by decide +kernel

/-- 02 Example 3: a block of four values and 28 zeros, quantised and read back. -/
theorem test_block_quantised :
    mxQuant .e4m3 .rne false ([0x40600000, 0x3DCCCCCD, 0xBF800000, 0x3A83126F].map (elemVal .f32 0) ++ List.replicate 28 Val.zero)
        = (0x78, [0x7E, 0x55, 0xF0, 0x20] ++ List.replicate 28 0, 0)
      ∧ [0x7E, 0x55, 0xF0, 0x20].map (fun c => (elemOf .f32 0 .rne false (mxVal .e4m3 0x78 c)).1)
        = [0x40600000, 0x3DD00000, 0xBF800000, 0x3A800000] := by decide +kernel

/-- 02 Example 4, 14 Example 2 and R71 at the ends: log sums and products with their events. -/
theorem test_logarithms :
    lAdd .l16 false false 0x0200 0 = (0x032C, 0) ∧ lAdd .l16 false false 0 0 = (0x0200, 0)
      ∧ lAdd .l16 true false 0x0200 0x0200 = (0x4000, 0)
      ∧ lMulDiv .l16 false false 0x3000 0x2000 = (0x3FFF, 1) ∧ lMulDiv .l16 false true 0x3000 0x2000 = (0xC000, 1)
      ∧ lMulDiv .l16 false false 0x0200 0x8200 = (0x8400, 0)
      ∧ lCorr 512 false 0 = 512 ∧ lCorr 512 false 5632 = 0 ∧ lCorr 8 false 0 = 8 ∧ lCorr 8 false 36 = 0 := by decide +kernel

/-- 02 Example 5 and 14 Example 3: LFSR states, stream bits, a ternary dot product. -/
theorem test_streams_and_ternary :
    (List.range 5).map (fun i => lfsrAt (lfsrTaps 0) i (streamSeed 0xACE1 0 0 0)) = [0xACE1, 0xE270, 0x7138, 0x389C, 0x1C4E]
      ∧ (sgenLane 0xACE1 6 0 0x50#32).toNat % 32 = 0b11100
      ∧ tdotLane [[0xD4#32], [0x281E140A#32, 0#32, 0#32, 0#32], [5#32]] = ([15#32], ⟨0, 0, 0, 0⟩) := by decide +kernel

/-- 02 R94 and 09 Example 1: the exponential form. -/
theorem test_exponential_to_log :
    [0, 0x3F800000, 0xC0200000, 0x41F00000].map (expToL16 false) = [(0, 0), (0x02E3, 0), (0x78C9, 0), (0x3FFF, 1)]
      ∧ expToL16 true 0x41F00000 = (0xC000, 1) := by decide +kernel

/-- 14 Example 1 and 02 R80: one rounding in `ffma`, two in `fmul` and `fadd`. -/
theorem test_fused_and_separate :
    ffmaE .rne .f32 0x3F800001 0x3F7FFFFE 0xBF800000 = 0xA8800000 ∧ ffmaE .rtz .f32 0x3F800001 0x3F7FFFFE 0xBF800000 = 0xA8800000
      ∧ faddE false .rne .f32 (fmulE .rne .f32 0x3F800001 0x3F7FFFFE) 0xBF800000 = 0
      ∧ fmulE .rtz .f32 0x3F800001 0x3F7FFFFE = 0x3F7FFFFF ∧ faddE false .rtz .f32 0x3F7FFFFF 0xBF800000 = 0xB3800000 := by
  decide +kernel

/-- 13 Examples 1 and 2: packed bytes do not carry into each other; a 64-bit sum in two steps. -/
theorem test_packed_and_carried :
    packElems .i8 (List.zipWith (fun a b => satTo (-128) 127 (a + b)) (elemsOf .i8 [0x7F800102#32] |>.map (intOf .i8))
        (elemsOf .i8 [0x01FF0304#32] |>.map (intOf .i8)) |>.map (wrapTo 8)) = [0x7F800406#32]
      ∧ addcLane .n32 false [[0xFFFFFFFF#32], [1#32]] = ([0#32], true)
      ∧ addcLane .n32 true [[1#32], [0#32]] = ([2#32], false) ∧ addcLane .n32 true [[1#32], [1#32]] = ([3#32], false) := by
  decide +kernel

/-- 14 Examples 4 and 5: blocks over lanes, a reduction in ascending order. -/
theorem test_lanes :
    (List.range 4).map (mxqBlock ⟨tH, .e4m3, .f32, false, .rne, .v 7, .v 6⟩ 0xF#32 fun l =>
        [[BitVec.ofNat 32 ([0x40600000, 0x3DCCCCCD, 0xBF800000, 0x3A83126F].getD l 0)]]).1
        = [[0x0078007E#32], [0x00780055#32], [0x007800F0#32], [0x00780020#32]]
      ∧ foldLanes .f32 .add (fun l => [0x4B800000, 0x3F800000, 0x3F800000].getD l 0) [0, 1, 2] = some 0x4B800000 := by
  decide +kernel

/-- 01 Example 3: the position of a core. -/
theorem test_core_position :
    coreClusterNo (coreKey 7 5 6) = 5 ∧ coreDie (coreKey 7 5 6) = 7
      ∧ specialVal tS { tP with t := { tTeam with core := coreKey 7 5 6 } } 0 .core = 0x16E#32 ∧ specialVal tS { tP with t := { tTeam with core := coreKey 7 5 6 } } 0 .die = 0x17#32 := by
  decide +kernel

def tRows : BitVec 256 :=
  BitVec.ofNat 256 (0x100000000000 * 2 ^ 192 + 0x400 * 2 ^ 160 + 4 * 2 ^ 144 + 0x1000 * 2 ^ 112 + 0x80000 * 2 ^ 90 + 0x10000)

/-- 05 Example 2: a strided region of gang 3. -/
theorem test_region : regionOf [tRows] 3 0x100000032010 = some (0x80810, 0) ∧ regionOf [tRows] 3 0x100000032410 = none := by decide +kernel

/-- The tables of 08 Example 1: a 2 MiB leaf at level 1 behind level-3 index 32. -/
def tWalk : State := { tS with
  paging := State.reset.paging
  mem := Sparse.fill 0#8 (Sparse.fill 0#8 (Sparse.fill 0#8 (Sparse.fill 0#8 [] 0x1000 (bytesLE 8 0x2001))
    0x2100 (bytesLE 8 0x3001)) 0x3000 (bytesLE 8 0x4001)) 0x4000 (bytesLE 8 0x640002F) }

/-- 08 Examples 1 and 2: a walk, the D bit of a first store, one place under three apertures. -/
theorem test_paging :
    (match walk tWalk [(0, 0)] 0 0x100000032010 .load with
      | .ok (_, x) => x == ⟨0, 0, 0x6432010, 0, 0#512, none⟩
      | .error _ => false) = true
      ∧ (match walk tWalk [(0, 0)] 0 0x100000032010 .store with
        | .ok (s, _) => s.memRead 0x4000 8 == bytesLE 8 0x640006F
        | .error _ => false) = true
      ∧ granuleK 0x6432010 = 3204 ∧ homeStack 0x6432010 = 6 ∧ granuleK 0x19080 = 4 ∧ homeStack 0x19080 = 0
      ∧ canonOff 1 0x19C00 = 0x19080 ∧ canonOff 2 0x4080 = 0x19080 ∧ canonOff 2 0x7FFFFFF000 = 0x7FFFFFF000 := by decide +kernel

/-- 10 Example 1: quotas in half milliwatts. -/
theorem test_quota : quota 2100000 1 (768 * classWeight2 2) = 10 ∧ quota 2100000 1 (384 * classWeight2 2) = 21
    ∧ quota 2100000 1 (384 * classWeight2 3) = 14 := by decide +kernel

/-- The kernel of 05 Example 1: 32 vector and 8 uniform registers, 2 tiles, 2 accumulator tiles, 256 granules, 8 warps, shape 2×2. -/
def tImage : Grid := { oneGrid 3 with
  kcb := BitVec.ofNat 512 (32 * 2 ^ 328 + 8 * 2 ^ 320 + 2 * 2 ^ 312 + 2 * 2 ^ 304 + 256 * 2 ^ 288 + 2 ^ 260)
  lrec := BitVec.ofNat 1024 (3 * 2 ^ 662 + 7 * 2 ^ 658) }

/-- 06 Example 2: the image of a 2×2 gang, and the 16-byte record of each team's slot 0 (07 R191). -/
theorem test_image : warpBytes tImage = 57984 ∧ imageSize tImage = 6050176 + 4 * 16 := by
  decide +kernel

/-- 09 Example 1: a descriptor that is accepted, and the one with an F16 source. -/
theorem test_descriptor : parseXd 0x8408900000400000 = some (some ⟨true, 0, .rne, false, .f32, .l16, 0, 64⟩)
    ∧ parseXd 0x840A900000400000 = none := by decide +kernel

/-! ## Single instructions on the small machine -/

/-- What a next state leaves in the machine and its warp 0. -/
def leaves (i : Instr) (s : State) (f : State → Warp → Bool) : Bool := match exec i s with
  | .next t => (t.warps.get? 0).any (f t)
  | _ => false

/-- The warp of tS changed. -/
def tS' (f : Warp → Warp) : State := tState (tGrid 0) (f (tWarp (tGrid 0)))

/-- 13 R334, R338: a wrapped sum in both lanes, and the PC of both. -/
theorem test_add : leaves (.add ⟨tH, .v 8, .v 0, .v 1⟩) tS
    (fun _ w => w.getV 8 0 = 8#32 && w.getV 8 1 = 2#32 && w.pc 0 = 8#32 && w.pc 1 = 8#32 && w.getV 8 2 = 0#32) = true := by decide +kernel
theorem test_add_same_register : leaves (.add ⟨tH, .v 0, .v 0, .v 0⟩) tS (fun _ w => w.getV 0 0 = 10#32 && w.getV 0 1 = 0xFFFFFFF2#32) = true := by
  decide +kernel
/-- 13 R338: shift counts are taken modulo the width; `sra` copies the sign. -/
theorem test_sra : leaves (.sra ⟨tH, .v 8, .v 0, .imm 1⟩) tS (fun _ w => w.getV 8 0 = 2#32 && w.getV 8 1 = 0xFFFFFFFC#32) = true := by decide +kernel
/-- 13 R336: division by zero and the remainder's sign. -/
theorem test_rem : leaves (.rem ⟨tH, .i32, .v 8, .v 0, .v 1⟩) tS (fun _ w => w.getV 8 0 = 2#32 && w.getV 8 1 = 0xFFFFFFF9#32) = true := by decide +kernel
/-- 13 Example 1 on a uniform constant operand: packed bytes. -/
theorem test_add_packed : leaves (.addXm ⟨tH, .i8, .v 8, .v 0, .v 0⟩) tS (fun _ w => w.getV 8 1 = 0xFEFEFEF2#32) = true := by decide +kernel
/-- 13 R350: signed and unsigned comparisons of −7 and 9. -/
theorem test_cmp : leaves (.cmp ⟨tH, .lt, .i32, 3, .v 0, .v 1⟩) tS (fun _ w => w.getP 3 = 2#32) = true
    ∧ leaves (.cmp ⟨tH, .lt, .n32, 3, .v 0, .v 1⟩) tS (fun _ w => w.getP 3 = 0#32) = true := by decide +kernel
/-- 01 R34: a guard whose predicate is clear makes no lane active; the path goes on. -/
theorem test_guarded : leaves (.add ⟨⟨false, ⟨2, false⟩⟩, .v 8, .v 0, .v 1⟩) tS (fun _ w => w.getV 8 0 = 0#32 && w.pc 0 = 8#32) = true := by
  decide +kernel
/-- 14 R384: the lane whose number differs in bit 0. -/
theorem test_flip : leaves (.shflFlip ⟨tG, .i32, .v 8, .v 0, .imm 1⟩) tS (fun _ w => w.getV 8 0 = 0xFFFFFFF9#32 && w.getV 8 1 = 5#32) = true := by
  decide +kernel
/-- 14 R385: prefix sums. -/
theorem test_scan : leaves (.lscan ⟨tG, .i32, .add, true, .v 8, .v 1⟩) tS (fun _ w => w.getV 8 0 = 0#32 && w.getV 8 1 = 3#32) = true := by
  decide +kernel
/-- 15 R386, R390: a word of four bytes, low byte first, by a uniform pair; the signed last byte. -/
theorem test_ld : leaves (.ld ⟨tG, .plain, .wp, .n32, .v 8, .s 1, 0⟩) tS (fun _ w => w.getV 8 0 = 0x84030201#32) = true
    ∧ leaves (.ld ⟨tG, .plain, .wp, .i8, .v 8, .s 1, 3⟩) tS (fun _ w => w.getV 8 1 = 0xFFFFFF84#32) = true := by decide +kernel
/-- 15 R390: a store of one byte leaves its neighbours. -/
theorem test_st : leaves (.st ⟨tG, .plain, .wp, .n8, .v 1, .v 0, 1⟩) tS
    (fun t _ => t.memRead 0x3000 4 = [1#8, 5#8, 3#8, 0x84#8] && t.byteAt 0x3041 = 0xF9#8 && t.byteAt 0x3042 = 0#8) = true := by decide +kernel
/-- 15 R392: the lanes of one atomic are performed in lane order. -/
theorem test_atom : leaves (.atomAdd ⟨tG, .plain, .wp, .i32, .v 8, .s 1, .v 1, 0x100⟩) tS
    (fun t w => w.getV 8 0 = 0#32 && w.getV 8 1 = 3#32 && t.byteAt 0x3100 = 12#8) = true := by decide +kernel
/-- 15 Example 1 in two lanes: the first wins, the second is demoted. -/
theorem test_cas : leaves (.cas ⟨tG, .acq, .gg, .i32, .v 8, .s 1, .imm 0, .v 0, 0x100⟩) tS (fun t w =>
    w.getV 8 0 = 0#32 && w.getV 8 1 = 5#32 && w.demoted = 2#32 && t.byteAt 0x3100 = 5#8) = true := by decide +kernel
/-- 15 R391: a misaligned load traps with the lowest lane's address, and writes nothing. -/
theorem test_misaligned : leaves (.ld ⟨tG, .plain, .wp, .i32, .v 8, .v 1, 2⟩) tS (fun _ w => w.handler.on && w.handler.cause = 4#32
    && w.handler.tmask = 3#32 && w.handler.tlane = 0#32 && w.handler.tval = 0x3002#32 && w.handler.epc = 4#32 && w.pc 0 = 0x100#32
    && w.getV 8 0 = 0#32) = true := by decide +kernel
/-- 15 Example 2: a reservation and its store. -/
theorem test_reserved : (match exec (.ldr ⟨tG, .plain, .wp, .i32, .v 8, .s 1, 0x100⟩) tS with
    | .next t => leaves (.stc ⟨tG, .plain, .wp, .i32, .v 9, .s 1, .v 1, 0x100⟩) { t with cur := some tIssue }
        (fun t w => w.getV 9 0 = 0#32 && w.getV 9 1 = 1#32 && t.byteAt 0x3100 = 3#8 && w.demoted = 2#32)
    | _ => false) = true := by decide +kernel
/-- 13 R353, R355: a branch and an exit. -/
theorem test_br : leaves (.br ⟨tG, 0xFFFFFFFC#32⟩) tS (fun _ w => w.pc 0 = 0#32 && w.pc 1 = 0#32) = true := by decide +kernel
theorem test_exit : leaves (.exit ⟨tG⟩) (tS' fun w => w.writeP 2 3#32 1#32) (fun _ w => w.pc 0 = 0xFFFFFFFF#32 && w.exited = 0xFFFFFFFF#32) = true := by
  decide +kernel
/-- 13 R354: a misaligned target. -/
theorem test_brx : leaves (.brx ⟨tG, .v 1⟩) tS (fun _ w => w.handler.cause = 4#32 && w.handler.tmask = 3#32 && w.handler.tval = 3#32) = true := by
  decide +kernel
/-- 06 R177, R178, 17 R442: `trap` enters the handler with its immediate, `rte` goes back, and outside a handler it is ILLEGAL. -/
theorem test_trap : leaves (.trap ⟨tG, 0x1234#32⟩) tS (fun _ w => w.handler.on && w.handler.cause = 9#32 && w.handler.tval = 0x1234#32
    && w.handler.tpath = 3#32 && w.handler.epc = 4#32 && w.pc 0 = 0x100#32 && w.pc 1 = 0x100#32) = true := by decide +kernel
theorem test_rte : leaves (.rte ⟨tG⟩) (tS' fun w => { w with handler := { w.handler with on := true, tpath := 3#32, epc := 0x40#32 } })
    (fun _ w => !w.handler.on && w.pc 0 = 0x40#32) = true := by decide +kernel
theorem test_rte_outside : leaves (.rte ⟨tG⟩) tS (fun _ w => w.handler.on && w.handler.cause = 1#32) = true := by decide +kernel
/-- 17 R443: the handler's `%epc` is written with bits [1:0] clear; outside a handler the write pins the warp. -/
theorem test_csrw : leaves (.csrw ⟨tG, .imm 7, 1⟩) (tS' fun w => { w with handler := { w.handler with on := true } })
    (fun _ w => w.handler.epc = 4#32 && w.pins.isEmpty) = true := by decide +kernel
theorem test_csrw_outside : leaves (.csrw ⟨tG, .imm 7, 1⟩) tS (fun _ w => !w.pins.isEmpty && w.handler.epc = 0#32) = true := by decide +kernel
/-- 12 R320: a hint only advances. -/
theorem test_hint : leaves (.hint ⟨31, 0, 0, 0⟩) tS (fun _ w => w.pc 0 = 8#32) = true := by decide +kernel

/-! ## Witnesses: states and operands that meet the hypotheses of each statement -/

end Sys2Proof.Tests

namespace Sys2Proof.Machine

/-- The hypotheses of a statement about an instruction: a well-formed bundle, a path that issues, operands at hand, a price
that can be paid. -/
structure Case where
  wf : Bool
  g : Guard
  srcs : List Src
  dsts : List (Operand × Nat)
  price : Nat

def Case.Met (c : Case) (s : State) (p : Place) (i : Issue) : Prop :=
  c.wf = true ∧ Issuing s p i ∧ Ready s p i c.g c.srcs c.dsts ∧ Payable s p c.price

def Case.met (c : Case) (s : State) (p : Place) (i : Issue) : Bool :=
  c.wf && readyB s p i c.g c.srcs c.dsts && (s.core p.t.core).mayDraw p.key && decide (c.price ≤ (s.core p.t.core).pool)

def Form.case (f : Form) (wf : Bool) (price : Nat := 0) : Case := ⟨wf, f.h.g, f.srcs, [(f.d, f.n)], price⟩

end Sys2Proof.Machine

namespace Sys2Proof.Tests
set_option Elab.async false
open Machine

/-- A case met by the small machine under a contract. -/
def Witnessed (k : Nat) (cs : List Case) : Prop := ∀ c ∈ cs, c.Met (tState (tGrid k) (tWarp (tGrid k))) (tPlace (tGrid k) (tWarp (tGrid k))) tIssue

theorem met_of {c : Case} {s : State} {p : Place} {i : Issue} (hi : Issuing s p i) (h : c.met s p i = true) : c.Met s p i := by
  simp only [Case.met, Bool.and_eq_true, decide_eq_true_eq] at h
  exact ⟨h.1.1.1, hi, ready_of h.1.1.2, .inr ⟨h.1.2, h.2⟩⟩

theorem witnessed {k : Nat} {cs : List Case}
    (h : (cs.all fun c => c.met (tState (tGrid k) (tWarp (tGrid k))) (tPlace (tGrid k) (tWarp (tGrid k))) tIssue) = true) :
    Witnessed k cs := fun c hc => met_of (tIssuing _ _ rfl) (List.all_eq_true.1 h c hc)

/-- A test of lanes: no destination but a predicate. -/
def testCase (wf : Bool) (g : Guard) (srcs : List Src) (dsts : List (Operand × Nat) := []) : Case := ⟨wf, g, srcs, dsts, 0⟩

/-- A uniform instruction whose guard is lane-dependent. -/
def tHu : Hd := ⟨true, ⟨7, false⟩⟩
def xSh : Sh3 := ⟨tH, .v 8, .v 0, .v 1⟩
def xImm : ImmF := ⟨tH, .v 8, .v 0, 0xFFFFFFFF#32⟩
/-- Bundles of the given type: vector pairs and registers, uniform registers, constants, a destination that is a source. -/
def xBin (t : Ty) : Bin := ⟨tH, t, .v 8, .v 0, .v 2⟩
def xBinU (t : Ty) : Bin := ⟨tHu, t, .s 8, .s 4, .imm 15⟩
def xUn (t : Ty) : Un := ⟨tH, t, .v 0, .v 0⟩
def xTern (t : Ty) : Tern := ⟨tH, t, .v 8, .v 0, .v 2, .v 4⟩

theorem wit_IntegerArithmetic : Witnessed 0 ([(xSh.form .i32).case xSh.wf, xImm.form.case xImm.wf]
    ++ [Ty.i8, .n8, .i16, .n16, .i32, .n32, .i64, .n64].flatMap fun t =>
      [(xBin t).form.case ((xBin t).wf Ty.isInt), (xBinU t).form.case ((xBinU t).wf Ty.isInt), (xUn t).form.case ((xUn t).wf Ty.isInt),
        (xTern t).form.case (xTern t).wf]) := witnessed (by decide +kernel)

theorem wit_BitOperations : Witnessed 0 ([(xSh.form .i32).case xSh.wf, xImm.form.case xImm.wf]
    ++ [Ty.i8, .n64].flatMap fun t => [(xBin t).form.case ((xBin t).wf Ty.isInt), (xUn t).form.case ((xUn t).wf Ty.isInt)]) :=
  witnessed (by decide +kernel)

theorem wit_SaturationAndDivision : Witnessed 0 ([Ty.i8, .n16, .i64].flatMap fun t =>
    [(xBin t).form.case ((xBin t).wf Ty.isInt), (xUn t).form.case ((xUn t).wf Ty.isInt), (xTern t).form.case (xTern t).wf]) :=
  witnessed (by decide +kernel)

/-- Fields at both ends of their range: one bit at 0, a whole word, the last bit of a pair. -/
def xBfx (t : Ty) (w p : Fin 64) : BfxF := ⟨tH, t, .v 8, .v 0, w, p⟩
def xBfi (t : Ty) (w p : Fin 64) : BfiF := ⟨tH, t, .v 8, .v 0, .v 2, w, p⟩
theorem wit_MovesFieldsAddresses : Witnessed 0 (
    [(⟨tH, .v 8, .spec .lane⟩ : Sh2).form.case (⟨tH, .v 8, .spec .lane⟩ : Sh2).wf, (xUn .i64).form.case ((xUn .i64).wf Ty.isInt),
      (⟨tH, .v 8, 5#32⟩ : MoviF).form.case true, (⟨tH, .i64, .v 8, .v 0, .v 2, true, 3⟩ : SelF).form.case (⟨tH, .i64, .v 8, .v 0, .v 2, true, 3⟩ : SelF).wf,
      (⟨tH, .i32, .v 8, .v 1, .v 0, 7⟩ : LeaF).form.case (⟨tH, .i32, .v 8, .v 1, .v 0, 7⟩ : LeaF).wf]
    ++ [(Ty.i32, 0, 0), (.n32, 31, 0), (.i8, 0, 7), (.i64, 0, 63), (.n64, 63, 0)].flatMap fun y =>
      [(xBfx y.1 y.2.1 y.2.2).form.case (xBfx y.1 y.2.1 y.2.2).wf, (xBfi y.1 y.2.1 y.2.2).form.case (xBfi y.1 y.2.1 y.2.2).wf]) :=
  witnessed (by decide +kernel)

theorem wit_AddWithCarry : Witnessed 0 ([(⟨tH, .n32, .v 6, .v 2, .v 4, 2, 0⟩ : AddcF), ⟨tH, .i8, .v 6, .v 2, .v 4, 7, 2⟩, ⟨tH, .n64, .v 6, .v 2, .v 4, 2, 7⟩].map fun x =>
    testCase x.wf x.h.g [srcOf x.ty x.a, srcOf x.ty x.b] [(x.d, x.ty.regs)]) := witnessed (by decide +kernel)

theorem wit_ComparisonsAndPredicates : Witnessed 0 (([Cond.eq, .ne, .lt, .le, .gt, .ge].map fun c =>
      let x : CmpF := ⟨tH, c, .i64, 1, .v 0, .v 2⟩
      testCase x.wf x.h.g [srcOf x.ty x.a, srcOf x.ty x.b])
    ++ [testCase true tG [], testCase (⟨tH, 1, .s 4⟩ : PToF).wf tG [src1 (.s 4)], (⟨tH, .v 8, 7⟩ : PFromF).form.case (⟨tH, .v 8, 7⟩ : PFromF).wf]) :=
  witnessed (by decide +kernel)

theorem wit_VotesAndOffsets : Witnessed 0 [testCase true tG [], testCase true tG [src1 (.v 0)], testCase true tG [] [(.v 8, 1)], testCase true tG [] [(.s 8, 1)]] :=
  witnessed (by decide +kernel)

/-- The guard !p7 leaves no lane active; the registers lie in the allotment. -/
def gNone : Guard := ⟨7, true⟩
/-! ### Float, logarithmic, ternary, stream and conversion instructions -/

def xFBin (t : Ty) (m : RMode) : FBin := ⟨tH, t, m, .v 8, .v 0, .v 1⟩
def xFTern (t : Ty) (m : RMode) : FTern := ⟨tH, t, m, .v 8, .v 0, .v 1, .s 4⟩
def xFUn (t : Ty) (m : RMode) : FUn := ⟨tH, t, m, .v 8, .v 0⟩
theorem wit_FloatArithmetic : Witnessed 0 ((xSh.form .f32).case xSh.wf :: [(Ty.f32, RMode.rne), (.bf16, .rtz), (.f16, .rup)].flatMap fun t =>
    [(xFBin t.1 t.2).form.case (xFBin t.1 t.2).wf, (xFTern t.1 t.2).form.case (xFTern t.1 t.2).wf, (xFUn t.1 t.2).form.case (xFUn t.1 t.2).wf]) :=
  witnessed (by decide +kernel)
theorem wit_FloatFunctions : Witnessed 0 ([(Ty.f32, RMode.rne), (.bf16, .rdn), (.f16, .rup)].map fun t => (xFUn t.1 t.2).form.case (xFUn t.1 t.2).wf) :=
  witnessed (by decide +kernel)
theorem wit_FloatSelections : Witnessed 0 ([Ty.f32, .bf16, .f16].flatMap fun t =>
    let x : FCmpF := ⟨tH, .ord, t, 1, .v 0, .v 1⟩
    let y : Bin := ⟨tH, t, .v 8, .v 0, .v 1⟩
    [y.form.case (y.wf Ty.isFloat), (xUn t).form.case ((xUn t).wf Ty.isFloat), testCase x.wf tG [srcOf t x.a, srcOf t x.b]]) :=
  witnessed (by decide +kernel)
/-- Codes at the ends of a format: zero, the largest finite value, an infinity, and the NaN the statement leaves out. -/
theorem wit_EncodingOfValues : fmtOf .bf16 = some fmtBf16 ∧ fmtBf16.nan = some 0x7FC0
    ∧ (∀ x ∈ [0, 0x8000, 0x7F7F, 0x7F80, 0xFF80], x < 2 ^ fmtBf16.w ∧ (fmtBf16.decode x).isNan = false) := by decide +kernel
/-- A plain logarithmic value, and a magnitude between two powers of two, as the largest of a block. -/
theorem wit_EncodingOfValues_logs : (∀ n e sc, lDecode .l16 0x3FFF = .lg n e sc → (sc = 8 ∨ sc = 512) ∧ e ≤ 40 * sc)
    ∧ ∃ v ∈ [Val.num true 3 0, Val.zero], v.logAtLeast 1 (2 * 1) ∧ ∀ v ∈ [Val.num true 3 0, Val.zero], ¬ v.logAtLeast 1 (2 * 1 + 2) := by
  refine ⟨fun n e sc h => ?_, ⟨Val.num true 3 0, by simp, by simp [Val.logAtLeast], by simp [Val.logAtLeast, Val.zero]⟩⟩
  rw [(by decide +kernel : lDecode .l16 0x3FFF = .lg false 16383 512)] at h
  cases h
  omega
theorem wit_LogarithmicOperations : Witnessed 0 ([(Ty.l16, false), (.l8, true)].map fun t =>
    let x : LBin := ⟨tH, t.1, t.2, .v 8, .v 0, .v 1⟩
    x.form.case x.wf) := witnessed (by decide +kernel)
/-- The extreme codes, whose sums and differences stand on each side of each threshold. -/
theorem wit_LogarithmicArithmetic : Ty.isL .l16 = true ∧ lDecode .l16 0x3FFF = .lg false 16383 (lScale .l16) ∧ lDecode .l16 0xC001 = .lg true (-16383) (lScale .l16)
    ∧ lDecode .l16 0 = .lg false 0 (lScale .l16) ∧ lDecode .l16 1 = .lg false 1 (lScale .l16) ∧ lDecode .l16 0x7FFF = .lg false (-1) (lScale .l16)
    ∧ (-(lLimit .l16 : Int) < 16383 + 0 ∧ (16383 + 0 : Int) < lLimit .l16) ∧ (lLimit .l16 : Int) ≤ 16383 + 1 ∧ (-16383 + -1 : Int) ≤ -(lLimit .l16 : Int)
    ∧ lDecode .l16 0xBFFF = .lg true 16383 (lScale .l16) ∧ lZero .l16 < 2 ^ Ty.width .l16 ∧ lNar .l16 < 2 ^ Ty.width .l16
    ∧ ∀ y ∈ [(8, 127), (512, 0), (512, 32767)], (y.1 = 8 ∧ y.2 < 128) ∨ (y.1 = 512 ∧ y.2 < 32768) := by
  decide +kernel
def xTdot : TdotF := ⟨tH, .v 12, .v 0, .v 4, .s 4⟩
def xSmul (n : Fin 32) : SmulF := ⟨tH, n, .v 8, .v 0, .v 1⟩
def xSgen (n : Fin 32) : SgenF := ⟨tH, n, .v 8, .v 0⟩
/-- Stream lengths 2^6 and 2^16, the ends of their range. -/
theorem wit_TernaryAndStreams : Witnessed 0 ([xTdot.form.case xTdot.wf 2] ++ [6, 16].flatMap fun n =>
    [(xSmul n).form.case (xSmul n).wf 2, (xSgen n).form.case (xSgen n).wf 1]) := witnessed (by decide +kernel)

def xCvt (d s : Ty) (el : Bool) (b : Option Operand) : CvtF := ⟨tH, d, s, el, false, .rne, .v 16, .v 8, b⟩
def xConv (d s : Ty) : ConvF := ⟨tH, d, s, false, .rne, .v 8, .v 0⟩
theorem wit_Conversions : Witnessed 0 (
    [xCvt .i64 .i32 false none, xCvt .l16 .f32 true none, xCvt .z8 .f32 false (some (.s 4)), xCvt .f32 .e4m3 false none, xCvt .e2m1 .f32 false none].map
      (fun x => x.form.case x.wf)
    ++ [(xConv .f32 .e2m1).form (src1 (.v 0)) |>.case ((xConv .f32 .e2m1).wf false mxdqTys), (xConv .i32 .z4).form (src1 (.v 0)) |>.case ((xConv .i32 .z4).wf false zdqTys),
      (xConv .f32 .t2).form (srcOf .t2 (.v 0)) |>.case ((xConv .f32 .t2).wf false tunpTys)]) := witnessed (by decide +kernel)
theorem wit_BlockConversions : Witnessed 0 ([((xConv .e4m3 .f32).wf true mxqTys, Ty.f32), ((xConv .mxi8 .bf16).wf true mxqTys, .bf16),
    ((xConv .z8 .i32).wf true zqTys, .i32), ((xConv .t2 .f32).wf true tpkTys, .f32)].map fun y => testCase y.1 tG [srcOf y.2 (.v 0)] [(.v 8, 1)]) :=
  witnessed (by decide +kernel)
theorem wit_LaneExchange :
    Witnessed 0 ([Ty.i32, .f32].flatMap fun t => [testCase (⟨tG, t, .v 8, .v 0, .imm 15⟩ : ShflF).wf tG [srcOf t (.v 0), src1 (.imm 15)] [(.v 8, 1)],
      testCase (⟨tG, t, .add, .v 8, .v 0⟩ : LredF).wf tG [srcOf t (.v 0)] [(.v 8, 1)], testCase (⟨tG, t, .max, true, .v 8, .v 0⟩ : LscanF).wf tG [srcOf t (.v 0)] [(.v 8, 1)]])
    ∧ (Operand.v 0).isPort = false := ⟨witnessed (by decide +kernel), rfl⟩

/-! ### Control and traps -/

/-- The small machine with its warp changed, and the issuing path's place. -/
def sOf (k : Nat) (f : Warp → Warp) : State := tState (tGrid k) (f (tWarp (tGrid k)))
def pOf (k : Nat) (f : Warp → Warp) : Place := tPlace (tGrid k) (f (tWarp (tGrid k)))

theorem wit_Transfers : Witnessed 0 [testCase true tG [], testCase true tG [] [(.v 8, 1)], testCase true tG [] [(.s 8, 1)], testCase true tG [src1 (.v 6)]]
    ∧ ∀ l ∈ lanesOf (activeOf tP tIssue tG), (((srcVals tS tP l [] [src1 (.v 6)]).getD 0 []).getD 0 0#32).toNat % 4 = 0 :=
  ⟨witnessed (by decide +kernel), by decide +kernel⟩

/-- One lane of two exits, or both and with them the warp. -/
def wPart (w : Warp) : Warp := { w with p := [(0, 1#32)] }
def gPart : Guard := ⟨0, false⟩
theorem wit_ExitsYieldsAndHints :
    (testCase true gPart []).Met (sOf 0 wPart) (pOf 0 wPart) tIssue ∧ (testCase true tG []).Met (sOf 0 wPart) (pOf 0 wPart) tIssue
    ∧ (∀ ke ∈ (pOf 0 wPart).w.log, ke.2.active &&& ~~~ ke.2.done &&& 3#32 = 0#32)
    ∧ (pOf 0 wPart).w.exited ||| activeOf (pOf 0 wPart) tIssue gPart ≠ 0xFFFFFFFF#32 ∧ (pOf 0 wPart).w.exited ||| activeOf (pOf 0 wPart) tIssue tG = 0xFFFFFFFF#32 :=
  ⟨met_of (tIssuing _ _ rfl) (by decide +kernel), met_of (tIssuing _ _ rfl) (by decide +kernel), by decide +kernel, by decide +kernel, by decide +kernel⟩

/-- An instruction whose guard idles it under a contract: its form admitted, what it names allotted, its price there. -/
def idleMet (k : Nat) (ins : Instr) : Bool := match Instr.named (pOf k id) ins with
  | none => false
  | some n => decide (activeOf (pOf k id) tIssue n.g = 0#32) && formOk (pOf k id) ins && decide ((pOf k id).gr.contract = 9 ∨ n.code = 0)
    && decide (n.accs ≠ [] → (entryTy (pOf k id).gr.contract).isSome = true) && n.regs.all (fun x => inAllot (pOf k id).w x.1 x.2)
    && n.tiles.all (fun t => decide (t < (pOf k id).w.ta)) && n.accs.all (fun a => decide (a < (pOf k id).w.aa))
    && decide (n.price = 0 ∨ (((sOf k id).core 0).mayDraw 0 = true ∧ n.price ≤ ((sOf k id).core 0).pool))
/-- One of each family, at the last registers, tiles and accumulators. -/
theorem wit_EmptyActiveSet :
    ([(0, Instr.add ⟨⟨true, gNone⟩, .s 31, .imm 15, .s 30⟩), (0, .voteCnt ⟨gNone, .v 63, 0⟩), (0, .tdot ⟨⟨false, gNone⟩, .v 12, .v 0, .v 4, .v 63⟩),
      (0, .sgen ⟨⟨false, gNone⟩, 16, .v 8, .v 0⟩), (0, .exit ⟨gNone⟩), (0, .trap ⟨gNone, 5#32⟩), (0, .shflWide ⟨gNone, .v 62, .v 2, .v 1⟩),
      (0, .ld ⟨gNone, .sc, .sy, .n64, .v 62, .v 1, 0#12⟩), (0, .fence ⟨gNone, .sc, .sy⟩), (0, .qclose ⟨gNone, .qd⟩), (0, .csrr ⟨gNone, .v 0, 0x048#12⟩),
      (1, .mma ⟨gNone, .bf16, .bf16, 0, 7, 14, 15, .s 31⟩), (2, .mmas ⟨gNone, .e4m3, .e5m2, 0, 7, 14, 15⟩), (1, .mmsp ⟨gNone, .bf16, .bf16, 0, 0, 7, 14, 15, .v 4⟩),
      (9, .mloop ⟨gNone, .i8, .i8, 0, 7, 3, 7⟩), (4, .mloopS ⟨gNone, .e4m3, .e4m3, 0, 0, 0, 0⟩), (1, .ard ⟨gNone, .bf16, .rup, 14, 7⟩), (1, .tst ⟨gNone, .bf16, 15, .s 1, 0#12⟩),
      (1, .copy ⟨gNone, 7, 3, 63, .sy⟩), (1, .launch ⟨gNone, 7, 3, .s 4⟩)].all fun y => idleMet y.1 y.2) = true
    ∧ ∀ k < 10, Issuing (sOf k id) (pOf k id) tIssue := ⟨by decide +kernel, fun _ _ => tIssuing _ _ rfl⟩

def foundIn : HandlerAt → Bool
  | .found _ _ => true
  | _ => false
theorem found_of {h : HandlerAt} (hf : foundIn h = true) : ∃ s off, h = .found s off := by
  cases h with
  | found s off => exact ⟨s, off, rfl⟩
  | cut => cases hf
  | faults _ _ _ => cases hf
  | pins _ _ _ => cases hf
  | none _ => cases hf

/-- A warp in handler mode. -/
def wHandler (w : Warp) : Warp := { w with handler := ⟨true, 9#32, 0x80#32, 7#32, 3#32, 0#32, 1#32, 2#32⟩ }
/-- A kernel without handlers in a context without handlers. -/
def sBare : State := { tS with mem := Sparse.fill 0#8 tS.mem 0x200 (List.replicate 128 0#8) }

theorem found_all : ∀ c ∈ [1, 2, 3, 4, 5, 6, 7, 8, 9, 10], foundIn (findHandler tS tP c) = true := by decide +kernel
theorem found_none : (match findHandler sBare tP 1 with | .none _ => true | _ => false) = true := by decide +kernel
theorem wit_TakingATrap : tS.place? tP.key = some tP ∧ tP.w.handler.on = false
    ∧ (∀ c : Cause, ∃ s0 off, findHandler tS tP (causeCode c) = .found s0 off)
    ∧ (sOf 0 wHandler).place? (pOf 0 wHandler).key = some (pOf 0 wHandler) ∧ (pOf 0 wHandler).w.handler.on = true
    ∧ sBare.place? tP.key = some tP ∧ ∃ s0, findHandler sBare tP (causeCode .illegal) = .none s0 := by
  refine ⟨(tIssuing _ _ rfl).2, rfl, fun c => found_of (found_all _ ?_), (tIssuing _ _ rfl).2, rfl, by decide +kernel, ?_⟩
  · cases c <;> decide
  · have h := found_none
    show ∃ s0, findHandler sBare tP 1 = .none s0
    revert h
    cases findHandler sBare tP 1 <;> simp

theorem wit_TrapAndReturn : (testCase true tG []).Met tS tP tIssue ∧ tP.w.handler.on = false ∧ (∃ s0 off, findHandler tS tP 9 = .found s0 off)
    ∧ (testCase true tG []).Met (sOf 0 wHandler) (pOf 0 wHandler) tIssue ∧ (pOf 0 wHandler).w.handler.on = true :=
  ⟨met_of (tIssuing _ _ rfl) (by decide +kernel), rfl, found_of (by decide +kernel), met_of (tIssuing _ _ rfl) (by decide +kernel), rfl⟩

/-- The `%ladsel` values of each case: none, the position, another one. -/
theorem wit_TrappingAndRetiredForms : Witnessed 0 ([testCase true tG [src1 (.v 0)],
      (xFTern .f32 .rne).form.case (xFTern .f32 .rne).wf,
      testCase (⟨tG, .v 8, .v 2, .v 1⟩ : WideF).wf tG [⟨.v 2, 2, srcT .n64 (.v 2)⟩, src1 (.v 1)] [(.v 8, 2)]])
    ∧ maskOf ((lanesOf (activeOf tP tIssue tG)).filter fun l =>
        decide ((((srcVals tS tP l [] [src1 (.v 0)]).getD 0 []).getD 0 0#32).toNat % 4 ≠ 0)) = 3#32
    ∧ (∀ c ∈ [1, 3, 4], ∃ s0 off, findHandler tS tP c = .found s0 off)
    ∧ (tS.core 0).ladsel = 0#32 ∧ ({ Core.reset with ladsel := 3#32 }).ladsel.toNat = 3 ∧ ({ Core.reset with ladsel := 2#32 }).ladsel ≠ 0#32 :=
  ⟨witnessed (by decide +kernel), by decide +kernel,
    fun c hc => found_of (found_all c (by revert c; decide)), by decide +kernel, by decide +kernel, by decide +kernel⟩

/-! ### Memory -/

/-- The lanes' accesses are granted on the small machine. -/
def Accesses (os : List MemOp) : Prop :=
  Issuing tS tP tIssue ∧ ∀ o ∈ os, AccessReady tS tP tIssue o fun l => reached tS tP o.acc (o.valsOf tS tP l).va
theorem accesses {os : List MemOp} (h : (os.all (accessReadyB tS tP tIssue)) = true) : Accesses os :=
  ⟨tIssuing _ _ rfl, fun o ho => accessReady_of (List.all_eq_true.1 h o ho)⟩

/-- A plain access names no scope (12 R317). -/
def scOf (o : MOrd) : Scope := if o = .plain then .wp else .gg
def xLd (t : Ty) (o : MOrd) (off : BitVec 12) : LdF := ⟨tG, o, scOf o, t, .v 8, .v 1, off⟩
def xSt (t : Ty) (o : MOrd) : StF := ⟨tG, o, scOf o, t, .v 1, .v 4, 0⟩
def xAt (t : Ty) (o : MOrd) : AtomF := ⟨tG, o, scOf o, t, .v 8, .v 1, .v 4, 0⟩
def xCas (t : Ty) (o : MOrd) : CasF := ⟨tG, o, scOf o, t, .v 8, .v 1, .v 4, .v 4, 0⟩

/-- Loads of every width and order, at both ends of the offset. -/
theorem wit_Loads : (∀ x ∈ [xLd .i8 .plain 0x7FF, xLd .n16 .plain 0x800, xLd .i32 .acq 0, xLd .n64 .sc 0, xLd .bf16 .rlx 0], x.wf Ty.isMem = true)
    ∧ Accesses ([xLd .i8 .plain 0x7FF, xLd .n16 .plain 0x800, xLd .i32 .acq 0, xLd .n64 .sc 0, xLd .bf16 .rlx 0].flatMap fun x =>
      [ldOp x (.load false) false, ldOp x (.load true) false, ldOp x (.load false) true]) := ⟨by decide +kernel, accesses (by decide +kernel)⟩
theorem wit_Stores : (∀ x ∈ [xSt .n8 .plain, xSt .i64 .rel, xSt .f16 .sc], x.wf = true)
    ∧ Accesses ([xSt .n8 .plain, xSt .i64 .rel, xSt .f16 .sc].flatMap fun x => [stOp x false, stOp x true]) :=
  ⟨by decide +kernel, accesses (by decide +kernel)⟩
theorem wit_Atomics : (∀ x ∈ [xAt .i32 .rlx, xAt .n64 .ar], x.wf = true)
    ∧ Accesses ([xAt .i32 .rlx, xAt .n64 .ar].flatMap fun x => [RmwFn.add, .sub, .min, .max, .and, .or, .xor, .exch].map fun f => atomOp x (.rmw f)) :=
  ⟨by decide +kernel, accesses (by decide +kernel)⟩
/-- `stc` with a reservation in one lane and none in the other. -/
def wResv (w : Warp) : Warp := { w with resv := [(0, ⟨0x3000 / 128, 100000⟩)] }
theorem wit_ConditionalStores :
    ((∀ x ∈ [xCas .n32 .rlx, xCas .i64 .ar], x.wf = true) ∧ Accesses ([xCas .n32 .rlx, xCas .i64 .ar].map casOp))
    ∧ ((xLd .n32 .acq 0).wf Ty.isAtom = true ∧ Accesses [ldOp (xLd .n32 .acq 0) .ldr false])
    ∧ ((xAt .n32 .rel).wfStc = true ∧ Accesses [atomOp (xAt .n32 .rel) .stc]
      ∧ Issuing (sOf 0 wResv) (pOf 0 wResv) tIssue ∧ AccessReady (sOf 0 wResv) (pOf 0 wResv) tIssue (atomOp (xAt .n32 .rel) .stc)
          fun l => reached (sOf 0 wResv) (pOf 0 wResv) .store ((atomOp (xAt .n32 .rel) .stc).valsOf (sOf 0 wResv) (pOf 0 wResv) l).va) :=
  ⟨⟨by decide +kernel, accesses (by decide +kernel)⟩, ⟨by decide +kernel, accesses (by decide +kernel)⟩,
    by decide +kernel, accesses (by decide +kernel), tIssuing _ _ rfl, accessReady_of (by decide +kernel)⟩

/-- Offsets 0 and 16 of the window: covered by the region at stash offset 0, scratch where the region stands at 64 KiB − 128. -/
def gScratch : Grid := { tGrid 0 with regions := [tRegion + BitVec.ofNat 256 (0xFF80 * 2 ^ 90)] }
def wOffs (w : Warp) : Warp := { w with v := Sparse.set 0#32 w.v (32 * 9 + 1) 16#32 }
def sAcc (g : Grid) : State := tState g (wOffs (tWarp g))
def pAcc (g : Grid) : Place := tPlace g (wOffs (tWarp g))
def xRld : RldF := ⟨tG, .plain, .wp, .n64, .v 10, .v 9, .imm 0⟩
def xRst : RstF := ⟨tG, .plain, .wp, .n64, .v 9, .v 4, .imm 0⟩
def accTarget (g : Grid) (l : Nat) : Target := targetOf (sAcc g) (pAcc g) ((pAcc g).w.getV 9 l) 0#32

theorem wit_RemoteAccess : xRld.wf = true ∧ xRst.wf = true ∧ ∀ g ∈ [tGrid 0, gScratch], Issuing (sAcc g) (pAcc g) tIssue
    ∧ Ready (sAcc g) (pAcc g) tIssue tG [src1 xRld.o, src1 xRld.t] [(xRld.d, 2)] ∧ Ready (sAcc g) (pAcc g) tIssue tG [src1 xRst.o, srcOf .n64 xRst.b, src1 xRst.t] []
    ∧ LogFree (pAcc g) (activeOf (pAcc g) tIssue tG) ∧ ((sAcc g).takeOut 0 0#32 2).isSome = true
    ∧ ∀ l ∈ [0, 1], ((pAcc g).w.getV 9 l).toNat % 8 = 0
      ∧ TargetReady (sAcc g) (pAcc g) 8 (.load false) false (accTarget g l) (targetReached (sAcc g) (pAcc g) false (accTarget g l))
      ∧ TargetReady (sAcc g) (pAcc g) 8 (.store false) true (accTarget g l) (targetReached (sAcc g) (pAcc g) true (accTarget g l)) := by
  refine ⟨by decide +kernel, by decide +kernel, fun g hg => ⟨tIssuing _ _ rfl, ready_of ?_, ready_of ?_, logFree_of ?_, ?_, fun l hl => ⟨?_, targetReady_of ?_, targetReady_of ?_⟩⟩⟩
  · exact (by decide +kernel : ∀ g ∈ [tGrid 0, gScratch], readyB (sAcc g) (pAcc g) tIssue tG [src1 xRld.o, src1 xRld.t] [(xRld.d, 2)] = true) g hg
  · exact (by decide +kernel : ∀ g ∈ [tGrid 0, gScratch], readyB (sAcc g) (pAcc g) tIssue tG [src1 xRst.o, srcOf .n64 xRst.b, src1 xRst.t] [] = true) g hg
  · exact (by decide +kernel : ∀ g ∈ [tGrid 0, gScratch], logFreeB (pAcc g) (activeOf (pAcc g) tIssue tG) = true) g hg
  · exact (by decide +kernel : ∀ g ∈ [tGrid 0, gScratch], ((sAcc g).takeOut 0 0#32 2).isSome = true) g hg
  · exact (by decide +kernel : ∀ g ∈ [tGrid 0, gScratch], ∀ l ∈ [0, 1], ((pAcc g).w.getV 9 l).toNat % 8 = 0) g hg l hl
  · exact (by decide +kernel : ∀ g ∈ [tGrid 0, gScratch], ∀ l ∈ [0, 1], targetReadyB (sAcc g) (pAcc g) 8 (.load false) false (accTarget g l) = true) g hg l hl
  · exact (by decide +kernel : ∀ g ∈ [tGrid 0, gScratch], ∀ l ∈ [0, 1], targetReadyB (sAcc g) (pAcc g) 8 (.store false) true (accTarget g l) = true) g hg l hl
theorem wit_RemoteAccess_both : (∃ gid off va m, accTarget (tGrid 0) 0 = .region gid off va m) ∧ ∃ gid off, accTarget gScratch 0 = .scratch gid off :=
  ⟨⟨0, 0, 0x2000, 1, by decide +kernel⟩, ⟨0, 0, by decide +kernel⟩⟩

theorem wit_FencesAndMaintenance : Witnessed 0 [testCase true tG [], testCase true tG [srcPair (.v 1), src1 (.v 0)]]
    ∧ LogFree tP (activeOf tP tIssue tG)
    ∧ (∀ l ∈ lanesOf (activeOf tP tIssue tG), ∀ va ∈ rangeLines 0x3000 5, ∀ om, regionOf tP.gr.regions tP.g.num va = some om → tS.stashBusy tP.gid om.1 128 true = false) :=
  ⟨witnessed (by decide +kernel), logFree_of (by decide +kernel), fun l hl va hva om hom => by
    have h : ∀ va ∈ rangeLines 0x3000 5, (match regionOf tP.gr.regions tP.g.num va with | some om => !tS.stashBusy tP.gid om.1 128 true | none => true) = true := by
      decide +kernel
    have := h va hva
    rw [hom] at this
    simpa using this⟩

/-- The lines that maintenance reaches; the cores of each scope. -/
theorem wit_FencesAndMaintenance_lines : reachLine tS tP 0x3000 = some (0x3000 / 128) ∧ tP.inScope tS .wp 0 = true ∧ tP.inScope tS .wp 1 = false
    ∧ tP.inScope tS .sy 767 = true ∧ (regionOf tP.gr.regions tP.g.num 0x3000).isSome = true := by decide +kernel

/-- Signals: V below and above the bytes in memory; a port bound on one side with entries in its FIFOs. -/
def xSig (o : MOrd) (v : Operand) : SigF := ⟨tG, o, .gg, .v 1, v, 0⟩
theorem wit_SignalsAndPorts_signals :
    ((xSig .rel (.v 4)).wf MOrd.sigOk = true ∧ (xSig .acq (.v 4)).wf MOrd.sigwOk = true) ∧ Accesses [sigOp (xSig .rel (.v 4))]
    ∧ (tS.takeOut 0 0#32 2).isSome = true ∧ Witnessed 0 [testCase true tG (sigOp (xSig .acq (.v 4))).srcs]
    ∧ (tP.w.log.length < 8 ∧ ∀ ke ∈ tP.w.log, ke.2.active &&& activeOf tP tIssue tG = 0#32) ∧ (∀ l ∈ lanesOf (activeOf tP tIssue tG), let va := ((sigOp (xSig .acq (.v 4))).valsOf tS tP l).va
      regionOk tP.gr tP.g.num va.toNat 8 (.load true) = true ∧ va.toNat % 8 = 0 ∧ tS.rangeLocked tP.gr.ctx va.toNat 8 false = false
        ∧ tS.windowBusy tP va.toNat 8 false = false ∧ Reach tS tP .load va (reached tS tP .load va))
    ∧ (∀ l ∈ [0, 1], natLE (tS.memRead (0x3000 + 0x40 * l) 8) < wordsNat ((srcVals tS tP l [] (sigOp (xSig .acq (.v 4))).srcs).getD 1 []) ↔ l = 1)
    ∧ ∀ l ∈ [0, 1], ¬ natLE (tS.memRead (0x3000 + 0x40 * l) 8) < wordsNat ((srcVals tS tP l [] (sigOp (xSig .acq (.imm 0))).srcs).getD 1 []) := by
  refine ⟨⟨by decide +kernel, by decide +kernel⟩, accesses (by decide +kernel), by decide +kernel, witnessed (by decide +kernel), by decide +kernel, fun l hl => ?_,
    by decide +kernel, by decide +kernel⟩
  have h : ∀ l ∈ lanesOf (activeOf tP tIssue tG), let va := ((sigOp (xSig .acq (.v 4))).valsOf tS tP l).va
      regionOk tP.gr tP.g.num va.toNat 8 (.load true) = true ∧ va.toNat % 8 = 0 ∧ tS.rangeLocked tP.gr.ctx va.toNat 8 false = false
        ∧ tS.windowBusy tP va.toNat 8 false = false ∧ (reachB tS tP .load va).isSome = true := by decide +kernel
  exact ⟨(h l hl).1, (h l hl).2.1, (h l hl).2.2.1, (h l hl).2.2.2.1, reach_reached (h l hl).2.2.2.2⟩

def wFed (w : Warp) : Warp := (w.setFifo .ql 0 ⟨[5#32, 6#32], 0⟩).setFifo .ql 1 ⟨[8#32], 1⟩
/-- No fence is open; a bound port with a peer, whose lane is open or closed, one that nothing binds. -/
theorem wit_SignalsAndPorts_status : fencePending isFence tP.w (activeOf tP tIssue tG) = false
    ∧ (tP.bound .ql = true ∧ tS.peer tP .ql 0 = some (0, .qr, 31) ∧ tS.fifoLoad 0 .qr 31 ≤ portDepth .ql
      ∧ (tP.w.getFifo .ql 0).q.length ≤ 8 ∧ (tP.w.getFifo .ql 0).st < 4)
    ∧ (∀ b, (Sparse.get 0#32 ({ tP.w with outClosed := [(Port.ql.code, if b then 1#32 else 2#32)] } : Warp).outClosed Port.ql.code).getLsbD 0 = b)
    ∧ tP.bound .qn = false := by decide +kernel
theorem wit_SignalsAndPorts_ports : Witnessed 0 [testCase true tG [] [(.v 8, 1)], testCase true tG []]
    ∧ (testCase true tG [] [(.v 8, 1)]).Met (sOf 0 wFed) (pOf 0 wFed) tIssue ∧ (pOf 0 wFed).bound .ql = true
    ∧ ∀ l ∈ lanesOf (activeOf (pOf 0 wFed) tIssue tG), ((pOf 0 wFed).w.getFifo .ql l).q ≠ [] :=
  ⟨witnessed (by decide +kernel), met_of (tIssuing _ _ rfl) (by decide +kernel), by decide +kernel, by decide +kernel⟩

/-! ### Matrix work -/

/-- No step, loop or log entry of the small machine uses a tile or an accumulator. -/
theorem allotted : ∀ k < 10, (tWarp (tGrid k)).ta = 16 ∧ (tWarp (tGrid k)).aa = 8 := by decide +kernel
theorem tilesFree (k : Nat) (f : Warp → Warp) (hf : (f (tWarp (tGrid k))).log = []) (ht : (f (tWarp (tGrid k))).ta = (tWarp (tGrid k)).ta) (hk : k < 10) (rs ws : List Nat)
    (hr : ∀ t ∈ rs ++ ws, t < 16) : TilesFree (sOf k f) (pOf k f) rs ws :=
  ⟨fun t hm => by simpa [pOf, tPlace, ht, (allotted k hk).1] using hr t hm, by simp [pOf, tPlace, hf], by simp [pOf, tPlace, hf], by
    have : ((sOf k f).core (pOf k f).t.core).mq = [] := rfl
    simp [this]⟩

theorem accsFree (k : Nat) (hk : k < 10) (as : List Nat) (h : ∀ a ∈ as, a < 8) : AccsFree (sOf k id) (pOf k id) as := fun a ha => by
  refine ⟨(allotted k hk).2 ▸ h a ha, rfl, ?_⟩
  have : ((sOf k id).core (pOf k id).t.core).mq = [] := rfl
  simp [this]

def Met0 (k : Nat) (c : Case) : Prop := c.Met (sOf k id) (pOf k id) tIssue
theorem met0 {k : Nat} {c : Case} (h : c.met (sOf k id) (pOf k id) tIssue = true) : Met0 k c := met_of (tIssuing _ _ rfl) h

/-- A dense step of each contract that has one, K.SC in both of its forms. -/
def denseForms : List (Nat × Ty × Ty × Nat) := [(1, .bf16, .bf16, 0), (2, .e4m3, .e5m2, 0), (3, .e2m1, .e4m3, 0), (5, .z4, .z8, 0), (6, .l16, .l16, 0),
  (7, .f32, .f16, 0), (8, .t2, .i8, 0), (9, .i8, .i8, 0), (9, .i8, .i8, 7)]
def denseMet (y : Nat × Ty × Ty × Nat) : Bool := match shapeOf y.1 y.2.1 y.2.2.1 y.2.2.2 with
  | some sh => (⟨true, tG, [src1 (.s 4)], [], sh.price⟩ : Case).met (sOf y.1 id) (pOf y.1 id) tIssue && decide (y.1 = 9 ∨ y.2.2.2 = 0)
  | none => false
theorem denseMet_all : denseForms.all denseMet = true := by decide +kernel
theorem wit_MatrixSteps_dense : ∀ y ∈ denseForms, (∃ sh, shapeOf y.1 y.2.1 y.2.2.1 y.2.2.2 = some sh ∧ Met0 y.1 ⟨true, tG, [src1 (.s 4)], [], sh.price⟩)
    ∧ (y.1 = 9 ∨ y.2.2.2 = 0) ∧ y.1 ≠ 4 ∧ TilesFree (sOf y.1 id) (pOf y.1 id) [2, 3] [] ∧ AccsFree (sOf y.1 id) (pOf y.1 id) [1] := by
  intro y hy
  have h := List.all_eq_true.1 denseMet_all y hy
  unfold denseMet at h
  split at h
  · rename_i sh hs
    simp only [Bool.and_eq_true, decide_eq_true_eq] at h
    have hk : y.1 < 10 := (by decide : ∀ y ∈ denseForms, y.1 < 10) y hy
    refine ⟨⟨sh, hs, met0 h.1⟩, h.2, ?_, tilesFree _ _ rfl rfl hk _ _ (by decide), ?_⟩
    · exact (by decide : ∀ y ∈ denseForms, y.1 ≠ 4) y hy
    · exact accsFree _ hk _ (by decide)
  · cases h

/-- A sparse step with its metadata in a vector group, under K.BF and K.MX8. -/
theorem wit_MatrixSteps_sparse : ∀ y ∈ [(1, Ty.bf16), (2, .e4m3)], ∃ sh, shapeOf y.1 y.2 y.2 0 = some sh ∧ y.1 ∈ [1, 2, 3, 5, 6, 8]
    ∧ Met0 y.1 ⟨true, tG, [⟨.v 4, sh.k / 16, []⟩], [], 6⟩ ∧ 4 % (sh.k / 16) = 0 ∧ (pOf y.1 id).w.log = [] := by
  intro y hy
  simp only [List.mem_cons, List.not_mem_nil, or_false] at hy
  rcases hy with rfl | rfl
  · exact ⟨_, rfl, by decide, met0 (by decide +kernel), by decide +kernel, rfl⟩
  · exact ⟨_, rfl, by decide, met0 (by decide +kernel), by decide +kernel, rfl⟩

/-- A scaled step whose team binding names scales at 0x3000 and 0x3001. -/
def tBound : Team := { tTeam with scb := 0x3000#64 ++ 0x3001#64 ++ 1#376 ++ 0#8 }
def sBound : State := { sOf 2 id with teams := [(0, tBound)] }
def pBound : Place := { pOf 2 id with t := tBound }
theorem wit_MatrixSteps_scaled : ∃ sh, shapeOf 2 .e4m3 .e5m2 0 = some sh ∧ (⟨true, tG, [], [], 16⟩ : Case).Met sBound pBound tIssue
    ∧ LogFree pBound (activeOf pBound tIssue tG)
    ∧ ∀ va ∈ scaleAddrs pBound.t.scb false 2 (List.range (2 * blocksPer sh)) ++ scaleAddrs pBound.t.scb true 2 (List.range (2 * blocksPer sh)),
      regionOk pBound.gr pBound.g.num va 1 (.load false) = true ∧ sBound.rangeLocked pBound.gr.ctx va 1 false = false
        ∧ sBound.windowBusy pBound va 1 false = false
        ∧ Reach sBound pBound .load (BitVec.ofNat 64 va) (reached sBound pBound .load (BitVec.ofNat 64 va)) := by
  refine ⟨_, rfl, met_of ⟨rfl, by decide +kernel⟩ (by decide +kernel), logFree_of (by decide +kernel), fun va hva => ?_⟩
  have h : ∀ sh, shapeOf 2 .e4m3 .e5m2 0 = some sh → ∀ va ∈ scaleAddrs pBound.t.scb false 2 (List.range (2 * blocksPer sh)) ++ scaleAddrs pBound.t.scb true 2 (List.range (2 * blocksPer sh)),
      regionOk pBound.gr pBound.g.num va 1 (.load false) = true ∧ sBound.rangeLocked pBound.gr.ctx va 1 false = false
        ∧ sBound.windowBusy pBound va 1 false = false ∧ (reachB sBound pBound .load (BitVec.ofNat 64 va)).isSome = true := by
    intro sh hs
    cases hs
    decide +kernel
  obtain ⟨a, b, c, d⟩ := h _ rfl va hva
  exact ⟨a, b, c, reach_reached d⟩

/-- Words of a uniform group from s8 on. -/
def wGroup (xs : List Nat) (w : Warp) : Warp := { w with u := xs.zipIdx.foldl (fun u x => Sparse.set 0#32 u (8 + x.2) (BitVec.ofNat 32 x.1)) w.u }
def wLoop (plies : Nat) : Warp → Warp := wGroup [0x3000, 0, 0x3100, 0, plies, 0xFFFFFFC0, 64, 64 * 65536 + 64]
/-- Dense, scaled and sparse loops: contract, types, whether the metadata pair is read. -/
def loopForms : List (Nat × Ty × Ty × Bool) := [(1, .bf16, .bf16, false), (9, .i8, .i8, false), (2, .e4m3, .e5m2, false), (4, .e4m3, .e4m3, false), (5, .z8, .z8, false),
  (1, .bf16, .bf16, true), (8, .t2, .i8, true)]
def loopSrcs (mp : Bool) : List Src := groupSrc 1 :: if mp then [srcPair (.s 1)] else []
def loopMet (plies : Nat) (y : Nat × Ty × Ty × Bool) : Bool :=
  let s := sOf y.1 (wLoop plies)
  let p := pOf y.1 (wLoop plies)
  let x : BitVec 256 := BitVec.ofNat 256 (wordsNat ((srcVals s p 0 [] (loopSrcs y.2.2.2)).getD 0 []))
  (shapeOf y.1 y.2.1 y.2.2.1 0).isSome && (⟨true, tG, loopSrcs y.2.2.2, [futDst 2], 0⟩ : Case).met s p tIssue
    && decide (plPlies x = plies ∧ plAaddr x % 4 = 0 ∧ plBaddr x % 4 = 0 ∧ plStra x % 4 = 0 ∧ plStrb x % 4 = 0 ∧ plInca x % 4 = 0 ∧ plIncb x % 4 = 0)
    && decide (∀ l ∈ lanesOf (activeOf p tIssue tG), wordsNat ((srcVals s p l [] (loopSrcs y.2.2.2)).getD 1 []) % 4 = 0)
    && decide ((s.mloops.filter fun km => km.2.core = p.t.core).length < 4 ∧ p.g.st ≠ .evicted)
    && (match shapeOf y.1 y.2.1 y.2.2.1 0 with
      | some sh => decide (s.rangeEntries + (loopRanges sh ⟨y.2.1, y.2.2.1, 0, y.2.2.2, false⟩ x 0#64).length ≤ 1024)
      | none => false)
/-- No plies, an incomplete k-block of K.FS8, and a whole one. -/
theorem wit_MatrixLoops : (∀ n ∈ [0, 3, 4], (loopForms.all (loopMet n)) = true)
    ∧ ∀ n, ∀ k < 10, AccsFree (sOf k (wLoop n)) (pOf k (wLoop n)) [3] ∧ NoOpen (pOf k (wLoop n)) 0xFFFFFFFF#32 := by
  refine ⟨by decide +kernel, fun n k hk => ⟨fun a ha => ?_, fun ke hke => nomatch (show ke ∈ [] from hke)⟩⟩
  rw [List.mem_singleton.1 ha]
  refine ⟨(allotted k hk).2 ▸ (by decide : 3 < 8), rfl, ?_⟩
  have : ((sOf k (wLoop n)).core (pOf k (wLoop n)).t.core).mq = [] := rfl
  simp [this]

theorem wit_TileMemory : Witnessed 1 [testCase true tG [srcPair (.v 1)]] ∧ LogFree (pOf 1 id) (activeOf (pOf 1 id) tIssue tG)
    ∧ TilesFree (sOf 1 id) (pOf 1 id) [15] [] ∧ TilesFree (sOf 1 id) (pOf 1 id) [] [15]
    ∧ ∀ write, ∀ l ∈ lanesOf (activeOf (pOf 1 id) tIssue tG),
      let va := memAddr ((srcVals (sOf 1 id) (pOf 1 id) l [] [srcPair (.v 1)]).getD 0 []) 0
      let acc : AccKind := if write then .store else .load
      regionOk (pOf 1 id).gr (pOf 1 id).g.num va.toNat 128 (if write then .store false else .load false) = true ∧ va.toNat % 64 = 0
        ∧ (sOf 1 id).rangeLocked (pOf 1 id).gr.ctx va.toNat 128 write = false
        ∧ (sOf 1 id).stashBusy (pOf 1 id).gid (((regionOf (pOf 1 id).gr.regions (pOf 1 id).g.num va.toNat).map (·.1)).getD 0) 128 write = false
        ∧ Reach (sOf 1 id) (pOf 1 id) acc va (reached (sOf 1 id) (pOf 1 id) acc va)
        ∧ Reach (sOf 1 id) (pOf 1 id) acc (va + 64#64) (reached (sOf 1 id) (pOf 1 id) acc (va + 64#64)) := by
  refine ⟨witnessed (by decide +kernel), logFree_of (by decide +kernel), tilesFree _ _ rfl rfl (by decide) _ _ (by decide), tilesFree _ _ rfl rfl (by decide) _ _ (by decide), fun write l hl => ?_⟩
  have h : ∀ write, ∀ l ∈ lanesOf (activeOf (pOf 1 id) tIssue tG),
      let va := memAddr ((srcVals (sOf 1 id) (pOf 1 id) l [] [srcPair (.v 1)]).getD 0 []) 0
      let acc : AccKind := if write then .store else .load
      regionOk (pOf 1 id).gr (pOf 1 id).g.num va.toNat 128 (if write then .store false else .load false) = true ∧ va.toNat % 64 = 0
        ∧ (sOf 1 id).rangeLocked (pOf 1 id).gr.ctx va.toNat 128 write = false
        ∧ (sOf 1 id).stashBusy (pOf 1 id).gid (((regionOf (pOf 1 id).gr.regions (pOf 1 id).g.num va.toNat).map (·.1)).getD 0) 128 write = false
        ∧ (reachB (sOf 1 id) (pOf 1 id) acc va).isSome = true ∧ (reachB (sOf 1 id) (pOf 1 id) acc (va + 64#64)).isSome = true := by decide +kernel
  obtain ⟨a, b, c, d, e, f⟩ := h write l hl
  exact ⟨a, b, c, d, reach_reached e, reach_reached f⟩

/-- The first and last tile and accumulator, a short and the long contract. -/
theorem wit_TilesAndAccumulators :
    (∀ k ∈ [1, 6, 7], Witnessed k [testCase true tG [], testCase true tG [srcPair (.s 1), src1 (.s 4)]] ∧ (entryTy k).isSome = true)
    ∧ (∀ k < 10, TilesFree (sOf k id) (pOf k id) [0] [15] ∧ TilesFree (sOf k id) (pOf k id) [] [12, 13, 14, 15] ∧ AccsFree (sOf k id) (pOf k id) [7, 0])
    ∧ Witnessed 1 [testCase true tG [srcOf .f32 (.s 4)]] ∧ entryTy 1 = some .f32
    ∧ (∀ t ∈ [Ty.t2, .i8, .bf16, .f32, .n64], (⟨tG, t, 15, 0⟩ : TtrF).wf = true)
    ∧ (∀ t ∈ [Ty.bf16, .e2m1, .f32], (⟨tG, t, .rup, 12, 7⟩ : ArdF).wf = true ∧ t.isFloat = true ∨ t = .e2m1) := by
  refine ⟨fun k hk => ⟨?_, ?_⟩, fun k hk => ⟨tilesFree _ _ rfl rfl hk _ _ (by decide), tilesFree _ _ rfl rfl hk _ _ (by decide), accsFree _ hk _ (by decide)⟩,
    witnessed (by decide +kernel), rfl, by decide +kernel, by decide +kernel⟩
  · simp only [List.mem_cons, List.not_mem_nil, or_false] at hk
    rcases hk with rfl | rfl | rfl <;> exact witnessed (by decide +kernel)
  · revert k; decide

/-! ### Engines, futures, barriers, services -/

/-- The descriptor words in s8 to s15. -/
def wDesc (d : Nat) : Warp → Warp := wGroup ((List.range 8).map fun k => d / 2 ^ (32 * k) % 2 ^ 32)
def xEng (bar : Fin 64) : EngF := ⟨tG, 2, 1, bar, .sy⟩
def descOf (f : State → State) (d : Nat) : BitVec 256 := engDesc (f (sOf 1 (wDesc d))) (pOf 1 (wDesc d)) tIssue (xEng 63)
/-- An engine instruction can issue on the descriptor, which is read whole. -/
def EngMet (d : Nat) : Prop := (testCase true tG [groupSrc 1] [futDst 2]).Met (sOf 1 (wDesc d)) (pOf 1 (wDesc d)) tIssue
  ∧ NoOpen (pOf 1 (wDesc d)) (activeOf (pOf 1 (wDesc d)) tIssue tG) ∧ (pOf 1 (wDesc d)).g.st ≠ .evicted ∧ (pOf 1 (wDesc d)).w.held = []
  ∧ descOf id d = BitVec.ofNat 256 d
def engMet (d : Nat) : Bool := (testCase true tG [groupSrc 1] [futDst 2]).met (sOf 1 (wDesc d)) (pOf 1 (wDesc d)) tIssue
  && decide (descOf id d = BitVec.ofNat 256 d)
theorem engMet_of {d : Nat} (h : engMet d = true) : EngMet d := by
  simp only [engMet, Bool.and_eq_true, decide_eq_true_eq] at h
  exact ⟨met_of (tIssuing _ _ rfl) h.1, fun ke hke => (by cases hke), nofun, rfl, h.2⟩

/-- Fields of a descriptor: of `copy`, of `gath` and `scat`, of `coll`, of `cmpr`. -/
def cD (sk dk host n xd dst src : Nat) : Nat := sk * 2 ^ 255 + dk * 2 ^ 254 + host * 2 ^ 252 + n * 2 ^ 192 + xd * 2 ^ 128 + dst * 2 ^ 64 + src
def gD (ck e n str ioff dst src : Nat) : Nat := ck * 2 ^ 254 + e * 2 ^ 232 + n * 2 ^ 192 + str * 2 ^ 160 + ioff * 2 ^ 128 + dst * 2 ^ 64 + src
def lD (opc grp root n xd dst src : Nat) : Nat := opc * 2 ^ 252 + grp * 2 ^ 248 + root * 2 ^ 238 + n * 2 ^ 192 + xd * 2 ^ 128 + dst * 2 ^ 64 + src
def mD (n dst src : Nat) : Nat := n * 2 ^ 192 + dst * 2 ^ 64 + src

/-- What an entry needs beside the descriptor: room in the engine and the tables, a counter. -/
def roomMet (s : State) (o : EngOp) : Bool := !engineFull s o && decide (s.rangeEntries + optCount o.rd + optCount o.wr ≤ 1024)
  && decide (s.stashEntries 0 + optCount o.srd + optCount o.swr ≤ 16) && (s.takeOut 0 0#32 1).isSome

/-- A copy of 64 bytes, between scratch, with a host, and one that converts F32 to BF16. -/
def xdCvt : Nat := 2 ^ 63 + Ty.f32.code * 2 ^ 48 + Ty.bf16.code * 2 ^ 43
def copies : List Nat := [cD 0 0 0 64 0 0x3000 0x3100, cD 1 1 0 64 0 0x300 0x100, cD 0 1 1 64 0 0x300 0x100, cD 0 0 0 64 xdCvt 0x3000 0x3100]
def copyMet (d : Nat) : Bool :=
  let x := BitVec.ofNat 256 d
  let p := pOf 1 (wDesc d)
  engMet d && decide (¬ (cpHost x = 3 ∨ bits x 245 224 ≠ 0 ∨ (cpHost x = 1 ∧ cpSk x) ∨ (cpHost x = 2 ∧ cpDk x)) ∧ egSrc x % 4 = 0 ∧ egDst x % 4 = 0)
    && match parseXd (egXd x) with
      | none => false
      | some xd => decide ((xd.isSome → cpHost x = 0 ∧ ¬ (cpSk x ∧ cpDk x)) ∧ (xd = none → egCount x % 4 = 0)
          ∧ (cpSk x → egSrc x + cpSrcLen xd x ≤ p.gr.window) ∧ (cpDk x → egDst x + cpDstLen xd x ≤ p.gr.window) ∧ egCount x ≠ 0
          ∧ engBar p (xEng 63) = some 0) && roomMet (sOf 1 (wDesc d)) (newOp .copy p (xEng 63) 0 x)
theorem wit_EngineIssue_copy : copies.all copyMet = true
    ∧ (∀ d ∈ [cD 0 0 3 4 0 0x3000 0x3100, cD 0 0 0 4 0 0x3000 0x3100 + 2 ^ 224, cD 0 0 0 4 0 0x3000 0x3100 + 2 ^ 245, cD 1 0 1 4 0 0x3000 0x3100, cD 0 1 2 4 0 0x3000 0x3100],
      engMet d = true ∧ (cpHost (BitVec.ofNat 256 d) = 3 ∨ bits (BitVec.ofNat 256 d) 245 224 ≠ 0 ∨ (cpHost (BitVec.ofNat 256 d) = 1 ∧ cpSk (BitVec.ofNat 256 d))
        ∨ (cpHost (BitVec.ofNat 256 d) = 2 ∧ cpDk (BitVec.ofNat 256 d))))
    ∧ parseXd (egXd (BitVec.ofNat 256 (cD 0 0 0 4 5 0x3000 0x3100))) = none ∧ egCount (BitVec.ofNat 256 (cD 0 0 0 0 0 0x3000 0x3100)) = 0
    ∧ engBar (pOf 1 (wDesc 0)) (xEng 50) = none := by decide +kernel
theorem wit_EngineIssue : EngMet (cD 0 0 0 64 0 0x3000 0x3100) := engMet_of (by decide +kernel)

/-- Elements of 4 and 4,096 bytes, none, one index, into scratch and memory; the bounds of the checks. -/
def gathers : List Nat := [gD 0 2 3 64 4 0x300 0x3100, gD 1 12 1 4096 0 0x100 0x3000, gD 0 2 0 0 0 0x3000 0x3100]
def gatherMet (scat : Bool) (d : Nat) : Bool :=
  let x := BitVec.ofNat 256 d
  let p := pOf 1 (wDesc d)
  let o := newOp (if scat then .scat else .gath) p (xEng 63) 0 x
  engMet d && decide (¬ (x.getLsbD 255 ∨ bits x 253 236 ≠ 0 ∨ bits x 231 224 ≠ 0 ∨ bits x 235 232 < 2 ∨ 12 < bits x 235 232
    ∨ 4096 < egCount x ∨ gsStride x % 4 ≠ 0 ∨ gsIoff x % 4 ≠ 0 ∨ egSrc x % 4 ≠ 0 ∨ p.gr.window < gsIoff x + 4 * egCount x
    ∨ (gsCk x ∧ p.gr.window < egDst x + egCount x * gsSize x)))
    && decide (((EngAt.mk o p.gr p.g.num).read (sOf 1 (wDesc d)) true (gsIoff x) (4 * egCount x)).stop = .done)
    && roomMet (sOf 1 (wDesc d)) o
theorem wit_EngineIssue_gather : gathers.all (gatherMet false) = true ∧ gathers.all (gatherMet true) = true
    ∧ ∀ d ∈ [gD 0 1 4 64 0 0x3000 0x3100, gD 0 13 4 64 0 0x3000 0x3100, gD 0 3 4097 64 0 0x3000 0x3100], engMet d = true
      ∧ (bits (BitVec.ofNat 256 d) 235 232 < 2 ∨ 12 < bits (BitVec.ofNat 256 d) 235 232 ∨ 4096 < egCount (BitVec.ofNat 256 d)) := by decide +kernel

/-- A group of three packages with early grants, and none. -/
def withGroup (s : State) : State := { s with groups := [(1, ⟨0, [3, 0, 2], 7, [⟨1, 0, 7, 0, 4, 0#64, 0⟩, ⟨1, 2, 8, 0, 4, 0#64, 0⟩], []⟩)] }
def collMet (d : Nat) : Bool :=
  let x := BitVec.ofNat 256 d
  let p := pOf 1 (wDesc d)
  engMet d && decide (¬ (2 < clOpc x ∨ bits x 237 224 ≠ 0 ∨ (clOpc x ≠ 1 ∧ clRoot x ≠ 0)) ∧ egSrc x % 4 = 0 ∧ egDst x % 4 = 0)
    && (match parseXd (egXd x) with
      | none => false
      | some xd => decide ((∀ y, xd = some y → y.sch = 2) ∧ (clOpc x = 2 → clTy xd = .f32 ∨ clTy xd = .i32)) || xd.isSome)
    && roomMet (withGroup (sOf 1 (wDesc d))) (newOp .coll p (xEng 63) 0 x)
theorem wit_EngineIssue_coll : ([lD 0 1 0 4 0 0x3000 0x3100, lD 1 1 2 4 0 0x3000 0x3100, lD 2 1 0 4 0 0x3000 0x3100].all collMet) = true
    ∧ (sOf 1 id).groups.get? 1 = none ∧ (withGroup (sOf 1 id)).groups.get? 1 = some ⟨0, [3, 0, 2], 7, [⟨1, 0, 7, 0, 4, 0#64, 0⟩, ⟨1, 2, 8, 0, 4, 0#64, 0⟩], []⟩
    ∧ (sOf 1 id).fused.pkg ∈ [3, 0, 2] ∧ (tGrid 1).ctx = 0
    ∧ 2 < clOpc (BitVec.ofNat 256 (lD 3 1 0 4 0 0x3000 0x3100)) ∧ clRoot (BitVec.ofNat 256 (lD 1 1 3 4 0 0x3000 0x3100)) = 3 := by decide +kernel

/-- The address space over a surface of 1,024 lines whose record stands at 0x4000. -/
def tSurfRec : BitVec 512 := BitVec.ofNat 512 (1024 * 2 ^ 352 + 1)
def sSurf (d : Nat) : State := { sOf 1 (wDesc d) with
  ctxs := [(0, { oneCtx 0 with desc := (oneCtx 0).desc ||| BitVec.ofNat 512 (1 * 2 ^ 440 + 0x4000 * 2 ^ 256) })]
  paging := State.reset.paging
  mem := Sparse.fill 0#8 (Sparse.fill 0#8 tMem 8192 (bytesLE 8 (1 * 2 ^ 52 + 0x7F))) 0x4000 (bytesLE 64 tSurfRec.toNat) }
def cmprMet (d : Nat) : Bool :=
  let x := BitVec.ofNat 256 d
  engMet d && decide (¬ (bits x 255 224 ≠ 0 ∨ bits x 191 128 ≠ 0 ∨ egSrc x % 128 ≠ 0 ∨ egDst x % 128 ≠ 0))
    && canonicalVa (egDst x) && match translate (sSurf d) [] 0 (egDst x) .store with
      | .error _ => false
      | .ok (s0, y) => decide (y.surf ≠ 0 ∧ y.srec.getLsbD 0 = true ∧ surfBase s0 y.srec 511 448 ≤ y.loc
            ∧ (y.loc - surfBase s0 y.srec 511 448) / 128 + egCount x ≤ bits y.srec 383 352)
          && roomMet s0 (newOp .cmpr (pOf 1 (wDesc d)) (xEng 63) 0 x)
/-- The last line of the surface is still inside it. -/
theorem wit_EngineIssue_cmpr : ([mD 4 0x3000 0x3100, mD 1 (1023 * 128) 0x3100].all cmprMet) = true
    ∧ (∀ d ∈ [mD 4 0x3000 0x3104, mD 4 0x3040 0x3100, mD 4 0x3000 0x3100 + 2 ^ 128, mD 4 0x3000 0x3100 + 2 ^ 224], engMet d = true
      ∧ (bits (BitVec.ofNat 256 d) 255 224 ≠ 0 ∨ bits (BitVec.ofNat 256 d) 191 128 ≠ 0 ∨ egSrc (BitVec.ofNat 256 d) % 128 ≠ 0 ∨ egDst (BitVec.ofNat 256 d) % 128 ≠ 0)) := by
  decide +kernel
/-- A future with each kind of producer. -/
def wFut (q : Producer) (w : Warp) : Warp := { w with fut := [(2, q)] }
def sFut (started : Bool) : State := { sOf 1 (wFut (.engine 4)) with
  ops := [(4, { newOp .copy (pOf 1 (wFut (.engine 4))) (xEng 63) 0 0#256 with started := started })] }
theorem wit_Futures : Witnessed 1 [testCase true tG [futSrc 0], testCase true tG [futSrc 7]]
    ∧ (∀ q ∈ [Producer.engine 4, .mloop 5, .launch 3 3#32, .gone 1], (pOf 1 (wFut q)).w.fut.get? 2 = some q ∧ (24 + 2 < (pOf 1 (wFut q)).w.sa)
      ∧ (testCase true tG []).met (sOf 1 (wFut q)) (pOf 1 (wFut q)) tIssue = true)
    ∧ ∀ b, ∃ o, (sFut b).ops.get? 4 = some o ∧ o.pinned = none ∧ o.released = false ∧ o.started = b :=
  ⟨witnessed (by decide +kernel), by decide +kernel, fun b => ⟨_, rfl, rfl, rfl, rfl⟩⟩
theorem wit_Futures_each : ∀ q ∈ [Producer.engine 4, .mloop 5, .launch 3 3#32, .gone 1], (testCase true tG []).Met (sOf 1 (wFut q)) (pOf 1 (wFut q)) tIssue :=
  fun q hq => met_of (tIssuing _ _ rfl) (wit_Futures.2.1 q hq).2.2

/-- The barriers of the team (slot 32) and of every gang (slot 0), both parities asked for. -/
def gBars : Grid := { tGrid 1 with kcb := (tGrid 1).kcb ||| BitVec.ofNat 512 (1 * 2 ^ 280) }
def sBars : State := tState gBars (tWarp gBars)
def pBars : Place := tPlace gBars (tWarp gBars)
theorem wit_Barriers : (∀ c ∈ [testCase true tG [src1 (.s 4)] [(.v 8, 1)], testCase true tG [src1 (.imm 0)], testCase true tG [src1 (.s 4)], testCase true tG []],
      c.Met sBars pBars tIssue)
    ∧ (∃ b y, pBars.bar 32 = some b ∧ sBars.bars.get? b = some y ∧ y.ph = (0#32).getLsbD 0 ∧ y.ph ≠ (7#32).getLsbD 0)
    ∧ (∃ b y, pBars.bar 0 = some b ∧ sBars.bars.get? b = some y) :=
  ⟨fun c hc => met_of (tIssuing _ _ rfl) ((by decide +kernel : ∀ c ∈ [testCase true tG [src1 (.s 4)] [(.v 8, 1)], testCase true tG [src1 (.imm 0)], testCase true tG [src1 (.s 4)], testCase true tG []],
      c.met sBars pBars tIssue = true) c hc), ⟨_, _, rfl, rfl, by decide +kernel, by decide +kernel⟩, ⟨_, _, rfl, rfl⟩⟩

/-- A child queue that is enabled and has room, one that is full, one that is disabled, and a grid nine deep. -/
def tQueue : Queue := { Queue.reset with
  st := .enabled, desc := BitVec.ofNat 256 (0x5000 * 2 ^ 128 + 2 * 2 ^ 44 + 1 * 2 ^ 42), nextSeq := 9#32, head := 2, tail := 5 }
def wLaunch (w : Warp) : Warp := wGroup [0x3000, 0, 0, 0, 0, 0, 0, 0] w
def sLaunch (q : Queue) (gid : Word) : State := { sOf 1 wLaunch with queues := [(7, q)], gangs := [(0, { tGang with grid := gid })], grids := [(gid.toNat, tGrid 1)] }
def pLaunch (gid : Word) : Place := { pOf 1 wLaunch with g := { tGang with grid := gid } }
def srcLaunch : List Src := [⟨(groupSrc 1).o, 2, []⟩, src1 (.s 4)]
theorem wit_LaunchesAndServices_launch : (∀ y ∈ [(tQueue, 0x80000000#32), ({ tQueue with tail := 6 }, 0#32), ({ tQueue with st := .disabled }, 0#32), (tQueue, 0x90000000#32)],
      (testCase true tG srcLaunch [futDst 2]).Met (sLaunch y.1 y.2) (pLaunch y.2) tIssue
      ∧ NoOpen (pLaunch y.2) (activeOf (pLaunch y.2) tIssue tG) ∧ (pLaunch y.2).w.no = 0)
    ∧ ((sLaunch tQueue 0#32).queue 7 = tQueue ∧ tQueue.src = 1 ∧ tQueue.ctx = 0 ∧ tQueue.tail - tQueue.head < 2 ^ tQueue.ringn)
    ∧ (2 ^ ({ tQueue with tail := 6 } : Queue).ringn ≤ 6 - tQueue.head) ∧ bits 0x80000000#32 31 28 < 9 ∧ 9 ≤ bits 0x90000000#32 31 28
    ∧ wordsNat ((srcVals (sLaunch tQueue 0#32) (pLaunch 0#32) 0 [] srcLaunch).getD 0 []) = 0x3000
    ∧ regionOk (pLaunch 0#32).gr (pLaunch 0#32).g.num 0x3000 128 (.load false) = true ∧ (sLaunch tQueue 0#32).rangeLocked 0 0x3000 128 false = false
    ∧ ((sLaunch tQueue 0#32).windowBusy (pLaunch 0#32) 0x3000 128 false = false ∧ (pLaunch 0#32).g.st ≠ .evicted)
    ∧ Reach (sLaunch tQueue 0#32) (pLaunch 0#32) .load 0x3000#64 (reached (sLaunch tQueue 0#32) (pLaunch 0#32) .load 0x3000#64) := by
  refine ⟨fun y hy => ⟨?_, fun ke hke => (by cases hke), rfl⟩, by decide +kernel, by decide +kernel, by decide +kernel, by decide +kernel, by decide +kernel, by decide +kernel,
    by decide +kernel, by decide +kernel, reach_reached (by decide +kernel)⟩
  simp only [List.mem_cons, List.not_mem_nil, or_false] at hy
  rcases hy with rfl | rfl | rfl | rfl <;> exact met_of ⟨rfl, by decide +kernel⟩ (by decide +kernel)
/-- The last service of software and the first of the hub. -/
theorem wit_LaunchesAndServices_svc : Witnessed 1 [testCase true tG [src1 (.v 0)] [(.v 8, 1)], testCase true tG [src1 (.v 0)] [(.s 8, 1)]]
    ∧ 0x800 ≤ (0x800#12).toNat ∧ (0x7FF#12).toNat < 0x800 ∧ (sOf 1 id).svcRing.length < 256 := ⟨witnessed (by decide +kernel), by decide, by decide, by decide +kernel⟩

theorem wit_SpecialRegisters : (∀ n ∈ [0x000, 0x006, 0x010, 0x01D, 0x040, 0x041, 0x044, 0x048], specialListed n = true)
    ∧ Witnessed 0 [testCase true tG [] [(.v 8, 1)], testCase true tG [src1 (.v 0)]] ∧ tP.w.handler.on = false
    ∧ (testCase true tG [src1 (.v 0)]).Met (sOf 0 wHandler) (pOf 0 wHandler) tIssue ∧ (pOf 0 wHandler).w.handler.on = true
    ∧ inAllot tP.w (.v 0) 1 = true ∧ activeOf tP tIssue tG ≠ 0#32 :=
  ⟨by decide, witnessed (by decide +kernel), rfl, met_of (tIssuing _ _ rfl) (by decide +kernel), rfl, by decide +kernel, by decide +kernel⟩


/-! ### Events -/

/-- Everything `ClauseReady` asks of a clause without PW, run on a concrete state. -/
def clauseReadyB (p : Place) (pc : Word) (ws : List Nat) : Bool :=
  let h := headerOf (ws.getD (pc.toNat % 128 / 4) 0)
  decide (pc.toNat % 4 = 0 ∧ pc.toNat < p.gr.textl ∧ h.pw = 0 ∧ h.cls < 6 ∧ (if p.gr.ver = 1 then h.low % 2 ^ 12 else h.low) = 0)
    && canonicalVa (codeVa p pc) && (List.range 8).all (fun k => !h.wait.testBit k || decide (24 + k < p.w.sa ∧ p.w.fut.get? k = none))
    && match clauseAt ws (pc.toNat % 128 / 4) with
      | some is => decide (pc.toNat / 128 * 128 + 4 * clauseEnd 0 is ≤ p.gr.textl)
      | none => false
theorem clauseReady_of {s : State} {p : Place} {path : LaneMask} {pc : Word} {ws : List Nat} (h : clauseReadyB p pc ws = true) :
    ClauseReady s p path pc ws := by
  simp only [clauseReadyB, Bool.and_eq_true, decide_eq_true_eq, List.all_eq_true, List.mem_range, Bool.or_eq_true, Bool.not_eq_true'] at h
  obtain ⟨⟨⟨⟨a, b, c, d, e⟩, n⟩, f⟩, g⟩ := h
  split at g
  · rename_i is his
    exact ⟨a, b, n, ⟨is, his, by simpa using g, .inl c⟩, d, e, fun k hk hw => (f k hk).resolve_left (by rw [hw]; decide)⟩
  · cases g

/-- A clause at the head of `.text`: its header waits for f2, a short `add`, a movement of 2 words. -/
def tCode : List Host.Cell := Sparse.fill 0#8 tMem 0 (bytesLE 16 (
  (2 * 2 ^ 28 + 5 * 2 ^ 25 + 2 ^ 19) + 0b000001_0_111_0_0000001_0000010_0000011 * 2 ^ 32
    + 0b010000_0_111_0_1000000_0000000_0000000 * 2 ^ 64 + 0x12345678 * 2 ^ 96))
def sCode (f : Warp → Warp) : State := { sOf 0 f with mem := tCode }
def lineB (s : State) (p : Place) (q : Place) (pc : Word) : Bool := match codeLine s p pc with
  | .ok (_, ws) => clauseReadyB q pc ws
  | .error _ => false
theorem line_of {s : State} {p q : Place} {pc : Word} (h : lineB s p q pc = true) (path : LaneMask) :
    ∃ s0 ws, codeLine s p pc = .ok (s0, ws) ∧ ClauseReady s0 q path pc ws := by
  unfold lineB at h
  split at h
  · rename_i s0 ws hl
    exact ⟨s0, ws, hl, clauseReady_of h⟩
  · cases h

def wEnter (w : Warp) : Warp := { w with pcv := List.replicate 32 0#32, entering := 3#32, inside := [] }
def wWait (w : Warp) : Warp := { wEnter w with wake := [(0, .future 2), (1, .future 2)] }
def iEnter : Issue := ⟨0, tLanes, 0#32, 4, false⟩
theorem wit_IssueEvents_clause :
    (∃ s0 ws, Issuing { sCode wEnter with cur := some iEnter } (pOf 0 wEnter) iEnter
      ∧ codeLine { sCode wEnter with cur := some iEnter } (pOf 0 wEnter) 0#32 = .ok (s0, ws) ∧ ClauseReady s0 (pOf 0 wEnter) 3#32 0#32 ws)
    ∧ ((sCode wWait).place? 0 = some (pOf 0 wWait) ∧ (pOf 0 wWait).w.blocked &&& 3#32 = 3#32 ∧ (pOf 0 wWait).w.entering &&& 3#32 = 3#32
      ∧ ∀ l ∈ lanesOf 3#32, (pOf 0 wWait).w.pc l = 0#32)
    ∧ ∃ s0 ws, codeLine ((sCode wWait).modWarp 0 fun w => w.unblock 3#32) { pOf 0 wWait with w := (pOf 0 wWait).w.unblock 3#32 } 0#32 = .ok (s0, ws)
      ∧ ClauseReady s0 { pOf 0 wWait with w := (pOf 0 wWait).w.unblock 3#32 } 3#32 0#32 ws := by
  refine ⟨?_, by decide +kernel, line_of (by decide +kernel) _⟩
  obtain ⟨s0, ws, h, g⟩ := line_of (s := { sCode wEnter with cur := some iEnter }) (p := pOf 0 wEnter) (q := pOf 0 wEnter) (pc := 0#32) (by decide +kernel) 3#32
  exact ⟨s0, ws, ⟨rfl, by decide +kernel⟩, h, g⟩

/-- Three paths, of which the two lowest are served. -/
def wFair (w : Warp) : Warp := { w with
  pcv := [4#32, 8#32, 12#32] ++ List.replicate 29 4#32, exited := 0xFFFFFFF8#32, inside := [(0, 0#32), (1, 0#32), (2, 0#32)] }
theorem wit_IssueEvents_fair : (sOf 0 wFair).warps.get? 0 = some (pOf 0 wFair).w ∧ (pOf 0 wFair).w.others 1#32 2#32 = [4#32] := by
  decide +kernel

/-- A warp whose timers have run out: one at its last cycle, with a reservation, and waits for signals on both lanes. -/
def wTimers (w : Warp) : Warp := { w with fairTimer := 4096, fairPath := 3#32, yieldUntil := 9, resv := [(0, ⟨5, 9⟩)], wake := [(0, .signal 0x3000#64), (1, .signal 0x3040#64)] }
theorem wit_IssueEvents_timers : ∃ w0, (sOf 0 wTimers).warps.get? 0 = some w0 ∧ 4096 ≤ w0.fairTimer ∧ w0.fairOver = true
    ∧ w0.yieldUntil ≤ (sOf 0 wTimers).coreCc ((sOf 0 wTimers).warpCore 0) ∧ w0.st = .blocked
    ∧ ∃ r, w0.resv.get? 0 = some r ∧ r.cc + 512 ≤ (sOf 0 wTimers).coreCc ((sOf 0 wTimers).warpCore 0) :=
  ⟨_, rfl, by decide, by decide, by decide +kernel, by decide +kernel, _, rfl, by decide +kernel⟩

/-- The log holds an access of three lanes, of which one is done, and a younger one. -/
def wLog (i : Instr) (w : Warp) : Warp := { w with
  log := [(2, ⟨0, i, 4#32, 7#32, 7#32, 1#32, [0x3000#64, 0x3040#64, 0x3000#64], [5#64, 6#64, 0x1122334455667788#64], [], [], false, [(1, 2#32)], 0, 0#512⟩),
    (3, ⟨1, .exit ⟨tG⟩, 4#32, 0#32, 0#32, 0#32, [], [], [], [], false, [], 0, 0#512⟩)] }
def yLd : LdF := ⟨tG, .plain, .wp, .n64, .v 8, .v 1, 0⟩
def ySt : StF := ⟨tG, .plain, .wp, .i64, .v 1, .v 4, 0⟩
theorem wit_MemoryEvents :
    (slotWarp (sOf 0 id) 0 9 5 = none ∧ (9, BitVec.ofNat 8 5) ∈ (({ sOf 0 id with cores := [(0, { Core.reset with outstandingGens := [(9, 5#8)] })] } : State).core 0).outstandingGens)
    ∧ (slotWarp (sOf 0 (wLog (.ld yLd))) 0 0 0 = some (0, (pOf 0 (wLog (.ld yLd))).w) ∧ (sOf 0 (wLog (.ld yLd))).place? 0 = some (pOf 0 (wLog (.ld yLd)))
      ∧ yLd.d = .v 8)
    ∧ (ySt.wf = true ∧ (sOf 0 (wLog (.st ySt))).place? 0 = some (pOf 0 (wLog (.st ySt))) ∧ (pOf 0 id).g.st = .running)
    ∧ (∀ i ∈ [Instr.ld yLd, .st ySt], ∃ e, (pOf 0 (wLog i)).w.log.get? 2 = some e ∧ e.instr = i ∧ e.pinned = false ∧ e.faults = []
      ∧ (∀ ke ∈ (pOf 0 (wLog i)).w.log, 2 ≤ ke.1) ∧ e.active &&& ~~~ e.done ≠ 0#32 ∧ e.active &&& e.done = e.done
      ∧ ∀ l ∈ lanesOf (e.active &&& ~~~ e.done), (reachB (sOf 0 (wLog i)) (pOf 0 (wLog i)) .load (e.addr.getD l 0#64)).isSome = true
        ∧ (reachB (sOf 0 (wLog i)) (pOf 0 (wLog i)) .store (e.addr.getD l 0#64)).isSome = true
        ∧ (sOf 0 (wLog i)).windowBusy (pOf 0 (wLog i)) (e.addr.getD l 0#64).toNat 8 false = false
        ∧ (sOf 0 (wLog i)).windowBusy (pOf 0 (wLog i)) (e.addr.getD l 0#64).toNat 8 true = false)
    ∧ (let s : State := { sOf 0 id with cores := [(0, { Core.reset with out := [(0#32, 2), (7#32, 1)] })] }
      (0#32, 2) ∈ (s.core 0).out ∧ (s.core 0).out.Pairwise (fun a b => a.1 ≠ b.1) ∧ opsOut s 0 0#32 < 2)
    ∧ (sOf 0 id).gangs.get? 0 = some tGang := by
  refine ⟨by decide +kernel, by decide +kernel, by decide +kernel, fun i hi => ?_, by decide +kernel, rfl⟩
  simp only [List.mem_cons, List.not_mem_nil, or_false] at hi
  rcases hi with rfl | rfl
  · exact ⟨_, rfl, rfl, rfl, rfl, by decide, by decide, by decide, by decide +kernel⟩
  · exact ⟨_, rfl, rfl, rfl, rfl, by decide, by decide, by decide, by decide +kernel⟩

/-- An entry and a close on their way; a path that waits for a service; one dispatch core of the services failed. -/
def wSvc (w : Warp) : Warp := { w with svcs := [⟨3#32, 1#32, .v 8⟩], wake := [(0, .svc), (1, .svc)] }
theorem wit_DeliveryEvents :
    (∀ m ∈ [(⟨0, .ql, 31, some 5#32, 0⟩ : PortMsg), ⟨0, .ql, 31, none, 1⟩], (([m] : List PortMsg).find? fun m => decide (m.warp = 0) && decide (m.p = .ql) && decide (m.lane = 31)) = some m)
    ∧ (sOf 0 id).warps.get? 0 = some (pOf 0 id).w
    ∧ (∀ n ∈ qdLinks (sOf 0 id) ((sOf 0 id).warpCore 0), ((sOf 0 id).link n).st ≠ .reset ∧ ((sOf 0 id).link n).st ≠ .training)
    ∧ (sOf 0 wSvc).place? 0 = some (pOf 0 wSvc) ∧ ((pOf 0 wSvc).w.svcs.find? fun v => decide (v.path = 3#32)) = some ⟨3#32, 1#32, .v 8⟩
    ∧ (sOf 0 wSvc).errs.svcFailed ≠ [true, true] ∧ (sOf 0 wSvc).errs.svcFailed.length = 2 := by decide +kernel

/-- The small machine with empty TLBs and one fault entry. -/
def sPage : State := { sOf 0 id with
  paging := { State.reset.paging with head := 4#13, tail := 6#13, faults := [(5, ⟨0, 0x7000#64, 1, .load, 1, 4, 0#32, true⟩)] } }
def walkB (acc : AccKind) : Bool := match sPage.ctxs.get? 0 with
  | none => false
  | some c => match walkFrom sPage c 0x3000 with
    | .leaf pte _ _ _ => (surfOf sPage c pte).isSome && permOk pte acc
    | _ => false
theorem wit_PagingEvents :
    (∀ acc ∈ [AccKind.load, .store, .fetch], ∃ c pte size ploc l r, sPage.ctxs.get? 0 = some c ∧ walkFrom sPage c 0x3000 = .leaf pte size ploc l
      ∧ surfOf sPage c pte = some r ∧ permOk pte acc = true)
    ∧ ((∀ ke ∈ sPage.paging.faults, ke.1 / 2 ^ 32 = 0 → ¬ (ke.2.ctx = 0 ∧ ke.2.va.toNat / 4096 = (0x8000#64).toNat / 4096))
      ∧ (sPage.paging.faults.filter fun ke => decide (ke.1 / 2 ^ 32 = 0)).length < 64 ∧ sPage.ctxs.get? 0 = some (oneCtx 0)
      ∧ walkLost sPage (oneCtx 0) 0x8000 = false)
    ∧ (sPage.paging.faults.has (0 * 2 ^ 32 + (5#32).toNat) = true ∧ sPage.errs.svcFailed.all id = false)
    ∧ (6#13 - sPage.paging.head).toNat ≤ (sPage.paging.tail - sPage.paging.head).toNat
    ∧ (sPage.paging.tail - sPage.paging.head).toNat < (7#13 - sPage.paging.head).toNat := by
  refine ⟨fun acc hacc => ?_, by decide +kernel, by decide +kernel, by decide +kernel, by decide +kernel⟩
  have h : ∀ acc ∈ [AccKind.load, .store, .fetch], walkB acc = true := by decide +kernel
  have h := h acc hacc
  unfold walkB at h
  split at h
  · cases h
  · rename_i c hc
    split at h
    · rename_i pte size ploc l hw
      simp only [Bool.and_eq_true] at h
      obtain ⟨r, hs⟩ := Option.isSome_iff_exists.1 h.1
      exact ⟨c, pte, size, ploc, l, r, hc, hw, hs, h.2⟩
    · cases h

/-- A warp that has waited 512 cycles for tempi, beside one that waits shorter; the cluster drained, and ramping. -/
def wTempo (w : Warp) : Warp := { w with tempoSince := some 9 }
def sClu (c : Cluster) : State := { sOf 0 wTempo with
  cores := [(0, { Core.reset with critical := [4] })], clusters := [(0, c)], gangs := [], teams := [], warps := [(0, wTempo (tWarp (tGrid 0)))] }
theorem wit_PowerEvents :
    ((pOf 0 wTempo).w.tempoSince = some 9 ∧ (sOf 0 wTempo).warps.get? 0 = some (pOf 0 wTempo).w ∧ 9 + 512 ≤ (sOf 0 wTempo).coreCc ((sOf 0 wTempo).warpCore 0)
      ∧ 0 ∉ ((sClu Cluster.reset).core ((sClu Cluster.reset).warpCore 0)).critical)
    ∧ (let s := sClu { Cluster.reset with lastDroop := some 9 }
      (s.cluster 0).lastDroop = some 9 ∧ 9 + 256 ≤ s.clusterCc 0)
    ∧ (let s := sClu { Cluster.reset with st := .draining }
      (s.cluster 0).st = .draining ∧ clusterQuiet s 0 = true)
    ∧ ∀ q ∈ [none, some 3#2, some 1#2], let s := sClu { Cluster.reset with st := .ramping, target := 3, rampAt := 9, pend := q }
      (s.cluster 0).st = .ramping ∧ (s.cluster 0).rampAt + 4000 + 200 * 850 ≤ s.hc + 200 * 600 ∧ (s.cluster 0).pend = q := by decide +kernel

/-- A queued step and a started one, a loop on its last ply. -/
def xDot : MmaF := ⟨tG, .i8, .i8, 0, 1, 1, 2, .s 4⟩
def mDot : MStep := ⟨0, 1, .mma xDot, .single, 9#32, 0, [], [], none, 5, 8, some 7, [], [], none⟩
def sDot (m : MStep) : State := { sOf 9 id with cores := [(0, { Core.reset with mq := [m] })], clusters := [(0, { Cluster.reset with level := 2 })] }
def mEnds : MStep := { mDot with rowsA := List.replicate 64 (List.replicate 64 3#8), rowsB := List.replicate 64 (List.replicate 64 5#8), ends := some 8 }
theorem wit_ArrayEvents_steps :
    ((sDot mDot).clusterCc 0 % 4 = 0 ∧ ((sDot mDot).cluster 0).lastSlew ≤ (sDot mDot).clusterCc 0 / 4 ∧ 0 ∈ clusterCores 0 ∧ (∀ j ∈ clusterCores 0, j ≠ 0 → ((sDot mDot).core j).mq = [])
      ∧ ((sDot mDot).core 0).mq = [mDot] ∧ mDot.ends = none ∧ mDot.entry = none ∧ (sDot mDot).place? 0 = some (pOf 9 id) ∧ (pOf 9 id).w.marks = []
      ∧ (∀ n ∈ clusterCores 0, runningStep (sDot mDot) n = false ∧ ((sDot mDot).core n).ended = none)
      ∧ ∀ n ∈ clusterCores 0, ((sOf 9 id).core n).mq = [])
    ∧ (((sDot mEnds).core 0).mq = [mEnds] ∧ mEnds.ends = some 8 ∧ 8 ≤ (sDot mEnds).coreCc 0 ∧ (sDot mEnds).place? 0 = some (pOf 9 id) ∧ (pOf 9 id).w.exited ≠ 0xFFFFFFFF#32 ∧ (pOf 9 id).gr.contract = 9
      ∧ xDot.aty = .i8 ∧ xDot.bty = .i8 ∧ xDot.code.val = 0 ∧ mEnds.src = .single ∧ mEnds.rowsA.length = 64 ∧ mEnds.rowsB.length = 64
      ∧ (∀ r ∈ mEnds.rowsA ++ mEnds.rowsB, r.length = 64) ∧ mEnds.acc < 8) := by decide +kernel

def xPly : MloopF := ⟨tG, .bf16, .bf16, 0, 2, 1, 3⟩
def mPly : Mloop := ⟨0, 0, 0, 3, [], .mloop xPly, 4#32, 2, BitVec.ofNat 256 (64 * 2 ^ 240 + 64 * 2 ^ 224 + 32 * 2 ^ 192 + 0xFFFFFFC0 * 2 ^ 160 + 3 * 2 ^ 128 + 0x3000 * 2 ^ 64 + 0x3040),
  0, 0, 2, 2, [], [], false, none⟩
def sPly : State := { sOf 1 id with mloops := [(5, mPly)] }
def plyOk (w : Nat) (ad : Nat → Nat) (r : Nat) : Bool :=
  decide (ad r % 128 + w ≤ 128) && !sPly.rangeLocked (pOf 1 id).gr.ctx (ad r) w false && !sPly.windowBusy (pOf 1 id) (ad r) w false && regionOk (pOf 1 id).gr (pOf 1 id).g.num (ad r) w (.load false) && (reachB sPly (pOf 1 id) .load (BitVec.ofNat 64 (ad r))).isSome
/-- A finished ply of that loop, the last but one, and one of a loop that has one ply left. -/
def mPlyEnds : MStep := { mDot with acc := 3, instr := .mloop xPly, src := .ply 5, ends := some 8 }
def sPlyEnds (l : Mloop) : State := { sPly with mloops := [(5, l)], cores := [(0, { Core.reset with mq := [mPlyEnds, mDot] })] }
/-- Terms in the ranges that the statements on entries ask for. -/
theorem wit_ArrayEvents_terms : (∀ t ∈ [(⟨0, 0, 0, 3, 255⟩ : Term), ⟨63, 63, 63, 1, 0⟩], t.a < 4 ∧ t.b < 256) ∧ ∀ t ∈ [(⟨0, 0, 0, 255, 128⟩ : Term)], t.a < 256 ∧ t.b < 256 := by
  decide
theorem wit_ArrayEvents_plyEnds : ∀ l ∈ [{ mPly with ply := 1 }, mPly, { mPly with ply := 1, cancelled := true }, { mPly with cancelled := true }], ((sPlyEnds l).core 0).mq = [mPlyEnds, mDot] ∧ mPlyEnds.ends = some 8
    ∧ 8 ≤ (sPlyEnds l).coreCc 0 ∧ (sPlyEnds l).place? 0 = some (pOf 1 id) ∧ (stepOf mPlyEnds.instr).isSome = true
    ∧ (shapeOf 1 xPly.aty xPly.bty xPly.code.val).isSome = true ∧ (sPlyEnds l).mloops.get? 5 = some l ∧ l.warp = 0 ∧ (l.ply = 1 ↔ l.drawn = l.ply + 1) ∧ (pOf 1 id).gr.contract ≠ 4 := by decide +kernel
theorem wit_ArrayEvents_ply : ∃ sh, shapeOf 1 xPly.aty xPly.bty xPly.code.val = some sh ∧ sPly.mloops.get? 5 = some mPly ∧ sPly.place? 0 = some (pOf 1 id)
    ∧ (pOf 1 id).gr.contract = 1 ∧ mPly.drawn < plPlies mPly.params ∧ plyWaits sPly 5 mPly = false
    ∧ ((List.range sh.m).all (plyOk sh.wa (rowAddr (plAaddr mPly.params) (plInca mPly.params) (plStra mPly.params) mPly.drawn)) = true
      ∧ (List.range sh.n).all (plyOk sh.wb (rowAddr (plBaddr mPly.params) (plIncb mPly.params) (plStrb mPly.params) mPly.drawn)) = true)
    ∧ (match plyReads sPly (pOf 1 id) sh ⟨xPly.aty, xPly.bty, 0, false, false⟩ mPly with
      | .ok s1 _ _ _ _ _ => (drawPrice s1 0 0 sh.price).isSome
      | _ => false) = true ∧ stepOf mPly.instr = some ⟨xPly.aty, xPly.bty, 0, false, false⟩
    ∧ (drawPrice sPly 0 0 sh.price).isSome = true :=
  ⟨_, rfl, by decide +kernel, by decide +kernel, by decide +kernel, by decide +kernel, by decide +kernel, by decide +kernel, by decide +kernel, rfl,
    by decide +kernel⟩

/-- The team's barrier with an arrival on its way: a second of the same warp, the last awaited, one of several; with the bytes
of the phase there, and short of them. -/
def bArm : Bar := ⟨.armed, false, 2, 0, [], 0, 0, 0, true, 32, [0], 0, none, 0, []⟩
def aArr : Arrival := ⟨9, 0, 0, 16, 3#32, 3#32, some (.v 8)⟩
def sBar (b : Bar) : State := { sOf 1 id with bars := [(0, b)], arrivals := [aArr], exits := [⟨10 ^ 9, 0, 0⟩] }
def sBarExit (b : Bar) : State := { sBar b with arrivals := [{ aArr with due := 10 ^ 9 }], exits := [⟨9, 0, 0⟩] }
/-- Arrivals counted already, late, for the next phase, the last awaited, one of several. -/
theorem wit_BarrierEvents : (sBar bArm).place? 0 = some (pOf 1 id)
    ∧ (∀ b ∈ [{ bArm with arrived := [0] }, { bArm with late := [⟨0, 4, 0, 3#32, false⟩] }, { bArm with cnt := 2 }, bArm, { bArm with expw := 1, barr := 16 },
        { bArm with expw := 1 }, { bArm with st := .released }],
      ((sBar b).arrivals.filter fun y => decide (y.bar = 0) && decide (y.due ≤ barCc (sBar b) 0)) = [aArr]
      ∧ (∀ m ∈ (sBar b).exits, m.bar = 0 → barCc (sBar b) 0 < m.due)
      ∧ (sBar b).bars.get? 0 = some b ∧ (b.st = .armed ∨ b.st = .released) ∧ b.bexp + aArr.e < 2 ^ 24)
    ∧ (∀ b ∈ [{ bArm with arrived := [0] }, { bArm with late := [⟨0, 4, 0, 3#32, false⟩] }, bArm, { bArm with expw := 1, barr := 16 }, { bArm with expw := 1 }, { bArm with st := .released, cnt := 2 }],
      ¬ (b.st = .armed ∧ b.cnt = b.expw ∧ b.bexp ≤ b.barr))
    ∧ (let b := { bArm with st := .released, cnt := 2 }
      0 ∉ b.arrived ∧ b.late = [] ∧ b.cnt = b.expw)
    ∧ (let b := { bArm with expw := 1, barr := 16 }
      b.st = .armed ∧ b.cnt + 1 = b.expw ∧ b.bexp + aArr.e ≤ b.barr ∧ b.late = [] ∧ 0 ∉ b.arrived)
    ∧ (let b := { bArm with cnt := 2, late := [⟨0, 4, 0, 3#32, false⟩] }
      b.st = .armed ∧ b.cnt = b.expw ∧ b.bexp ≤ b.barr ∧ b.txb + (b.late.map (·.e)).sum < 2 ^ 24)
    ∧ (let b := { bArm with st := .released, relAt := 3 }
      b.relAt < (sBar b).clusterCc b.cluster ∧ ¬ (b.cnt = b.expw ∧ b.bexp ≤ b.barr))
    ∧ (((sBarExit bArm).exits.filter fun y => decide (y.bar = 0) && decide (y.due ≤ barCc (sBarExit bArm) 0)) = [⟨9, 0, 0⟩]
      ∧ (∀ a ∈ (sBarExit bArm).arrivals, a.bar = 0 → barCc (sBarExit bArm) 0 < a.due) ∧ bArm.all = true
      ∧ 0 ∉ bArm.arrived ∧ ¬ (bArm.st = .armed ∧ bArm.cnt = bArm.expw - 1 ∧ bArm.bexp ≤ bArm.barr)) := by decide +kernel
/-- Sixteen bytes come at a barrier that awaits more, whose last bytes they are, or that awaits fewer. -/
theorem wit_BarrierEvents_bytes : ∀ b ∈ [{ bArm with bexp := 64, barr := 16 }, { bArm with bexp := 32, barr := 16, cnt := 2 }, { bArm with bexp := 20, barr := 16, cnt := 2 }],
    let s := { sBar b with arrivals := [], exits := [⟨10 ^ 9, 0, 0⟩] }
    s.bars.get? 0 = some b ∧ (∀ m ∈ s.exits, m.bar = 0 → barCc s 0 < m.due) ∧ b.st = .armed ∧ b.barr ≤ b.bexp ∧ b.late = []
      ∧ (b.cnt = b.expw ∧ b.bexp ≤ b.barr + 16 ↔ b.cnt = 2) ∧ (b.bexp < b.barr + 16 ↔ b.bexp = 20) := by decide +kernel

/-- A copy of part of a line, in its states; two packages of a group of three. -/
def oCopy : EngOp := { newOp .copy (pOf 1 id) (xEng 63) 0 (BitVec.ofNat 256 (cD 0 0 0 64 0 0x3104 0x3040)) with started := true }
def sCopy (o : EngOp) : State := { sOf 1 (wFut (.engine 4)) with
  ops := [(4, o)], paging := { State.reset.paging with tlb := [⟨0, 0, 0, 0, 39, 0x7F#64, 0#512⟩, ⟨2, 0, 0, 0, 39, 0x7F#64, 0#512⟩] } }
def xlatB (s : State) (unit : Option (List (Nat × Nat))) (va : Nat) (acc : AccKind) : Bool := match unit with
  | none => false
  | some u => match translate s u 0 va acc with
    | .ok (t, x) => decide (t = s ∧ x.pkg = s.fused.pkg ∧ x.ap ≠ 3 ∧ x.cmp = false ∧ s.linePoisoned x.loc = false ∧ x.loc % 128 + 64 ≤ 128)
    | .error _ => false
theorem wit_EngineEvents_copy : oCopy.kind = .copy ∧ oCopy.bar = 0 ∧ oCopy.ev < 2 ^ 24 ∧ oCopy.status = 0 ∧ (oCopy.pinned = none ∧ oCopy.released = false ∧ oCopy.fault = none ∧ oCopy.cancelled = none)
    ∧ (sCopy oCopy).ops.get? 4 = some oCopy ∧ egCount oCopy.desc = 64 ∧ cpHost oCopy.desc = 0 ∧ cpSk oCopy.desc = false ∧ cpDk oCopy.desc = false ∧ egXd oCopy.desc = 0#64
    ∧ egSrc oCopy.desc % 128 + 64 ≤ 128 ∧ egDst oCopy.desc % 128 + 64 ≤ 128 ∧ (sCopy oCopy).grids.get? 0 = some (tGrid 1) ∧ (sCopy oCopy).gangs.get? 0 = some tGang
    ∧ regionOk (tGrid 1) 0 (egSrc oCopy.desc) 64 (.load false) = true ∧ regionOk (tGrid 1) 0 (egDst oCopy.desc) 64 (.store false) = true
    ∧ xlatB (sCopy oCopy) (some (dieTlbs oCopy.die)) (egSrc oCopy.desc) .load = true ∧ xlatB (sCopy oCopy) (some (dieTlbs oCopy.die)) (egDst oCopy.desc) .store = true := by
  decide +kernel
/-- A copy that has not started, an operation released, one stopped in an earlier hub cycle, and runs of each kind that succeed. -/
def oCvt : EngOp := { oCopy with desc := BitVec.ofNat 256 (cD 0 0 0 4 xdCvt 0x3104 0x3040) }
def oGath : EngOp := { newOp .gath (pOf 1 id) (xEng 63) 0 (BitVec.ofNat 256 (gD 0 2 2 64 4 0x3000 0x3100)) with started := true, idx := [1, 0] }
def runsB (o : EngOp) : Bool := match (sCopy o).engAt o with
  | none => false
  | some a => decide ((opWork (sCopy o) a).stop = .done) && !(sCopy o).dieCut o.die
theorem wit_EngineEvents_runs : (∀ o ∈ [oCopy, oCvt, oGath], runsB o = true)
    ∧ (let o := { oCopy with started := false }
      (sCopy o).ops.get? 4 = some o ∧ o.kind ≠ .coll ∧ ((sCopy o).engAt o).isSome = true ∧ ¬ (o.kind = .cmpr ∧ o.surf = 0))
    ∧ (∃ c, ({ oCopy with cancelled := some 9 }).cancelled = some c ∧ c < (sCopy oCopy).hc) ∧ ({ oCopy with released := true } : EngOp).released = true := by
  refine ⟨by decide +kernel, by decide +kernel, ⟨9, rfl, by decide +kernel⟩, rfl⟩

/-- How the start of a copy finds its first line: readable, with the host, and with no translation, so that it faults. -/
def startB (s : State) (o : EngOp) : Option Bool := match s.engAt o with
  | none => none
  | some a => match firstRead s a with
    | .done => some true
    | .page va acc kl => if (engFault s o va acc kl).isSome then some false else none
    | _ => none
def oHost : EngOp := { oCopy with started := false, desc := BitVec.ofNat 256 (cD 0 0 1 64 0 0x3000 9) }
theorem wit_EngineEvents_starts : startB (sCopy oHost) oHost = some true ∧ (cpHost oHost.desc = 1 ∧ linkWorks ((sCopy oHost).link 136) = true)
    ∧ startB (sCopy oCopy) { oCopy with started := false } = some true
    ∧ startB { sCopy oCopy with mem := [], paging := State.reset.paging } { oCopy with started := false } = some false
    ∧ ({ oCopy with bar := 1 } : EngOp).bar ≠ 0 := by decide +kernel
def oColl : EngOp := { newOp .coll (pOf 1 id) (xEng 63) 0 (BitVec.ofNat 256 (lD 0 1 0 4 0 0x3000 0x3100)) with status := 1, seq := 6, numbered := true }
def sColl : State := { sOf 1 (wFut (.engine 4)) with ops := [(4, oColl)], groups := [(1, ⟨0, [3, 0, 2], 7, [], []⟩)], routes := [(2, 1#64), (3, 6#64)] }
theorem wit_EngineEvents_coll : clFind sColl 1 6 = some (4, oColl) ∧ sColl.ops.get? 4 = some oColl ∧ (∀ y ∈ oColl.grants, y.rank ≠ 2)
    ∧ sColl.groups.get? 1 = some ⟨0, [3, 0, 2], 7, [], []⟩ ∧ 2 < 3 ∧ 2 ≠ (⟨0, [3, 0, 2], 7, [], []⟩ : CollGroup).rank sColl.fused.pkg
    ∧ (∀ q ∈ clPeers oColl.desc ⟨0, [3, 0, 2], 7, [], []⟩ 0, sColl.unreachable q = false) ∧ 0 ∈ [3, 0, 2] ∧ sColl.podUp = true
    ∧ oColl.kind = .coll ∧ oColl.numbered = true ∧ oColl.status = 1 ∧ oColl.differs = false ∧ ({ oColl with differs := true } : EngOp).differs = true
    ∧ ({ oColl with status := 0, numbered := false } : EngOp).numbered = false ∧ ({ sColl with groups := [] } : State).groups.get? (clGroup oColl.desc) = none
    ∧ 2 ∈ clNeeds oColl.desc ⟨0, [3, 0, 2], 7, [], []⟩ ∧ oColl.data.get? 2 = none ∧ (List.replicate 16 7#8).length = clWireLen oColl.xd (egCount oColl.desc) := by decide +kernel

/-- A queue of datagrams on a ring of 16 records, its head a record of a grid of 2 gangs, or one whose dependence is misaligned. -/
def tRec (deps : Nat) : BitVec 1024 := BitVec.ofNat 1024 (0x6000 * 2 ^ 960 + 2 * 2 ^ 680 + 5 * 2 ^ 664 + deps * 2 ^ 36 + 3 * 2 ^ 32 + 9 + 4 * 2 ^ 128)
def tKcb : BitVec 512 := BitVec.ofNat 512 (4096 * 2 ^ 416 + 64 * 2 ^ 328 + 32 * 2 ^ 320 + 2 * 2 ^ 288 + 2 * 2 ^ 258 + 3 * 2 ^ 248 + 0x424B5A4E)
def tOnti : Queue := { Queue.reset with st := .enabled, desc := BitVec.ofNat 256 (0x5000 * 2 ^ 128 + 4 * 2 ^ 44), nextSeq := 10#32, tail := 1, passedSince := some 9 }
def sQueue (deps : Nat) : State := { State.reset with
  hc := 100000, ctxs := [(0, oneCtx 0)], queues := [(3, tOnti)]
  mem := Sparse.fill 0#8 (Sparse.fill 0#8 tMem 0x5000 (bytesLE 128 (tRec deps).toNat)) 0x6000 (bytesLE 64 tKcb.toNat) }
/-- The head as the only one that the placer may look at. -/
def soleB (s : State) (n : Nat) (q : Queue) : Bool :=
  decide (s.placer.stopped = false ∧ (n, q) ∈ s.queues ∧ s.queues.get? n = some q ∧ q.takes s.hc = true
    ∧ q.watch = none ∧ (∀ kq ∈ s.queues, kq.2.takes s.hc = true → kq = (n, q)) ∧ headOrphan s n q = false ∧ ctxActive s q.ctx = true)
/-- A datagram of one record for that queue, with a checksum, with none, with a wrong one, and ones with a wrong header. -/
def tPayload (magic ver count : Nat) : List Byte := bytesLE 24 (magic + ver * 2 ^ 16 + 3 * 2 ^ 64 + count * 2 ^ 80 + 10 * 2 ^ 96) ++ bytesLE 128 77
def tSum : Nat := 0xFFFF - onesSum ([1, 2] ++ [5, 9171, 160] ++ netWords (tPayload 0x4F4E 1 1))
def tPort : State := { State.reset with host := { State.reset.host with udpPort := 9171#16 } }
theorem wit_QueueAndDispatchEvents_datagram :
    (∀ s ∈ [sQueue 0, tPort], s.host.udpPort.toNat = 9171 ∧ s.boot = .ready ∧ linkWorks (s.link 136) = true)
    ∧ tSum ≠ 0 ∧ (∀ x ∈ [0, tSum], checksumOk x [1, 2] [5, 9171, 160] (tPayload 0x4F4E 1 1) = true)
    ∧ checksumOk (tSum + 1) [1, 2] [5, 9171, 160] (tPayload 0x4F4E 1 1) = false
    ∧ (tOnti.st = .enabled ∧ tOnti.src = 0 ∧ tOnti.tail - tOnti.head < 2 ^ tOnti.ringn ∧ tOnti.nextSeq = 10#32 ∧ tOnti.cred = 0#64
      ∧ (sQueue 0).queues.get? 3 = some tOnti)
    ∧ (∀ y ∈ [(0x4F4F, 1, 1, 160), (0x4F4E, 0, 1, 160), (0x4F4E, 1, 0, 160), (0x4F4E, 1, 9, 160), (0x4F4E, 1, 8, 1055)],
      let h := BitVec.ofNat 192 (natLE ((tPayload y.1 y.2.1 y.2.2.1).take 24))
      h.extractLsb' 0 16 ≠ 0x4F4E#16 ∨ h.extractLsb' 16 16 ≠ 1#16 ∨ h.extractLsb' 80 4 = 0#4 ∨ 8#4 < h.extractLsb' 80 4
        ∨ y.2.2.2 ≠ 32 + 128 * (h.extractLsb' 80 4).toNat) := by decide +kernel
theorem wit_QueueAndDispatchEvents_sorted (q : Queue) : Tab.Sorted ({ sQueue 0 with queues := [(3, q)] } : State).queues := by simp [Tab.Sorted]
theorem wit_QueueAndDispatchEvents_queue : soleB (sQueue 1) 3 tOnti = true ∧ tOnti.passedSince = some 9 ∧ 9 + 65536 ≤ (sQueue 1).hc
    ∧ (0 < Nat.min 4 ((recordAt (sQueue 1) 3 tOnti.head).extractLsb' 36 3).toNat ∧ ((recordAt (sQueue 1) 3 tOnti.head).extractLsb' 128 64).toNat % 8 ≠ 0)
    ∧ (let s : State := { sQueue 0 with queues := [(3, { tOnti with parents := [(9, (0#32, true))] })] }
      headOrphan s 3 { tOnti with parents := [(9, (0#32, true))] } = true ∧ s.placer.stopped = false)
    ∧ (∀ kq ∈ [(3, { tOnti with st := .disabled, offAt := some 9 })], (kq : Nat × Queue).2.takes (sQueue 0).hc = false) := by decide +kernel
/-- What the placer finds of the only head once its dependences are met: none, a record that no class can run, one whose
first unit fits nowhere, one that is placed. -/
inductive Found
  | bad | unbound | nowhere | placed
  deriving DecidableEq
def foundB (s : State) (n : Nat) (q : Queue) : Option Found :=
  if soleB s n q && decide (s.placer.nextPlace ≤ s.hc) && s.grids.all (fun kg => decide (kg.2.gangs ≤ kg.2.placed)) then
    match depsState s q.ctx (recordAt s n q.head) with
    | (s1, .met) => match readRecord s1 q.ctx n (recordAt s1 n q.head) with
      | (_, none) => some .bad
      | (s2, some g) => match bindClass s2 g, s2.ctxs.get? q.ctx, q.parents.get? g.seq.toNat with
        | none, _, _ => some .unbound
        | some cls, some _, none => some (if (placeHead s2 (headCand s1 n q) g cls).isSome then .placed else .nowhere)
        | _, _, _ => none
    | _ => none
  else none
/-- One working die each of whose cores runs 16 warps. -/
def sFull : State := { sQueue 0 with
  fused := { (sQueue 0).fused with failedDies := 0xFFE#12 }
  grids := [(0, { tGrid 0 with lrec := BitVec.ofNat 1024 (15 * 2 ^ 658), placed := 1 })], gangs := [(0, tGang)]
  teams := (List.range 64).map fun k => (k, { tTeam with core := k, warps := 16 }) }
theorem wit_QueueAndDispatchEvents_found :
    foundB { sQueue 0 with mem := Sparse.fill 0#8 (sQueue 0).mem 0x6000 (bytesLE 64 0) } 3 tOnti = some .bad
    ∧ foundB { sQueue 0 with fused := { (sQueue 0).fused with failedDies := 0xFFF#12 } } 3 tOnti = some .unbound
    ∧ foundB sFull 3 tOnti = some .nowhere ∧ foundB (sQueue 0) 3 tOnti = some .placed := by decide +kernel

/-- A report that signals 0x3000, one of a child, a checkpoint due, a failed core whose standby waits. -/
def tReport : Report := ⟨0#32, 0, 3, 9#32, 0x3000#64, 5#64, none, false, 0⟩
def sDisp (n : Nat) : State := { tS with disp := { State.reset.disp with fifo := [tReport], sinceCkpt := 4096, steps := n } }
def tChild (killed : Bool) : Report := { tReport with csig := 0#64, parent := some 0#32, killed := killed }
def sChild (killed : Bool) : State := { sOf 0 (wFut (.launch 3 9#32)) with disp := { State.reset.disp with fifo := [tChild killed] } }
/-- The journal of the core that failed: an entry that is valid, behind it one that is not. -/
def jEnt (n : Nat) (bad : Bool) : JEntry := ⟨n, .enq, 3, 9#32, 0#32, 0#64, 0#64, bad⟩
def sCastling : State := { tS with disp := { State.reset.disp with cores := [.failed, .standby], castling := true, journal := [jEnt 4 false, jEnt 5 true] } }
/-- The signal of the report is in package 5, to which no port leads. -/
def sFar : State := { sDisp 0 with paging := State.reset.paging, mem := Sparse.fill 0#8 tMem 8192 (bytesLE 8 (0x7F + 5 * 2 ^ 42)) }
def farB (s : State) (va : Nat) : Bool := match translate s [] 0 va .atomic with
  | .ok (t, x) => t.unreachable x.pkg
  | .error _ => false
def atomicB (s : State) (va : Nat) : Bool := match translate s [] 0 va .atomic with
  | .ok _ => true
  | .error _ => false
theorem wit_QueueAndDispatchEvents_dispatch :
    (∀ n < 4, (sDisp n).disp.up = true ∧ (sDisp n).disp.fifo = [tReport] ∧ (sDisp n).disp.steps = n ∧ 4096 ≤ (sDisp n).disp.sinceCkpt)
    ∧ State.reset.disp.sinceCkpt < 4096 ∧ tReport.killed = false ∧ tReport.parent = none ∧ tReport.csig ≠ 0#64
    ∧ atomicB (sDisp 0) tReport.csig.toNat = true ∧ farB (sDisp 0) tReport.csig.toNat = false ∧ farB sFar tReport.csig.toNat = true
    ∧ atomicB { sDisp 0 with ctxs := [] } tReport.csig.toNat = false
    ∧ (∀ b, (sChild b).disp.up = true ∧ (sChild b).disp.fifo = [tChild b] ∧ ((tChild b).killed = true ∨ (tChild b).csig = 0#64)
      ∧ (tChild b).parent = some 0#32 ∧ (sChild b).grids.get? (0#32).toNat = some (tGrid 0)
      ∧ ((sChild b).warps.get? 0).any (fun w => w.fut.get? 2 = some (.launch (tChild b).queue (tChild b).seq)) = true)
    ∧ sCastling.disp.castling = true ∧ DispSt.standby ∈ sCastling.disp.cores ∧ sCastling.queues = []
    ∧ sCastling.disp.journal = [] ++ jEnt 4 false :: [jEnt 5 true] ∧ (jEnt 4 false).bad = false ∧ (jEnt 5 true).bad = true := by decide +kernel

/-- The gang in each of its states. -/
def gGang : Grid := { tGrid 0 with kcb := (tGrid 0).kcb ||| BitVec.ofNat 512 (2 * 2 ^ 258) }
def sGang (g : Gang) : State := { tS with
  gangs := [(0, g)], grids := [(0, gGang)], warps := [(0, wTimers (tWarp gGang))], pool := ⟨0#64, 0x100000#64, []⟩ }
def tGangR (st : GangSt) : Gang := { tGang with st := st }
/-- A stage-in region. -/
def tStage : BitVec 256 := BitVec.ofNat 256 (0x8000 * 2 ^ 160)
theorem wit_GangAndGridEvents_gangs : (∀ g, (sGang g).gangs.get? 0 = some g ∧ Tab.Sorted (sGang g).gangs) ∧ (sGang tGang).grids.get? 0 = some gGang
    ∧ evictFirst (sGang { tGang with mark := true }) 0 = true ∧ unitDrained (sGang { tGang with evicting := true }) 0 = true
    ∧ unitIn (sGang (tGangR .restored)) 0 .restored = [(0, tGangR .restored)] ∧ (tGangR .retired).freed = false
:= by
  refine ⟨fun g => ⟨rfl, by simp [Tab.Sorted, sGang]⟩, by decide +kernel, by decide +kernel, by decide +kernel, by decide +kernel,
    rfl⟩
theorem wit_GangAndGridEvents_stage : tStage.extractLsb' 80 3 = 0#3 ∧ gGang.regions = [tRegion] ∧ tRegion.extractLsb' 80 3 ≠ 0#3 :=
  ⟨by decide +kernel, rfl, by decide +kernel⟩
/-- An evicted gang, with room for it and without. -/
def gOut : Gang := { tGangR .evicted with freed := true }
def sOut (failed : BitVec 12) : State := { sGang gOut with fused := { State.reset.fused with failedDies := failed } }
theorem wit_GangAndGridEvents_restore : unitIn (sOut 0) 0 .evicted = [(0, gOut)] ∧ ctxActive (sOut 0) 0 = true ∧ (sOut 0).placer.stopped = false ∧ (sOut 0).queues = []
    ∧ (restorePositions (sOut 0) gGang [(0, gOut)]).any (fun ps => decide (ps.length = 1)) = true
    ∧ (restorePositions (sOut 0xFFF) gGang [(0, gOut)]).isNone = true ∧ (sOut 0).placer.nextPlace ≤ (sOut 0).hc ∧ (sOut 0).hc < (sOut 0).hc + 8 :=
  ⟨by decide +kernel, by decide +kernel, rfl, rfl, by decide +kernel, by decide +kernel, by decide +kernel, by omega⟩
/-- Retired gangs with no line, with lines to write back and a counter, and with the acknowledgement on its way. -/
def sRetire (g : Gang) : State := { sGang g with cores := [(0, { Core.reset with out := [(0#32, 5)] })] }
theorem wit_GangAndGridEvents_retire : ∀ g ∈ [tGangR .retired, { tGangR .retired with wb := [(24, 0), (25, 1)] }, { tGangR .retired with wbOut := 2 }],
    (sRetire g).gangs.get? 0 = some g ∧ g.st = .retired ∧ g.freed = false
      ∧ (∀ gc ∈ ((sRetire g).core g.core).out, gc.1 = g.grid → gc.2 = (sRetire g).outCount g.core g.grid)
      ∧ (sRetire g).outCount g.core g.grid ≠ 0 ∧ (sRetire g).outCount g.core g.grid + g.wb.length ≤ 65535 := by decide +kernel

/-- A grid whose gang has retired, finished and killed; a context that quiesces. -/
def sDone (killed : Bool) : State := { tS with
  gangs := [(0, { tGangR .retired with freed := true })], grids := [(0, { tGrid 0 with placed := 1, killed := killed })], cores := [(0, { Core.reset with out := [(0#32, 0)] })]
  ctxs := [(0, { oneCtx 0 with st := .quiescing })] }
theorem wit_GangAndGridEvents_grids : ∀ b, (sDone b).grids.get? (0#32).toNat = some { tGrid 0 with placed := 1, killed := b }
    ∧ (∀ kg ∈ (sDone b).gangs, kg.2.grid = 0#32 → kg.2.st = .retired ∧ kg.2.freed = true) ∧ (∀ kc ∈ (sDone b).cores, ∀ gc ∈ kc.2.out, gc.2 = 0)
    ∧ (sDone b).disp.castling = false ∧ ({ tGrid 0 with placed := 1, killed := b } : Grid).gangs = 1 ∧ (tGrid 0).kids = 0 ∧ (sDone b).errs.pins = []
    ∧ (sDone b).ctxs.get? 0 = some { oneCtx 0 with st := .quiescing } ∧ (sDone b).ops = [] := by decide +kernel

/-- An error log with room and a full one, the first and last channels; links in each state. -/
def sLink (st : LinkSt) (l : Link) : State := { tS with links := [(linkCode l, { LinkS.reset (linkCode l) with st := st })] }
theorem wit_ErrorAndLinkEvents_items : errChannel 3 0x6432010#64 = false ∧ errChannel 6 0x6432010#64 = true ∧ errChannel 43 0#64 = true
    ∧ itemOnDie tS 0 (.vreg 0 8 1) = true ∧ sCastling.disp.cores[45 - 44]? = some .standby ∧ sCastling.disp.castling = true ∧ tS.disp.castling = false
    ∧ (let s := { tS with links := (List.range 7).map fun j => (8 + j, { LinkS.reset (8 + j) with st := .down }) }
      (s.link 15).st = .up ∧ ∀ i < 8, i ≠ 7 → (s.link (1 * 8 + i)).st = .down) ∧ DispSt.standby ∉ ({ State.reset.disp with cores := [.active, .failed] }).cores := by decide +kernel
theorem wit_ErrorAndLinkEvents : tS.errs.log.length < 64 ∧ 64 ≤ (List.replicate 64 (⟨0#64, 0, false, 0#32⟩ : ErrEnt)).length
    ∧ (3 < 8 ∧ 32 ≤ 43 ∧ 43 < 44 ∧ tS.warps.get? 0 = some (tWarp (tGrid 0)) ∧ 8 < (tWarp (tGrid 0)).va) ∧ tS.disp.cores[45 - 44]? = some .standby ∧ tS.disp.cores[44 - 44]? = some .active
    ∧ (∀ l ∈ [Link.die 0 0, .die 11 7, .pod 31, .endpoint 7, .host], linkValid l = true ∧ widthOk l (linkFull l) = true
      ∧ ∀ st ∈ [LinkSt.training, .up, .degraded], ((sLink st l).link (linkCode l)).st = st)
    ∧ (∀ l ∈ [Link.die 0 0, .die 11 7, .pod 31, .endpoint 7], widthOk l 1 = true ∧ 1 < ((sLink .up l).link (linkCode l)).width ∧ l ≠ .host) := by decide +kernel

/-- The endpoint of stack 7 grants package 9 its granule 0, and 8 nothing. -/
def sGrant : State := { tS with acts := [(7 * 256 + 255, 1#1 ++ 0#1 ++ 9#10 ++ 4#4 ++ 0xFFFFFF#24 ++ 0#24)] }
theorem wit_OutsideRequests : (0x3000 / 2 ^ 42 = tS.fused.pkg ∧ 0x3000 % 2 ^ 42 < 2 ^ 39 ∧ physLoc 0x3000 % 128 + 128 ≤ 128 ∧ tS.linePoisoned (physLoc 0x3000) = false ∧ physLoc 0x3000 % 8 = 0)
    ∧ ((tS.link (128 + 7)).st = .up ∧ linkWorks (tS.link 136) = true ∧ tS.boot ≠ .rejected ∧ tS.podUp = true)
    ∧ ({ tS with links := (List.range 32).map fun j => (96 + j, { LinkS.reset (96 + j) with st := .down }) } : State).podUp = false
    ∧ (let c := canonOff 2 (7 * 2 ^ 36 + 0)
      let e := Sparse.get 0#64 sGrant.acts (7 * 256 + 255)
      e.getLsbD 63 = true ∧ (e.extractLsb' 52 10).toNat = 9 ∧ (e.extractLsb' 0 24).toNat ≤ granuleK c ∧ granuleK c ≤ (e.extractLsb' 24 24).toNat
        ∧ ∀ i < 256, (Sparse.get 0#64 tS.acts (7 * 256 + i)).getLsbD 63 = false) := by decide +kernel

/-! ### Management commands -/

def tEdw : Edw := ⟨0, 7#16⟩
def xCtxDesc : BitVec 512 := (oneCtx 0).desc
def xQueueDesc (src : Nat) : BitVec 256 := BitVec.ofNat 256 (0x5000 * 2 ^ 128 + src * 2 ^ 42 + 4 * 2 ^ 44)
def sQ (st : QueueSt) (src : Nat) (tail : Nat) : State := { tS with queues := [(1023, { tOnti with st := st, desc := xQueueDesc src, tail := tail })] }
def sCtx (st : CtxSt) : State := { tS with ctxs := [(0, { oneCtx 0 with st := st })] }
/-- The schedule of a context has no entry, or one that names a range. -/
def xSched : BitVec 256 := BitVec.ofNat 256 (0x2000 * 2 ^ 192 + 0x80 * 2 ^ 128 + 2 * 2 ^ 96 + 1 * 2 ^ 112)
/-- A host port that is Down, a part that rejected its firmware, a command code and an OPLEN that name nothing. -/
theorem wit_QueueAndContextCommands_frames : linkWorks (({ tS with links := [(136, { LinkS.reset 136 with st := .down })] } : State).link 136) = false
    ∧ tS.allowed 1 = false ∧ tS.allowed 0 = true ∧ (cmdOplen 0x08).any (fun f => f 8) = false ∧ (cmdOplen 0x01).any (fun f => f 48) = false
    ∧ (cmdOplen 0x01).any (fun f => f 40) = true ∧ (sCtx .created).ctxs.get? 0 = some { oneCtx 0 with st := .created }
    ∧ ((oneCtx 0).desc.extractLsb' 452 12).toNat = 0 := by decide +kernel
theorem wit_QueueAndContextCommands : Accepts tS tEdw ∧ (∃ e, edwOf (.queryPower tEdw) = some e ∧ tS.fused.allow.contains e.src = true) ∧ tS.fused.allow.contains 1 = false
    ∧ (let s := { tS with host := { tS.host with last := [(0, ⟨0, 7#16, 0x50, 0, 0, []⟩)] } }
      s.host.last.get? 0 = some ⟨0, 7#16, 0x50, 0, 0, []⟩ ∧ s.boot = .ready)
    ∧ (tS.queue 1023).st = .free
    ∧ (let d := xQueueDesc 2
      d.extractLsb' 48 80 = 0#80 ∧ d.extractLsb' 38 4 = 0#4 ∧ d.extractLsb' 42 2 ≠ 3#2 ∧ 4#4 ≤ d.extractLsb' 44 4 ∧ d.extractLsb' 44 4 ≤ 12#4 ∧ d.extractLsb' 180 12 = 0#12
        ∧ (d.extractLsb' 128 64).toNat % (128 * 2 ^ (d.extractLsb' 44 4).toNat) = 0 ∧ tS.ctxs.has (d.extractLsb' 32 6).toNat = true)
    ∧ (∀ st ∈ [QueueSt.disabled, .enabled], ∀ src ∈ [1, 2], ((sQ st src 5).queue 1023).st = st ∧ ((sQ st src 5).queue 1023).src = src)
    ∧ (((sQ .enabled 2 5).queue 1023).tail - ((sQ .enabled 2 5).queue 1023).head < 2 ^ ((sQ .enabled 2 5).queue 1023).ringn
      ∧ 2 ^ ((sQ .enabled 2 16).queue 1023).ringn ≤ ((sQ .enabled 2 16).queue 1023).tail - ((sQ .enabled 2 16).queue 1023).head)
    ∧ ((∀ j < 1, tS.ctxs.has j = true) ∧ tS.ctxs.has 1 = false ∧ ctxDescOk xCtxDesc = true ∧ ctxDescOk (xCtxDesc + 1#512) = false)
    ∧ (∀ st ∈ [CtxSt.created, .active, .quiescing, .suspended], ∃ c, (sCtx st).ctxs.get? 0 = some c ∧ c.st = st)
    ∧ (readVirtBits (sCtx .created) 0 0 0).2.isSome = true ∧ schedEntryOk xSched = true ∧ tS.scls.length = 16 := by
  refine ⟨⟨by decide +kernel, by decide, by decide, fun r h => (by cases h)⟩, ⟨_, rfl, by decide⟩, by decide, by decide, by decide +kernel, by decide +kernel, by decide +kernel, by decide +kernel,
    ?_, fun st _ => ⟨_, rfl, rfl⟩, by decide +kernel, by decide +kernel, by decide +kernel⟩
  exact ⟨by decide +kernel, by decide +kernel, by decide +kernel, by decide +kernel⟩
/-- Number 0 was freed in this hub cycle, number 1 is free. -/
theorem wit_QueueAndContextCommands_freed : let s := { tS with ctxs := [], freedAt := [(0, tS.hc)] }
    (∀ j < 1, s.ctxs.has j = true ∨ s.freedAt.get? j = some s.hc) ∧ s.ctxs.has 1 = false ∧ s.freedAt.get? 1 ≠ some s.hc := by decide +kernel
/-- All sixty-four contexts exist. -/
theorem wit_QueueAndContextCommands_full : ∀ k < 64, Tab.has ((List.range 64).map fun k => (k, oneCtx 0)) k = true := by decide +kernel

/-- The warp holds a pin that stands in the list. -/
def wPinned (w : Warp) : Warp := { w with pins := [⟨4, 6, 3#32, 4#32, 4, false, none, false⟩] }
def sPinned : State := { sOf 0 wPinned with errs := { State.reset.errs with pins := [⟨4, .warp 0, 6, 0, 0#32, 0, 0, 0, 4#32, 0x3000#64, true⟩] } }
theorem wit_GangAndPinCommands : (∃ g, (sGang g).gangs.get? 0 = some g ∧ g.st = .running ∧ Tab.Sorted (sGang g).gangs ∧ g.grid = 0#32 ∧ g.num = 0 ∧ 0 < gGang.gangs
      ∧ ∀ kg ∈ (sGang g).gangs, kg.2.grid = 0#32 → kg.2.num = 0 → kg.1 = 0)
    ∧ (tGangR .evicted).st ≠ .running ∧ tS.grids.get? (7#32).toNat = none ∧ tS.grids.get? (0#32).toNat = some (tGrid 0) ∧ (tGrid 0).killed = false
    ∧ (sPinned.errs.pins.filter (·.written))[0]? = some ⟨4, .warp 0, 6, 0, 0#32, 0, 0, 0, 4#32, 0x3000#64, true⟩
    ∧ (∀ q ∈ tS.errs.pins, q.id ≠ (4#64).toNat) ∧ (∀ ko ∈ tS.ops, ko.2.started = false) ∧ (tS.gangs.get? 0 = some tGang ∧ tGang.wb = [])
    ∧ (∃ q w0 x, (sPinned.errs.pins.find? fun q => decide (q.id = (4#64).toNat)) = some q ∧ q.master = .warp 0 ∧ sPinned.warps.get? 0 = some w0
      ∧ (w0.pins.find? fun x => decide (x.id = (4#64).toNat)) = some x ∧ x.entry = none) ∧ tS.paging.faults = [] :=
  ⟨⟨tGang, rfl, rfl, by simp [Tab.Sorted, sGang], rfl, rfl, by decide +kernel, by decide⟩, by decide, by decide +kernel, by decide +kernel, by decide +kernel, by decide, by decide,
    by decide +kernel, by decide +kernel, ⟨_, _, _, rfl, rfl, rfl, rfl, rfl⟩, rfl⟩

/-- A signal that no translation reaches. -/
theorem wit_SystemCommands_signals : atomicB { tS with mem := [], paging := State.reset.paging } 0x3000 = false ∧ tS.linePoisoned 0x3000 = false
    ∧ farB sFar 0x3000 = true ∧ farB tS 0x3000 = false ∧ ({ tS with poisonLines := [(0x3000 / 128, ())] } : State).linePoisoned 0x3000 = true := by
  decide +kernel
theorem wit_SystemCommands : (linkValid (.die 12 0) = false ∧ ∀ l ∈ [Link.die 11 7, .host], linkValid l = true ∧ (tS.link (linkCode l)).st ≠ .training)
    ∧ (∀ st ∈ [ClusterSt.pooled, .draining, .ramping], ((sClu { Cluster.reset with st := st }).cluster (0 * 8 + 0)).st = st)
    ∧ (tS.ctxs.has 1 = false ∧ tS.ctxs.has 0 = true ∧ canonicalVa 0x3000 = true ∧ canonicalVa (2 ^ 63) = false ∧ atomicB tS 0x3000 = true)
    ∧ (List.replicate 32 7#8).length = 32 ∧ tS.boot = .ready ∧ (∃ x, [(⟨0#64, 48, true, 3#32⟩ : ErrEnt)][0]? = some x ∧ x.chan < 64) := by
  refine ⟨by decide +kernel, by decide +kernel, by decide +kernel, by decide, by decide, ⟨_, rfl, by decide⟩⟩

/-! ### Encoding, fetch, invariants -/

/-- Instructions with operands at the ends of their ranges have words. -/
theorem wit_DecodeEncode : ∀ i ∈ [Instr.add (⟨⟨true, ⟨7, true⟩⟩, .s 31, .s 31, .imm 15⟩), .ld ⟨⟨0, true⟩, .sc, .gg, .n64, .v 62, .v 62, 0xFFF#12⟩,
      .bfi ⟨tH, .n64, .v 62, .v 62, .v 62, 63, 0⟩, .coll ⟨tG, 7, 3, 63, .pk⟩], i.wf = true ∧ (encode i).isSome = true ∧ (i.named tP).isSome = true := by decide +kernel

/-- The machine with one `add` placed where the next step fetches. -/
def sStep : State := State.reset.withFetchWord 32 0b000001_0_111_0_0000001_0000010_0000011
def iStep : Instr := .add ⟨⟨false, ⟨7, false⟩⟩, .v 1, .v 2, .v 3⟩
/-- The same with a second warp beside the first. -/
def sStep2 : State := { sStep with warps := sStep.warps ++ (sStep.warps.take 1).map fun kw => (1, { kw.2 with slot := 1, no := 1 }) }
/-- The premises of the issue clause, run on such a machine; the second port's pick meets the last premise. -/
def stepB (s : State) (second : Option Pick → Bool) : Bool :=
  let s0 := State.refresh { s with agenda := s.agenda.tail }
  s.agenda.tail.head?.all Turn.isElapse && match s.agenda.head?, firstChoices s0 0 with
  | some (.issue 0), (w, m) :: _ => match s0.place? w with
    | none => false
    | some p =>
      let pc := p.w.pc (lowLane m)
      match p.w.inside.get? (lowLane m), codeLine s0 p pc with
      | some h, .ok (s1, ws) => match clauseAt ws (h.toNat % 128 / 4) with
        | none => false
        | some is =>
          let t := pc.toNat % 128 / 4
          decide (p.w.traps = [] ∧ canonicalVa (codeVa p pc) = true ∧ pc.toNat % 4 = 0 ∧ pc.toNat < p.gr.textl ∧ p.w.entering.getLsbD (lowLane m) = false ∧ h.toNat / 128 = pc.toNat / 128
              ∧ (is.find? fun ik => decide (ik.1 = t)) = some (t, 1) ∧ pc.toNat + 4 ≤ p.gr.textl)
            && (s1.core p.t.core).bp.all (fun b => !b.getLsbD 0)
            && admitted (headerOf (ws.getD (h.toNat % 128 / 4) 0)).cls (ws.getD t 0 / 2 ^ 26 % 64) 0 (decide (is.getLast? = some (t, 1)))
            && (match decodeWords p.gr.ver (ws.getD t 0) 0 with | .ok i => decide (i = iStep) | .error _ => false)
            && match exec iStep { s1 with cur := some ⟨w, m, pc, 4, decide (is.getLast? = some (t, 1))⟩ } with
              | .next u => u.cur.isSome && second (choose s0 (secondChoices s0 0 w m))
              | _ => false
      | _, _ => false
  | _, _ => false
theorem wit_StepRunsDecoded : stepB sStep (fun b => b.isNone) = true ∧ stepB sStep2 (fun b => b.any fun b => !b.enters && decide (b.w = 1)) = true
    ∧ firstOf (.event .placerSweep) [.elapse 3] = (.event .placerSweep, [.elapse 3])
    ∧ (∀ y ∈ [Turn.event .placerSweep, .event (.barrierArrival 0)], y.isElapse = false) ∧ ({ tS with agenda := [.event .placerSweep, .elapse 3] } : State).agenda = [.event .placerSweep, .elapse 3]
    ∧ (∀ kc ∈ tS.cores, kc.2.grants.queue = []) := by decide +kernel
/-- Two warps of a team bind one operand: the younger at the first port, and the older. -/
def sScb : State := State.reset.withFetchWord 64 (0b110011_0_111_0_0000000_0000110_1000001 + 2 ^ 32 * 1)
def sScb2 : State := { sScb with agenda := [], warps := sScb.warps ++ (sScb.warps.take 1).map fun kw => (1, { kw.2 with slot := 1, no := 1 }) }
theorem wit_StepRunsDecoded_binds : bindsLast sScb2 (pickOf sScb2 (1, 0xFFFFFFFF#32)) (pickOf sScb2 (0, 0xFFFFFFFF#32)) = true
    ∧ bindsLast sScb2 (pickOf sScb2 (0, 0xFFFFFFFF#32)) (pickOf sScb2 (1, 0xFFFFFFFF#32)) = false := by decide +kernel
/-- The end of the quiesce is owed before a resume of its context laid in its cycle, and not before one of another. -/
theorem wit_StepRunsDecoded_owed : let s := { sDone false with gangs := [], grids := [], teams := [], warps := [], bars := [] }
    (owedBefore (.resumeContext tEdw 0)).find? (hasEffect s) = some (.quiesceCompletes 0) ∧ (owedBefore (.resumeContext tEdw 1)).find? (hasEffect s) = none := by
  decide +kernel

theorem wit_StepKeeps : (∀ s ∈ [State.reset, sStep, { tS with agenda := [.event (.barrierArrival 0)] }], Memory.wf s.mem = true ∧ Tab.Sorted s.gangs)
    ∧ ∀ s ∈ [sStep, { tS with agenda := [.event (.barrierArrival 0)] }], (match step s with | .next _ => true | _ => false) = true := by
  refine ⟨fun s hs => ?_, by decide +kernel⟩
  simp only [List.mem_cons, List.not_mem_nil, or_false] at hs
  rcases hs with rfl | rfl | rfl
  · exact ⟨by decide +kernel, by simp [Tab.Sorted, State.reset, State.afterReset]⟩
  · exact ⟨by decide +kernel, (show Tab.Sorted sStep.gangs by rw [show sStep.gangs = [(0, _)] from rfl]; trivial)⟩
  · exact ⟨by decide +kernel, by simp [Tab.Sorted, tS, tState]⟩

end Sys2Proof.Tests
end

/-! ## Empty active sets (00 R16; 05 R154; 10 R246) -/

section

namespace Sys2Proof.Machine

/-- What an issue answers when it retires without effect: with the price drawn, the path has moved past the
instruction. -/
def Retires (s : State) (p : Place) (i : Issue) (price : Nat) (r : Except Stop State) : Prop :=
  ∀ u, drawPrice s p.t.core p.key price = some u → r = .ok (u.retire i)

/-- The state in which the attempt at a retired form has been counted (05 R154). -/
def State.attempted (t : State) (core : Nat) : Instr → State
  | .voteCnt _ => t.countLadder core 0 1
  | .ffmaUnf _ => t.countLadder core 1 2
  | .shflWide _ => t.countLadder core 1 3
  | _ => t

section
variable {s u : State} {p : Place} {i : Issue} {g : Guard} {price : Nat} {regs : List (Operand × Nat)}

/-! ### The checks that come before an empty active set ends the instruction -/

theorem checkRegs_ok (i : Issue) (h : ∀ x ∈ regs, inAllot p.w x.1 x.2 = true) :
    checkRegs p i regs = .ok () :=
  if_pos (List.all_eq_true.2 h)

theorem checkTA_ok (i : Issue) {ts as : List Nat} (ht : ∀ t ∈ ts, t < p.w.ta) (ha : ∀ a ∈ as, a < p.w.aa) :
    checkTA p i ts as = .ok () := by
  unfold checkTA
  rw [if_pos]
  simpa using ⟨ht, ha⟩

theorem shapeIn_some {ok : Nat → Bool} {a b : Ty} {code : Nat} (h : shapeIn p ok a b code = true) :
    ok p.gr.contract = true ∧ ∃ sh, shapeOf p.gr.contract a b code = some sh := by
  rw [shapeIn, Bool.and_eq_true] at h
  exact ⟨h.1, Option.isSome_iff_exists.1 h.2⟩

/-- No lane is dead on a port before an indirect transfer that no lane takes. -/
theorem alignBeforeDead_empty (a : Src) : alignBeforeDead s p 0#32 a = .ok () := by
  have hb : badTargets s p 0#32 a = 0#32 := by rw [badTargets, lanesOf_zero]; rfl
  unfold alignBeforeDead
  split
  · split
    · exact if_pos hb
    · rfl
  · rfl

theorem inAllot_mono {w : Warp} {o : Operand} {m n : Nat} (hmn : m ≤ n) (h : inAllot w o n = true) :
    inAllot w o m = true := by
  cases o with
  | v r | s r =>
    simp only [inAllot, decide_eq_true_eq] at h ⊢
    omega
  | port _ | spec _ | imm _ => rfl

theorem regs_pos (t : Ty) : 0 < t.regs := by cases t <;> decide

/-- The tiles of a read-out are those that it names. -/
theorem ardTiles_eq (gr : Grid) (t : Ty) :
    ardTiles gr.longAcc t = if gr.contract = 7 then 1 else Nat.max 1 (t.width / 8) := by
  simp only [ardTiles, Grid.longAcc, decide_eq_true_eq, show 4096 * t.width / 32768 = t.width / 8 by omega]

/-! ### The frames of instructions with an empty active set -/

theorem retires_free : Retires s p i 0 (.ok (s.retire i)) := by
  intro u h
  rw [show drawPrice s p.t.core p.key 0 = some s from rfl] at h
  cases h
  rfl

theorem settle_retires {f : Place → Issue → Except Stop State} (hi : Issuing s p i) (h : Retires s p i price (f p i))
    (hd : drawPrice s p.t.core p.key price = some u) : settle s f = .next (u.retire i) := by
  rw [settle_issuing hi, h u hd]

theorem guardIll_retires {ok : Bool} {k : Except Stop State} (h : ok = true) (hk : Retires s p i price k) :
    Retires s p i price (guardIll ok i k) := by
  rwa [guardIll, if_pos h]

theorem withEntry_retires {t : Ty} {k : Ty → Except Stop State} (h : entryTy p.gr.contract = some t)
    (hk : Retires s p i price (k t)) : Retires s p i price (withEntry p i k) := by
  rwa [withEntry, h]

/-- A shape that the contract has, with operands that suit it and no stray stream code, is no obstacle (16 R410, R423). -/
theorem withShapeFor_retires {good : Shape → Bool} {ok : Bool} {a b : Ty} {code : Nat} {sh : Shape}
    {k : Shape → Except Stop State} (hok : ok = true) (hs : shapeOf p.gr.contract a b code = some sh) (hg : good sh = true)
    (hc : p.gr.contract = 9 ∨ code = 0) (hk : Retires s p i price (k sh)) :
    Retires s p i price (withShapeFor good p i ok a b code k) := by
  have hcode : ¬(p.gr.contract ≠ 9 ∧ code ≠ 0) := fun ⟨h9, h0⟩ => hc.elim h9 h0
  simpa only [withShapeFor, hok, hs, hg, not_true, if_true, if_false, if_neg hcode] using hk

section
variable (he : activeOf p i g = 0#32)
include he

theorem withOperands_retires {srcs : List Src} {dsts : List (Operand × Nat)} {k : LaneMask → Except Stop State}
    (hr : ∀ x ∈ srcRegs srcs ++ dsts, inAllot p.w x.1 x.2 = true) : Retires s p i 0 (withOperands s p i g srcs dsts k) := by
  simp only [withOperands, checkRegs_ok i hr, he, if_true]
  exact retires_free

theorem withAddress_retires {srcs addr : List Src} {dsts : List (Operand × Nat)} {lanes : LaneMask → LaneMask}
    {chk : Nat → AddrChk} {k : LaneMask → Except Stop State}
    (hr : ∀ x ∈ srcRegs srcs ++ dsts, inAllot p.w x.1 x.2 = true) :
    Retires s p i 0 (withAddress s p i g srcs addr dsts lanes chk k) := by
  simp only [withAddress, checkRegs_ok i hr, he, if_true]
  exact retires_free

/-- The price is charged also of an empty active set (10 R246). -/
theorem withPriceAfter_retires {board : Except Stop Unit} {srcs : List Src} {dsts : List (Operand × Nat)}
    {k : State → LaneMask → Except Stop State} (hr : ∀ x ∈ srcRegs srcs ++ dsts, inAllot p.w x.1 x.2 = true) :
    Retires s p i price (withPriceAfter board s p i g srcs dsts price k) := by
  intro u hd
  simp only [withPriceAfter, checkRegs_ok i hr, he, if_true, hd]

theorem withStepAfter_retires {board : Except Stop Unit} {srcs : List Src} {tiles : List Nat} {acc : Nat}
    {k : State → LaneMask → Except Stop State} (ht : ∀ t ∈ tiles, t < p.w.ta) (ha : ∀ a ∈ [acc], a < p.w.aa)
    (hr : ∀ x ∈ srcRegs srcs, inAllot p.w x.1 x.2 = true) :
    Retires s p i price (withStepAfter board s p i g srcs tiles acc price k) := by
  rw [withStepAfter, checkTA_ok i ht ha]
  exact withPriceAfter_retires he (by rwa [List.append_nil])

theorem withTileRows_retires {rows : Nat} {srcs : List Src} {reads writes accs : List Nat}
    {k : LaneMask → Except Stop State} (ht : ∀ t ∈ reads ++ writes, t < p.w.ta) (ha : ∀ a ∈ accs, a < p.w.aa)
    (hr : ∀ x ∈ srcRegs srcs, inAllot p.w x.1 x.2 = true) :
    Retires s p i 0 (withTileRows rows s p i g srcs reads writes accs k) := by
  rw [withTileRows, checkTA_ok i ht ha]
  exact withOperands_retires he (by rwa [List.append_nil])

end

section
variable (hi : Issuing s p i) (hd : drawPrice s p.t.core p.key price = some u)
include hi hd

theorem runAlu_retires {h : Hd} {srcs : List Src} {d : Operand} {nd : Nat} {f : LaneFn} (he : activeOf p i h.g = 0#32)
    (hr : ∀ x ∈ srcRegs srcs ++ [(d, nd)], inAllot p.w x.1 x.2 = true) :
    runAlu price h srcs d nd f s = .next (u.retire i) :=
  settle_retires hi (withPriceAfter_retires he hr) hd

end

section
variable (hi : Issuing s p i) (he : activeOf p i g = 0#32) (hd : drawPrice s p.t.core p.key 0 = some u)
include hi he hd

/-- An instruction of the frame of operands. -/
theorem settle_withOperands_retires {srcs : List Src} {dsts : List (Operand × Nat)}
    {k : Place → Issue → LaneMask → Except Stop State}
    (hr : ∀ x ∈ srcRegs srcs ++ dsts, inAllot p.w x.1 x.2 = true) :
    settle s (fun p i => withOperands s p i g srcs dsts (k p i)) = .next (u.retire i) :=
  settle_retires hi (withOperands_retires he hr) hd

/-- A retired form that retires without effect is counted all the same (05 R154). -/
theorem laddered_withOperands_retires {rung pos : Nat} {srcs : List Src} {dsts : List (Operand × Nat)}
    {k : State → Place → Issue → LaneMask → Except Stop State}
    (hr : ∀ x ∈ srcRegs srcs ++ dsts, inAllot p.w x.1 x.2 = true) :
    laddered rung pos (fun s p i => withOperands s p i g srcs dsts (k s p i)) s
      = .next ((u.retire i).countLadder p.t.core rung pos) := by
  rw [laddered, settle_issuing hi, withOperands_retires he hr u hd]

/-- A loop form whose shape the contract has (16 R416). -/
theorem runLoop_retires {ins : Instr} {f : Fin 8} {grp : Fin 4} {acc : Fin 8} {o : StepOf} {take : Nat → Bool}
    {mp : Option Pair} (hf : shapeIn p take o.a o.b o.code = true) (hc : p.gr.contract = 9 ∨ o.code = 0)
    (ha : ∀ a ∈ [acc.val], a < p.w.aa)
    (hr : ∀ x ∈ srcRegs (groupSrc grp :: mp.toList.map srcPair) ++ [futDst f], inAllot p.w x.1 x.2 = true) :
    runLoop ins g f grp acc o take mp s = .next (u.retire i) := by
  obtain ⟨hok, sh, hs⟩ := shapeIn_some hf
  refine settle_retires hi (withShapeFor_retires hok hs rfl hc ?_) hd
  simp only [checkRegs_ok i hr, checkTA_ok i (List.forall_mem_nil _) ha]
  exact withAddress_retires he hr

/-- An indirect transfer (13 R354): its early check of alignment finds no lane. -/
theorem indirect_retires {x : RetF} (hg : x.g = g) (hr : ∀ y ∈ [(x.a, 1)], inAllot p.w y.1 y.2 = true) :
    indirect x s = .next (u.retire i) := by
  subst hg
  refine settle_retires hi ?_ hd
  simp only [src1, checkRegs_ok i hr, he, alignBeforeDead_empty]
  cases checkBound p [x.a] with
  | error _ | ok _ => exact withOperands_retires he hr

end
end

/-! ### What an instruction that retires without effect leaves -/

section
variable {s u : State} {p : Place} {i : Issue} {price : Nat}

/-- Retiring moves the path of the warp at `p` and changes nothing else. -/
theorem passed_retire (hi : Issuing s p i) : Passed s (s.retire i) p i p.w := by
  obtain ⟨hkey, hw⟩ := State.place?_warp hi.2
  obtain ⟨hrest, hget⟩ := State.retire_spec s i
  obtain ⟨hstep, hpc⟩ := stepOver_rest p.w i.path i.pc i.len i.last
  refine ⟨hrest, fun k hk => by rw [hget, if_neg (hkey ▸ hk)], p.w.stepOver i.path i.pc i.len i.last, ?_, ?_, hstep⟩
  · rw [hget, if_pos hkey, hw]; rfl
  · intro l hl
    rw [hpc l hl, BitVec.getLsbD_zero]; rfl

/-- The path of a warp moves past an instruction: of its fields the program counters and what goes with them change. -/
theorem stepOver_fields (w : Warp) (m : LaneMask) (pc : Word) (len : Nat) (last : Bool) :
    ∃ pcv bp en ins, w.stepOver m pc len last = { w with pcv := pcv, bpExempt := bp, entering := en, inside := ins }
      ∧ ∀ l, l < 32 → pcv.getD l 0#32 = if m.getLsbD l then pc + BitVec.ofNat 32 len else w.pc l :=
  ⟨_, _, _, _, stepOver_rest w m pc len last⟩

/-- Retiring once the price is drawn changes nothing beside the warp but what the draw takes (10 R246). -/
theorem onlyWarp_retire (hd : Drawn s u p price) (hkey : p.key = i.w) : OnlyWarp s (u.retire i) p price Counts.none where
  rest := by
    obtain ⟨ws, cs, rfl⟩ : ∃ ws cs, u = { s with warps := ws, cores := cs } := ⟨_, _, hd.rest⟩
    rfl
  warps k hk := by rw [(State.retire_spec u i).2, if_neg (hkey ▸ hk), hd.warps k hk]
  cores := hd.cores
  core := by
    rw [show (u.retire i).core p.t.core = u.core p.t.core from rfl, hd.core]
    simp [Counts.none]
  grids k := by
    rw [show (u.retire i).grids = s.grids by rw [State.retire, State.modWarp_grids, hd.rest]]
    cases s.grids.get? k with
    | none => exact ⟨0, rfl⟩
    | some gr => exact ⟨gr.poison, rfl⟩

/-- Retiring once the price is drawn computes nothing, in no lane. -/
theorem computed_retire (hd : Drawn s u p price) (hkey : p.key = i.w) :
    Computed s (u.retire i) p i 0#32 0#32 [] (.imm 0) 0 (fun _ => []) 7 0#32 price Counts.none := by
  refine ⟨onlyWarp_retire hd hkey, ?_, ?_⟩
  · rw [State.retire, State.modWarp_flight, hd.rest]
    exact (List.append_nil _).symm
  · obtain ⟨pcv, bp, en, ins, hstep, hpc⟩ := stepOver_fields
      { p.w with tempoSince := if price = 0 then p.w.tempoSince else none } i.path i.pc i.len i.last
    refine ⟨{ p.w with tempoSince := if price = 0 then p.w.tempoSince else none, pcv := pcv, bpExempt := bp, entering := en
                       inside := ins }, ?_, ⟨rfl, logKept_refl _⟩, fun _ _ _ => rfl, fun _ => rfl, fun r => ?_,
      fun q l _ => ⟨rfl, ?_⟩, hpc⟩
    · rw [(State.retire_spec u i).2, if_pos hkey, ← hkey, hd.warp, Option.map_some, hstep]
    · exact (if_neg fun h => h.2 h.1).symm
    · rw [BitVec.getLsbD_zero]; rfl

end

/-! ### Every instruction that a guard can idle -/

/-- Every instruction that a guard can idle, with an empty active set, draws its price and retires; an attempt at a retired
form is counted. -/
theorem exec_retires {s u : State} {p : Place} {i : Issue} {ins : Instr} {n : Named} (hi : Issuing s p i)
    (hn : Instr.named p ins = some n) (he : activeOf p i n.g = 0#32) (hf : formOk p ins = true)
    (hc : p.gr.contract = 9 ∨ n.code = 0) (hacc : n.accs ≠ [] → (entryTy p.gr.contract).isSome = true)
    (hr : ∀ x ∈ n.regs, inAllot p.w x.1 x.2 = true) (ht : ∀ t ∈ n.tiles, t < p.w.ta) (ha : ∀ a ∈ n.accs, a < p.w.aa)
    (hd : drawPrice s p.t.core p.key n.price = some u) :
    exec ins s = .next ((u.retire i).attempted p.t.core ins) := by
  cases ins with
  -- lane-wise computation
  | add _ | sub _ | and _ | or _ | xor _ | shl _ | shr _ | sra _ | mov _ | fadd _ | fmul _ | movi _ | addImm _ | andImm _
  | orImm _ | xorImm _ | addXm _ | subXm _ | mul _ | mulh _ | div _ | rem _ | min _ | max _ | andXm _ | orXm _ | xorXm _
  | andn _ | shlXm _ | shrXm _ | sraXm _ | rol _ | addSat _ | subSat _ | mulSat _ | divSat _ | abs _ | neg _ | not _ | clz _
  | ctz _ | popc _ | brev _ | movXm _ | absSat _ | negSat _ | mad _ | madSat _ | bfx _ | bfi _ | sel _ | lea _
  | pmovFromPred _ | pcnt _ | faddXm _ | fsub _ | fmulXm _ | ffma _ | fdiv _ | fmin _ | fmax _ | frnd _ | frcp _ | frsq _
  | fsqrt _ | fex2 _ | flg2 _ | fsin _ | fcos _ | lmul _ | ldiv _ | ladd _ | lsub _ | tdot _ | smul _ | sgen _
  | cvt _ | mxdq _ | zdq _ | tunp _ =>
    cases hn; exact runAlu_retires hi hd he hr
  -- tests, votes, lane exchange and what else takes its operands and acts at once
  | addc _ | cmp _ | pand _ | por _ | pxor _ | pnot _ | pmovToPred _ | voteOr _ | voteAnd _ | voteMask _ | voteSame _
  | getpc _ | tokq _ | fcmp _ | mxq _ | zq _ | tpk _ | shflSel _ | shflLo _ | shflHi _ | shflFlip _ | bcast _ | lred _
  | lscan _ | br _ | call _ | exit _ | yield _ | trap _ | fence _ | sfl _ | sinv _ | spf _ | icinv _ | qclose _ | scb _
  | scinv _ | copy _ | gath _ | scat _ | coll _ | cmpr _ | fwait _ | svc _ =>
    cases hn; exact settle_withOperands_retires hi he hd hr
  | nop _ => cases hn; exact settle_retires (f := fun _ i => .ok (s.retire i)) hi retires_free hd
  | brx x | ret x => cases hn; exact indirect_retires hi he hd rfl hr
  -- memory
  | ld _ | ldPoll _ | ldu _ | ldr _ | st _ | stu _ | atomAdd _ | atomSub _ | atomMin _ | atomMax _ | atomAnd _ | atomOr _
  | atomXor _ | atomExch _ | stc _ | cas _ | sig _ | rst _ | rld _ =>
    cases hn; exact settle_retires hi (withAddress_retires he hr) hd
  -- loops
  | mloop _ => cases hn; exact runLoop_retires hi he hd hf hc ha hr
  | mloopS x => cases hn; change execMloopS x s = _; exact runLoop_retires hi he hd hf hc ha hr
  | mloopSp _ => cases hn; exact runLoop_retires hi he hd hf hc ha hr
  -- retired forms; `change` and `unfold` show the ladder around the frame
  | voteCnt x => cases hn; change execVoteCnt x s = _; exact laddered_withOperands_retires hi he hd hr
  | ffmaUnf x =>
    cases hn; change execFfmaUnf x s = _; unfold execFfmaUnf
    exact laddered_withOperands_retires hi he hd hr
  | shflWide x =>
    cases hn; change execShflWide x s = _; unfold execShflWide
    exact laddered_withOperands_retires hi he hd hr
  -- the form counts the registers of the type; the classes take the first
  | fcls x =>
    cases hn
    refine runAlu_retires hi hd he (List.forall_mem_append.2 ⟨fun y hy => hr y (List.mem_append_left _ hy),
      List.forall_mem_singleton.2 (inAllot_mono (regs_pos x.ty) (hr _ (List.mem_append_right _ (.head _))))⟩)
  | sigw _ =>
    cases hn
    refine settle_retires hi ?_ hd
    dsimp only
    split
    next h => exact absurd he h.1
    next => exact withAddress_retires he hr
  | qstat x =>
    cases hn
    refine settle_retires hi (withOperands_retires he ?_) hd
    split
    next => exact hr
    next => exact List.forall_mem_nil _
  | qpeek x =>
    cases hn
    refine settle_retires hi ?_ hd
    simp only [checkRegs_ok i hr, he, if_true]
    exact retires_free
  | tld _ | tst _ =>
    cases hn
    refine settle_retires hi ?_ hd
    simp only [checkTA_ok i ht ha]
    exact withAddress_retires he hr
  | mma x =>
    cases hn
    obtain ⟨hok, sh, hs⟩ := shapeIn_some hf
    rw [show (namedStep p x.g x.aty x.bty x.code.val none _ _ _).price = sh.price by simp [namedStep, hs]] at hd
    exact settle_retires hi (withShapeFor_retires hok hs rfl hc (withStepAfter_retires he ht ha hr)) hd
  | mmas x =>
    cases hn
    obtain ⟨hok, sh, hs⟩ := shapeIn_some hf
    refine settle_retires hi (withShapeFor_retires hok hs rfl hc ?_) hd
    rw [show mmasEarly s p i x sh (activeOf p i x.g) = .ok () from if_pos he]
    exact withStepAfter_retires he ht ha hr
  | mmsp x =>
    cases hn
    rw [formOk, Bool.and_eq_true] at hf
    obtain ⟨hshape, hm⟩ := hf
    obtain ⟨hok, sh, hs⟩ := shapeIn_some hshape
    simp only [hs] at hm
    refine settle_retires hi (withShapeFor_retires hok hs hm hc (withStepAfter_retires he ht ha ?_)) hd
    simpa [namedStep, hs, srcRegs] using hr
  | ttr _ | amov _ | azero _ => cases hn; exact settle_retires hi (withTileRows_retires he ht ha hr) hd
  | aset x =>
    cases hn
    obtain ⟨t, het⟩ := Option.isSome_iff_exists.1 (hacc (List.cons_ne_nil _ _))
    refine settle_retires hi (withEntry_retires het (guardIll_retires ?_ (withTileRows_retires he ht ha hr))) hd
    simpa [formOk, het] using hf
  | ard x =>
    cases hn
    obtain ⟨t, het⟩ := Option.isSome_iff_exists.1 (hacc (List.cons_ne_nil _ _))
    refine settle_retires hi (guardIll_retires hf (withEntry_retires het (withTileRows_retires he ?_ ha hr))) hd
    rw [ardTiles_eq]
    exact ht
  | ftest _ | fcancel _ =>
    cases hn
    refine settle_retires hi ?_ hd
    rw [checkRegs_ok i hr]
    exact withOperands_retires he (List.forall_mem_nil _)
  | arv _ | bwait _ | bsync _ =>
    cases hn
    obtain ⟨b, hb⟩ := Option.isSome_iff_exists.1 hf
    refine settle_retires hi ?_ hd
    simp only [hb]
    exact withOperands_retires he hr
  | launch _ => cases hn; exact settle_retires hi (guardIll_retires hf (withAddress_retires he hr)) hd
  | rte _ =>
    cases hn
    have hon : p.w.handler.on = true := hf
    refine settle_retires hi ?_ hd
    rw [if_neg fun hoff => hoff hon]
    exact withOperands_retires he hr
  | csrr _ => cases hn; exact settle_retires hi (guardIll_retires hf (withOperands_retires he hr)) hd
  | csrw x =>
    cases hn
    refine settle_retires hi (guardIll_retires hf ?_) hd
    by_cases h : p.w.handler.on = true ∧ x.n.toNat < 7
    · rw [if_neg fun hout => hout h]
      exact withOperands_retires he hr
    · simp only [if_pos h, checkRegs_ok i hr, if_pos he]
      exact retires_free
  -- what no guard selects, and the events
  | _ => cases hn

end Sys2Proof.Machine

open Sys2Proof Sys2Proof.Machine

/-- Settles O20: the guard is judged behind REGNUM and the forms, before any other check, so that every frame ends there with
the price drawn and the path past the instruction. -/
theorem emptyActiveSet : Obligations.EmptyActiveSet := by
  intro s p i ins n hi hn he hf hc hacc hr ht ha hp
  obtain ⟨hkey, hw⟩ := State.place?_warp hi.2
  obtain ⟨u, hdraw, hd⟩ := drawn_of_payable hp (hkey ▸ hw)
  refine ⟨u.retire i, (exec_retires hi hn he hf hc hacc hr ht ha hdraw).trans ?_, computed_retire hd hkey, fun h0 => ?_⟩
  · -- the statement writes out the ladder's cases that `State.attempted` names
    cases ins <;> rfl
  · rw [h0] at hdraw
    cases hdraw
    exact passed_retire hi

end

/-! ## The return of a load to a poisoned register (06 R168; 18 R448) -/

section

namespace Sys2Proof.Machine

/-- A change of one warp is still found behind lines that enter the LLC. -/
theorem WarpBecomes.get?_filled {s t u : State} {k : Nat} {w : Warp} (hw : WarpBecomes s t k w) (hu : Filled t u) :
    u.warps.get? k = some w := by
  have hwarps : u.warps = t.warps := by rw [hu.1]
  rw [hwarps, hw.2 k, if_pos rfl]

end Sys2Proof.Machine

namespace Sys2Proof.Tests
open Machine

/-- A load of `v8` and `v9` is open in lanes 1 and 2; the word that waits in `v8`, lane 1, is poisoned (18 R448). -/
def wMarked (w : Warp) : Warp := { wLog (.ld yLd) w with marks := [(markV 8 1, ())] }

/-- The entry of that load in the operand log. -/
def eMarked : LogEntry :=
  ⟨0, .ld yLd, 4#32, 7#32, 7#32, 1#32, [0x3000#64, 0x3040#64, 0x3000#64], [5#64, 6#64, 0x1122334455667788#64], [], [],
    false, [(1, 2#32)], 0, 0#512⟩

/-- The load may return: nothing older stands in the log, and each open lane reaches its line. -/
theorem wMarked_mayReturn :
    slotWarp (sOf 0 wMarked) 0 0 0 = some (0, (pOf 0 wMarked).w)
    ∧ (sOf 0 wMarked).place? 0 = some (pOf 0 wMarked)
    ∧ (pOf 0 wMarked).w.log.get? 2 = some eMarked
    ∧ (∀ ke ∈ (pOf 0 wMarked).w.log, 2 ≤ ke.1)
    ∧ eMarked.open ≠ 0#32 ∧ eMarked.active &&& eMarked.done = eMarked.done
    ∧ ∀ l ∈ lanesOf eMarked.open,
        (reachB (sOf 0 wMarked) (pOf 0 wMarked) .load (eMarked.addr.getD l 0#64)).isSome = true
        ∧ (sOf 0 wMarked).windowBusy (pOf 0 wMarked) (eMarked.addr.getD l 0#64).toNat 8 false = false := by
  decide +kernel

/-- The return writes lane 1 of `v8`, and an element that is overwritten is poisoned no more. -/
theorem marks_of_wMarked_returned :
    ((memoryReturn 0 0 0 2 (sOf 0 wMarked)).warps.get? 0).map (·.marks) = some [] := by
  decide +kernel

end Sys2Proof.Tests

open Sys2Proof Sys2Proof.Machine Sys2Proof.Tests

/-- Refutes O41: its clause on loads keeps every field of the warp but the vector registers, the log and the wakes. A load
whose destination holds a poisoned element overwrites it, and so takes its poison mark away as well (18 R448). -/
theorem not_memoryEvents : ¬ Obligations.MemoryEvents := by
  unfold Obligations.MemoryEvents
  rintro ⟨-, hload, -⟩
  obtain ⟨hslot, hplace, hentry, hfirst, hopen, hdone, hlanes⟩ := wMarked_mayReturn
  obtain ⟨t, u, w, hexec, hfill, hwarp, hw, -⟩ :=
    hload (sOf 0 wMarked) (pOf 0 wMarked) 0 0 0 2 yLd eMarked 8
      (fun l => reached (sOf 0 wMarked) (pOf 0 wMarked) .load (eMarked.addr.getD l 0#64))
      hslot hplace hentry rfl rfl rfl rfl hfirst hopen hdone
      fun l hl => ⟨reach_reached (hlanes l hl).1, (hlanes l hl).2⟩
  cases hexec
  have hfound : (memoryReturn 0 0 0 2 (sOf 0 wMarked)).warps.get? 0 = some w := hwarp.get?_filled hfill
  -- the clause keeps the mark
  have hkept : w.marks = [(markV 8 1, ())] := by rw [hw]; rfl
  -- the machine ends it
  have hgone := marks_of_wMarked_returned
  rw [hfound, Option.map_some, hkept] at hgone
  cases hgone

end

/-! ## Barrier instructions (07 R186, R187; 11 R267; 17 R437) -/

section

namespace Sys2Proof.Machine

/-! ### Frames of an instruction that reads its operands and retires -/

theorem sameBytes_of_mem {s t : State} (h : t.mem = s.mem) : SameBytes s t := fun a => by
  rw [State.byteAt, State.byteAt, h]

/-- The registers of every warp are as before when one warp alone changes and keeps its own. -/
theorem allRegsSame_of_warp {s t : State} {k : Nat} {w0 w : Warp} (hs : s.warps.get? k = some w0)
    (ht : t.warps.get? k = some w) (hothers : ∀ j, j ≠ k → t.warps.get? j = s.warps.get? j)
    (hregs : (w.v, w.u, w.p, w.tiles, w.accs, w.laccs) = (w0.v, w0.u, w0.p, w0.tiles, w0.accs, w0.laccs)) :
    AllRegsSame s t := fun j => by
  by_cases hj : j = k
  · rw [hj, ht, hs, Option.map_some, Option.map_some, hregs]
  · rw [hothers j hj]

/-- An instruction without a destination that reads its sources and retires. -/
theorem computed_consume_retire {s : State} {p : Place} {i : Issue} (hi : Issuing s p i) {m : LaneMask} (hm : m ≠ 0#32)
    (xs : List Src) :
    Computed s ((s.consume p m xs).retire i) p i m m xs (.imm 0) 0 (fun _ => []) 7 0#32 0 Counts.none := by
  obtain ⟨hkey, hw⟩ := State.place?_warp hi.2
  rw [← hkey] at hw
  obtain ⟨u, hdraw, hd⟩ := drawn_of_payable (.inl rfl) hw
  cases hdraw
  exact computed_of_drawn hd hkey.symm hw m m hm xs (.imm 0) 0 (fun _ => []) (fun _ _ => rfl) Counts.none

/-! ### Lanes that block -/

/-- Wake records put for lanes, all of one condition. -/
theorem get?_foldl_put {β : Type} (ls : List Nat) (v : β) (t : Tab β) (l : Nat) :
    ((ls.map fun k => (k, v)).foldl (fun t kv => t.put kv.1 kv.2) t).get? l = if l ∈ ls then some v else t.get? l := by
  induction ls generalizing t with
  | nil => rfl
  | cons a ls ih =>
    rw [List.map_cons, List.foldl_cons, ih, Tab.get?_put]
    by_cases h : l = a <;> simp [h]

/-- The lanes of a path that blocks wait for the one condition. -/
theorem get?_allLanes (m : LaneMask) (k : Wake) (t : Tab Wake) (l : Nat) :
    ((allLanes m k).foldl (fun t lw => t.put lw.1 lw.2) t).get? l = if l < 32 ∧ m.getLsbD l then some k else t.get? l := by
  simp only [allLanes, get?_foldl_put, mem_lanesOf]

/-- Blocking gives lanes their wake records; beside those only the warp's clause positions, its fairness turn, its wait for
tempi and its yield may differ, and no other warp does (06 R160). -/
theorem State.blockLanes_spec {s : State} {k : Nat} {w0 : Warp} (core : Nat) (ws : List (Nat × Wake))
    (hw : s.warps.get? k = some w0) :
    (∀ j, j ≠ k → (s.blockLanes k core ws).warps.get? j = s.warps.get? j)
    ∧ ∃ w, (s.blockLanes k core ws).warps.get? k = some w
      ∧ w = { w0 with wake := ws.foldl (fun t lw => t.put lw.1 lw.2) w0.wake, inside := w.inside, fairLeft := w.fairLeft
                      tempoSince := w.tempoSince, yieldUntil := w.yieldUntil } := by
  unfold State.blockLanes
  generalize hu : s.modWarp k _ = u
  have hothers : ∀ j, j ≠ k → u.warps.get? j = s.warps.get? j := fun j hj => by
    rw [← hu, State.get?_modWarp, if_neg hj]
  have hget : ∃ x, u.warps.get? k = some x ∧ x = { w0 with wake := ws.foldl (fun t lw => t.put lw.1 lw.2) w0.wake
                                                           inside := x.inside, fairLeft := x.fairLeft } := by
    rw [← hu, State.get?_modWarp, if_pos rfl, hw]
    exact ⟨_, rfl, rfl⟩
  obtain ⟨x, hx, hrest⟩ := hget
  simp only [hx]
  split
  · refine ⟨fun j hj => ?_, { x with tempoSince := none, yieldUntil := 0 }, ?_, by rw [hrest]⟩
    · rw [State.get?_modWarp, if_neg hj, State.dropWait, State.modCore_warps, State.get?_modWarp, if_neg hj, hothers j hj]
    · rw [State.get?_modWarp, if_pos rfl, State.dropWait, State.modCore_warps, State.get?_modWarp, if_pos rfl, hx]
      rfl
  · exact ⟨hothers, x, hx, by rw [hrest]⟩

/-- The lanes of a path that blocks: what else the machine holds is as before. -/
theorem State.blockLanes_path {s : State} {k : Nat} {w0 : Warp} (core : Nat) (m : LaneMask) (x : Wake)
    (hw : s.warps.get? k = some w0) :
    let t := s.blockLanes k core (allLanes m x)
    AllRegsSame s t ∧ SameBytes s t ∧ t.arrivals = s.arrivals
    ∧ ∃ w, t.warps.get? k = some w ∧ w.pcv = w0.pcv ∧ w.fifo = w0.fifo
      ∧ ∀ l, w.wake.get? l = if l < 32 ∧ m.getLsbD l then some x else w0.wake.get? l := by
  intro t
  obtain ⟨hothers, w, hget, hrest⟩ := State.blockLanes_spec core (allLanes m x) hw
  have ht : t = { s with warps := t.warps, cores := t.cores } := State.blockLanes_rest ..
  refine ⟨allRegsSame_of_warp hw hget hothers ?_, sameBytes_of_mem ?_, ?_, w, hget, ?_, ?_, fun l => ?_⟩
  · rw [hrest]
  · rw [ht]
  · rw [ht]
  · rw [hrest]
  · rw [hrest]
  · rw [hrest]
    exact get?_allLanes m x w0.wake l

/-! ### Releases and superseded results -/

/-- A release changes the gangs alone, by what the gangs hold. -/
theorem State.releaseHome_congr {s t : State} (p : Place) (h : t.gangs = s.gangs) :
    t.releaseHome p = { t with gangs := (s.releaseHome p).gangs } := by
  unfold State.releaseHome
  rw [h]
  split
  · rw [State.modGang, State.modGang, h]
  · rw [← h]

@[simp] theorem State.releaseHome_arrivals (s : State) (p : Place) : (s.releaseHome p).arrivals = s.arrivals := by
  rw [s.releaseHome_congr p rfl]

@[simp] theorem State.releaseHome_coreCc (s : State) (p : Place) (k : Nat) : (s.releaseHome p).coreCc k = s.coreCc k := by
  rw [s.releaseHome_congr p rfl]
  rfl

@[simp] theorem supersedeLog_nil (p : Place) (i : Issue) (m : LaneMask) (t : State) : supersedeLog p i m [] t = t := by
  unfold supersedeLog
  exact if_pos (List.all_eq_true.2 fun _ _ => List.all_eq_true.2 fun _ _ => rfl)

theorem supersedeLog_gangs (p : Place) (i : Issue) (m : LaneMask) (ds : List (Operand × Nat)) (t : State) :
    (supersedeLog p i m ds t).gangs = t.gangs := by
  rw [(supersedeLog_spec p i m ds t).1]

/-- Superseding looks at the warps alone. -/
theorem supersedeLog_sent (p : Place) (i : Issue) (m : LaneMask) (ds : List (Operand × Nat)) (t : State)
    (gs : Tab Gang) (as : List Arrival) :
    supersedeLog p i m ds { t with gangs := gs, arrivals := as }
      = { supersedeLog p i m ds t with gangs := gs, arrivals := as } := by
  simp only [supersedeLog]
  split <;> rfl

/-- A release and an arrival sent before the instruction retires stand in the state as if made after it. -/
theorem supersedeLog_retire_sent (p : Place) (i : Issue) (m : LaneMask) (ds : List (Operand × Nat)) (u : State)
    (as : List Arrival) :
    supersedeLog p i m ds ({ u.releaseHome p with arrivals := as }.retire i)
      = { (supersedeLog p i m ds (u.retire i)).releaseHome p with arrivals := as } := by
  have hgangs : (supersedeLog p i m ds (u.retire i)).gangs = u.gangs := supersedeLog_gangs ..
  rw [State.releaseHome_congr p hgangs, State.releaseHome_congr p (rfl : u.gangs = u.gangs)]
  exact supersedeLog_sent p i m ds (u.retire i) (u.releaseHome p).gangs as

/-! ### `arv`, `bwait` and `bsync` -/

/-- The word that the first source supplies, as the model and as the statements read it. -/
theorem firstWord_eq (vs : List (List Word)) : (vs.headD []).headD 0#32 = (vs.getD 0 []).getD 0 0#32 := by
  cases vs with
  | nil => rfl
  | cons v _ => cases v <;> rfl

section
variable {s : State} {p : Place} {i : Issue} {b : Nat} (hi : Issuing s p i)
include hi

/-- `arv` with its operands at hand and the accesses of its lanes performed (07 R186). -/
theorem execArv_sends {x : ArvF} (hr : Ready s p i x.g [src1 x.e] [(x.d, 1)]) (ho : NoOpen p (activeOf p i x.g))
    (hb : p.bar x.bar.val = some b) :
    let m := activeOf p i x.g
    let e : Word := ((srcVals s p (lowLane m) [] [src1 x.e]).getD 0 []).getD 0 0#32
    let t := supersedeLog p i m [(x.d, 1)] ((s.consume p m [src1 x.e]).retire i)
    execArv x s = .next { t.releaseHome p with
      arrivals := s.arrivals ++ [⟨s.coreCc p.t.core + 2, b, p.key, e.toNat % 2 ^ 24, i.path, m, some x.d⟩] } := by
  intro m e t
  obtain ⟨hkey, hw⟩ := State.place?_warp hi.2
  obtain ⟨-, -, hu, -⟩ := consume_spec m [src1 x.e] (hkey ▸ hw)
  have harr : ((s.consume p m [src1 x.e]).releaseHome p).arrivals = s.arrivals := by
    rw [State.releaseHome_arrivals, hu]
  have hcc : ((s.consume p m [src1 x.e]).releaseHome p).coreCc p.t.core = s.coreCc p.t.core := by
    rw [State.releaseHome_coreCc, hu]
    rfl
  have hbytes : bits e 23 0 = e.toNat % 2 ^ 24 := by simp [bits]
  unfold execArv
  rw [settle_issuing hi]
  simp only [hb, withOperands_ready hr, checkDone_ok i ho]
  rw [harr, hcc, firstWord_eq, hbytes]
  exact congrArg Host.Outcome.next (supersedeLog_retire_sent p i m [(x.d, 1)] _ _)

/-- `bwait` on a parity that is not the barrier's goes on (07 R187). -/
theorem execBwait_passes {x : BwaitF} {y : Bar} (hr : Ready s p i x.g [src1 x.q] []) (hb : p.bar x.bar.val = some b)
    (hy : s.bars.get? b = some y)
    (hq : y.ph ≠ (((srcVals s p (lowLane (activeOf p i x.g)) [] [src1 x.q]).getD 0 []).getD 0 0#32).getLsbD 0) :
    execBwait x s = .next ((s.consume p (activeOf p i x.g) [src1 x.q]).retire i) := by
  rw [← firstWord_eq] at hq
  unfold execBwait
  rw [settle_issuing hi]
  simp only [hb, withOperands_ready hr, hy, Option.map_some, if_neg (mt Option.some.inj hq), Except.map, supersedeLog_nil]

/-- `bwait` on the barrier's parity blocks its path (07 R187). -/
theorem execBwait_blocks {x : BwaitF} {y : Bar} (hr : Ready s p i x.g [src1 x.q] []) (hb : p.bar x.bar.val = some b)
    (hy : s.bars.get? b = some y)
    (hq : y.ph = (((srcVals s p (lowLane (activeOf p i x.g)) [] [src1 x.q]).getD 0 []).getD 0 0#32).getLsbD 0) :
    execBwait x s = .next (s.blockLanes p.key p.t.core (allLanes i.path (.barrier x.bar.val))) := by
  rw [← firstWord_eq] at hq
  unfold execBwait
  rw [settle_issuing hi]
  simp only [hb, withOperands_ready hr, hy, Option.map_some, if_pos (congrArg some hq), Except.map, applyStop]

/-- `bsync` with the accesses of its lanes performed sends its arrival and blocks its path behind itself (07 R187). -/
theorem execBsync_sends {x : BsyncF} (hr : Ready s p i x.g [] []) (ho : NoOpen p (activeOf p i x.g))
    (hb : p.bar x.bar.val = some b) :
    execBsync x s = .next (({ s.releaseHome p with
      arrivals := s.arrivals
        ++ [(⟨s.coreCc p.t.core + 2, b, p.key, 0, i.path, activeOf p i x.g, none⟩ : Arrival)] }.retire i).blockLanes
          p.key p.t.core (allLanes i.path (.bsync x.bar.val false))) := by
  unfold execBsync
  rw [settle_issuing hi]
  simp only [hb, withOperands_ready hr, checkDone_ok i ho, Except.map, supersedeLog_nil]
  rw [State.releaseHome_arrivals, State.releaseHome_coreCc]

end

/-- What a `bsync` leaves: beside its arrival, the release and its path, which stands past it and waits, nothing is seen. -/
theorem bsync_path {s : State} {p : Place} {i : Issue} (hi : Issuing s p i) (as : List Arrival) (k : Wake) :
    let t := ({ s.releaseHome p with arrivals := as }.retire i).blockLanes p.key p.t.core (allLanes i.path k)
    AllRegsSame s t ∧ SameBytes s t ∧ t.arrivals = as
    ∧ ∃ w, t.warps.get? p.key = some w ∧ w.fifo = p.w.fifo ∧ PcsAt p.w w i 0#32 (fun _ => 0#32)
      ∧ ∀ l, w.wake.get? l = if l < 32 ∧ i.path.getLsbD l then some k else p.w.wake.get? l := by
  obtain ⟨hkey, hw⟩ := State.place?_warp hi.2
  rw [s.releaseHome_congr p rfl]
  generalize hu : ({ s with gangs := (s.releaseHome p).gangs, arrivals := as } : State) = u
  have hwarps : u.warps = s.warps := by rw [← hu]
  have hmem : u.mem = s.mem := by rw [← hu]
  have harr : u.arrivals = as := by rw [← hu]
  obtain ⟨hrest, hget⟩ := State.retire_spec u i
  obtain ⟨hstep, hpc⟩ := stepOver_rest p.w i.path i.pc i.len i.last
  have hretired : (u.retire i).warps.get? p.key = some (p.w.stepOver i.path i.pc i.len i.last) := by
    rw [hget, if_pos hkey, hwarps, hw, Option.map_some]
  obtain ⟨hregs, hbytes, harrivals, w, hwget, hpcv, hfifo, hwake⟩ :=
    State.blockLanes_path p.t.core i.path k hretired
  have hregs0 : AllRegsSame s (u.retire i) := by
    refine allRegsSame_of_warp (hkey ▸ hw) hretired (fun j hj => ?_) (by rw [hstep])
    rw [hget, if_neg (hkey ▸ hj), hwarps]
  refine ⟨fun j => (hregs j).trans (hregs0 j), fun a => (hbytes a).trans (sameBytes_of_mem hmem a), harrivals.trans harr,
    w, hwget, ?_, fun l hl => ?_, fun l => ?_⟩
  · rw [hfifo, hstep]
  · rw [Warp.pc, hpcv, BitVec.getLsbD_zero]
    exact hpc l hl
  · rw [hwake, hstep]

end Sys2Proof.Machine

open Sys2Proof Sys2Proof.Machine

/-- Settles O37: with its operands at hand each of the three passes every check of its frame. `arv` sends the arrival behind
the release; `bwait` compares the parity and goes on or blocks; `bsync` sends its arrival, retires and blocks. -/
theorem barriers : Obligations.Barriers := by
  unfold Obligations.Barriers
  refine ⟨fun x s p i b hi hr ho hb => ?_, fun x s p i b y hi hr hb hy => ⟨fun hq => ?_, fun hq => ?_⟩,
    fun x s p i b hi hr ho hb => ?_⟩
  · exact ⟨_, execArv_sends hi hr ho hb, (computed_consume_retire hi hr.active _).superseded _ _⟩
  · exact ⟨_, execBwait_passes hi hr hb hy hq, computed_consume_retire hi hr.active _⟩
  · obtain ⟨hkey, hw⟩ := State.place?_warp hi.2
    obtain ⟨hregs, hbytes, -, w, hget, hpcv, hfifo, hwake⟩ :=
      State.blockLanes_path p.t.core i.path (.barrier x.bar.val) (hkey ▸ hw)
    exact ⟨_, w, execBwait_blocks hi hr hb hy hq, hregs, hbytes, hget, hpcv, hfifo, hwake⟩
  · obtain ⟨hregs, hbytes, harr, w, hrest⟩ := bsync_path hi _ (.bsync x.bar.val false)
    exact ⟨_, w, execBsync_sends hi hr ho hb, hregs, hbytes, harr, hrest⟩

end

/-! ## Events at barriers (07 R184 to R190) -/

section

namespace Sys2Proof.Machine

/-! ### One value of a table replaced -/

theorem atKey_modify {β : Type} {t : Tab β} {k : Nat} {v : β} (f : β → β) (h : t.get? k = some v) :
    AtKey t (t.modify k f) k (f v) := fun j => by
  rw [Tab.get?_modify, h, Option.map_some]

theorem AtKey.trans {β : Type} {t0 t1 t2 : Tab β} {k : Nat} {v w : β} (h1 : AtKey t0 t1 k v) (h2 : AtKey t1 t2 k w) :
    AtKey t0 t2 k w := fun j => by
  rw [h2 j, h1 j]
  split <;> rfl

theorem AtKey.get? {β : Type} {t0 t : Tab β} {k : Nat} {v : β} (h : AtKey t0 t k v) : t.get? k = some v :=
  (h k).trans (if_pos rfl)

/-- A discarded arrival or bytes that are too many count in `%barmis` of one core (07 R189). -/
theorem atKey_barmis (s : State) (core n : Nat) :
    AtKey s.cores (s.barmis core n).cores core { s.core core with barmis := (s.core core).barmis + BitVec.ofNat 32 n } :=
  fun j => Tab.get?_put s.cores core j _

/-- Counting in `%barmis` changes cores alone. -/
theorem barmis_foldl_rest (cs : List Nat) (s : State) :
    let t := cs.foldl (fun s c => s.barmis c 1) s
    t = { s with cores := t.cores } := by
  induction cs generalizing s with
  | nil => rfl
  | cons c cs ih =>
    simp only [List.foldl_cons]
    exact ih (s.barmis c 1)

/-! ### The completion test (07 R184, R185) -/

/-- The phase is complete: every arrival is counted and every byte there. -/
def Bar.complete (b : Bar) : Prop := b.st = .armed ∧ b.cnt = b.expw ∧ b.bexp ≤ b.barr

section
variable {s : State} {k : Nat} {b : Bar} (hb : s.bars.get? k = some b)
include hb

theorem phaseTest_incomplete (hc : ¬ b.complete) : phaseTest s k = s := by
  unfold phaseTest
  rw [hb]
  exact if_neg hc

/-- The release of a complete phase: its barrier, the waits of its warps and counts of bytes past the limit. -/
theorem phaseTest_complete (hc : b.complete) :
    ∃ cs, phaseTest s k = { s with
      cores := cs, bars := s.bars.modify k fun x => x.released (s.clusterCc b.cluster)
      warps := s.warps.mapV fun j w => if b.group.contains j then wakeBarrier b j w else w }
      ∧ (b.late = [] → cs = s.cores) := by
  have hrest := barmis_foldl_rest b.overflows s
  refine ⟨(b.overflows.foldl (fun s c => s.barmis c 1) s).cores, ?_, fun hl => ?_⟩
  · unfold phaseTest
    rw [hb]
    refine (if_pos hc).trans ?_
    simp only
    rw [hrest]
    rfl
  · rw [Bar.overflows, hl]
    rfl

end

/-- Bytes that stay below the limit are added. -/
theorem foldl_bytes (as : List LateArr) (n : Nat) (h : n + (as.map (·.e)).sum < 2 ^ 24) :
    as.foldl (fun n a => Nat.min (n + a.e) maxBytes) n = n + (as.map (·.e)).sum := by
  induction as generalizing n with
  | nil => rfl
  | cons a as ih =>
    rw [List.map_cons, List.sum_cons] at h ⊢
    have hmin : Nat.min (n + a.e) maxBytes = n + a.e := Nat.min_eq_left (by simp only [maxBytes]; omega)
    rw [List.foldl_cons, hmin, ih _ (by omega), Nat.add_assoc]

/-- A release for which nothing waits beyond its phase. -/
theorem Bar.released_of_late_nil {b : Bar} (cc : Nat) (h : b.late = []) :
    b.released cc = { b with st := .released, ph := !b.ph, cnt := 0, barr := 0, arrived := [], bexp := b.txb, relAt := cc } := by
  rw [Bar.released, h]
  rfl

/-- A release for which nothing waits beyond its phase changes its barrier and the waits of the warps that it serves. -/
theorem phaseTest_releases {s : State} {k : Nat} {b : Bar} (hb : s.bars.get? k = some b) (hc : b.complete) (hl : b.late = []) :
    let t := phaseTest s k
    t = { s with bars := t.bars, warps := t.warps }
    ∧ AtKey s.bars t.bars k { b with
        st := .released, ph := !b.ph, cnt := 0, barr := 0, arrived := [], bexp := b.txb, relAt := s.clusterCc b.cluster }
    ∧ ∀ j, t.warps.get? j = (s.warps.get? j).map fun w => if b.group.contains j then wakeBarrier b j w else w := by
  obtain ⟨cs, ht, hcs⟩ := phaseTest_complete hb hc
  rw [hcs hl] at ht
  have hbars := atKey_modify (fun x => x.released (s.clusterCc b.cluster)) hb
  rw [Bar.released_of_late_nil _ hl] at hbars
  rw [ht]
  exact ⟨rfl, hbars, Tab.get?_mapV s.warps fun j w => if b.group.contains j then wakeBarrier b j w else w⟩

/-! ### The lanes that a release wakes (07 R187) -/

/-- No lane waits any more for the phase that a release ends. -/
theorem wakeBarrier_ends {b : Bar} (hl : b.late = []) (k : Nat) (w : Warp) (lw : Nat × Wake)
    (h : lw ∈ (wakeBarrier b k w).wake) : lw.2 ≠ .barrier b.idx ∧ lw.2 ≠ .bsync b.idx true := by
  obtain ⟨⟨l, x⟩, -, rfl⟩ := List.mem_map.1 h
  simp only [hl, List.foldl_nil, BitVec.getLsbD_zero, Bool.false_eq_true, and_false, if_false]
  cases x with
  | barrier i => by_cases hi : i = b.idx <;> simp [hi]
  | bsync i arrived => cases arrived <;> by_cases hi : i = b.idx <;> simp [hi]
  | _ => simp

/-- A lane blocked in `bwait` at the barrier may issue behind the release. -/
theorem wakeBarrier_get? {b : Bar} {w : Warp} {l : Nat} (k : Nat) (h : w.wake.get? l = some (.barrier b.idx)) :
    (wakeBarrier b k w).wake.get? l = some (.released b.idx) := by
  rw [wakeBarrier, Tab.get?_mapV, h, Option.map_some]
  exact congrArg some (if_pos rfl)

/-- A warp whose waits are those of another table's has its wake records. -/
theorem wake_get?_of_same {t u : Tab Warp} {k l : Nat} {x : Warp} {v : Wake}
    (h : (u.get? k).map (·.wake) = (t.get? k).map (·.wake)) (hx : u.get? k = some x)
    (hv : (t.get? k).bind (·.wake.get? l) = some v) : x.wake.get? l = some v := by
  obtain ⟨y, hy, hyl⟩ := Option.bind_eq_some_iff.1 hv
  rw [hx, hy] at h
  have hsame : x.wake = y.wake := Option.some.inj h
  rwa [hsame]

/-- What a release does to a warp touches its waits alone. -/
theorem RegsGet.woken {w0 w : Warp} {m : LaneMask} {d : Operand} {n : Nat} {val : Nat → List Word}
    (h : RegsGet w0 w m d n val) (b : Bar) (k : Nat) :
    RegsGet w0 (if b.group.contains k then wakeBarrier b k w else w) m d n val := by
  split <;> exact h

/-! ### The result of an arrival (07 R186) -/

/-- A word that reaches registers: of the state one warp changes, and its waits do not. -/
theorem writeOp_word {s : State} {p : Place} {w0 : Warp} {d : Operand} (hw : s.warps.get? p.key = some w0)
    (hd : ∀ q, d ≠ .port q) (m : LaneMask) (x : Word) :
    let t := s.writeOp p m d fun _ => [x]
    t = { s with warps := t.warps } ∧ (∀ j, (t.warps.get? j).map (·.wake) = (s.warps.get? j).map (·.wake))
    ∧ ∃ w, t.warps.get? p.key = some w ∧ RegsGet w0 w m d 1 fun _ => [x] := by
  cases d with
  | v r =>
    refine ⟨rfl, fun j => ?_, (lanesOf m).foldl (fun w l => w.setVs r.val l [x]) w0, ?_, fun q l hl => ?_, fun q => ?_⟩
    · rw [State.writeOp, State.get?_modWarp]
      split
      next hj =>
        rw [hj, hw, Option.map_some, setLanes_rest]
        rfl
      next => rfl
    · rw [State.writeOp, State.get?_modWarp, if_pos rfl, hw, Option.map_some]
    · rw [setLanes_getV _ (nodup_lanesOf m) (fun l h => ((mem_lanesOf m l).1 h).1) r.val 1 _ (fun _ _ => rfl) w0 q l hl]
      simp only [mem_lanesOf, hl, true_and]
    · rw [setLanes_rest]
      rfl
  | s r =>
    refine ⟨rfl, fun j => ?_, w0.setUs r.val [x], ?_, fun q l _ => ?_, fun q => setUs_getU w0 r.val q [x]⟩
    · rw [State.writeOp, State.get?_modWarp]
      split
      next hj =>
        rw [hj, hw, Option.map_some, setUs_rest]
        rfl
      next => rfl
    · rw [State.writeOp, State.get?_modWarp, if_pos rfl, hw, Option.map_some]
    · rw [setUs_rest]
      rfl
  | port q => exact absurd rfl (hd q)
  | spec y => exact ⟨rfl, fun _ => rfl, w0, hw, fun _ _ _ => rfl, fun _ => rfl⟩
  | imm y => exact ⟨rfl, fun _ => rfl, w0, hw, fun _ _ _ => rfl, fun _ => rfl⟩

/-! ### What reaches a barrier in a cc (07 R185) -/

/-- Messages of which none is due: none is taken and all stay. -/
theorem filter_due_none {α : Type} {xs : List α} {bar due : α → Nat} {k cc : Nat}
    (h : ∀ x ∈ xs, bar x = k → cc < due x) :
    (xs.filter fun x => decide (bar x = k) && decide (due x ≤ cc)) = []
    ∧ (xs.filter fun x => !(decide (bar x = k) && decide (due x ≤ cc))) = xs := by
  have hnot : ∀ x ∈ xs, (decide (bar x = k) && decide (due x ≤ cc)) = false := fun x hx => by
    by_cases hk : bar x = k
    · rw [decide_eq_false (Nat.not_le.2 (h x hx hk)), Bool.and_false]
    · rw [decide_eq_false hk, Bool.false_and]
  refine ⟨List.filter_eq_nil_iff.2 fun x hx => ?_, List.filter_eq_self.2 fun x hx => ?_⟩
  · rw [hnot x hx]
    exact Bool.false_ne_true
  · rw [hnot x hx]
    rfl

/-- The one message that is due is the one found. -/
theorem find?_of_filter {α : Type} {xs : List α} {q : α → Bool} {a : α} (h : xs.filter q = [a]) : xs.find? q = some a := by
  rw [← List.head?_filter, h, List.head?_cons]

theorem reachBarrier_none {s : State} {k : Nat} (cc : Nat) (he : ∀ m ∈ s.exits, m.bar = k → cc < m.due)
    (ha : ∀ a ∈ s.arrivals, a.bar = k → cc < a.due) : reachBarrier s k cc = s := by
  obtain ⟨he1, he2⟩ := filter_due_none (bar := ExitMsg.bar) (due := ExitMsg.due) he
  obtain ⟨ha1, ha2⟩ := filter_due_none (bar := Arrival.bar) (due := Arrival.due) ha
  unfold reachBarrier
  simp only [he1, he2, ha1, ha2]
  rfl

/-- The state in which the arrivals due at a barrier are no longer on their way. -/
def State.arrivalsTaken (s : State) (k : Nat) : State :=
  { s with arrivals := s.arrivals.filter fun y => !(decide (y.bar = k) && decide (y.due ≤ barCc s k)) }

/-- The one arrival that is due arrives; then the completion test is made. -/
theorem barrierArrival_arrives {s : State} {a : Arrival}
    (ha : (s.arrivals.filter fun y => decide (y.bar = a.bar) && decide (y.due ≤ barCc s a.bar)) = [a])
    (he : ∀ m ∈ s.exits, m.bar = a.bar → barCc s a.bar < m.due) :
    barrierArrival a.bar s = phaseTest (arrive (s.arrivalsTaken a.bar) a) a.bar := by
  obtain ⟨he1, he2⟩ := filter_due_none (bar := ExitMsg.bar) (due := ExitMsg.due) he
  unfold barrierArrival
  rw [find?_of_filter ha]
  simp only [barrierCycle, reachBarrier, ha, he1, he2]
  rfl

/-- The one exit that is due takes its warp out; then the completion test is made. -/
theorem exitReachesBarrier_drops {s : State} {m : ExitMsg}
    (he : (s.exits.filter fun y => decide (y.bar = m.bar) && decide (y.due ≤ barCc s m.bar)) = [m])
    (ha : ∀ a ∈ s.arrivals, a.bar = m.bar → barCc s m.bar < a.due) :
    exitReachesBarrier m.bar m.warp s = phaseTest (dropOut { s with
      exits := s.exits.filter fun y => !(decide (y.bar = m.bar) && decide (y.due ≤ barCc s m.bar)) } m.bar m.warp) m.bar := by
  obtain ⟨ha1, ha2⟩ := filter_due_none (bar := Arrival.bar) (due := Arrival.due) ha
  have hfound : (s.exits.find? fun y =>
      decide (y.bar = m.bar) && decide (y.warp = m.warp) && decide (y.due ≤ barCc s m.bar)).isSome = true := by
    have hm : m ∈ s.exits.filter fun y => decide (y.bar = m.bar) && decide (y.due ≤ barCc s m.bar) := by
      rw [he]
      exact List.mem_singleton_self m
    obtain ⟨hmem, hdue⟩ := List.mem_filter.1 hm
    rw [List.find?_isSome]
    exact ⟨m, hmem, by simpa using hdue⟩
  obtain ⟨y, hy⟩ := Option.isSome_iff_exists.1 hfound
  unfold exitReachesBarrier
  rw [hy]
  simp only [barrierCycle, reachBarrier, he, ha1, ha2]
  rfl

/-! ### An arrival at its slot (07 R185, R186) -/

/-- An Armed or Released barrier takes arrivals. -/
theorem slot_open {b : Bar} (h : b.st = .armed ∨ b.st = .released) : ¬ (b.st = .free ∨ b.st = .saved) := by
  rcases h with h | h <;> simp [h]

/-- A barrier that has counted an arrival, with its bytes (07 R185, R189). -/
def Bar.withCounted (b : Bar) (a : Arrival) : Bar :=
  { b with cnt := b.cnt + 1, arrived := b.arrived ++ [a.warp], bexp := Nat.min (b.bexp + a.e) maxBytes }

/-- A barrier that has put off the arrival of an `arv` to its next phase (log 14). -/
def Bar.withLate (b : Bar) (a : Arrival) (core : Nat) : Bar :=
  { b with late := b.late ++ [⟨a.warp, a.e, core, a.path, false⟩] }

theorem Bar.withCounted_eq {b : Bar} {a : Arrival} (h : b.bexp + a.e < 2 ^ 24) :
    b.withCounted a = { b with cnt := b.cnt + 1, arrived := b.arrived ++ [a.warp], bexp := b.bexp + a.e } := by
  have hmin : Nat.min (b.bexp + a.e) maxBytes = b.bexp + a.e := Nat.min_eq_left (by simp only [maxBytes]; omega)
  rw [Bar.withCounted, hmin]

section
variable {s : State} {a : Arrival} {b : Bar} {p : Place} {d : Operand} (hb : s.bars.get? a.bar = some b)
  (hp : s.place? a.warp = some p) (hst : b.st = .armed ∨ b.st = .released) (hd : a.d = some d)
include hb hp hst hd

/-- A second arrival of a warp in a phase is discarded (07 R189). -/
theorem arrive_again (h : a.warp ∈ b.arrived ∨ ∃ y ∈ b.late, y.warp = a.warp) :
    arrive s a = (s.barmis p.t.core 1).writeOp p a.active d fun _ => [if b.ph then 1#32 else 0#32] := by
  unfold arrive
  simp only [hb, hp, if_neg (slot_open hst)]
  rw [if_pos (by simpa using h), arrivalResult, hd]

/-- One that finds every arrival counted belongs to the next phase (log 14). -/
theorem arrive_late (h1 : a.warp ∉ b.arrived) (h2 : ∀ y ∈ b.late, y.warp ≠ a.warp) (hc : b.cnt = b.expw) :
    arrive s a = (s.modBar a.bar fun b => b.withLate a p.t.core).writeOp
      p a.active d fun _ => [if !b.ph then 1#32 else 0#32] := by
  unfold arrive
  simp only [hb, hp, if_neg (slot_open hst)]
  rw [if_neg (by simpa using ⟨h1, h2⟩), if_pos hc, arrivalResult, hd]
  rfl

/-- Any other is counted, with its bytes (07 R185). -/
theorem arrive_counts (h1 : a.warp ∉ b.arrived) (h2 : ∀ y ∈ b.late, y.warp ≠ a.warp) (hc : b.cnt ≠ b.expw)
    (he : b.bexp + a.e < 2 ^ 24) :
    arrive s a = ((s.modBar a.bar fun b => b.withCounted a).barmis p.t.core 0).writeOp
      p a.active d fun _ => [if b.ph then 1#32 else 0#32] := by
  have hfits : decide (maxBytes < b.bexp + a.e) = false := decide_eq_false (by simp only [maxBytes]; omega)
  unfold arrive
  simp only [hb, hp, if_neg (slot_open hst)]
  rw [if_neg (by simpa using ⟨h1, h2⟩), if_neg hc, arrivalResult, hd, hfits]
  rfl

end

/-! ### The events -/

/-- What an arrival that is due meets: it is the only one, no exit is due, and its barrier's phase is not complete. -/
structure ArrivalDue (s : State) (p : Place) (a : Arrival) (b : Bar) (d : Operand) : Prop where
  due : (s.arrivals.filter fun y => decide (y.bar = a.bar) && decide (y.due ≤ barCc s a.bar)) = [a]
  exits : ∀ m ∈ s.exits, m.bar = a.bar → barCc s a.bar < m.due
  bar : s.bars.get? a.bar = some b
  place : s.place? a.warp = some p
  st : b.st = .armed ∨ b.st = .released
  incomplete : ¬ b.complete
  dst : a.d = some d
  regs : ∀ q, d ≠ .port q

/-- The parity an arrival returns has reached its destination. -/
def Returned (p : Place) (a : Arrival) (d : Operand) (ph : Bool) (w : Warp) : Prop :=
  RegsGet p.w w a.active d 1 fun _ => [if ph then 1#32 else 0#32]

section
variable {s : State} {p : Place} {a : Arrival} {b : Bar} {d : Operand} (h : ArrivalDue s p a b d)
include h

/-- An arrival that its barrier has taken in a state `u`, in which no warp has changed, writes its result. -/
theorem ArrivalDue.writes {u : State} (hu : u.warps = s.warps) (ph : Bool) :
    ∃ ws w, u.writeOp p a.active d (fun _ => [if ph then 1#32 else 0#32]) = { u with warps := ws }
      ∧ (∀ j, (ws.get? j).map (·.wake) = (s.warps.get? j).map (·.wake))
      ∧ ws.get? a.warp = some w ∧ Returned p a d ph w := by
  obtain ⟨hkey, hw⟩ := State.place?_warp h.place
  have hw' : u.warps.get? p.key = some p.w := by rw [hu, hkey, hw]
  obtain ⟨hrest, hwake, w, hget, hregs⟩ := writeOp_word hw' h.regs a.active (if ph then 1#32 else 0#32)
  exact ⟨_, w, hrest, fun j => (hwake j).trans (by rw [hu]), hkey ▸ hget, hregs⟩

/-- Where the phase is not complete then, that is the event. -/
theorem ArrivalDue.event_of_incomplete {u : State} {b' : Bar} {ph : Bool} (hu : u.warps = s.warps)
    (harr : arrive (s.arrivalsTaken a.bar) a = u.writeOp p a.active d fun _ => [if ph then 1#32 else 0#32])
    (hb : u.bars.get? a.bar = some b') (hc : ¬ b'.complete) :
    ∃ ws w, barrierArrival a.bar s = { u with warps := ws } ∧ ws.get? a.warp = some w ∧ Returned p a d ph w := by
  obtain ⟨ws, w, hrest, -, hresult⟩ := h.writes hu ph
  refine ⟨ws, w, ?_, hresult⟩
  rw [barrierArrival_arrives h.due h.exits, harr, hrest]
  exact phaseTest_incomplete (b := b') hb hc

/-- An arrival of a warp that has arrived. -/
theorem ArrivalDue.again (hw : a.warp ∈ b.arrived ∨ ∃ y ∈ b.late, y.warp = a.warp) :
    let t := barrierArrival a.bar s
    ∃ w, t = { s.arrivalsTaken a.bar with warps := t.warps, cores := t.cores }
      ∧ AtKey s.cores t.cores p.t.core { s.core p.t.core with barmis := (s.core p.t.core).barmis + 1#32 }
      ∧ t.warps.get? a.warp = some w ∧ Returned p a d b.ph w := by
  obtain ⟨ws, w, ht, hget, hres⟩ := h.event_of_incomplete (u := (s.arrivalsTaken a.bar).barmis p.t.core 1) rfl
    (arrive_again h.bar h.place h.st h.dst hw) h.bar h.incomplete
  rw [ht]
  exact ⟨w, rfl, atKey_barmis (s.arrivalsTaken a.bar) p.t.core 1, hget, hres⟩

/-- An arrival that finds every arrival counted. -/
theorem ArrivalDue.late (h1 : a.warp ∉ b.arrived) (h2 : ∀ y ∈ b.late, y.warp ≠ a.warp) (hc : b.cnt = b.expw) :
    let t := barrierArrival a.bar s
    ∃ w, t = { s.arrivalsTaken a.bar with warps := t.warps, bars := t.bars }
      ∧ AtKey s.bars t.bars a.bar { b with late := b.late ++ [⟨a.warp, a.e, p.t.core, a.path, false⟩] }
      ∧ t.warps.get? a.warp = some w ∧ Returned p a d (!b.ph) w := by
  have hbars := atKey_modify (fun b => b.withLate a p.t.core) h.bar
  obtain ⟨ws, w, ht, hget, hres⟩ := h.event_of_incomplete
    (u := (s.arrivalsTaken a.bar).modBar a.bar fun b => b.withLate a p.t.core) rfl
    (arrive_late h.bar h.place h.st h.dst h1 h2 hc) hbars.get? h.incomplete
  rw [ht]
  exact ⟨w, rfl, hbars, hget, hres⟩

section
variable (h1 : a.warp ∉ b.arrived) (h2 : ∀ y ∈ b.late, y.warp ≠ a.warp) (hc : b.cnt ≠ b.expw) (he : b.bexp + a.e < 2 ^ 24)
include h1 h2 hc he

/-- An arrival that is counted and leaves the phase incomplete. -/
theorem ArrivalDue.counts (hmore : ¬ (b.st = .armed ∧ b.cnt + 1 = b.expw ∧ b.bexp + a.e ≤ b.barr)) :
    let t := barrierArrival a.bar s
    ∃ w, AtKey s.bars t.bars a.bar { b with cnt := b.cnt + 1, arrived := b.arrived ++ [a.warp], bexp := b.bexp + a.e }
      ∧ t.arrivals = (s.arrivalsTaken a.bar).arrivals ∧ t.warps.get? a.warp = some w ∧ Returned p a d b.ph w := by
  have hbars := atKey_modify (fun b => b.withCounted a) h.bar
  rw [Bar.withCounted_eq he] at hbars
  obtain ⟨ws, w, ht, hget, hres⟩ := h.event_of_incomplete
    (u := ((s.arrivalsTaken a.bar).modBar a.bar fun b => b.withCounted a).barmis p.t.core 0) rfl
    (arrive_counts h.bar h.place h.st h.dst h1 h2 hc he) hbars.get? hmore
  rw [ht]
  exact ⟨w, hbars, rfl, hget, hres⟩

/-- An arrival that completes the phase releases the barrier. -/
theorem ArrivalDue.releases (hst : b.st = .armed) (hcnt : b.cnt + 1 = b.expw) (hbytes : b.bexp + a.e ≤ b.barr)
    (hl : b.late = []) :
    let t := barrierArrival a.bar s
    ∃ w, AtKey s.bars t.bars a.bar { b with
        st := .released, ph := !b.ph, cnt := 0, barr := 0, arrived := [], bexp := b.txb, relAt := s.clusterCc b.cluster }
      ∧ t.arrivals = (s.arrivalsTaken a.bar).arrivals ∧ t.warps.get? a.warp = some w ∧ Returned p a d b.ph w
      ∧ ∀ k ∈ b.group, ∀ y, t.warps.get? k = some y → (∀ lw ∈ y.wake, lw.2 ≠ .barrier b.idx ∧ lw.2 ≠ .bsync b.idx true)
        ∧ ∀ l, (s.warps.get? k).bind (·.wake.get? l) = some (.barrier b.idx) → y.wake.get? l = some (.released b.idx) := by
  have hbars := atKey_modify (fun b => b.withCounted a) h.bar
  rw [Bar.withCounted_eq he] at hbars
  obtain ⟨ws, w, hu, hwake, hget, hres⟩ :=
    h.writes (u := ((s.arrivalsTaken a.bar).modBar a.bar fun b => b.withCounted a).barmis p.t.core 0) rfl b.ph
  rw [barrierArrival_arrives h.due h.exits, arrive_counts (s := s.arrivalsTaken a.bar) h.bar h.place h.st h.dst h1 h2 hc he, hu]
  obtain ⟨hrest, hrel, hwarps⟩ := phaseTest_releases (k := a.bar)
    (s := { ((s.arrivalsTaken a.bar).modBar a.bar fun b => b.withCounted a).barmis p.t.core 0 with warps := ws })
    hbars.get? ⟨hst, hcnt, hbytes⟩ hl
  rw [hrest]
  refine ⟨_, hbars.trans hrel, rfl, (hwarps _).trans (by rw [hget]; rfl), hres.woken _ _, fun k hk y hy => ?_⟩
  obtain ⟨x, hx, rfl⟩ := Option.map_eq_some_iff.1 ((hwarps k).symm.trans hy)
  rw [if_pos (List.contains_iff_mem.2 hk)]
  exact ⟨wakeBarrier_ends hl k x, fun l hwaits => wakeBarrier_get? k (wake_get?_of_same (hwake k) hx hwaits)⟩

end

end

/-- The state of a barrier behind its release, below the limit of its bytes. -/
theorem Bar.released_eq {b : Bar} (cc : Nat) (h : b.txb + (b.late.map (·.e)).sum < 2 ^ 24) :
    b.released cc = { b with
      st := .released, ph := !b.ph, cnt := b.late.length, barr := 0, arrived := b.late.map (·.warp)
      bexp := b.txb + (b.late.map (·.e)).sum, relAt := cc, late := [] } := by
  rw [Bar.released, foldl_bytes _ _ h]

section
variable {s : State} {k : Nat} {b : Bar} (hb : s.bars.get? k = some b)
include hb

theorem barCc_eq : barCc s k = s.clusterCc b.cluster := by
  rw [barCc, hb]
  rfl

/-- A release counts what came for the next phase in it (07 R185). -/
theorem atKey_phaseTest (hc : b.complete) (he : b.txb + (b.late.map (·.e)).sum < 2 ^ 24) :
    AtKey s.bars (phaseTest s k).bars k { b with
      st := .released, ph := !b.ph, cnt := b.late.length, barr := 0, arrived := b.late.map (·.warp)
      bexp := b.txb + (b.late.map (·.e)).sum, relAt := s.clusterCc b.cluster, late := [] } := by
  have hbars := atKey_modify (fun x => x.released (s.clusterCc b.cluster)) hb
  rw [Bar.released_eq _ he] at hbars
  obtain ⟨cs, ht, -⟩ := phaseTest_complete hb hc
  rw [ht]
  exact hbars

/-- One cc behind its release a barrier is Armed again and the lanes that it woke may issue (07 R184, R187). -/
theorem releaseEnds_arms (hst : b.st = .released) (hcc : b.relAt < s.clusterCc b.cluster)
    (hc : ¬ (b.cnt = b.expw ∧ b.bexp ≤ b.barr)) :
    let t := releaseEnds k s
    t = { s with bars := t.bars, warps := t.warps } ∧ AtKey s.bars t.bars k { b with st := .armed }
    ∧ ∀ j, t.warps.get? j = (s.warps.get? j).map fun w => if b.group.contains j then w.endRelease b.idx else w := by
  have hbars := atKey_modify (fun b => { b with st := .armed }) hb
  have hdue : b.st = .released ∧ b.relAt < barCc s k := ⟨hst, by rwa [barCc_eq hb]⟩
  unfold releaseEnds
  simp only [hb, if_pos hdue]
  rw [phaseTest_incomplete (b := { b with st := .armed }) hbars.get? fun h => hc h.2]
  exact ⟨rfl, hbars, Tab.get?_mapV s.warps fun j w => if b.group.contains j then w.endRelease b.idx else w⟩

end

/-! ### Bytes of engine operations (07 R188, R189) -/

/-- A barrier to which bytes have come, up to BEXP. -/
def Bar.withBytes (b : Bar) (n : Nat) : Bar := { b with barr := Nat.min (b.barr + n) (Nat.max b.bexp b.barr) }

theorem Bar.withBytes_eq {b : Bar} (n : Nat) (h : b.barr ≤ b.bexp) :
    b.withBytes n = { b with barr := min (b.barr + n) b.bexp } := by
  have hmax : Nat.max b.bexp b.barr = b.bexp := Nat.max_eq_left h
  rw [Bar.withBytes, hmax]

section
variable {s : State} {k : Nat} {b : Bar} (hb : s.bars.get? k = some b) (hst : b.st = .armed)
  (he : ∀ m ∈ s.exits, m.bar = k → barCc s k < m.due) (ha : ∀ a ∈ s.arrivals, a.bar = k → barCc s k < a.due)
include hb hst he ha

/-- Bytes at an Armed barrier in a cc in which nothing else reaches it. -/
theorem barrierBytes_armed (core n : Nat) :
    barrierBytes s k core n
      = phaseTest ((s.barmis core (if b.bexp < b.barr + n then 1 else 0)).modBar k fun b => b.withBytes n) k := by
  unfold barrierBytes
  simp only [reachBarrier_none _ he ha, hb, hst, reduceCtorEq, false_and, if_false]
  rfl

variable (hle : b.barr ≤ b.bexp)
include hle

theorem barrierBytes_incomplete (core n : Nat) (hc : ¬ (b.cnt = b.expw ∧ b.bexp ≤ b.barr + n)) :
    let t := barrierBytes s k core n
    t = { s with bars := t.bars, cores := t.cores }
    ∧ AtKey s.cores t.cores core { s.core core with
        barmis := (s.core core).barmis + (if b.bexp < b.barr + n then 1#32 else 0#32) }
    ∧ AtKey s.bars t.bars k { b with barr := min (b.barr + n) b.bexp } := by
  have hbars := atKey_modify (fun b => b.withBytes n) hb
  rw [Bar.withBytes_eq n hle] at hbars
  have hcores := atKey_barmis s core (if b.bexp < b.barr + n then 1 else 0)
  rw [apply_ite (BitVec.ofNat 32)] at hcores
  have hmore : ¬ Bar.complete { b with barr := min (b.barr + n) b.bexp } := fun ⟨_, hcnt, hbytes⟩ =>
    hc ⟨hcnt, (Nat.le_min.1 hbytes).1⟩
  rw [barrierBytes_armed hb hst he ha, phaseTest_incomplete hbars.get? hmore]
  exact ⟨rfl, hcores, hbars⟩

/-- The last bytes of a phase whose arrivals are all there release the barrier. -/
theorem barrierBytes_complete (core n : Nat) (hcnt : b.cnt = b.expw) (hbytes : b.bexp ≤ b.barr + n) (hl : b.late = []) :
    let t := barrierBytes s k core n
    t = { s with bars := t.bars, cores := t.cores, warps := t.warps }
    ∧ AtKey s.cores t.cores core { s.core core with
        barmis := (s.core core).barmis + (if b.bexp < b.barr + n then 1#32 else 0#32) }
    ∧ AtKey s.bars t.bars k { b with
        st := .released, ph := !b.ph, cnt := 0, barr := 0, arrived := [], bexp := b.txb, relAt := s.clusterCc b.cluster } := by
  have hbars := atKey_modify (fun b => b.withBytes n) hb
  rw [Bar.withBytes_eq n hle] at hbars
  have hcores := atKey_barmis s core (if b.bexp < b.barr + n then 1 else 0)
  rw [apply_ite (BitVec.ofNat 32)] at hcores
  rw [barrierBytes_armed hb hst he ha]
  obtain ⟨hrest, hrel, -⟩ := phaseTest_releases
    (s := (s.barmis core (if b.bexp < b.barr + n then 1 else 0)).modBar k fun b => b.withBytes n) hbars.get?
    ⟨hst, hcnt, Nat.le_min.2 ⟨hbytes, Nat.le_refl _⟩⟩ hl
  rw [hrest]
  exact ⟨rfl, hcores, hbars.trans hrel⟩

end

/-! ### Exits (07 R190) -/

/-- A barrier that a warp has left. -/
def Bar.without (b : Bar) (warp : Nat) : Bar :=
  if b.all ∨ b.idx = 32 then
    { b with expw := b.expw - 1, cnt := if b.arrived.contains warp then b.cnt - 1 else b.cnt
             arrived := b.arrived.filter (· ≠ warp) }
  else b

theorem dropOut_eq (s : State) (bar warp : Nat) : dropOut s bar warp = s.modBar bar fun b => b.without warp := rfl

theorem Bar.without_eq {b : Bar} {warp : Nat} (hall : b.all = true ∨ b.idx = 32) (hw : warp ∉ b.arrived) :
    b.without warp = { b with expw := b.expw - 1 } := by
  have hkeeps : b.arrived.filter (· ≠ warp) = b.arrived :=
    List.filter_eq_self.2 fun x hx => decide_eq_true fun h : x = warp => hw (h ▸ hx)
  have hcount : ¬ b.arrived.contains warp = true := fun h => hw (List.contains_iff_mem.1 h)
  rw [Bar.without, if_pos hall, hkeeps, if_neg hcount]

/-- A warp that has not arrived leaves a barrier of every warp. -/
theorem exitReachesBarrier_leaves {s : State} {m : ExitMsg} {b : Bar}
    (he : (s.exits.filter fun y => decide (y.bar = m.bar) && decide (y.due ≤ barCc s m.bar)) = [m])
    (ha : ∀ a ∈ s.arrivals, a.bar = m.bar → barCc s m.bar < a.due) (hb : s.bars.get? m.bar = some b)
    (hall : b.all = true ∨ b.idx = 32) (hw : m.warp ∉ b.arrived)
    (hc : ¬ (b.st = .armed ∧ b.cnt = b.expw - 1 ∧ b.bexp ≤ b.barr)) :
    let t := exitReachesBarrier m.bar m.warp s
    t = { s with bars := t.bars, exits := s.exits.filter fun y => !(decide (y.bar = m.bar) && decide (y.due ≤ barCc s m.bar)) }
    ∧ AtKey s.bars t.bars m.bar { b with expw := b.expw - 1 } := by
  have hbars := atKey_modify (fun b => b.without m.warp) hb
  rw [Bar.without_eq hall hw] at hbars
  rw [exitReachesBarrier_drops he ha, dropOut_eq, phaseTest_incomplete (b := { b with expw := b.expw - 1 }) hbars.get? hc]
  exact ⟨rfl, hbars⟩

end Sys2Proof.Machine

open Sys2Proof Sys2Proof.Machine

/-- Settles O46: each event is a change of the one barrier followed by the completion test, which releases the barrier when
the phase is complete and else changes nothing. -/
theorem barrierEvents : Obligations.BarrierEvents := by
  unfold Obligations.BarrierEvents
  refine ⟨fun s p a b d hdue hexits hb hp hst hc hd hregs => ?_, fun s k b hb hst hcnt hbytes he => ?_,
    fun s k b hb hst hcc hc => ?_, fun s k b core n hb he ha hst hle => ?_, fun s m b he ha hb hall hw hc => ?_⟩
  · have h : ArrivalDue s p a b d := ⟨hdue, hexits, hb, hp, hst, hc, hd, hregs⟩
    refine ⟨fun hw => ?_, fun h1 h2 hcnt => ?_, fun h1 h2 hcnt he => ⟨fun hmore => ?_, fun harmed hlast hbytes hl => ?_⟩⟩
    · obtain ⟨w, hagain⟩ := h.again hw
      exact ⟨_, w, rfl, hagain⟩
    · obtain ⟨w, hlate⟩ := h.late h1 h2 hcnt
      exact ⟨_, w, rfl, hlate⟩
    · obtain ⟨w, hcounts⟩ := h.counts h1 h2 hcnt he hmore
      exact ⟨_, w, rfl, hcounts⟩
    · obtain ⟨w, hreleases⟩ := h.releases h1 h2 hcnt he harmed hlast hbytes hl
      exact ⟨_, w, rfl, hreleases⟩
  · exact atKey_phaseTest hb ⟨hst, hcnt, hbytes⟩ he
  · obtain ⟨hrest, hbars, hwarps⟩ := releaseEnds_arms hb hst hcc hc
    exact ⟨_, rfl, hrest, hbars, fun j => (hwarps j).trans (congrArg (fun f => (s.warps.get? j).map f)
      (funext fun _ => ite_congr (propext List.contains_iff_mem) (fun _ => rfl) fun _ => rfl))⟩
  · exact ⟨barrierBytes_incomplete hb hst he ha hle core n, barrierBytes_complete hb hst he ha hle core n⟩
  · exact ⟨_, rfl, exitReachesBarrier_leaves he ha hb hall hw hc⟩

end

/-! ## Walks, faults and the pager (08 R199 to R207, R491) -/

section

namespace Sys2Proof.Machine

/-! ### Bytes written and read back (00 R9; 11 R262) -/

theorem length_bytesLE (k n : Nat) : (bytesLE k n).length = k := by
  induction k generalizing n with
  | zero => rfl
  | succ k ih => rw [bytesLE, List.length_cons, ih]

theorem natLE_bytesLE (k n : Nat) : natLE (bytesLE k n) = n % 256 ^ k := by
  induction k generalizing n with
  | zero => exact (Nat.mod_one n).symm
  | succ k ih =>
    rw [bytesLE, natLE, ih, BitVec.toNat_ofNat, (Nat.pow_succ' : 256 ^ (k + 1) = 256 * 256 ^ k), Nat.mod_mul]

/-- Values written at successive keys are read back. -/
theorem sparse_read_fill {β : Type} [DecidableEq β] (d : β) (m : Sparse β) (k : Nat) (vs : List β) :
    Sparse.read d (Sparse.fill d m k vs) k vs.length = vs := by
  induction vs generalizing m k with
  | nil => rfl
  | cons v vs ih =>
    have hhead : Sparse.get d (Sparse.fill d (Sparse.set d m k v) (k + 1) vs) k = v := by
      rw [Sparse.get_fill, if_neg (by omega), Sparse.get_set, if_pos rfl]
    rw [Sparse.fill, List.length_cons, Sparse.read, hhead, ih]

/-! ### What a store at its point of coherence leaves (11 R265, R288; 15 R401) -/

/-- Warps lose reservations and waits, and nothing else. -/
def WaitsOnly (ws us : Tab Warp) : Prop :=
  ∀ k, ∃ v a, us.get? k = (ws.get? k).map fun w => { w with resv := v, wake := a }

/-- Gangs lose copies of lines, and nothing else. -/
def CopiesOnly (gs hs : Tab Gang) : Prop :=
  ∀ k, ∃ d b, hs.get? k = (gs.get? k).map fun g => { g with dirty := d, wb := b }

theorem waitsOnly_mapV (ws : Tab Warp) {f : Nat → Warp → Warp} (hf : ∀ k w, ∃ v a, f k w = { w with resv := v, wake := a }) :
    WaitsOnly ws (ws.mapV f) := fun k => by
  rw [Tab.get?_mapV]
  cases ws.get? k with
  | none => exact ⟨[], [], rfl⟩
  | some w =>
    obtain ⟨v, a, h⟩ := hf k w
    exact ⟨v, a, congrArg some h⟩

theorem WaitsOnly.refl (ws : Tab Warp) : WaitsOnly ws ws := fun k => by
  cases ws.get? k with
  | none => exact ⟨[], [], rfl⟩
  | some w => exact ⟨w.resv, w.wake, rfl⟩

theorem WaitsOnly.trans {ws us xs : Tab Warp} (h1 : WaitsOnly ws us) (h2 : WaitsOnly us xs) : WaitsOnly ws xs := fun k => by
  obtain ⟨v1, a1, h1⟩ := h1 k
  obtain ⟨v2, a2, h2⟩ := h2 k
  exact ⟨v2, a2, by rw [h2, h1, Option.map_map]; rfl⟩

theorem WaitsOnly.allRegsSame {s t : State} (h : WaitsOnly s.warps t.warps) : AllRegsSame s t := fun k => by
  obtain ⟨v, a, h⟩ := h k
  rw [h, Option.map_map]
  rfl

theorem dropResv_resv (line : Nat) (who : Option (Nat × Nat)) (k : Nat) (w : Warp) :
    ∃ v a, dropResv line who k w = { w with resv := v, wake := a } := by
  unfold dropResv
  split
  · exact ⟨_, w.wake, rfl⟩
  · exact ⟨w.resv, w.wake, rfl⟩

theorem wakeSigLine_waitsOnly (s : State) (line : Nat) : WaitsOnly s.warps (wakeSigLine s line).warps := by
  simp only [wakeSigLine]
  refine waitsOnly_mapV s.warps fun _ w => ?_
  split
  · exact ⟨w.resv, _, rfl⟩
  · exact ⟨w.resv, w.wake, rfl⟩

theorem State.takeLine_copiesOnly (s : State) (gid : Option Nat) (line : Nat) :
    CopiesOnly s.gangs (s.takeLine gid line).gangs := fun k => by
  unfold State.takeLine
  split
  · simp only [Tab.get?_mapV]
    cases s.gangs.get? k with
    | none => exact ⟨[], [], rfl⟩
    | some g =>
      by_cases hk : some k = gid
      · exact ⟨g.dirty, g.wb, congrArg some (if_pos hk)⟩
      · exact ⟨_, _, congrArg some (if_neg hk)⟩
  · cases s.gangs.get? k with
    | none => exact ⟨[], [], rfl⟩
    | some g => exact ⟨g.dirty, g.wb, rfl⟩

section
variable (s : State) (loc : Nat) (bs : List Byte) (who : Option (Nat × Nat)) (f : Filler) (gid : Option Nat)

theorem State.storeLoc_rest :
    let t := s.storeLoc loc bs who f gid
    t = { s with mem := t.mem, llc := t.llc, llcFills := t.llcFills, hbmOld := t.hbmOld, spoiled := t.spoiled
                 poisonLines := t.poisonLines, warps := t.warps, gangs := t.gangs } := by
  unfold State.storeLoc
  simp only
  rw [State.takeLine_rest, State.llcFill_rest]
  rfl

theorem State.storeLoc_waitsOnly : WaitsOnly s.warps (s.storeLoc loc bs who f gid).warps := by
  unfold State.storeLoc
  refine WaitsOnly.trans ?_ (wakeSigLine_waitsOnly _ _)
  rw [State.takeLine_rest, State.llcFill_rest]
  exact waitsOnly_mapV s.warps (dropResv_resv _ who)

theorem State.storeLoc_copiesOnly : CopiesOnly s.gangs (s.storeLoc loc bs who f gid).gangs := by
  have hgangs : (s.llcFill f (lineOf loc)).gangs = s.gangs := by rw [State.llcFill_rest]
  rw [← hgangs]
  exact State.takeLine_copiesOnly _ gid (lineOf loc)

/-- A store of part of a line leaves every poison mark (18 R448). -/
theorem State.storeLoc_poisonLines (h : bs.length ≠ 128) : (s.storeLoc loc bs who f gid).poisonLines = s.poisonLines := by
  unfold State.storeLoc
  simp only [if_neg h]
  rw [State.takeLine_rest, State.llcFill_rest]
  rfl

theorem State.storeLoc_sameBytesBut : SameBytesBut s (s.storeLoc loc bs who f gid) loc bs.length := fun x hx => by
  have hmem : (s.storeLoc loc bs who f gid).byteAt x = (s.memFill loc bs).byteAt x := by
    rw [State.byteAt, State.byteAt, State.storeLoc_mem]
  rw [hmem, State.byteAt_memFill, if_neg (by omega)]

/-- A 64-bit word that is stored is read back. -/
theorem State.storeLoc_memWord (x : DWord) : (s.storeLoc loc (bytesLE 8 x.toNat) who f gid).memWord loc = x := by
  have hread := sparse_read_fill 0#8 s.mem loc (bytesLE 8 x.toNat)
  rw [length_bytesLE] at hread
  have hword : x.toNat % 256 ^ 8 = x.toNat := Nat.mod_eq_of_lt x.isLt
  rw [State.memWord, State.memRead, State.storeLoc_mem, State.memFill, hread, natLE_bytesLE, hword, BitVec.ofNat_toNat, BitVec.setWidth_eq]

end

/-! ### TLBs (08 R201) -/

theorem tlbWays_pos (level : Nat) : tlbWays level ≠ 0 := by
  unfold tlbWays
  split
  · decide
  · split <;> decide

theorem tlbPut_head (t : List TlbEnt) (e : TlbEnt) : ∃ es, tlbPut t e = e :: es := by
  unfold tlbPut
  simp only [tlbTrim, if_pos, if_neg (tlbWays_pos e.level)]
  exact ⟨_, rfl⟩

/-- The trim of one set keeps what is found in others. -/
theorem find?_tlbTrim {q : TlbEnt → Bool} {at_ : Nat × Nat × Nat} (hq : ∀ x, q x = true → x.set ≠ at_) (n : Nat) (t : List TlbEnt) :
    (tlbTrim at_ n t).find? q = t.find? q := by
  induction t generalizing n with
  | nil => rfl
  | cons x t ih =>
    rw [tlbTrim]
    by_cases hx : x.set = at_
    · have hmiss : ¬ q x = true := fun h => hq x h hx
      rw [if_pos hx, List.find?_cons_of_neg hmiss]
      split
      · exact ih 0
      · rw [List.find?_cons_of_neg hmiss, ih]
    · rw [if_neg hx, List.find?_cons, List.find?_cons, ih]

/-- A filled entry is what its own TLB answers. -/
theorem find?_tlbPut_self (t : List TlbEnt) {e : TlbEnt} {lu : Nat × Nat} {ctx va : Nat} (h : e.hits lu ctx va = true) :
    (tlbPut t e).find? (fun x => x.hits lu ctx va) = some e := by
  obtain ⟨es, hes⟩ := tlbPut_head t e
  rw [hes]
  exact List.find?_cons_of_pos h

theorem TlbEnt.level_of_hits {x : TlbEnt} {lu : Nat × Nat} {ctx va : Nat} (h : x.hits lu ctx va = true) : x.level = lu.1 := by
  simp only [TlbEnt.hits, Bool.and_eq_true, decide_eq_true_eq] at h
  exact h.1.1.1

/-- A filled entry changes nothing in the TLBs of other levels. -/
theorem find?_tlbPut_ne (t : List TlbEnt) {e : TlbEnt} {lu : Nat × Nat} (ctx va : Nat) (h : e.level ≠ lu.1) :
    (tlbPut t e).find? (fun x => x.hits lu ctx va) = t.find? fun x => x.hits lu ctx va := by
  have hlevel : ∀ x : TlbEnt, x.hits lu ctx va = true → x.level ≠ e.level := fun x hx hl =>
    h (hl.symm.trans (TlbEnt.level_of_hits hx))
  have hmiss : ¬ e.hits lu ctx va = true := fun he => hlevel e he rfl
  simp only [tlbPut]
  rw [find?_tlbTrim (at_ := e.set) (fun x hx hset => hlevel x hx (congrArg Prod.fst hset)),
    List.find?_cons_of_neg (l := List.filter _ t) hmiss, List.find?_filter]
  congr 1
  funext x
  by_cases hx : x.hits lu ctx va = true
  · simp [hlevel x hx]
  · simp [hx]

section
variable (t : List TlbEnt) (ctx va size : Nat) (pte : DWord) (run : Option DWord) (srec : BitVec 512)

theorem tlbFill1_level (lu : Nat × Nat) :
    ∃ e : TlbEnt, tlbFill1 ctx va size pte run srec t lu = tlbPut t e ∧ e.level = lu.1 := by
  unfold tlbFill1
  cases run with
  | none => exact ⟨_, rfl, rfl⟩
  | some p =>
    by_cases h : lu.1 = 2
    · exact ⟨_, congrArg (tlbPut t) (if_pos h), h.symm⟩
    · exact ⟨_, congrArg (tlbPut t) (if_neg h), rfl⟩

/-- Outside the LLTLBs a walk fills the page itself (08 R202). -/
theorem tlbFill1_page {lu : Nat × Nat} (h : lu.1 ≠ 2) :
    tlbFill1 ctx va size pte run srec t lu = tlbPut t ⟨lu.1, lu.2, ctx, va / 2 ^ size, size, pte, srec⟩ := by
  unfold tlbFill1
  cases run with
  | none => rfl
  | some p => exact congrArg (tlbPut t) (if_neg h)

theorem find?_tlbFill1_ne {lu mu : Nat × Nat} (h : lu.1 ≠ mu.1) :
    (tlbFill1 ctx va size pte run srec t lu).find? (fun x => x.hits mu ctx va) = t.find? fun x => x.hits mu ctx va := by
  obtain ⟨e, he, hlevel⟩ := tlbFill1_level t ctx va size pte run srec lu
  rw [he]
  exact find?_tlbPut_ne t ctx va fun hl => h (hlevel.symm.trans hl)

/-- After a walk of a core its L1 TLB answers with the page walked. -/
theorem find?_coreTlbs_filled (core : Nat) :
    ((coreTlbs core).foldl (tlbFill1 ctx va size pte run srec) t).find? (fun x => x.hits (0, core) ctx va)
      = some ⟨0, core, ctx, va / 2 ^ size, size, pte, srec⟩ := by
  simp only [coreTlbs, List.foldl_cons, List.foldl_nil]
  rw [find?_tlbFill1_ne _ _ _ _ _ _ _ (by decide : (2 : Nat) ≠ 0), find?_tlbFill1_ne _ _ _ _ _ _ _ (by decide : (1 : Nat) ≠ 0),
    tlbFill1_page _ _ _ _ _ _ _ (by decide : (0 : Nat) ≠ 2)]
  exact find?_tlbPut_self t (by simp [TlbEnt.hits])

end

theorem tlbLookup_core {s : State} {core ctx va : Nat} {e : TlbEnt}
    (h : (s.paging.tlb.find? fun x => x.hits (0, core) ctx va) = some e) : tlbLookup s (coreTlbs core) ctx va = some e := by
  rw [tlbLookup, coreTlbs, List.findSome?_cons, h]

/-! ### Walks that end in a leaf (08 R199, R200) -/

/-- The entry as the walker leaves it: A set, and D for a write (08 R199). -/
def markedPte (pte : DWord) (acc : AccKind) : DWord := pte ||| (if accWrites acc then 0x60#64 else 0x20#64)

/-- The walker's update of an entry in memory. -/
def State.markEntry (s : State) (ctx ploc : Nat) (pte : DWord) (acc : AccKind) : State :=
  s.storeLoc ploc (bytesLE 8 (markedPte pte acc).toNat) none ⟨ctx, s.classOf ctx⟩

theorem walkEnd_leaf {s : State} {ctx va : Nat} {acc : AccKind} {c : Ctx} {pte : DWord} {size ploc l : Nat} {r : BitVec 512}
    (hc : s.ctxs.get? ctx = some c) (hva : canonicalVa va = true) (hleaf : walkFrom s c va = .leaf pte size ploc l)
    (hsurf : surfOf s c pte = some r) (hperm : permOk pte acc = true) : walkEnd s ctx va acc = .ok (pte, size, ploc, r) := by
  unfold walkEnd
  simp only [hc, hva, hleaf, hsurf, hperm, not_true_eq_false, if_false]

/-- A walk that finds a leaf updates the entry and fills the TLBs; a run takes the LLTLB's entry (08 R202). -/
theorem walk_ok {s : State} {us : List (Nat × Nat)} {ctx va : Nat} {acc : AccKind} {pte : DWord} {size ploc : Nat} {r : BitVec 512}
    (h : walkEnd s ctx va acc = .ok (pte, size, ploc, r)) :
    ∃ run, let u := s.markEntry ctx ploc pte acc
      walk s us ctx va acc = .ok ({ u with paging := { u.paging with
        tlb := us.foldl (tlbFill1 ctx va size (markedPte pte acc) run r) u.paging.tlb } }, leafXlat (markedPte pte acc) size va r) := by
  unfold walk
  rw [h]
  exact ⟨_, rfl⟩

theorem walkCompletes_ok {s u : State} {die core ctx : Nat} {va : DWord} {acc : AccKind} {x : Xlat} (hcore : core < 768)
    (hva : canonicalVa va.toNat = true) (h : walk s (coreTlbs core) ctx va.toNat acc = .ok (u, x)) :
    walkCompletes die core ctx va acc s = u := by
  unfold walkCompletes
  rw [if_neg (not_not_intro hva), if_pos hcore, h]

section
variable (s : State) (ctx ploc : Nat) (pte : DWord) (acc : AccKind)

theorem State.markEntry_rest :
    let u := s.markEntry ctx ploc pte acc
    u = { s with mem := u.mem, llc := u.llc, llcFills := u.llcFills, hbmOld := u.hbmOld, spoiled := u.spoiled
                 warps := u.warps, gangs := u.gangs } := by
  have hpart : (bytesLE 8 (markedPte pte acc).toNat).length ≠ 128 := by rw [length_bytesLE]; decide
  refine (s.storeLoc_rest ..).trans ?_
  rw [s.storeLoc_poisonLines _ _ _ _ _ hpart]
  rfl

theorem State.markEntry_memWord : (s.markEntry ctx ploc pte acc).memWord ploc = markedPte pte acc :=
  s.storeLoc_memWord ploc none _ none _

theorem State.markEntry_sameBytesBut : SameBytesBut s (s.markEntry ctx ploc pte acc) ploc 8 := by
  have h := s.storeLoc_sameBytesBut ploc (bytesLE 8 (markedPte pte acc).toNat) none ⟨ctx, s.classOf ctx⟩ none
  rwa [length_bytesLE] at h

end

/-- What a walk that finds a leaf leaves: the entry marked, the L1 TLB filled, the fault tables as they were. -/
theorem walkCompletes_leaf {s : State} (die : Nat) {core ctx : Nat} {va : DWord} {acc : AccKind} {pte : DWord} {size ploc : Nat}
    {r : BitVec 512} (hcore : core < 768) (hva : canonicalVa va.toNat = true)
    (hwalk : walkEnd s ctx va.toNat acc = .ok (pte, size, ploc, r)) :
    let t := walkCompletes die core ctx va acc s
    t = { s with mem := t.mem, paging := t.paging, llc := t.llc, llcFills := t.llcFills, hbmOld := t.hbmOld
                 spoiled := t.spoiled, warps := t.warps, gangs := t.gangs }
    ∧ WaitsOnly s.warps t.warps ∧ CopiesOnly s.gangs t.gangs ∧ t.memWord ploc = markedPte pte acc ∧ SameBytesBut s t ploc 8
    ∧ tlbLookup t (coreTlbs core) ctx va.toNat
      = some ⟨0, core, ctx, va.toNat / 2 ^ size, size, markedPte pte acc, r⟩
    ∧ t.paging.faults = s.paging.faults := by
  obtain ⟨run, hrun⟩ := walk_ok (us := coreTlbs core) hwalk
  have hrest := s.markEntry_rest ctx ploc pte acc
  have hpaging : (s.markEntry ctx ploc pte acc).paging = s.paging := by rw [hrest]
  simp only [walkCompletes_ok (die := die) hcore hva hrun]
  refine ⟨?_, s.storeLoc_waitsOnly _ _ _ _ _, s.storeLoc_copiesOnly _ _ _ _ _, s.markEntry_memWord _ _ _ _,
    s.markEntry_sameBytesBut _ _ _ _,
    tlbLookup_core (find?_coreTlbs_filled ..), congrArg Paging.faults hpaging⟩
  rw [hrest]

/-! ### New faults (08 R205, R206) -/

/-- A fault on a page of which the die has no entry takes a new one, if its table has room and no package on its way
was unreachable. -/
theorem joinFault_new {s : State} {die ctx : Nat} {va : DWord} (acc : AccKind) {kind : Nat} (level : Nat) (grid : Word)
    (hnew : ∀ ke ∈ s.paging.faults, ke.1 / 2 ^ 32 = die → ¬ (ke.2.ctx = ctx ∧ ke.2.va.toNat / 4096 = va.toNat / 4096))
    (hroom : (s.paging.faults.filter fun ke => decide (ke.1 / 2 ^ 32 = die)).length < 64)
    (hlost : kind = 2 → ∀ c, s.ctxs.get? ctx = some c → walkLost s c va.toNat = false) :
    let f := (s.die die).nextFnum
    joinFault s die ctx va acc kind level grid = some ({ s.modDie die fun d => { d with nextFnum := d.nextFnum + 1 } with
      paging := { s.paging with faults := s.paging.faults.put (faultKey die f) ⟨ctx, va, 1, acc, kind, level, grid, false⟩ } }, f) := by
  have hreached : ¬ (kind = 2 ∧ (s.ctxs.get? ctx).any (fun c => walkLost s c va.toNat) = true) := by
    rintro ⟨hkind, hany⟩
    obtain ⟨c, hc, hwalk⟩ := (Option.any_eq_true _ _).1 hany
    exact Bool.false_ne_true ((hlost hkind c hc).symm.trans hwalk)
  have hnone : ((s.paging.faults.filter fun ke => decide (ke.1 / 2 ^ 32 = die)).find? fun ke =>
      decide (ke.2.ctx = ctx ∧ ke.2.va.toNat / 4096 = va.toNat / 4096)) = none := by
    rw [List.find?_eq_none]
    intro ke hke
    obtain ⟨hmem, hdie⟩ := List.mem_filter.1 hke
    exact fun h => hnew ke hmem (of_decide_eq_true hdie) (of_decide_eq_true h)
  unfold joinFault
  simp only [if_neg hreached, hnone, if_neg (Nat.not_le.2 hroom)]
  rfl

/-! ### Replies of the pager (08 R207) -/

theorem freplyWord_retry (die : Nat) (fnum : Word) :
    freplyWord die false fnum = BitVec.ofNat 64 (die % 16 * 2 ^ 36 + fnum.toNat) := by
  simp only [freplyWord, Bool.false_eq_true, if_false, Nat.add_zero]

def EngOp.faultServed (die : Nat) (fnum : Word) (o : EngOp) : EngOp :=
  if o.fault = some (die, fnum) then { o with fault := none } else o

def Mloop.faultServed (die : Nat) (fnum : Word) (m : Mloop) : Mloop :=
  if m.fault = some (die, fnum) then { m with fault := none } else m

/-- FREPLY as the pager has written it. -/
def State.setFreply (s : State) (x : DWord) : State := { s with paging := { s.paging with freply := x } }

/-- The entry of a record is free, and what waited for it walks again. -/
def State.freeFault (s : State) (die : Nat) (fnum : Word) : State :=
  { s with
    paging := { s.paging with faults := s.paging.faults.del (faultKey die fnum) }
    warps := s.warps.mapV fun _ w => w.faultServed die fnum
    ops := s.ops.mapV fun _ o => o.faultServed die fnum
    mloops := s.mloops.mapV fun _ m => m.faultServed die fnum }

theorem freplyRetry_pending {s : State} {die : Nat} {fnum : Word} (hsvc : s.errs.svcFailed.all id = false)
    (hhas : s.paging.faults.has (faultKey die fnum) = true) :
    freplyRetry die fnum s = (s.setFreply (BitVec.ofNat 64 (die % 16 * 2 ^ 36 + fnum.toNat))).freeFault die fnum := by
  have hserved : ¬ s.errs.svcFailed.all id = true := Bool.eq_false_iff.1 hsvc
  -- For every reply, so that the kernel never compares the one written with the old register.
  have hpending (x : DWord) : ¬ ¬ (s.setFreply x).paging.faults.has (faultKey die fnum) = true := not_not_intro hhas
  rw [← freplyWord_retry]
  exact (if_neg hserved).trans (if_neg (hpending _))

/-- No access in the operand log and no fetch waits on a record that was answered. -/
theorem Warp.faultServed_lets_go (die : Nat) (fnum : Word) (w : Warp) :
    (∀ ke ∈ (w.faultServed die fnum).log, ∀ lf ∈ ke.2.faults, lf.2 ≠ (die, fnum))
    ∧ ∀ lw ∈ (w.faultServed die fnum).wake, ∀ a, lw.2 ≠ .fetch a die fnum := by
  refine ⟨fun ke hke lf hlf => ?_, fun lw hlw a ha => ?_⟩
  · obtain ⟨_, _, rfl⟩ := List.mem_map.1 hke
    exact of_decide_eq_true (List.mem_filter.1 hlf).2
  · have hkept := (List.mem_filter.1 hlw).2
    rw [ha] at hkept
    exact of_decide_eq_true hkept ⟨rfl, rfl⟩

theorem EngOp.faultServed_fault (die : Nat) (fnum : Word) (o : EngOp) : (o.faultServed die fnum).fault ≠ some (die, fnum) := by
  unfold EngOp.faultServed
  split
  · exact (Option.some_ne_none _).symm
  · assumption

theorem Mloop.faultServed_fault (die : Nat) (fnum : Word) (m : Mloop) : (m.faultServed die fnum).fault ≠ some (die, fnum) := by
  unfold Mloop.faultServed
  split
  · exact (Option.some_ne_none _).symm
  · assumption

/-- What a property of every changed value says of a table's listed values. -/
theorem forall_get?_mapV {β γ : Type} {q : γ → Prop} {f : β → γ} (hq : ∀ x, q (f x)) (t : Tab β) {k : Nat} (y : γ)
    (h : (t.mapV fun _ x => f x).get? k = some y) : q y := by
  rw [Tab.get?_mapV] at h
  obtain ⟨x, _, rfl⟩ := Option.map_eq_some_iff.1 h
  exact hq x

theorem State.freeFault_rest (s : State) (x : DWord) (die : Nat) (fnum : Word) :
    let t := (s.setFreply x).freeFault die fnum
    t = { s with paging := { s.paging with faults := s.paging.faults.del (faultKey die fnum), freply := x }
                 warps := t.warps, ops := t.ops, mloops := t.mloops } := rfl

theorem State.freeFault_allRegsSame (s : State) (x : DWord) (die : Nat) (fnum : Word) :
    AllRegsSame s ((s.setFreply x).freeFault die fnum) := fun k => by
  rw [State.freeFault, Tab.get?_mapV, Option.map_map]
  rfl

/-- After a retry nothing waits on the record. -/
theorem State.freeFault_lets_go (s : State) (x : DWord) (die : Nat) (fnum : Word) :
    let t := (s.setFreply x).freeFault die fnum
    (∀ k w, t.warps.get? k = some w → (∀ ke ∈ w.log, ∀ lf ∈ ke.2.faults, lf.2 ≠ (die, fnum))
        ∧ ∀ lw ∈ w.wake, ∀ a, lw.2 ≠ .fetch a die fnum)
    ∧ (∀ k o, t.ops.get? k = some o → o.fault ≠ some (die, fnum)) ∧ ∀ k m, t.mloops.get? k = some m → m.fault ≠ some (die, fnum) :=
  ⟨fun _ => forall_get?_mapV (Warp.faultServed_lets_go die fnum) s.warps,
    fun _ => forall_get?_mapV (q := fun o : EngOp => o.fault ≠ some (die, fnum)) (EngOp.faultServed_fault die fnum) s.ops,
    fun _ => forall_get?_mapV (q := fun m : Mloop => m.fault ≠ some (die, fnum)) (Mloop.faultServed_fault die fnum) s.mloops⟩

theorem freplyWord_hold (die : Nat) (fnum : Word) :
    freplyWord die true fnum = BitVec.ofNat 64 (die % 16 * 2 ^ 36 + 2 ^ 32 + fnum.toNat) := by
  simp only [freplyWord, if_true]

theorem freplyHold_served {s : State} (die : Nat) (fnum : Word) (hsvc : s.errs.svcFailed.all id = false) :
    freplyHold die fnum s = s.setFreply (BitVec.ofNat 64 (die % 16 * 2 ^ 36 + 2 ^ 32 + fnum.toNat)) := by
  have hserved : ¬ s.errs.svcFailed.all id = true := by rw [hsvc]; decide
  rw [← freplyWord_hold]
  exact if_neg hserved

/-! ### The fault ring (08 R206, R491) -/

/-- Positions of the ring are counted forward modulo 8,192. -/
theorem ring_distance (a b : BitVec 13) : (a.toNat + 8192 - b.toNat) % 8192 = (a - b).toNat := by
  have hb := b.isLt
  rw [BitVec.toNat_sub]
  congr 1
  omega

/-- One entry's record is written, unless it was, or the ring is full. -/
def emitFault (s : State) (ke : Nat × FaultEnt) : State :=
  let p := s.paging
  if ke.2.written ∨ (p.tail.toNat + 8192 - p.head.toNat) % 8192 = 4096 then s
  else
    let loc := locOf s.fused.pkg (p.ringBase.toNat % 2 ^ 39 + 32 * (p.tail.toNat % 4096))
    let s := s.storeLoc loc (bytesLE 32 (faultRecord (ke.1 / 2 ^ 32) (ke.1 % 2 ^ 32) ke.2)) none
    { s with paging := { s.paging with tail := p.tail + 1, faults := s.paging.faults.put ke.1 { ke.2 with written := true } } }

theorem emitFaults_eq (s : State) : emitFaults s = s.paging.faults.foldl emitFault s := rfl

theorem emitFault_keeps (s : State) (ke : Nat × FaultEnt) :
    (emitFault s ke).paging.head = s.paging.head ∧ WaitsOnly s.warps (emitFault s ke).warps := by
  unfold emitFault
  simp only
  split
  · exact ⟨rfl, .refl _⟩
  · refine ⟨?_, s.storeLoc_waitsOnly _ _ _ _ _⟩
    rw [State.storeLoc_rest]

theorem foldl_emitFault_keeps (es : List (Nat × FaultEnt)) (s : State) :
    (es.foldl emitFault s).paging.head = s.paging.head ∧ WaitsOnly s.warps (es.foldl emitFault s).warps := by
  induction es generalizing s with
  | nil => exact ⟨rfl, .refl _⟩
  | cons ke es ih =>
    obtain ⟨hhead, hwaits⟩ := emitFault_keeps s ke
    obtain ⟨hhead', hwaits'⟩ := ih (emitFault s ke)
    exact ⟨hhead'.trans hhead, hwaits.trans hwaits'⟩

theorem fringHeadWrite_within {s : State} {head : BitVec 13}
    (h : (head - s.paging.head).toNat ≤ (s.paging.tail - s.paging.head).toNat) :
    fringHeadWrite head s = emitFaults { s with paging := { s.paging with head := head } } := by
  unfold fringHeadWrite
  simp only [ring_distance, if_pos h]

theorem fringHeadWrite_outside {s : State} {head : BitVec 13}
    (h : (s.paging.tail - s.paging.head).toNat < (head - s.paging.head).toNat) : fringHeadWrite head s = s := by
  unfold fringHeadWrite
  simp only [ring_distance, if_neg (Nat.not_le.2 h)]

end Sys2Proof.Machine

open Sys2Proof Sys2Proof.Machine

/-- Settles O43: a walk's one store and the fill of the L1 TLB after it; the new entry of a fault; the replies by their
cases; the ring by what the writing of a held record keeps. -/
theorem pagingEvents : Obligations.PagingEvents := by
  unfold Obligations.PagingEvents
  refine ⟨fun s die core ctx va acc c pte size ploc l r hcore hc hva hleaf hsurf hperm => ?_,
    fun s die ctx va acc kind level grid hnew hroom hlost => ?_, fun s die fnum hhas hsvc => ?_,
    fun s die fnum hsvc => ?_, fun s head => ⟨fun hin => ?_, fun hout => ?_⟩⟩
  · obtain ⟨hrest, hwarps, hgangs, hword, hbytes, htlb, hfaults⟩ :=
      walkCompletes_leaf die hcore hva (walkEnd_leaf hc hva hleaf hsurf hperm)
    exact ⟨_, _, rfl, hrest, hwarps, hgangs, hword, hbytes, htlb, hword.symm, rfl, rfl, hfaults⟩
  · exact ⟨_, joinFault_new acc level grid hnew hroom hlost, rfl, fun j => Tab.get?_put s.paging.faults _ j _,
      congrArg Die.nextFnum ((Tab.getD_put s.dies die die _ _).trans (if_pos rfl))⟩
  · exact ⟨_, congrArg Host.Outcome.next (freplyRetry_pending hsvc hhas), s.freeFault_rest _ die fnum,
      s.freeFault_allRegsSame _ die fnum, s.freeFault_lets_go _ die fnum⟩
  · exact congrArg Host.Outcome.next (freplyHold_served die fnum hsvc)
  · obtain ⟨hhead, hwaits⟩ := foldl_emitFault_keeps s.paging.faults { s with paging := { s.paging with head := head } }
    exact ⟨_, congrArg Host.Outcome.next (fringHeadWrite_within hin), hhead, hwaits.allRegsSame⟩
  · exact congrArg Host.Outcome.next (fringHeadWrite_outside hout)

end

/-! ## Tempi, revolutions and operating classes (10 R241 to R259) -/

section

namespace Sys2Proof.Machine

/-! ### Tables that an event writes -/

theorem atKey_put {β : Type} (t : Tab β) (k : Nat) (v : β) : AtKey t (t.put k v) k v := fun j => Tab.get?_put t k j v

theorem State.modCore_atKey (s : State) (k : Nat) (f : Core → Core) :
    AtKey s.cores (s.modCore k f).cores k (f (s.core k)) := atKey_put _ _ _

theorem State.modCluster_atKey (s : State) (k : Nat) (f : Cluster → Cluster) :
    AtKey s.clusters (s.modCluster k f).clusters k (f (s.cluster k)) := atKey_put _ _ _

/-- A default that every key maps to itself stays the default. -/
theorem getD_mapV {β : Type} {f : Nat → β → β} {d : β} {k : Nat} (hd : f k d = d) (t : Tab β) :
    (t.mapV f).getD k d = f k (t.getD k d) := by
  rw [Tab.getD, Tab.getD, Tab.get?_mapV]
  cases t.get? k with
  | none => exact hd.symm
  | some _ => rfl

theorem getD_foldl_put {β : Type} (f : Nat → β) (ks : List Nat) (t : Tab β) (k : Nat) (d : β) :
    (ks.foldl (fun t j => t.put j (f j)) t).getD k d = if k ∈ ks then f k else t.getD k d := by
  induction ks generalizing t with
  | nil => rfl
  | cons j js ih =>
    rw [List.foldl_cons, ih, Tab.getD_put]
    by_cases hj : k = j
    · subst hj; simp
    · simp [hj]

/-! ### The critical order (10 R247, R248) -/

/-- The cc since which a warp waits for tempi. -/
def State.waitsSince (s : State) (k : Nat) : Nat := ((s.warps.get? k).bind (·.tempoSince)).getD 0

theorem insertCritical_perm (since : Nat → Nat) (w : Nat) (xs : List Nat) : (insertCritical since w xs).Perm (w :: xs) := by
  induction xs with
  | nil => exact .refl _
  | cons x xs ih =>
    rw [insertCritical]
    split
    · exact .refl _
    · exact (ih.cons x).trans (.swap w x xs)

/-- A warp that began to wait after all others goes last. -/
theorem insertCritical_last {since : Nat → Nat} {w : Nat} {xs : List Nat} (h : ∀ x ∈ xs, since x < since w) :
    insertCritical since w xs = xs ++ [w] := by
  induction xs with
  | nil => rfl
  | cons x xs ih =>
    obtain ⟨hx, hxs⟩ := List.forall_mem_cons.1 h
    rw [insertCritical, if_neg (by omega), ih hxs, List.cons_append]

theorem warpBecomesCritical_waited {s : State} {k since : Nat} {w : Warp} (hw : s.warps.get? k = some w)
    (hsince : w.tempoSince = some since) (hdue : since + 512 ≤ s.coreCc (s.warpCore k))
    (hout : k ∉ (s.core (s.warpCore k)).critical) :
    warpBecomesCritical k s = s.modCore (s.warpCore k) fun c =>
      { c with critical := insertCritical s.waitsSince k c.critical } := by
  simp only [warpBecomesCritical, hw, hsince]
  rw [if_neg]
  · rfl
  · rintro (hearly | hin)
    · omega
    · exact hout (List.contains_iff_mem.1 hin)

/-! ### Refills (10 R244, R252) -/

/-- What a core receives at the refill of cluster `k`: what would pass 64 is discarded. -/
def refilled (k q n : Nat) (c : Core) : Core :=
  if coreCluster n = k then { c with pool := min 64 (c.pool + q) } else c

/-- A core without an entry has a full pool. -/
theorem refilled_reset (k q n : Nat) : refilled k q n Core.reset = Core.reset := by
  have hfull : min 64 (Core.reset.pool + q) = 64 := Nat.min_eq_left (Nat.le_add_right 64 q)
  rw [refilled, hfull]
  exact ite_self _

theorem core_poolRefill (die cl n : Nat) (s : State) :
    (poolRefill die cl s).core n = refilled (die * 8 + cl) (dieQuota (s.die die).thermal s.power.q) n (s.core n) :=
  getD_mapV (refilled_reset _ _ n) s.cores

/-! ### The revolution (10 R241, R243, R259) -/

theorem allowance_eq (powerMw : Nat) (lic : List Nat) :
    allowance powerMw lic = (3000000 - (powerMw : Int)) * ((128 * lic.length : Nat) : Int) + (lic.sum : Nat) := by
  rw [allowance, List.sum_eq_foldl, Int.natCast_mul]
  rfl

/-- The demand W of the revolution that ends, in half milliwatts (10 R243). -/
def State.demandWeight2 (s : State) : Nat :=
  (s.cores.map fun kc => if kc.2.demandNow then classWeight2 (s.cluster (coreCluster kc.1)).cls else 0).foldl (· + ·) 0

/-- The licensed energies that the allowance counts (10 R241). -/
def State.nextLicensed (s : State) : List Nat := (licensedNow s :: s.power.licensed).take 8

theorem power_revolution (r : RevReading) (s : State) :
    (revolution r s).power = ⟨quota (allowance r.powerMw s.nextLicensed) (128 * s.nextLicensed.length) s.demandWeight2,
      s.hc / 256, s.nextLicensed⟩ := rfl

/-- The level by the ranges of 10 R259: between 95 °C and 100 °C, in the model's eighths 760 and 800, it keeps Normal and is
Reduced otherwise. -/
theorem thermalOf_eq (prev : Thermal) (t : Int) :
    thermalOf prev t = if 920 ≤ t then .minimum else if 800 ≤ t then .reduced else if t < 760 then .normal
      else if prev = .normal then .normal else .reduced := by
  unfold thermalOf
  by_cases h : t < 760
  · simp only [if_pos h, if_neg (Int.not_le.2 h)]
  · simp only [if_neg h, if_pos (Int.not_lt.1 h)]

theorem clusters_revolution (r : RevReading) (s : State) (k : Nat) :
    (revolution r s).clusters.get? k = (s.clusters.get? k).map fun c => { c with filled := 0 } :=
  Tab.get?_mapV (γ := Cluster) s.clusters (fun _ c => { c with filled := 0 }) k

theorem cores_revolution (r : RevReading) (s : State) (k : Nat) :
    (revolution r s).cores.get? k
      = (s.cores.get? k).map fun c => { c with demandPrev := c.demandNow, demandNow := false, drawn := 0 } :=
  Tab.get?_mapV (γ := Core) s.cores (fun _ c => { c with demandPrev := c.demandNow, demandNow := false, drawn := 0 }) k

theorem thermal_revolution (r : RevReading) (s : State) {d : Nat} (hd : d < 12) :
    ((revolution r s).die d).thermal = thermalOf (s.die d).thermal (r.dieTemp.getD d 0) := by
  have hput := getD_foldl_put (fun d => { s.die d with
    overBudget := dieOver s d, thermal := thermalOf (s.die d).thermal (r.dieTemp.getD d 0) }) (List.range 12) s.dies d Die.reset
  rw [if_pos (List.mem_range.2 hd)] at hput
  exact congrArg Die.thermal hput

/-- Where the minimum quota asks for more than the allowance, `%pwrflr` counts (10 R243). -/
theorem pwrflr_revolution (r : RevReading) (s : State) :
    (revolution r s).counters.pwrflr
      = if allowance r.powerMw s.nextLicensed < ((s.demandWeight2 * (128 * s.nextLicensed.length) : Nat) : Int)
        then s.counters.pwrflr + 1#32 else s.counters.pwrflr :=
  apply_ite HubCounters.pwrflr _ _ _

/-! ### Droops and ramps (10 R255 to R258) -/

theorem droopRationingEnds_due {s : State} {die cl since : Nat} (hlast : (s.cluster (die * 8 + cl)).lastDroop = some since)
    (hdue : since + 256 ≤ s.clusterCc (die * 8 + cl)) :
    droopRationingEnds die cl s = s.modCluster (die * 8 + cl) fun c => { c with lastDroop := none } := by
  rw [droopRationingEnds, hlast]
  exact if_pos hdue

theorem classVolt_eq (cls : BitVec 2) :
    classVolt cls = if cls = 0 then 600 else if cls = 1 then 680 else if cls = 2 then 750 else 850 := by
  revert cls
  decide

theorem voltTime_eq (a b : BitVec 2) :
    voltTime a b = 200 * (max (classVolt a) (classVolt b) - min (classVolt a) (classVolt b)) := by
  unfold voltTime
  omega

/-- Behind both ways of a ramp the clock has changed at `a`, and the ramp is over at `b`. -/
theorem rampEnds_over {s : State} {die cl : Nat} (hst : (s.cluster (die * 8 + cl)).st = .ramping)
    (hover : (s.cluster (die * 8 + cl)).rampAt + relockTime
      + voltTime (s.cluster (die * 8 + cl)).cls (s.cluster (die * 8 + cl)).target ≤ s.hc) :
    ∃ a b, rampEnds die cl s = s.modCluster (die * 8 + cl) fun c => (c.setClock a c.target).rampDone b := by
  simp only [rampEnds, hst, ne_eq, not_true, if_false, if_pos hover]
  exact ⟨_, _, rfl⟩

section
variable (c : Cluster) (a b : Nat)

theorem setClock_rest (cls : BitVec 2) :
    let r := c.setClock a cls
    r.clock = cls ∧ r = { c with ccBase := r.ccBase, hcBase := r.hcBase, clock := cls } := by
  unfold Cluster.setClock
  split
  next h => subst h; exact ⟨rfl, rfl⟩
  next => exact ⟨rfl, rfl⟩

theorem rampDone_values :
    let r := c.rampDone b
    r.cls = c.target ∧ r.clock = c.clock ∧ r.volt = classVolt c.target ∧ r.pend = none := by
  unfold Cluster.rampDone
  cases c.pend with
  | none => exact ⟨rfl, rfl, rfl, rfl⟩
  | some t => dsimp only; split <;> exact ⟨rfl, rfl, rfl, rfl⟩

theorem rampDone_pooled (h : c.pend = none ∨ c.pend = some c.target) : (c.rampDone b).st = .pooled := by
  rw [Cluster.rampDone]
  rcases h with h | h <;> rw [h]
  exact congrArg Cluster.st (if_pos rfl)

/-- A pending target that differs starts a new ramp (10 R257). -/
theorem rampDone_again {p : BitVec 2} (h : c.pend = some p) (hp : p ≠ c.target) :
    (c.rampDone b).st = c.st ∧ (c.rampDone b).target = p := by
  rw [Cluster.rampDone, h]
  simp only [if_neg hp, and_self]

/-- Its clock at the target, a ramp that is over leaves class, clock and voltage there. -/
theorem arrived_values :
    let r := (c.setClock a c.target).rampDone b
    r.cls = c.target ∧ r.clock = c.target ∧ r.volt = classVolt c.target ∧ r.pend = none := by
  obtain ⟨hclock, hrest⟩ := setClock_rest c a c.target
  have htarget : (c.setClock a c.target).target = c.target := by rw [hrest]
  obtain ⟨hcls, hclk, hvolt, hpend⟩ := rampDone_values (c.setClock a c.target) b
  exact ⟨hcls.trans htarget, hclk.trans hclock, hvolt.trans (congrArg classVolt htarget), hpend⟩

/-- It is pooled, or on its way to a pending target that differs. -/
theorem arrived_next :
    let r := (c.setClock a c.target).rampDone b
    (c.pend = none → r.st = .pooled)
    ∧ ∀ p, c.pend = some p → if p = c.target then r.st = .pooled else r.st = c.st ∧ r.target = p := by
  obtain ⟨-, hrest⟩ := setClock_rest c a c.target
  have hpend : (c.setClock a c.target).pend = c.pend := by rw [hrest]
  have hstate : (c.setClock a c.target).st = c.st := by rw [hrest]
  have htarget : (c.setClock a c.target).target = c.target := by rw [hrest]
  refine ⟨fun h => rampDone_pooled _ b (.inl (hpend.trans h)), fun p h => ?_⟩
  split
  next hp => exact rampDone_pooled _ b (.inr (by rw [hpend, htarget, h, hp]))
  next hp =>
    obtain ⟨hst, ht⟩ := rampDone_again _ b (hpend.trans h) fun hq => hp (hq.trans htarget)
    exact ⟨hst.trans hstate, ht⟩

end

end Sys2Proof.Machine

open Sys2Proof Sys2Proof.Machine

/-- Settles O44: the place of a warp in the critical order; the pools of one cluster; the levels and the quota of a
revolution; the cluster of an alarm, of a quiesce point and of a ramp's end. -/
theorem powerEvents : Obligations.PowerEvents := by
  unfold Obligations.PowerEvents
  refine ⟨fun s k w0 since hw hsince hdue hout => ?_, fun s die cl => ?_, fun s r => ?_,
    fun s die cl => ⟨?_, fun since hlast hdue => ?_, fun hst hquiet => ?_, fun hst hover => ?_⟩⟩
  · have hk : s.waitsSince k = since := by rw [State.waitsSince, hw, Option.bind_some, hsince, Option.getD_some]
    refine ⟨_, congrArg Host.Outcome.next (warpBecomesCritical_waited hw hsince hdue hout), rfl, ?_⟩
    simp only [State.core_modCore, if_true]
    exact ⟨State.modCore_atKey _ _ _, insertCritical_perm _ _ _,
      fun hlast => insertCritical_last fun j hj => Nat.lt_of_lt_of_eq (hlast j hj) hk.symm⟩
  · refine ⟨_, rfl, rfl, atKey_put _ _ _, fun n => (core_poolRefill die cl n s).trans ?_⟩
    cases (s.die die).thermal <;> rfl
  · refine ⟨_, rfl, rfl, ?_, clusters_revolution r s, cores_revolution r s, fun d hd => ?_, ?_⟩
    · rw [power_revolution, allowance_eq]
      rfl
    · exact (thermal_revolution r s hd).trans (thermalOf_eq _ _)
    · rw [pwrflr_revolution, allowance_eq]
      rfl
  · exact ⟨_, rfl, rfl, State.modCluster_atKey _ _ _⟩
  · exact ⟨_, congrArg Host.Outcome.next (droopRationingEnds_due hlast hdue), rfl, State.modCluster_atKey _ _ _⟩
  · exact ⟨_, congrArg Host.Outcome.next (if_pos ⟨hst, hquiet⟩), rfl, State.modCluster_atKey _ _ _⟩
  · have hway : (s.cluster (die * 8 + cl)).rampAt + relockTime
        + voltTime (s.cluster (die * 8 + cl)).cls (s.cluster (die * 8 + cl)).target ≤ s.hc := by
      rw [voltTime_eq, classVolt_eq, classVolt_eq]
      exact hover
    obtain ⟨a, b, hramp⟩ := rampEnds_over hst hway
    obtain ⟨hcls, hclock, hvolt, hpend⟩ := arrived_values (s.cluster (die * 8 + cl)) a b
    obtain ⟨hpooled, hagain⟩ := arrived_next (s.cluster (die * 8 + cl)) a b
    refine ⟨_, congrArg Host.Outcome.next hramp, rfl, fun j hj => Tab.get?_put_ne _ _ hj, ?_⟩
    simp only [State.cluster_modCluster, if_true]
    refine ⟨hcls, hclock, hvolt.trans (classVolt_eq _), hpend, ?_⟩
    cases hp : (s.cluster (die * 8 + cl)).pend with
    | none => exact hpooled hp
    | some p => rw [← hst]; exact hagain p hp

end

/-! ## Ternary dot products and streams (14 R374 to R376; 02 R74 to R77) -/

section

namespace Sys2Proof.Machine

/-! ### Elements of words -/

theorem splitElems_eq (w n : Nat) (ws : List Word) :
    splitElems w n (wordsNat ws) = (List.range n).map fun e => (elemBits w e ws).toNat :=
  List.map_congr_left fun _ _ => (BitVec.toNat_ofNat _ _).symm

theorem elemsOf_t2 (ws : List Word) : elemsOf .t2 ws = (List.range 16).map fun j => (elemBits 2 j ws).toNat :=
  splitElems_eq 2 16 ws

/-- An element of a signed type as the type reads it. -/
theorem intOf_toNat {t : Ty} (ht : t.signed = true) (x : BitVec t.width) : intOf t x.toNat = x.toInt := by
  have hw : 2 ^ t.width = 2 * 2 ^ (t.width - 1) := by cases t <;> rfl
  rw [intOf, ht, Bool.true_and, BitVec.toInt_eq_toNat_cond]
  by_cases h : 2 ^ (t.width - 1) ≤ x.toNat
  · rw [if_pos (decide_eq_true h), if_neg (by omega)]
    norm_cast
  · rw [if_neg (by simpa using h), if_pos (by omega)]

theorem intOf_i8 (x : BitVec 8) : intOf .i8 x.toNat = x.toInt := intOf_toNat (t := .i8) rfl x

theorem intOf_i32 (x : Word) : intOf .i32 x.toNat = x.toInt := intOf_toNat (t := .i32) rfl x

theorem map_intOf_i8 (ws : List Word) :
    (elemsOf .i8 ws).map (intOf .i8) = (List.range 4).map fun e => (elemBits 8 e ws).toInt := by
  rw [show elemsOf .i8 ws = _ from splitElems_eq 8 4 ws, List.map_map]
  exact List.map_congr_left fun e _ => intOf_i8 (elemBits 8 e ws)

theorem wordsNat_lt (ws : List Word) : wordsNat ws < 2 ^ (32 * ws.length) := by
  induction ws with
  | nil => exact Nat.one_pos
  | cons x xs ih =>
    have hx := x.isLt
    rw [wordsNat, List.length_cons, Nat.mul_succ, Nat.pow_add]
    omega

theorem length_packElems (t : Ty) (es : List Nat) : (packElems t es).length = t.regs := by
  unfold packElems Ty.regs
  split <;> rfl

/-- A source supplies no more words than the registers that it takes (01 R37, R40). -/
theorem length_opWordsOf_le (s : State) (p : Place) (l : Nat) (t : Ty) (o : Operand) (skip : Nat) :
    (opWordsOf s p l (srcOf t o) skip).length ≤ t.regs := by
  cases o with
  | v _ | s _ => exact Nat.le_of_eq ((List.length_map _).trans List.length_range)
  | port _ => exact List.length_take_le _ _
  | spec _ => exact regs_pos t
  | imm _ => exact Nat.le_of_eq (length_packElems t _)

/-- What is shown of a computation's result may use where its words come from. -/
theorem Computes.imp_vals {ins : Instr} {f : Form} {price : Nat}
    {R R' : Place → Nat → List (List Word) → List Word → Counts → Prop} (h : Computes ins f price R)
    (himp : ∀ s p l ws ev, R p l (srcVals s p l [] f.srcs) ws ev → R' p l (srcVals s p l [] f.srcs) ws ev) :
    Computes ins f price R' := by
  intro s p i hi hr hp
  obtain ⟨t, val, ev, hexec, hcomp, hval⟩ := h s p i hi hr hp
  exact ⟨t, val, ev, hexec, hcomp, fun l hl => ⟨(hval l hl).1, himp s p _ _ _ (hval l hl).2⟩⟩

/-! ### Ternary dot products (14 R374; 02 R83, R87) -/

theorem t2Val_toNat (x : BitVec 2) : t2Val x.toNat = if x = 1#2 then 1 else if x = 3#2 then -1 else 0 := by
  revert x
  decide

theorem t2Bad_elems (ws : List Word) :
    t2Bad (elemsOf .t2 ws) = ((List.range 16).filter fun j => elemBits 2 j ws = 2#2).length := by
  rw [t2Bad, elemsOf_t2, List.filter_map, List.length_map]
  refine congrArg (fun q => ((List.range 16).filter q).length) (funext fun j => decide_eq_decide.2 ?_)
  exact BitVec.toNat_inj (y := 2#2)

/-- One addition of 32 bits and the wraps so far. -/
def addWord (a : Word × Nat) (y : Int) : Word × Nat :=
  let x := a.1.toInt + y
  (BitVec.ofInt 32 x, a.2 + if x < -(2 ^ 31) ∨ 2 ^ 31 ≤ x then 1 else 0)

theorem addWrap_toInt (c : Word) (y : Int) : addWrap c.toInt y = ((addWord (c, 0) y).1.toInt, (addWord (c, 0) y).2) := by
  have hwrap : intOf .i32 (wrapTo 32 (c.toInt + y)) = (BitVec.ofInt 32 (c.toInt + y)).toInt := by
    rw [← intOf_i32 (BitVec.ofInt 32 _), BitVec.toNat_ofInt]
    rfl
  have hrange : (BitVec.ofInt 32 (c.toInt + y)).toInt = c.toInt + y
      ↔ ¬ (c.toInt + y < -(2 ^ 31) ∨ 2 ^ 31 ≤ c.toInt + y) := by
    rw [BitVec.toInt_ofInt, Int.bmod_def]
    omega
  rw [addWrap, hwrap, addWord, Nat.zero_add]
  by_cases h : c.toInt + y < -(2 ^ 31) ∨ 2 ^ 31 ≤ c.toInt + y
  · rw [if_pos h, if_neg fun he => hrange.1 he h]
  · rw [if_neg h, if_pos (hrange.2 h)]

/-- Additions one after the other, each wrapping, give the wrapped sum. -/
theorem foldl_addWord_fst (ys : List Int) (a : Word × Nat) : (ys.foldl addWord a).1 = a.1 + BitVec.ofInt 32 ys.sum := by
  induction ys generalizing a with
  | nil => exact (BitVec.add_zero a.1).symm
  | cons y ys ih =>
    rw [List.foldl_cons, ih, List.sum_cons, BitVec.ofInt_add, ← BitVec.add_assoc, addWord, BitVec.ofInt_add,
      BitVec.ofInt_toInt]

/-- The accumulation of the model is that of 32-bit words. -/
theorem foldl_addWrap (ys : List Int) (a : Word × Nat) :
    ys.foldl (fun (acc : Int × Nat) y => ((addWrap acc.1 y).1, acc.2 + (addWrap acc.1 y).2)) (a.1.toInt, a.2)
      = ((ys.foldl addWord a).1.toInt, (ys.foldl addWord a).2) := by
  induction ys generalizing a with
  | nil => rfl
  | cons y ys ih =>
    rw [List.foldl_cons, List.foldl_cons, ← ih (addWord a y), addWrap_toInt]
    simp only [addWord, Nat.zero_add]

/-- The product of weight j and activation j. -/
def ternTerm (ws xs : List Word) (j : Nat) : Int :=
  (if elemBits 2 j ws = 1#2 then 1 else if elemBits 2 j ws = 3#2 then -1 else 0) * (elemBits 8 j xs).toInt

theorem tdotSum_elems (ws xs : List Word) (c : Word) :
    tdotSum (elemsOf .t2 ws) (splitElems 8 16 (wordsNat xs)) c.toInt
      = let r := ((List.range 16).map (ternTerm ws xs)).foldl addWord (c, 0); (r.1.toInt, r.2) := by
  have hterm (j : Nat) : t2Val (elemBits 2 j ws).toNat * intOf .i8 (elemBits 8 j xs).toNat = ternTerm ws xs j := by
    rw [t2Val_toNat, intOf_i8, ternTerm]
  rw [tdotSum, elemsOf_t2, splitElems_eq, List.zip_map', List.foldl_map]
  simp only [hterm]
  rw [← foldl_addWrap, List.foldl_map]

/-- `tdot` of a lane, its addend one word. -/
theorem tdotLane_eq {vs : List (List Word)} (hc : (vs.getD 2 []).length ≤ 1) :
    tdotLane vs =
      let c : Word := BitVec.ofNat 32 (wordsNat (vs.getD 2 []))
      let r := ((List.range 16).map (ternTerm (vs.getD 0 []) (vs.getD 1 []))).foldl addWord (c, 0)
      ([r.1], ⟨0, ((List.range 16).filter fun j => elemBits 2 j (vs.getD 0 []) = 2#2).length, r.2, 0⟩) := by
  have hlt : wordsNat (vs.getD 2 []) < 2 ^ 32 :=
    Nat.lt_of_lt_of_le (wordsNat_lt _) (Nat.pow_le_pow_right Nat.two_pos (by omega))
  have haddend := intOf_i32 (BitVec.ofNat 32 (wordsNat (vs.getD 2 [])))
  rw [BitVec.toNat_ofNat, Nat.mod_eq_of_lt hlt] at haddend
  rw [tdotLane, t2Bad_elems, haddend]
  simp only [tdotSum_elems, BitVec.ofInt_toInt]

/-! ### Stochastic products (14 R375; 02 R77, R88) -/

theorem zipIdx_map_range {α : Type} (f : Nat → α) (n : Nat) :
    ((List.range n).map f).zipIdx = (List.range n).map fun e => (f e, e) := by
  refine List.ext_getElem (by simp) fun e _ _ => ?_
  simp

theorem streamMul_eq (n key xa ya xb yb : Nat) (a b : Int) :
    streamMul n key xa ya xb yb a b =
      let c : Int := streamOnes n (streamMag n a) (streamMag n b) (2 ^ n) (streamSeed key xa ya 0) (streamSeed key xb yb 1)
      if (a < 0) = (b < 0) then c else -c := by
  simp only [streamMul, bne_iff_ne, ne_eq, decide_eq_decide, ite_not, eq_iff_iff]

theorem smulLane_eq (key n l : Nat) (vs : List (List Word)) :
    smulLane key n l vs = [BitVec.ofInt 32 ((List.range 4).map fun e =>
      streamMul n key l e l e (elemBits 8 e (vs.getD 0 [])).toInt (elemBits 8 e (vs.getD 1 [])).toInt).sum] := by
  rw [smulLane]
  simp only [map_intOf_i8, List.zip_map', zipIdx_map_range, List.foldl_map]
  rw [List.sum_eq_foldl, List.foldl_map]

/-! ### The bits of a stream (14 R376; 02 R75, R76) -/

theorem headD_eq_getD (ws : List Word) : ws.headD 0#32 = ws.getD 0 0#32 := by cases ws <;> rfl

theorem lfsrAt_add (taps i t s : Nat) : lfsrAt taps (i + t) s = lfsrAt taps t (lfsrAt taps i s) := by
  induction i generalizing s with
  | zero => rw [Nat.zero_add]; rfl
  | succ i ih => rw [Nat.add_right_comm]; exact ih _

/-- Bit t of the word that a run of m steps from index i gives. -/
theorem testBit_sgen_go (n k taps m i s : Nat) {t : Nat} (ht : t < m) :
    (sgenLane.go n k taps m i s).testBit t = (decide (i + t < 2 ^ n) && streamBit n k (lfsrAt taps t s)) := by
  induction m generalizing i s t with
  | zero => omega
  | succ m ih =>
    rw [sgenLane.go]
    cases t with
    | zero =>
      change _ = (decide (i < 2 ^ n) && streamBit n k s)
      rw [Nat.testBit_zero]
      split
      next h => rw [h]; simp
      next h => rw [Bool.eq_false_iff.2 h]; simp
    | succ t =>
      have hhalf (b g : Nat) (hb : b < 2) : (b + 2 * g) / 2 = g := by omega
      rw [Nat.testBit_succ, hhalf _ _ (by split <;> omega), ih _ _ (by omega), Nat.add_right_comm, Nat.add_assoc]
      rfl

theorem intOf_low_byte (w : Word) : intOf .i8 (bits w 7 0) = (w.setWidth 8).toInt := by
  rw [BitVec.setWidth_eq_extractLsb' (by omega)]
  exact intOf_i8 (w.extractLsb' 0 8)

theorem getLsbD_sgenLane (key n l : Nat) (w : Word) {t : Nat} (ht : t < 32) :
    (sgenLane key n l w).getLsbD t = (decide (bits w 31 16 + t < 2 ^ n)
      && streamBit n (streamMag n (w.setWidth 8).toInt)
        (lfsrAt (lfsrTaps (bits w 8 8)) (bits w 31 16 + t) (streamSeed key l (bits w 10 9) (bits w 8 8)))) := by
  simp only [sgenLane, BitVec.getLsbD_ofNat, ht, decide_true, Bool.true_and, intOf_low_byte]
  rw [testBit_sgen_go _ _ _ _ _ _ ht, lfsrAt_add]

end Sys2Proof.Machine

open Sys2Proof Sys2Proof.Machine

/-- Settles O14: the addend of `tdot` is one word, so that its additions are additions of words; the products and the bits
element by element. -/
theorem ternaryAndStreams : Obligations.TernaryAndStreams := by
  unfold Obligations.TernaryAndStreams
  refine ⟨fun x _ => ?_, fun x _ => ?_, fun x _ => ?_⟩
  · have hlane : Computes (.tdot x) x.form 2 fun _ _ vs ws ev => (ws, ev) = tdotLane vs :=
      computes_of_runAlu (fun _ => rfl) (fun _ _ _ => rfl) fun _ _ _ => rfl
    refine hlane.imp_vals fun s p l ws ev heq => ?_
    have hc : ((srcVals s p l [] x.form.srcs).getD 2 []).length ≤ 1 := length_opWordsOf_le s p l .i32 x.c _
    rw [tdotLane_eq hc] at heq
    obtain ⟨rfl, rfl⟩ := Prod.mk.inj heq
    refine ⟨?_, ?_, rfl, rfl, rfl⟩
    · rw [foldl_addWord_fst]; rfl
    · rw [List.foldl_map]; rfl
  · refine computes_of_runAlu (fun _ => rfl) (fun _ _ _ => rfl) fun p l vs => ⟨rfl, ?_⟩
    rw [smulLane_eq]
    simp only [streamMul_eq]
    rfl
  · refine computes_of_runAlu (fun _ => rfl) (fun _ _ _ => rfl) fun p l vs => ⟨rfl, _, rfl, fun t ht => ?_⟩
    rw [getLsbD_sgenLane _ _ _ _ ht, headD_eq_getD]
    rfl

end
